-- ==== Sys2Proof/Word.lean ====
section
/-! DEFINITION. The two word types of the engine: bytes and 32-bit words (input words, registers, table entries). -/

namespace Sys2Proof

/-- One byte of the platform's memory (00_scope.md R10). -/
abbrev Byte := BitVec 8

/-- A 32-bit value: an input word, a register, a decode-table entry (00_scope.md R5: WORD_W = ENTRY_W = 32). -/
abbrev Word := BitVec 32

end Sys2Proof
end

