-- ==== Sys2Proof/Syntax.lean ====
section
/-! DEFINITION. The instructions: one constructor per row of spec/opcode_table.json, and the seven formats they come in. -/

namespace Sys2Proof

/-- The syntactic contexts an element is read in (30_encoding.md R89 to R93, 45_host.md R240).
The context is the machine's state, not part of the element's bits. -/
inductive Format where
  | ctrl | bhdr | dcounts | prelen | presym | llsym | offsym
  deriving DecidableEq, Repr

/-- One constructor per row of the opcode table; operands are the bits the row's symbol does not fix. -/
inductive Instr where
  /-- CTRL write with START set (45_host.md R240, R241); `ack` is bit 1 (ignored), `irqEn` bit 2, `rsv` bits 31:3 (ignored). -/
  | ctrlStart (ack irqEn : Bool) (rsv : BitVec 29)
  /-- CTRL write with ACK set and START clear (R242). -/
  | ctrlAck (irqEn : Bool) (rsv : BitVec 29)
  /-- CTRL write with neither: it only writes IRQ_EN (R240). -/
  | ctrlIrqEn (irqEn : Bool) (rsv : BitVec 29)
  /-- Block header, block type 0 (R174); `final` is isFinalBlock (30_encoding.md R89). -/
  | bhdrStored (final : Bool)
  /-- Block header, block type 1 (R186); `final` is isFinalBlock (30_encoding.md R89). -/
  | bhdrStatic (final : Bool)
  /-- Block header, block type 2 (R176); `final` is isFinalBlock (30_encoding.md R89). -/
  | bhdrDynamic (final : Bool)
  /-- Block header, block type 3 (R175); `final` is isFinalBlock (30_encoding.md R89). -/
  | bhdrReserved (final : Bool)
  /-- Dynamic counts, as the values the fields stand for: 257..288, 1..32, 4..19 (30_encoding.md R90). -/
  | dcounts (hlit hdist hclen : Nat)
  /-- One 3-bit precode length, for symbol PERM[pi] (30_encoding.md R91). -/
  | prelen (len : BitVec 3)
  /-- Precode symbols 0..15: one explicit codeword length (42_block_control.md R180). -/
  | presymLen0
  | presymLen1
  | presymLen2
  | presymLen3
  | presymLen4
  | presymLen5
  | presymLen6
  | presymLen7
  | presymLen8
  | presymLen9
  | presymLen10
  | presymLen11
  | presymLen12
  | presymLen13
  | presymLen14
  | presymLen15
  /-- Precode symbol 16, repeat the previous length (R181). -/
  | presymRep16 (extra : BitVec 2)
  /-- Precode symbol 17, short zero run (R182). -/
  | presymZero17 (extra : BitVec 3)
  /-- Precode symbol 18, long zero run (R183). -/
  | presymZero18 (extra : BitVec 7)
  /-- Litlen symbols 0..255 (43_symbol_decode.md R202). -/
  | llLiteral (byte : Byte)
  /-- Litlen symbol 256, end of block (R204). -/
  | llEob
  /-- Litlen symbols 257..287: record a match of length base + extra (30_encoding.md R96, 43_symbol_decode.md R205). -/
  | llLen257
  | llLen258
  | llLen259
  | llLen260
  | llLen261
  | llLen262
  | llLen263
  | llLen264
  | llLen265 (extra : BitVec 1)
  | llLen266 (extra : BitVec 1)
  | llLen267 (extra : BitVec 1)
  | llLen268 (extra : BitVec 1)
  | llLen269 (extra : BitVec 2)
  | llLen270 (extra : BitVec 2)
  | llLen271 (extra : BitVec 2)
  | llLen272 (extra : BitVec 2)
  | llLen273 (extra : BitVec 3)
  | llLen274 (extra : BitVec 3)
  | llLen275 (extra : BitVec 3)
  | llLen276 (extra : BitVec 3)
  | llLen277 (extra : BitVec 4)
  | llLen278 (extra : BitVec 4)
  | llLen279 (extra : BitVec 4)
  | llLen280 (extra : BitVec 4)
  | llLen281 (extra : BitVec 5)
  | llLen282 (extra : BitVec 5)
  | llLen283 (extra : BitVec 5)
  | llLen284 (extra : BitVec 5)
  | llLen285
  | llLen286
  | llLen287
  /-- Offset symbols 0..31: the distance base + extra of the lane's pending match (30_encoding.md R97, 44_match_copy.md R220). -/
  | offDist0
  | offDist1
  | offDist2
  | offDist3
  | offDist4 (extra : BitVec 1)
  | offDist5 (extra : BitVec 1)
  | offDist6 (extra : BitVec 2)
  | offDist7 (extra : BitVec 2)
  | offDist8 (extra : BitVec 3)
  | offDist9 (extra : BitVec 3)
  | offDist10 (extra : BitVec 4)
  | offDist11 (extra : BitVec 4)
  | offDist12 (extra : BitVec 5)
  | offDist13 (extra : BitVec 5)
  | offDist14 (extra : BitVec 6)
  | offDist15 (extra : BitVec 6)
  | offDist16 (extra : BitVec 7)
  | offDist17 (extra : BitVec 7)
  | offDist18 (extra : BitVec 8)
  | offDist19 (extra : BitVec 8)
  | offDist20 (extra : BitVec 9)
  | offDist21 (extra : BitVec 9)
  | offDist22 (extra : BitVec 10)
  | offDist23 (extra : BitVec 10)
  | offDist24 (extra : BitVec 11)
  | offDist25 (extra : BitVec 11)
  | offDist26 (extra : BitVec 12)
  | offDist27 (extra : BitVec 12)
  | offDist28 (extra : BitVec 13)
  | offDist29 (extra : BitVec 13)
  | offDist30 (extra : BitVec 14)
  | offDist31 (extra : BitVec 14)
  deriving DecidableEq, Repr

end Sys2Proof
end

