-- ==== Sys2Proof/WellFormed.lean ====
section
/-! DEFINITION. Which instructions an encoding exists for: the counts' ranges; every other operand's type is its range. -/

namespace Sys2Proof

/-- The ranges of the dynamic counts (30_encoding.md R90): 257..288, 1..32, 4..19.
Every other operand is a bit field of exactly its width. -/
def Instr.wellFormed : Instr → Bool
  | .dcounts hlit hdist hclen =>
    decide (257 ≤ hlit) && decide (hlit ≤ 288) && decide (1 ≤ hdist) && decide (hdist ≤ 32)
      && decide (4 ≤ hclen) && decide (hclen ≤ 19)
  | _ => true

end Sys2Proof
end

