-- ==== Sys2Proof/Decode.lean ====
section
/-! DEFINITION. Decoding an element's bits in its format, rejecting by name, and the encoder.

An element word is numbered as spec/opcode_table.json numbers it: the CTRL value, the fixed field, or the DECODED symbol in the
low bits (5 for precode and offset symbols, 9 for litlen symbols) with the element's extra bits right above them (DESIGN CHOICE,
log 18: the table numbers no extra bits). How a codeword of the stream becomes a symbol is LOOKUP (Machine/TableBuilder.lean). -/

namespace Sys2Proof

/-- Why a word is no instruction of its format. -/
inductive Reject where
  /-- A precode symbol above 18 (30_encoding.md R92: the alphabet is 0..18). -/
  | presymAbove18
  /-- A litlen symbol above 287 (R95: the alphabet is 0..287). -/
  | llsymAbove287
  /-- An offset symbol above 31 (R97: the alphabet is 0..31). -/
  | offsymAbove31
  /-- Bits above the element's last bit. -/
  | tooWide
  deriving DecidableEq, Repr

/-- The format of each instruction's row. -/
def Instr.format : Instr → Format
  | .ctrlStart _ _ _ => .ctrl
  | .ctrlAck _ _ => .ctrl
  | .ctrlIrqEn _ _ => .ctrl
  | .bhdrStored _ => .bhdr
  | .bhdrStatic _ => .bhdr
  | .bhdrDynamic _ => .bhdr
  | .bhdrReserved _ => .bhdr
  | .dcounts _ _ _ => .dcounts
  | .prelen _ => .prelen
  | .presymLen0 => .presym
  | .presymLen1 => .presym
  | .presymLen2 => .presym
  | .presymLen3 => .presym
  | .presymLen4 => .presym
  | .presymLen5 => .presym
  | .presymLen6 => .presym
  | .presymLen7 => .presym
  | .presymLen8 => .presym
  | .presymLen9 => .presym
  | .presymLen10 => .presym
  | .presymLen11 => .presym
  | .presymLen12 => .presym
  | .presymLen13 => .presym
  | .presymLen14 => .presym
  | .presymLen15 => .presym
  | .presymRep16 _ => .presym
  | .presymZero17 _ => .presym
  | .presymZero18 _ => .presym
  | .llLiteral _ => .llsym
  | .llEob => .llsym
  | .llLen257 => .llsym
  | .llLen258 => .llsym
  | .llLen259 => .llsym
  | .llLen260 => .llsym
  | .llLen261 => .llsym
  | .llLen262 => .llsym
  | .llLen263 => .llsym
  | .llLen264 => .llsym
  | .llLen265 _ => .llsym
  | .llLen266 _ => .llsym
  | .llLen267 _ => .llsym
  | .llLen268 _ => .llsym
  | .llLen269 _ => .llsym
  | .llLen270 _ => .llsym
  | .llLen271 _ => .llsym
  | .llLen272 _ => .llsym
  | .llLen273 _ => .llsym
  | .llLen274 _ => .llsym
  | .llLen275 _ => .llsym
  | .llLen276 _ => .llsym
  | .llLen277 _ => .llsym
  | .llLen278 _ => .llsym
  | .llLen279 _ => .llsym
  | .llLen280 _ => .llsym
  | .llLen281 _ => .llsym
  | .llLen282 _ => .llsym
  | .llLen283 _ => .llsym
  | .llLen284 _ => .llsym
  | .llLen285 => .llsym
  | .llLen286 => .llsym
  | .llLen287 => .llsym
  | .offDist0 => .offsym
  | .offDist1 => .offsym
  | .offDist2 => .offsym
  | .offDist3 => .offsym
  | .offDist4 _ => .offsym
  | .offDist5 _ => .offsym
  | .offDist6 _ => .offsym
  | .offDist7 _ => .offsym
  | .offDist8 _ => .offsym
  | .offDist9 _ => .offsym
  | .offDist10 _ => .offsym
  | .offDist11 _ => .offsym
  | .offDist12 _ => .offsym
  | .offDist13 _ => .offsym
  | .offDist14 _ => .offsym
  | .offDist15 _ => .offsym
  | .offDist16 _ => .offsym
  | .offDist17 _ => .offsym
  | .offDist18 _ => .offsym
  | .offDist19 _ => .offsym
  | .offDist20 _ => .offsym
  | .offDist21 _ => .offsym
  | .offDist22 _ => .offsym
  | .offDist23 _ => .offsym
  | .offDist24 _ => .offsym
  | .offDist25 _ => .offsym
  | .offDist26 _ => .offsym
  | .offDist27 _ => .offsym
  | .offDist28 _ => .offsym
  | .offDist29 _ => .offsym
  | .offDist30 _ => .offsym
  | .offDist31 _ => .offsym

/-- An instruction with `k` extra bits, from their value; more bits than `k` are rejected. -/
def withExtra (k extra : Nat) (mk : BitVec k → Instr) : Except Reject Instr :=
  if extra < 2 ^ k then .ok (mk (BitVec.ofNat k extra)) else .error .tooWide

/-- An instruction without extra bits. -/
def noExtra (extra : Nat) (i : Instr) : Except Reject Instr :=
  if extra = 0 then .ok i else .error .tooWide

/-- A value written to CTRL (45_host.md R240): START is bit 0, ACK bit 1, IRQ_EN bit 2, bits 31:3 ignored;
with START set the command is START whatever ACK is. -/
def decodeCtrl (v : Word) : Instr :=
  let rsv := v.extractLsb' 3 29
  if v.getLsbD 0 then .ctrlStart (v.getLsbD 1) (v.getLsbD 2) rsv
  else if v.getLsbD 1 then .ctrlAck (v.getLsbD 2) rsv
  else .ctrlIrqEn (v.getLsbD 2) rsv

/-- A 3-bit block header (30_encoding.md R89): isFinalBlock is bit 0, blockType bits 2:1. -/
def decodeBhdr (h : BitVec 3) : Instr :=
  let final := h.getLsbD 0
  match h.toNat / 2 with
  | 0 => .bhdrStored final
  | 1 => .bhdrStatic final
  | 2 => .bhdrDynamic final
  | _ => .bhdrReserved final

/-- The three count fields (30_encoding.md R90): HLIT + 257, HDIST + 1, HCLEN + 4. -/
def decodeDcounts (hlit hdist : BitVec 5) (hclen : BitVec 4) : Instr :=
  .dcounts (hlit.toNat + 257) (hdist.toNat + 1) (hclen.toNat + 4)

/-- A precode symbol and the value of its extra bits (30_encoding.md R92). -/
def decodePresym (sym extra : Nat) : Except Reject Instr :=
  match sym with
  | 0 => noExtra extra .presymLen0
  | 1 => noExtra extra .presymLen1
  | 2 => noExtra extra .presymLen2
  | 3 => noExtra extra .presymLen3
  | 4 => noExtra extra .presymLen4
  | 5 => noExtra extra .presymLen5
  | 6 => noExtra extra .presymLen6
  | 7 => noExtra extra .presymLen7
  | 8 => noExtra extra .presymLen8
  | 9 => noExtra extra .presymLen9
  | 10 => noExtra extra .presymLen10
  | 11 => noExtra extra .presymLen11
  | 12 => noExtra extra .presymLen12
  | 13 => noExtra extra .presymLen13
  | 14 => noExtra extra .presymLen14
  | 15 => noExtra extra .presymLen15
  | 16 => withExtra 2 extra .presymRep16
  | 17 => withExtra 3 extra .presymZero17
  | 18 => withExtra 7 extra .presymZero18
  | _ => .error .presymAbove18

/-- A litlen symbol of the length alphabet, 256..287, and the value of its extra bits (30_encoding.md R96, R98). -/
def decodeLength (sym extra : Nat) : Except Reject Instr :=
  match sym with
  | 256 => noExtra extra .llEob
  | 257 => noExtra extra .llLen257
  | 258 => noExtra extra .llLen258
  | 259 => noExtra extra .llLen259
  | 260 => noExtra extra .llLen260
  | 261 => noExtra extra .llLen261
  | 262 => noExtra extra .llLen262
  | 263 => noExtra extra .llLen263
  | 264 => noExtra extra .llLen264
  | 265 => withExtra 1 extra .llLen265
  | 266 => withExtra 1 extra .llLen266
  | 267 => withExtra 1 extra .llLen267
  | 268 => withExtra 1 extra .llLen268
  | 269 => withExtra 2 extra .llLen269
  | 270 => withExtra 2 extra .llLen270
  | 271 => withExtra 2 extra .llLen271
  | 272 => withExtra 2 extra .llLen272
  | 273 => withExtra 3 extra .llLen273
  | 274 => withExtra 3 extra .llLen274
  | 275 => withExtra 3 extra .llLen275
  | 276 => withExtra 3 extra .llLen276
  | 277 => withExtra 4 extra .llLen277
  | 278 => withExtra 4 extra .llLen278
  | 279 => withExtra 4 extra .llLen279
  | 280 => withExtra 4 extra .llLen280
  | 281 => withExtra 5 extra .llLen281
  | 282 => withExtra 5 extra .llLen282
  | 283 => withExtra 5 extra .llLen283
  | 284 => withExtra 5 extra .llLen284
  | 285 => noExtra extra .llLen285
  | 286 => noExtra extra .llLen286
  | 287 => noExtra extra .llLen287
  | _ => .error .llsymAbove287

/-- A litlen symbol and the value of its extra bits: 0..255 are literals (30_encoding.md R98). -/
def decodeLitlen (sym extra : Nat) : Except Reject Instr :=
  if sym < 256 then noExtra extra (.llLiteral (BitVec.ofNat 8 sym)) else decodeLength sym extra

/-- An offset symbol and the value of its extra bits (30_encoding.md R97). -/
def decodeOffset (sym extra : Nat) : Except Reject Instr :=
  match sym with
  | 0 => noExtra extra .offDist0
  | 1 => noExtra extra .offDist1
  | 2 => noExtra extra .offDist2
  | 3 => noExtra extra .offDist3
  | 4 => withExtra 1 extra .offDist4
  | 5 => withExtra 1 extra .offDist5
  | 6 => withExtra 2 extra .offDist6
  | 7 => withExtra 2 extra .offDist7
  | 8 => withExtra 3 extra .offDist8
  | 9 => withExtra 3 extra .offDist9
  | 10 => withExtra 4 extra .offDist10
  | 11 => withExtra 4 extra .offDist11
  | 12 => withExtra 5 extra .offDist12
  | 13 => withExtra 5 extra .offDist13
  | 14 => withExtra 6 extra .offDist14
  | 15 => withExtra 6 extra .offDist15
  | 16 => withExtra 7 extra .offDist16
  | 17 => withExtra 7 extra .offDist17
  | 18 => withExtra 8 extra .offDist18
  | 19 => withExtra 8 extra .offDist19
  | 20 => withExtra 9 extra .offDist20
  | 21 => withExtra 9 extra .offDist21
  | 22 => withExtra 10 extra .offDist22
  | 23 => withExtra 10 extra .offDist23
  | 24 => withExtra 11 extra .offDist24
  | 25 => withExtra 11 extra .offDist25
  | 26 => withExtra 12 extra .offDist26
  | 27 => withExtra 12 extra .offDist27
  | 28 => withExtra 13 extra .offDist28
  | 29 => withExtra 13 extra .offDist29
  | 30 => withExtra 14 extra .offDist30
  | 31 => withExtra 14 extra .offDist31
  | _ => .error .offsymAbove31

/-- An element word in a format: total, rejecting by name. -/
def decode (f : Format) (w : Nat) : Except Reject Instr :=
  match f with
  | .ctrl => if w < 2 ^ 32 then .ok (decodeCtrl (BitVec.ofNat 32 w)) else .error .tooWide
  | .bhdr => if w < 2 ^ 3 then .ok (decodeBhdr (BitVec.ofNat 3 w)) else .error .tooWide
  | .dcounts =>
    if w < 2 ^ 14 then
      .ok (decodeDcounts (BitVec.ofNat 5 (w % 2 ^ 5)) (BitVec.ofNat 5 (w / 2 ^ 5 % 2 ^ 5)) (BitVec.ofNat 4 (w / 2 ^ 10)))
    else .error .tooWide
  | .prelen => if w < 2 ^ 3 then .ok (.prelen (BitVec.ofNat 3 w)) else .error .tooWide
  | .presym => decodePresym (w % 2 ^ 5) (w / 2 ^ 5)
  | .llsym => decodeLitlen (w % 2 ^ 9) (w / 2 ^ 9)
  | .offsym => decodeOffset (w % 2 ^ 5) (w / 2 ^ 5)

/-! The encoder, from the same tables. -/

/-- A CTRL value from its fields (45_host.md R240). -/
def ctrlWord (start ack irqEn : Bool) (rsv : BitVec 29) : Nat :=
  start.toNat + 2 * ack.toNat + 4 * irqEn.toNat + 8 * rsv.toNat

/-- A block header from its fields (30_encoding.md R89). -/
def bhdrWord (btype : Nat) (final : Bool) : Nat := final.toNat + 2 * btype

/-- A symbol of `width` bits with its extra bits above it. -/
def symWord (width sym extra : Nat) : Nat := sym + extra * 2 ^ width

/-- The element word of an instruction, in its format's numbering. -/
def encode : Instr → Nat
  | .ctrlStart ack irqEn rsv => ctrlWord true ack irqEn rsv
  | .ctrlAck irqEn rsv => ctrlWord false true irqEn rsv
  | .ctrlIrqEn irqEn rsv => ctrlWord false false irqEn rsv
  | .bhdrStored final => bhdrWord 0 final
  | .bhdrStatic final => bhdrWord 1 final
  | .bhdrDynamic final => bhdrWord 2 final
  | .bhdrReserved final => bhdrWord 3 final
  | .dcounts hlit hdist hclen => (hlit - 257) + (hdist - 1) * 2 ^ 5 + (hclen - 4) * 2 ^ 10
  | .prelen len => len.toNat
  | .presymLen0 => symWord 5 0 0
  | .presymLen1 => symWord 5 1 0
  | .presymLen2 => symWord 5 2 0
  | .presymLen3 => symWord 5 3 0
  | .presymLen4 => symWord 5 4 0
  | .presymLen5 => symWord 5 5 0
  | .presymLen6 => symWord 5 6 0
  | .presymLen7 => symWord 5 7 0
  | .presymLen8 => symWord 5 8 0
  | .presymLen9 => symWord 5 9 0
  | .presymLen10 => symWord 5 10 0
  | .presymLen11 => symWord 5 11 0
  | .presymLen12 => symWord 5 12 0
  | .presymLen13 => symWord 5 13 0
  | .presymLen14 => symWord 5 14 0
  | .presymLen15 => symWord 5 15 0
  | .presymRep16 extra => symWord 5 16 extra.toNat
  | .presymZero17 extra => symWord 5 17 extra.toNat
  | .presymZero18 extra => symWord 5 18 extra.toNat
  | .llLiteral byte => symWord 9 byte.toNat 0
  | .llEob => symWord 9 256 0
  | .llLen257 => symWord 9 257 0
  | .llLen258 => symWord 9 258 0
  | .llLen259 => symWord 9 259 0
  | .llLen260 => symWord 9 260 0
  | .llLen261 => symWord 9 261 0
  | .llLen262 => symWord 9 262 0
  | .llLen263 => symWord 9 263 0
  | .llLen264 => symWord 9 264 0
  | .llLen265 extra => symWord 9 265 extra.toNat
  | .llLen266 extra => symWord 9 266 extra.toNat
  | .llLen267 extra => symWord 9 267 extra.toNat
  | .llLen268 extra => symWord 9 268 extra.toNat
  | .llLen269 extra => symWord 9 269 extra.toNat
  | .llLen270 extra => symWord 9 270 extra.toNat
  | .llLen271 extra => symWord 9 271 extra.toNat
  | .llLen272 extra => symWord 9 272 extra.toNat
  | .llLen273 extra => symWord 9 273 extra.toNat
  | .llLen274 extra => symWord 9 274 extra.toNat
  | .llLen275 extra => symWord 9 275 extra.toNat
  | .llLen276 extra => symWord 9 276 extra.toNat
  | .llLen277 extra => symWord 9 277 extra.toNat
  | .llLen278 extra => symWord 9 278 extra.toNat
  | .llLen279 extra => symWord 9 279 extra.toNat
  | .llLen280 extra => symWord 9 280 extra.toNat
  | .llLen281 extra => symWord 9 281 extra.toNat
  | .llLen282 extra => symWord 9 282 extra.toNat
  | .llLen283 extra => symWord 9 283 extra.toNat
  | .llLen284 extra => symWord 9 284 extra.toNat
  | .llLen285 => symWord 9 285 0
  | .llLen286 => symWord 9 286 0
  | .llLen287 => symWord 9 287 0
  | .offDist0 => symWord 5 0 0
  | .offDist1 => symWord 5 1 0
  | .offDist2 => symWord 5 2 0
  | .offDist3 => symWord 5 3 0
  | .offDist4 extra => symWord 5 4 extra.toNat
  | .offDist5 extra => symWord 5 5 extra.toNat
  | .offDist6 extra => symWord 5 6 extra.toNat
  | .offDist7 extra => symWord 5 7 extra.toNat
  | .offDist8 extra => symWord 5 8 extra.toNat
  | .offDist9 extra => symWord 5 9 extra.toNat
  | .offDist10 extra => symWord 5 10 extra.toNat
  | .offDist11 extra => symWord 5 11 extra.toNat
  | .offDist12 extra => symWord 5 12 extra.toNat
  | .offDist13 extra => symWord 5 13 extra.toNat
  | .offDist14 extra => symWord 5 14 extra.toNat
  | .offDist15 extra => symWord 5 15 extra.toNat
  | .offDist16 extra => symWord 5 16 extra.toNat
  | .offDist17 extra => symWord 5 17 extra.toNat
  | .offDist18 extra => symWord 5 18 extra.toNat
  | .offDist19 extra => symWord 5 19 extra.toNat
  | .offDist20 extra => symWord 5 20 extra.toNat
  | .offDist21 extra => symWord 5 21 extra.toNat
  | .offDist22 extra => symWord 5 22 extra.toNat
  | .offDist23 extra => symWord 5 23 extra.toNat
  | .offDist24 extra => symWord 5 24 extra.toNat
  | .offDist25 extra => symWord 5 25 extra.toNat
  | .offDist26 extra => symWord 5 26 extra.toNat
  | .offDist27 extra => symWord 5 27 extra.toNat
  | .offDist28 extra => symWord 5 28 extra.toNat
  | .offDist29 extra => symWord 5 29 extra.toNat
  | .offDist30 extra => symWord 5 30 extra.toNat
  | .offDist31 extra => symWord 5 31 extra.toNat

/-! The host's numbering of the opcode table. -/

/-- Which format the host's probe of `nbits` bits is read in. The table's rows of different formats share words, since the context
is the machine's state and no bit of the element; the first row of the table that has this width and this word is taken, and a word
that is no row's own is read as most rows of its width are (DESIGN CHOICE, log 18). -/
def tableFormat (nbits w : Nat) : Format :=
  if nbits = 0 then .dcounts
  else if nbits ≤ 8 then
    if w = 1 ∨ w = 2 then .ctrl
    else if w = 0 ∨ w = 4 ∨ w = 6 then .bhdr
    else if w = 10 ∨ w = 11 then .offsym
    else if w % 2 ^ 5 < 19 then .presym
    else .offsym
  else if nbits ≤ 16 then (if w = 10 ∨ w = 11 then .presym else .llsym)
  else if nbits ≤ 24 then (if w = 18 then .presym else .offsym)
  else if 24 ≤ w ∧ w < 32 then .offsym
  else .ctrl

/-- The instruction this decoder reads from a word numbered as the opcode table numbers it (log 18). -/
def decodeTableWord (nbits w : Nat) : Option Instr := (decode (tableFormat nbits w) w).toOption

end Sys2Proof
end

