-- ==== Sys2Proof/Config.lean ====
section
/-! DEFINITION. What one machine fixes: the parameters 00_scope.md R7 leaves open, with the spec's defaults, and the free values. -/

namespace Sys2Proof

/-- Which lane ADVANCE refills (40_lane_demux.md R125, 92_eei_decisions.md D4). -/
inductive AdvanceOrder where
  | refillThenMove
  | moveThenRefill
  deriving DecidableEq, Repr

/-- What a refill past the tile's input does (20_memory.md R63, 92_eei_decisions.md D17). -/
inductive OverreadPolicy where
  | draw
  | fault
  deriving DecidableEq, Repr

/-- At which reads of a block header or a dynamic table header the engine first performs REFILL(0) (40_lane_demux.md R128,
92_eei_decisions.md D7). The defaults are PER_ELEMENT, the one value the spec states; the places a schedule chooses among are a
DESIGN CHOICE (log 33). -/
structure RefillSchedule where
  blockHeader : Bool := true
  hlit : Bool := true
  hdist : Bool := true
  hclen : Bool := true
  precodeLength : Bool := true
  precodeElement : Bool := true
  precodeExtra : Bool := false
  decodeEntry : Bool := true
  deriving DecidableEq, Repr

/-- PER_ELEMENT (40_lane_demux.md R128). -/
def RefillSchedule.perElement : RefillSchedule := {}

/-- Which bit of a value comes first (92_eei_decisions.md D3). -/
inductive BitOrder where
  | lsbFirst
  | msbFirst
  deriving DecidableEq, Repr

/-- The lane a header read, a drain or a block starts at: the lane the cursor is at, or lane 0 (92_eei_decisions.md D8, D9). -/
inductive StartLane where
  | current
  | zero
  deriving DecidableEq, Repr

/-- How the stream is read where the spec had to rule and keeps the ruling a parameter (00_scope.md R16; 92_eei_decisions.md D3, D8, D9;
D4 and D7 have fields of their own in `Config`). The defaults are the rulings. The spec states no other value, so which readings there are
to choose among is a DESIGN CHOICE (log 34). -/
structure StreamReading where
  /-- D3: which bit of an input word a lane delivers first. -/
  wordBits : BitOrder := .lsbFirst
  /-- D3: which bit of a fixed-width field or of extra bits is delivered first. -/
  fieldBits : BitOrder := .lsbFirst
  /-- D8: whether the turn that decodes an end of block advances. -/
  eobAdvances : Bool := false
  /-- D8: where the drain starts. -/
  drainLane : StartLane := .current
  /-- D9: the lane of block headers and dynamic table headers. -/
  headerLane : StartLane := .zero
  /-- D9: where the cursor is when the next block begins. -/
  blockLane : StartLane := .current
  deriving DecidableEq, Repr

/-- The rulings (30_encoding.md R80, R81; 40_lane_demux.md R124, R127; 43_symbol_decode.md R204; 44_match_copy.md R225;
42_block_control.md R190). -/
def StreamReading.ruled : StreamReading := {}

/-- A run of byte addresses, from `base` upward, `size` of them. -/
structure Region where
  base : Nat
  size : Nat
  deriving DecidableEq, Repr

/-- The parameters of 00_scope.md R7 with the spec's defaults.
`engineBase` and `devices` are the platform's; their defaults are a DESIGN CHOICE (log 8, log 9), unsafe. -/
structure Config where
  precodeTableBits : Nat := 7
  litlenTableBits : Nat := 10
  offsetTableBits : Nat := 8
  precodeTableSize : Nat := 128
  litlenTableSize : Nat := 1334
  offsetTableSize : Nat := 402
  advanceOrder : AdvanceOrder := .refillThenMove
  headerRefills : RefillSchedule := .perElement
  reading : StreamReading := .ruled
  overreadPolicy : OverreadPolicy := .draw
  addrWidth : Nat := 32
  engineBase : Word := 0xFFFFFF00#32
  strictTileLength : Bool := false
  devices : List Region := []
  deriving DecidableEq, Repr

/-- The n-th value of the spec's `draw()`: an unconstrained byte (20_memory.md R63, R71, R73; log 6).
Opaque: no proof can know any value of it. -/
opaque Config.draw : Nat → Byte

end Sys2Proof
end

