-- ==== Sys2Proof/Machine/State.lean ====
section
/-! DEFINITION. The state: every field 10_state.md gives the engine, the platform's memory, and the model's own fields; reset. -/

namespace Sys2Proof.Machine

/-- The control state (10_state.md R21). -/
inductive EngineState where
  | idle | prime | header | dynTables | staticTables | decode | drain | done | error
  deriving DecidableEq, Repr

/-- The sub-phase of DYN_TABLES (10_state.md R22). -/
inductive Phase where
  | counts | prelens | prebuild | lens | build
  deriving DecidableEq, Repr

/-- The error codes (60_exceptions.md R261); `none` is code 0. -/
inductive ErrCode where
  | none | corruptHuffmanCode | unsupportedFeature | outputOverrun | corruptStream | laneUnderflow | configError | inputOverread
  deriving DecidableEq, Repr

/-- The three canonical codes (00_scope.md R14), each with its own table memory (10_state.md R36). -/
inductive Code where
  | precode | litlen | offset
  deriving DecidableEq, Repr

/-- One lane (10_state.md R23): the bit buffer, the number of valid bits, and the deferred-copy slot.
`left`, `plen` and `pdst` are counts in the ranges the rules keep them in (log 27). -/
structure Lane where
  buf : BitVec 64 := 0#64
  left : Nat := 0
  plen : Nat := 0
  pdst : Nat := 0
  deriving DecidableEq, Repr

/-- The events of the model's trace (20_memory.md R72). -/
inductive Event where
  | fetch (word : Nat) (lane : Fin 32)
  | write (index : Nat) (byte : Byte)
  | build (code : Code)
  | record (lane : Fin 32) (dst len : Nat)
  | eob (lane : Fin 32)
  | copy (lane : Fin 32) (dst dist len : Nat)
  deriving DecidableEq, Repr

/-- The size of a host access (10_state.md R39 allows registers only `word`). -/
inductive Size where
  | byte | half | word
  deriving DecidableEq, Repr

/-- What happens next from outside the engine, or the engine's own turn between two such actions
(00_scope.md R13, 70_reset_and_hazards.md R290, R304; log 1). A host address has 32 bits, also where ADDR_W is larger, so the host then
reaches only the first 2^32 bytes: the spec gives the host no address width for such an ADDR_W (DESIGN CHOICE, log 35). -/
inductive Input where
  /-- The engine performs its next operation. -/
  | engine
  /-- The host stores `value` at a platform address. -/
  | store (addr : Word) (size : Size) (value : Word)
  /-- The host loads from a platform address. -/
  | load (addr : Word) (size : Size)
  /-- The platform asserts hardware reset. -/
  | reset
  deriving DecidableEq, Repr

/-- The windows a tile was started with (20_memory.md R60), kept for the span in which the host may not touch them (R71; log 12). -/
structure TileWindows where
  inBase : Word
  inLen : Word
  outBase : Word
  outBound : BitVec 17
  deriving DecidableEq, Repr

/-- A decode-table memory: each entry a 32-bit value or no value (10_state.md R36). -/
abbrev Table := List (Option Word)

/-- Why the machine stops with a model fault. No engine error is one of these: an engine error is a next state (R263). -/
inductive Fault where
  /-- LOOKUP read a table entry that no build has written (10_state.md R36, 41_huffman_tables.md R158). Raised by `lookup`.
  Safe: the spec asks for this fault and the rules never reach it. -/
  | tableSlotUnwritten
  /-- LOOKUP returned an entry whose result is no symbol's (41_huffman_tables.md R155). Raised by the element fetches.
  Safe: no build writes such an entry (log 21). -/
  | entryUndecodable
  deriving DecidableEq, Repr

/-- Why a step is refused. -/
inductive Refusal where
  /-- An instruction without a meaning yet. Raised by exec's arms alone. Safe. -/
  | notModelled (mnemonic : String)
  /-- A host access to the register window that is not an aligned 32-bit one (10_state.md R39, 93 U12). Raised by `hostStore` and
  `hostLoad`. Safe. -/
  | registerAccess
  /-- A START whose input or output window touches a device region (20_memory.md R68, 93 U11). Raised by `start`. Safe. -/
  | windowOnDevice
  /-- A START under table parameters below the bounds (41_huffman_tables.md R152, 93 U15). Raised by `start`. Safe. -/
  | tableParameters
  deriving DecidableEq, Repr

/-- The machine's state: one engine, the platform's memory, and what the outside world does next. Plain data. -/
structure State where
  /-- The parameters (00_scope.md R7); no step changes them. -/
  cfg : Config
  /-- `state` (10_state.md R21). -/
  state : EngineState
  /-- `phase` (R22). -/
  phase : Phase
  /-- `lane[0..31]` (R23). -/
  lanes : Vector Lane 32
  /-- `cur`, the lane cursor (R25). -/
  cur : Fin 32
  /-- `pend`, the pending mask (R26). -/
  pend : BitVec 32
  /-- `in_pos`, input words fetched so far (R27; log 14). -/
  inPos : Nat
  /-- `out_pos`, the output cursor (R28). -/
  outPos : Nat
  /-- `is_final` (R29). -/
  isFinal : Bool
  /-- `btype` (R29). -/
  btype : BitVec 2
  /-- `hlit` (R30). -/
  hlit : Nat
  /-- `hdist` (R30). -/
  hdist : Nat
  /-- `hclen` (R30). -/
  hclen : Nat
  /-- `pi`, the precode-length read index (R30). -/
  pi : Nat
  /-- `li`, the lengths write index (R30). -/
  li : Nat
  /-- `static_loaded` (R31). -/
  staticLoaded : Bool
  /-- `overread` (R32). -/
  overread : Bool
  /-- `precode_lens[0..18]` (R33). -/
  precodeLens : List (BitVec 3)
  /-- `lens[0..456]` (R34). -/
  lens : List (BitVec 4)
  /-- `sorted_syms[0..287]` (R35). -/
  sortedSyms : List (BitVec 9)
  /-- `PT` (R36). -/
  pt : Table
  /-- `LT` (R36). -/
  lt : Table
  /-- `OT` (R36). -/
  ot : Table
  /-- CTRL.IRQ_EN (R40). -/
  irqEn : Bool
  /-- STATUS.ERR_CODE (R41). -/
  errCode : ErrCode
  /-- STATUS.ERR_DETAIL (R41). -/
  errDetail : BitVec 4
  /-- IN_BASE (R42). -/
  inBase : Word
  /-- IN_LEN (R43). -/
  inLen : Word
  /-- OUT_BASE (R44). -/
  outBase : Word
  /-- OUT_BOUND, bits 16:0 (R45). -/
  outBound : BitVec 17
  /-- The platform's memory in canonical form (20_memory.md R60; log 3). -/
  mem : List Host.Cell
  /-- The model's event record, newest first (20_memory.md R72; log 15). -/
  trace : List Event
  /-- The model's own: what happens next from outside (log 1). -/
  inputs : List Input
  /-- The model's own: what the host's last load returned (log 29). -/
  hostData : Word
  /-- The model's own: the windows of the tiles started since STATUS was last read with BUSY = 0, which the host may not touch
  (20_memory.md R71; log 12). -/
  openTiles : List TileWindows
  /-- The model's own: addresses the host stored to inside a window meanwhile (R71; log 12). -/
  contested : List Nat
  /-- The model's own: how many `draw()` values were taken (log 6). -/
  draws : Nat
  deriving DecidableEq, Repr

/-- The state of an engine with parameters `cfg` after reset (10_state.md R52), with nothing in memory and nothing to come from
outside. Fields R52 calls unspecified hold zero (DESIGN CHOICE, log 4, unsafe); table entries hold no value (R36, log 5). -/
def State.resetWith (cfg : Config) : State where
  cfg := cfg
  state := .idle
  phase := .counts
  lanes := Vector.replicate 32 {}
  cur := 0
  pend := 0#32
  inPos := 0
  outPos := 0
  isFinal := false
  btype := 0#2
  hlit := 0
  hdist := 0
  hclen := 0
  pi := 0
  li := 0
  staticLoaded := false
  overread := false
  precodeLens := List.replicate 19 0#3
  lens := List.replicate 457 0#4
  sortedSyms := List.replicate 288 0#9
  pt := List.replicate cfg.precodeTableSize none
  lt := List.replicate cfg.litlenTableSize none
  ot := List.replicate cfg.offsetTableSize none
  irqEn := false
  errCode := .none
  errDetail := 0#4
  inBase := 0#32
  inLen := 0#32
  outBase := 0#32
  outBound := 0#17
  mem := []
  trace := []
  inputs := []
  hostData := 0#32
  openTiles := []
  contested := []
  draws := 0

/-- The machine right after reset, under the spec's default parameters. -/
def State.reset : State := State.resetWith {}

end Sys2Proof.Machine
end

