-- ==== Sys2Proof/Machine/Ops.lean ====
section
/-! DEFINITION. The named operations over memory, lanes and the error latch: results of an operation, error entry and its return,
memory in canonical form, draw(), input words, output bytes, PEEK, CONSUME, POP, REFILL, ADVANCE, HPOP. -/

namespace Sys2Proof.Machine

/-! ## Results -/

/-- What a part of an operation gives: a value and the state after it; the state after a `raise`, which ends the operation
(00_scope.md R11); a model fault; a refusal. -/
inductive Res (α : Type) where
  | ok (a : α) (s : State)
  | raised (s : State)
  | fault (f : Fault)
  | refused (r : Refusal)

/-- Go on with the next part of an operation; a raise, a fault or a refusal ends it. -/
def Res.bind {α β : Type} (r : Res α) (k : α → State → Res β) : Res β :=
  match r with
  | .ok a s => k a s
  | .raised s => .raised s
  | .fault f => .fault f
  | .refused r => .refused r

/-- The outcome of a whole operation: an engine error is a next state (60_exceptions.md R263). -/
def Res.outcome {α : Type} : Res α → Host.Outcome State Fault Refusal
  | .ok _ s => .next s
  | .raised s => .next s
  | .fault f => .fault f
  | .refused r => .refused r

/-- An instruction's outcome as a part of a longer operation: a next state in ERROR has raised. -/
def Res.ofOutcome : Host.Outcome State Fault Refusal → Res Unit
  | .next s => if s.state = .error then .raised s else .ok () s
  | .fault f => .fault f
  | .refused r => .refused r

/-! ## Error entry and the return from it -/

/-- Error entry (60_exceptions.md R263): record code and detail, move to ERROR, change nothing else. -/
def errorEntry (code : ErrCode) (detail : BitVec 4) (s : State) : State :=
  { s with errCode := code, errDetail := detail, state := .error }

/-- `raise Err(code, detail)` (00_scope.md R11): error entry, and the operation ends. -/
def raise {α : Type} (code : ErrCode) (detail : BitVec 4) (s : State) : Res α :=
  .raised (errorEntry code detail s)

/-- ACK (45_host.md R242), the return from DONE or ERROR to IDLE. -/
def acknowledge (s : State) : State :=
  { s with errCode := .none, errDetail := 0#4, overread := false, state := .idle }

/-! ## Memory -/

/-- The byte at an address; an address that is not listed reads as zero (DESIGN CHOICE, log 3, unsafe). -/
def Mem.read : List Host.Cell → Nat → Byte
  | [], _ => 0#8
  | (k, b) :: m, a => if k = a then b else Mem.read m a

/-- Write one byte, keeping the canonical form: writing zero removes the entry. -/
def Mem.write (a : Nat) (b : Byte) : List Host.Cell → List Host.Cell
  | [] => if b = 0#8 then [] else [(a, b)]
  | (k, v) :: m =>
    if a < k then (if b = 0#8 then (k, v) :: m else (a, b) :: (k, v) :: m)
    else if a = k then (if b = 0#8 then m else (a, b) :: m)
    else (k, v) :: Mem.write a b m

/-- Every listed address is at least `lo`, addresses rise strictly, and no entry is zero. -/
def Mem.wfFrom : Nat → List Host.Cell → Bool
  | _, [] => true
  | lo, (k, v) :: m => decide (lo ≤ k) && decide (v ≠ 0#8) && Mem.wfFrom (k + 1) m

/-- The canonical form: addresses strictly rising, no entry equal to what an unlisted address reads as. -/
def Mem.wf (m : List Host.Cell) : Bool := Mem.wfFrom 0 m

/-- A platform address: modulo 2^ADDR_W (00_scope.md R10). -/
def State.addr (s : State) (base : Word) (off : Nat) : Nat := (base.toNat + off) % 2 ^ s.cfg.addrWidth

/-- The address of tile-relative input offset `off` (20_memory.md R62). -/
def State.inAddr (s : State) (off : Nat) : Nat := s.addr s.inBase off

/-- The address of output index `p` (20_memory.md R64). -/
def State.outAddr (s : State) (p : Nat) : Nat := s.addr s.outBase p

/-- Whether address `a` lies in the window of `len` bytes at `base`, which may wrap (20_memory.md R69). -/
def State.inWindow (s : State) (base : Word) (len a : Nat) : Bool :=
  decide ((a + (2 ^ s.cfg.addrWidth - base.toNat % 2 ^ s.cfg.addrWidth)) % 2 ^ s.cfg.addrWidth < len)

/-- Whether address `a` is in the input window (20_memory.md R60). -/
def State.inInput (s : State) (a : Nat) : Bool := s.inWindow s.inBase s.inLen.toNat a

/-- Whether address `a` is in the output window (20_memory.md R60). -/
def State.inOutput (s : State) (a : Nat) : Bool := s.inWindow s.outBase s.outBound.toNat a

/-- The windows the configuration registers hold (20_memory.md R60). -/
def State.windows (s : State) : TileWindows :=
  { inBase := s.inBase, inLen := s.inLen, outBase := s.outBase, outBound := s.outBound }

/-- Whether address `a` is in the input window of an open tile (20_memory.md R71; log 12). -/
def State.inOpenInput (s : State) (a : Nat) : Bool := s.openTiles.any fun w => s.inWindow w.inBase w.inLen.toNat a

/-- Whether address `a` is in the output window of an open tile (20_memory.md R71; log 12). -/
def State.inOpenOutput (s : State) (a : Nat) : Bool := s.openTiles.any fun w => s.inWindow w.outBase w.outBound.toNat a

/-- Whether the engine's accesses to `a` race: the host stored there while the tile was open (20_memory.md R71), or the byte lies in
both windows (R73, 45_host.md R245; log 12, log 13). -/
def State.raced (s : State) (a : Nat) : Bool := s.contested.contains a || (s.inInput a && s.inOutput a)

/-- `draw()`: the next unconstrained byte (log 6). -/
def takeDraw (s : State) : Byte × State := (Config.draw s.draws, { s with draws := s.draws + 1 })

/-- One input byte (20_memory.md R62, R63): past IN_LEN it is a draw and the sticky flag is set. -/
def inputByte (s : State) (off : Nat) : Byte × State :=
  if off < s.inLen.toNat then
    if s.raced (s.inAddr off) then takeDraw s else (Mem.read s.mem (s.inAddr off), s)
  else ((takeDraw s).1, { (takeDraw s).2 with overread := true })

/-- The input word at `in_pos`, little-endian (20_memory.md R62). -/
def inputWord (s : State) : Word × State :=
  let r0 := inputByte s (4 * s.inPos)
  let r1 := inputByte r0.2 (4 * s.inPos + 1)
  let r2 := inputByte r1.2 (4 * s.inPos + 2)
  let r3 := inputByte r2.2 (4 * s.inPos + 3)
  (r3.1 ++ r2.1 ++ r1.1 ++ r0.1, r3.2)

/-- Record an event (20_memory.md R72), newest first. -/
def emit (e : Event) (s : State) : State := { s with trace := e :: s.trace }

/-- What the engine's write of `b` to address `a` stores: `b`, or a draw where it races (20_memory.md R73). -/
def racedByte (a : Nat) (b : Byte) (s : State) : Byte × State := if s.raced a then takeDraw s else (b, s)

/-- OUT_WRITE(p, b) (20_memory.md R65) and its event (R72). -/
def outWrite (p : Nat) (b : Byte) (s : State) : State :=
  let r := racedByte (s.outAddr p) b s
  emit (.write p b) { r.2 with mem := Mem.write (s.outAddr p) r.1 r.2.mem }

/-- OUT_READ(p) (20_memory.md R65). -/
def outRead (p : Nat) (s : State) : Byte × State :=
  if s.raced (s.outAddr p) then takeDraw s else (Mem.read s.mem (s.outAddr p), s)

/-! ## Lanes -/

/-- `lane[c]`. -/
def State.lane (s : State) (c : Fin 32) : Lane := s.lanes[c.val]

/-- `lane[c] <- l`. -/
def setLane (c : Fin 32) (l : Lane) (s : State) : State := { s with lanes := s.lanes.set c.val l }

/-- Whether lane `c` holds a deferred copy (10_state.md R26). -/
def State.pending (s : State) (c : Fin 32) : Bool := s.pend.getLsbD c.val

/-- `pend[c] <- 1`. -/
def setPending (c : Fin 32) (s : State) : State := { s with pend := s.pend ||| (1#32 <<< c.val) }

/-- `pend[c] <- 0`. -/
def clearPending (c : Fin 32) (s : State) : State := { s with pend := s.pend &&& ~~~(1#32 <<< c.val) }

/-- PEEK(c, n) (40_lane_demux.md R121). -/
def peek (s : State) (c : Fin 32) (n : Nat) : Nat := (s.lane c).buf.toNat % 2 ^ n

/-- CONSUME(c, n) (40_lane_demux.md R122). -/
def consume (c : Fin 32) (n : Nat) (s : State) : Res Unit :=
  if (s.lane c).left < n then raise .laneUnderflow 0#4 s
  else .ok () (setLane c { s.lane c with buf := (s.lane c).buf >>> n, left := (s.lane c).left - n } s)

/-- The `n` low bits of a value in reverse order (30_encoding.md R82). -/
def revBits : Nat → Nat → Nat
  | 0, _ => 0
  | n + 1, v => (v % 2) * 2 ^ n + revBits n (v / 2)

/-- The value of an `n`-bit field whose bits, the first delivered lowest, are `bits` (30_encoding.md R81; the other order is log 34). -/
def fieldValue (order : BitOrder) (n bits : Nat) : Nat :=
  match order with
  | .lsbFirst => bits
  | .msbFirst => revBits n bits

/-- An input word with the bit a lane delivers first lowest (30_encoding.md R80; the other order is log 34). -/
def State.asDelivered (s : State) (w : Word) : Word :=
  match s.cfg.reading.wordBits with
  | .lsbFirst => w
  | .msbFirst => BitVec.ofNat 32 (revBits 32 w.toNat)

/-- POP(c, n) (40_lane_demux.md R123). -/
def pop (c : Fin 32) (n : Nat) (s : State) : Res Nat :=
  (consume c n s).bind fun _ s' => .ok (fieldValue s.cfg.reading.fieldBits n (peek s c n)) s'

/-- The fetching part of REFILL(c): the word at `in_pos` goes above lane `c`'s valid bits (40_lane_demux.md R124). -/
def fetchWord (c : Fin 32) (s : State) : State :=
  let r := inputWord s
  let l := r.2.lane c
  setLane c { l with buf := l.buf ||| ((s.asDelivered r.1).setWidth 64 <<< l.left), left := l.left + 32 }
    { emit (.fetch s.inPos c) r.2 with inPos := s.inPos + 1 }

/-- REFILL(c) (40_lane_demux.md R124): under the FAULT policy a word with any byte at or past IN_LEN raises before any write
(20_memory.md R63). -/
def refill (c : Fin 32) (s : State) : Res Unit :=
  if 32 ≤ (s.lane c).left then .ok () s
  else if s.cfg.overreadPolicy = .fault ∧ s.inLen.toNat < 4 * s.inPos + 4 then raise .inputOverread 0#4 s
  else .ok () (fetchWord c s)

/-- `cur <- (cur + 1) mod 32`. -/
def moveCursor (s : State) : State := { s with cur := s.cur + 1 }

/-- ADVANCE() (40_lane_demux.md R125), in the order the configuration gives. -/
def advance (s : State) : Res Unit :=
  match s.cfg.advanceOrder with
  | .refillThenMove => (refill s.cur s).bind fun _ s => .ok () (moveCursor s)
  | .moveThenRefill => refill (moveCursor s).cur (moveCursor s)

/-- A lane to start at. -/
def State.startLane (s : State) (l : StartLane) : Fin 32 :=
  match l with
  | .current => s.cur
  | .zero => 0

/-- The lane headers are read from: lane 0, whatever `cur` is (40_lane_demux.md R127; the other reading is log 34). -/
def State.headerLane (s : State) : Fin 32 := s.startLane s.cfg.reading.headerLane

/-- The REFILL(0) before a header read, where the schedule has one (40_lane_demux.md R128). -/
def headerRefill (due : Bool) (s : State) : Res Unit := if due then refill s.headerLane s else .ok () s

/-- HPOP(n) (40_lane_demux.md R129): a fixed-width header field of the header lane, with the refill the schedule gives it. -/
def hpop (due : Bool) (n : Nat) (s : State) : Res Nat := (headerRefill due s).bind fun _ s => pop s.headerLane n s

end Sys2Proof.Machine
end

