-- ==== Sys2Proof/Machine/Operands.lean ====
section
/-! DEFINITION. The constants of the format (ROM), the fields of a decode-table entry, and the instruction an entry's result stands for. -/

namespace Sys2Proof.Machine

/-! ## Constants -/

/-- PERM (30_encoding.md R91): the precode symbol each precode-length field is for. -/
def permTable : List Nat := [16, 17, 18, 0, 8, 7, 9, 6, 10, 5, 11, 4, 12, 3, 13, 2, 14, 1, 15]

/-- LEN_BASE of litlen symbols 256..287 (30_encoding.md R95, R96). -/
def lenBaseTable : List Nat :=
  [0, 3, 4, 5, 6, 7, 8, 9, 10, 11, 13, 15, 17, 19, 23, 27] ++
  [31, 35, 43, 51, 59, 67, 83, 99, 115, 131, 163, 195, 227, 258, 258, 258]

/-- LEN_EXTRA of litlen symbols 256..287 (30_encoding.md R95, R96). -/
def lenExtraTable : List Nat :=
  [0, 0, 0, 0, 0, 0, 0, 0, 0, 1, 1, 1, 1, 2, 2, 2] ++
  [2, 3, 3, 3, 3, 4, 4, 4, 4, 5, 5, 5, 5, 0, 0, 0]

/-- OFF_BASE of offset symbols 0..31 (30_encoding.md R97). -/
def offBaseTable : List Nat :=
  [1, 2, 3, 4, 5, 7, 9, 13, 17, 25, 33, 49, 65, 97, 129, 193] ++
  [257, 385, 513, 769, 1025, 1537, 2049, 3073, 4097, 6145, 8193, 12289, 16385, 24577, 32769, 49153]

/-- OFF_EXTRA of offset symbols 0..31 (30_encoding.md R97). -/
def offExtraTable : List Nat :=
  [0, 0, 0, 0, 1, 1, 2, 2, 3, 3, 4, 4, 5, 5, 6, 6] ++
  [7, 7, 8, 8, 9, 9, 10, 10, 11, 11, 12, 12, 13, 13, 14, 14]

/-- LEN_BASE[s]. -/
def lenBase (s : Nat) : Nat := lenBaseTable.getD (s - 256) 0

/-- LEN_EXTRA[s]. -/
def lenExtra (s : Nat) : Nat := lenExtraTable.getD (s - 256) 0

/-- OFF_BASE[s]. -/
def offBase (s : Nat) : Nat := offBaseTable.getD s 0

/-- OFF_EXTRA[s]. -/
def offExtra (s : Nat) : Nat := offExtraTable.getD s 0

/-- STATIC_LITLEN_LENS (30_encoding.md R87, 42_block_control.md R187). -/
def staticLitlenLens : List Nat :=
  List.replicate 144 8 ++ List.replicate 112 9 ++ List.replicate 24 7 ++ List.replicate 8 8

/-- STATIC_OFFSET_LENS (30_encoding.md R87, 42_block_control.md R187). -/
def staticOffsetLens : List Nat := List.replicate 32 5

/-- PRE_RES[s] (30_encoding.md R94). -/
def preRes (s : Nat) : BitVec 24 := BitVec.ofNat 24 s

/-- LL_RES[s] (30_encoding.md R95): the literal flag is result bit 22; base in bits 16:8, extra bits in 7:0. -/
def llRes (s : Nat) : BitVec 24 :=
  if s < 256 then 0x400000#24 ||| BitVec.ofNat 24 s else BitVec.ofNat 24 (lenBase s * 2 ^ 8 + lenExtra s)

/-- OFF_RES[s] (30_encoding.md R97): extra bits in 23:16, base in 15:0. -/
def offRes (s : Nat) : BitVec 24 := BitVec.ofNat 24 (offExtra s * 2 ^ 16 + offBase s)

/-! ## The parameters of each code (41_huffman_tables.md R140) -/

/-- `*_TABLEBITS` of a code. -/
def tableBits (cfg : Config) : Code → Nat
  | .precode => cfg.precodeTableBits
  | .litlen => cfg.litlenTableBits
  | .offset => cfg.offsetTableBits

/-- `*_TABLE_SIZE` of a code. -/
def tableSize (cfg : Config) : Code → Nat
  | .precode => cfg.precodeTableSize
  | .litlen => cfg.litlenTableSize
  | .offset => cfg.offsetTableSize

/-- `maxCodewordLen` of a code (00_scope.md R6). -/
def Code.maxLen : Code → Nat
  | .precode => 7
  | .litlen => 15
  | .offset => 15

/-- The largest number of symbols of a code (00_scope.md R5). -/
def Code.maxSyms : Code → Nat
  | .precode => 19
  | .litlen => 288
  | .offset => 32

/-- The decode-result constants of a code. -/
def Code.result : Code → Nat → BitVec 24
  | .precode => preRes
  | .litlen => llRes
  | .offset => offRes

/-- ERR_DETAIL of a build error of a code (60_exceptions.md R262). -/
def Code.detail : Code → BitVec 4
  | .precode => 1#4
  | .litlen => 2#4
  | .offset => 3#4

/-- The table memory of a code (10_state.md R36). -/
def State.table (s : State) : Code → Table
  | .precode => s.pt
  | .litlen => s.lt
  | .offset => s.ot

/-- Replace the table memory of a code. -/
def setTable (c : Code) (t : Table) (s : State) : State :=
  match c with
  | .precode => { s with pt := t }
  | .litlen => { s with lt := t }
  | .offset => { s with ot := t }

/-! ## Entry fields (41_huffman_tables.md R155) -/

/-- A direct entry: `(result << 8) | length`. -/
def directEntry (res : BitVec 24) (len : Nat) : Word := (res.setWidth 32 <<< 8) ||| BitVec.ofNat 32 len

/-- A subtable pointer: SUB, the start index in bits 30:8, the width in bits 7:0. -/
def pointerEntry (start sbits : Nat) : Word := 0x80000000#32 ||| (BitVec.ofNat 32 start <<< 8) ||| BitVec.ofNat 32 sbits

/-- E.SUB = e[31]. -/
def entrySub (e : Word) : Bool := e.getLsbD 31

/-- E.LIT = e[30]. -/
def entryLit (e : Word) : Bool := e.getLsbD 30

/-- E.LEN = E.WIDTH = e[7:0]. -/
def entryLen (e : Word) : Nat := (e.extractLsb' 0 8).toNat

/-- E.BYTE = E.LEXTRA = E.PSYM = e[15:8]. -/
def entryByte (e : Word) : Byte := e.extractLsb' 8 8

/-- E.LBASE = e[24:16]. -/
def entryLbase (e : Word) : Nat := (e.extractLsb' 16 9).toNat

/-- E.DBASE = e[23:8]. -/
def entryDbase (e : Word) : Nat := (e.extractLsb' 8 16).toNat

/-- E.DEXTRA = e[31:24]. -/
def entryDextra (e : Word) : Nat := (e.extractLsb' 24 8).toNat

/-- E.START = e[30:8]. -/
def entryStart (e : Word) : Nat := (e.extractLsb' 8 23).toNat

/-- The result a direct entry carries, bits 31:8. -/
def entryResult (e : Word) : BitVec 24 := e.extractLsb' 8 24

/-! ## The symbol a result stands for -/

/-- The first symbol from 256 up whose litlen result is `r` (30_encoding.md R98: an entry is told apart by its result alone).
285, 286 and 287 have one result, so 285 is found for all three (log 16). -/
def lengthSymbol (r : BitVec 24) : Option Nat := (List.range' 256 32).find? fun s => llRes s == r

/-- The offset symbol whose result is `r` (30_encoding.md R97). -/
def offsetSymbol (r : BitVec 24) : Option Nat := (List.range 32).find? fun s => offRes s == r

/-- The extra bits of a precode symbol (30_encoding.md R92). -/
def presymExtra (sym : Nat) : Nat := if sym = 16 then 2 else if sym = 17 then 3 else if sym = 18 then 7 else 0

/-- An element's instruction from the decoder, or the model fault for a result no symbol has (log 21). -/
def decoded (d : Except Reject Instr) (s : State) : Res Instr :=
  match d with
  | .ok i => .ok i s
  | .error _ => .fault .entryUndecodable

end Sys2Proof.Machine
end

