-- ==== Sys2Proof/Machine/Flags.lean ====
section
/-! DEFINITION. What is computed from the state: BUSY, DONE, ERROR, the interrupt line, STATUS and every register the host reads. -/

namespace Sys2Proof.Machine

/-- The numeric code of a control state (10_state.md R21). -/
def EngineState.code : EngineState → Nat
  | .idle => 0
  | .prime => 1
  | .header => 2
  | .dynTables => 3
  | .staticTables => 4
  | .decode => 5
  | .drain => 6
  | .done => 7
  | .error => 8

/-- The numeric code of an error (60_exceptions.md R261). -/
def ErrCode.code : ErrCode → Nat
  | .none => 0
  | .corruptHuffmanCode => 1
  | .unsupportedFeature => 2
  | .outputOverrun => 3
  | .corruptStream => 4
  | .laneUnderflow => 5
  | .configError => 6
  | .inputOverread => 7

/-- BUSY (10_state.md R21). -/
def State.busy (s : State) : Bool :=
  match s.state with
  | .prime | .header | .dynTables | .staticTables | .decode | .drain => true
  | .idle | .done | .error => false

/-- STATUS.DONE (10_state.md R41). -/
def State.isDone (s : State) : Bool := s.state == .done

/-- STATUS.ERROR (10_state.md R41). -/
def State.isError (s : State) : Bool := s.state == .error

/-- The interrupt output (10_state.md R51, 60_exceptions.md R266). -/
def State.irq (s : State) : Bool := s.irqEn && (s.isDone || s.isError)

/-- STATUS (10_state.md R41). -/
def State.statusReg (s : State) : Word :=
  BitVec.ofNat 32
    (s.busy.toNat + 2 * s.isDone.toNat + 4 * s.isError.toNat + 8 * s.overread.toNat + 16 * s.errCode.code
      + 256 * s.errDetail.toNat + 4096 * s.state.code + 65536 * s.staticLoaded.toNat + 131072 * s.isFinal.toNat)

/-- CTRL as read: START and ACK read 0 (10_state.md R40). -/
def State.ctrlReg (s : State) : Word := if s.irqEn then 4#32 else 0#32

/-- A read of the register at an aligned offset of the window (10_state.md R39 to R50); a read has no side effect on the engine
(45_host.md R243). -/
def State.readReg (s : State) (off : Nat) : Word :=
  match off with
  | 0x00 => s.ctrlReg
  | 0x04 => s.statusReg
  | 0x08 => s.inBase
  | 0x0C => s.inLen
  | 0x10 => s.outBase
  | 0x14 => s.outBound.setWidth 32
  | 0x18 => BitVec.ofNat 32 (s.outPos % 2 ^ 17)
  | 0x1C => BitVec.ofNat 32 s.inPos
  | 0x20 => BitVec.ofNat 32 s.cur.val
  | 0x24 => s.pend
  | _ => 0#32

/-- A write of a register other than CTRL at an aligned offset: configuration registers only, and only while BUSY = 0
(10_state.md R39, R42 to R45, R50). -/
def writeConfigReg (off : Nat) (v : Word) (s : State) : State :=
  if s.busy then s
  else
    match off with
    | 0x08 => { s with inBase := v }
    | 0x0C => { s with inLen := v }
    | 0x10 => { s with outBase := v }
    | 0x14 => { s with outBound := v.setWidth 17 }
    | _ => s

end Sys2Proof.Machine
end

