-- ==== Sys2Proof/Machine/TableBuilder.lean ====
section
/-! DEFINITION. The table engine: BUILD (41_huffman_tables.md R140 to R154) and LOOKUP (R156). -/

namespace Sys2Proof.Machine

/-! ## Counting, sorting, checking -/

/-- cnt[0..maxLen] (R141). -/
def lengthCounts (lens : List Nat) (maxLen : Nat) : List Nat := (List.range (maxLen + 1)).map fun len => lens.count len

/-- `used`, the codespace the lengths take; length 0 is excluded (R141, R142). -/
def codespaceUsed (lens : List Nat) (maxLen : Nat) : Nat :=
  ((List.range' 1 maxLen).map fun len => lens.count len * 2 ^ (maxLen - len)).sum

/-- The symbols of length `len`, in increasing order. -/
def symsOfLen (lens : List Nat) (len : Nat) : List Nat := (lens.zipIdx.filter fun p => p.1 == len).map fun p => p.2

/-- The stable sort of the symbols by codeword length (R143). -/
def sortSyms (lens : List Nat) (maxLen : Nat) : List Nat := (List.range (maxLen + 1)).flatMap fun len => symsOfLen lens len

/-! ## Filling the table -/

/-- BUILD's working state (R146, R149): the table, the current codeword held bit-reversed, its length, the codewords of that length
not yet placed, `end`, and the open subtable's prefix and start. -/
structure Builder where
  table : Table
  cw : Nat
  len : Nat
  count : Nat
  fin : Nat
  pfx : Option Nat
  start : Nat

/-- T[end + i] <- T[i] for i in 0..end-1, moving entries as they stand (R147). -/
def doubleTable (t : Table) (fin : Nat) : Table := (t.take fin ++ t.take fin ++ t.drop (2 * fin)).take t.length

/-- The bit-reversed increment of a `len`-bit codeword that is not all ones (R147, R151; 90_conflicts.md C2). -/
def nextCodeword (cw len : Nat) : Nat :=
  let bit := 2 ^ Nat.log2 (cw ^^^ (2 ^ len - 1))
  (cw &&& (bit - 1)) ||| bit

/-- The start of the direct phase (R146); with every length above `tb` it is the start of the subtable phase, where `end` is 2^tb
(R149). -/
def startDirect (cnts : List Nat) (tb maxLen : Nat) (t : Table) : Builder :=
  let len := ((List.range' 1 maxLen).find? fun l => cnts.getD l 0 != 0).getD 0
  { table := t, cw := 0, len := len, count := cnts.getD len 0, fin := 2 ^ min len tb, pfx := none, start := 0 }

/-- `while count = 0`: the next used length, doubling the filled part for each length up to `tb` (R147, R151). -/
def nextLength (cnts : List Nat) (tb : Nat) : Nat → Builder → Builder
  | 0, b => b
  | fuel + 1, b =>
    if b.count = 0 then
      let len := b.len + 1
      let b' := if len ≤ tb then { b with table := doubleTable b.table b.fin, fin := 2 * b.fin } else b
      nextLength cnts tb fuel { b' with len := len, count := cnts.getD len 0 }
    else b

/-- Step to the next codeword (R147, R151). -/
def nextSymbol (cnts : List Nat) (tb maxLen : Nat) (b : Builder) : Builder :=
  nextLength cnts tb maxLen { b with cw := nextCodeword b.cw b.len, count := b.count - 1 }

/-- `while len < tb`: double until the main table is full (R147, R148). -/
def fillMain : Nat → Table → Nat → Table
  | 0, t, _ => t
  | n + 1, t, fin => fillMain n (doubleTable t fin) (2 * fin)

/-- `while cs < 2^sbits`: the width of a new subtable (R149). -/
def subtableWidth (cnts : List Nat) (tb : Nat) : Nat → Nat → Nat → Nat
  | 0, sbits, _ => sbits
  | fuel + 1, sbits, cs =>
    if cs < 2 ^ sbits then subtableWidth cnts tb fuel (sbits + 1) (2 * cs + cnts.getD (tb + (sbits + 1)) 0) else sbits

/-- A new subtable whenever the low `tb` bits of the codeword change (R149). -/
def openSubtable (cnts : List Nat) (tb maxLen : Nat) (b : Builder) : Builder :=
  let pfx := b.cw % 2 ^ tb
  if b.pfx = some pfx then b
  else
    let sbits := subtableWidth cnts tb maxLen (b.len - tb) b.count
    { b with
      pfx := some pfx, start := b.fin, fin := b.fin + 2 ^ sbits,
      table := b.table.set pfx (some (pointerEntry b.fin sbits)) }

/-- T[i] <- entry for i, i + stride, … below `fin` (R150). -/
def fillStride (entry : Word) (stride fin : Nat) : Nat → Nat → Table → Table
  | 0, _, t => t
  | fuel + 1, i, t => if i < fin then fillStride entry stride fin fuel (i + stride) (t.set i (some entry)) else t

/-- The subtable fill of one symbol (R150). -/
def fillSubtable (res : BitVec 24) (tb : Nat) (b : Builder) : Builder :=
  let width := b.len - tb
  { b with
    table := fillStride (directEntry res width) (2 ^ width) b.fin (b.fin - b.start) (b.start + b.cw / 2 ^ tb) b.table }

/-- Place the used symbols in sorted order, each with the next codeword, until the all-ones codeword (R147 to R151). -/
def placeSymbols (res : Nat → BitVec 24) (cnts : List Nat) (tb maxLen : Nat) : List Nat → Builder → Table
  | [], b => b.table
  | sym :: rest, b =>
    if b.len ≤ tb then
      let b' := { b with table := b.table.set b.cw (some (directEntry (res sym) b.len)) }
      if b.cw = b.fin - 1 then fillMain (tb - b.len) b'.table b.fin
      else placeSymbols res cnts tb maxLen rest (nextSymbol cnts tb maxLen b')
    else
      let b' := fillSubtable (res sym) tb (openSubtable cnts tb maxLen b)
      if b.cw = 2 ^ b.len - 1 then b'.table
      else placeSymbols res cnts tb maxLen rest (nextSymbol cnts tb maxLen b')

/-- The table BUILD writes for a complete code, over what `t` held (R146 to R154). -/
def buildTable (res : Nat → BitVec 24) (tb maxLen : Nat) (lens : List Nat) (t : Table) : Table :=
  let cnts := lengthCounts lens maxLen
  placeSymbols res cnts tb maxLen ((sortSyms lens maxLen).drop (cnts.getD 0 0)) (startDirect cnts tb maxLen t)

/-- The sort's writes to `sorted_syms` (R143). -/
def sortScratch (lens : List Nat) (maxLen : Nat) (s : State) : State :=
  { s with
    sortedSyms := ((sortSyms lens maxLen).map fun x => BitVec.ofNat 9 x) ++ s.sortedSyms.drop lens.length }

/-- BUILD (R140 to R154) of code `c` from `lens`: overfull is CorruptHuffmanCode (R144), incomplete is UnsupportedFeature (R145),
each before any entry is written. -/
def build (c : Code) (lens : List Nat) (s : State) : Res Unit :=
  let used := codespaceUsed lens c.maxLen
  let s1 := sortScratch lens c.maxLen s
  if 2 ^ c.maxLen < used then raise .corruptHuffmanCode c.detail s1
  else if used < 2 ^ c.maxLen then raise .unsupportedFeature c.detail s1
  else
    .ok () (emit (.build c) (setTable c (buildTable c.result (tableBits s.cfg c) c.maxLen lens (s.table c)) s1))

/-! ## LOOKUP -/

/-- Read one entry of a table: an entry that holds no value is a model fault (10_state.md R36, R158). -/
def readEntry (c : Code) (i : Nat) (s : State) : Res Word :=
  match (s.table c).getD i none with
  | some e => .ok e s
  | none => .fault .tableSlotUnwritten

/-- LOOKUP(T, tb, lane) (R156). -/
def lookup (c : Code) (lane : Fin 32) (s : State) : Res Word :=
  (readEntry c (peek s lane (tableBits s.cfg c)) s).bind fun e s =>
    if entrySub e then
      (consume lane (tableBits s.cfg c) s).bind fun _ s =>
        (readEntry c (entryStart e + peek s lane (entryLen e)) s).bind fun e s =>
          (consume lane (entryLen e) s).bind fun _ s => .ok e s
    else (consume lane (entryLen e) s).bind fun _ s => .ok e s

/-! ## The table sizes START accepts (R152) -/

/-- How many of the low `w` bits of `v` are set. -/
def bitCount : Nat → Nat → Nat
  | 0, _ => 0
  | w + 1, v => v % 2 + bitCount w (v / 2)

/-- Whether `j` subtables of widths 1 to `b` can have `sum` entries together: `sum` is a sum of `j` powers of two from 2 to 2^b. -/
def isSubtableSum (j b sum : Nat) : Bool :=
  decide (sum % 2 = 0) && decide (2 * j ≤ sum) && decide (sum / 2 ^ b + bitCount b (sum % 2 ^ b) ≤ j)

/-- The largest sum of `j` such subtables that is at most the last argument. -/
def largestSubtableSum (j b : Nat) : Nat → Option Nat
  | 0 => if j = 0 then some 0 else none
  | sum + 1 =>
    if isSubtableSum j b (sum + 1) then some (sum + 1)
    else if sum + 1 < 2 * j then none
    else largestSubtableSum j b sum

/-- The largest extent of a complete code of at most `n` symbols that needs `k` subtables, the last of the full width
`b` = maxLen - tb; 2^tb where there is no such code (R152; how the number is found is log 10).
The 2^tb - k slots without a subtable take at least as many codewords as 2^tb - k has bits set. In the order of the codewords, a
subtable of width w after one of width v takes at least 2^v + w - v codewords, and the first one w + 1; so all of them take the sum of
the sizes of all but the last, and b + 1. -/
def extentWith (n tb maxLen k : Nat) : Nat :=
  let b := maxLen - tb
  let fixed := bitCount (tb + 1) (2 ^ tb - k) + b + 1
  if n < fixed then 2 ^ tb
  else
    match largestSubtableSum (k - 1) b (min (n - fixed) ((k - 1) * 2 ^ b)) with
    | some sum => 2 ^ tb + sum + 2 ^ b
    | none => 2 ^ tb

/-- The largest extents R152 states: those under the default widths. -/
def statedExtent : Code → Nat → Option Nat
  | .precode, 7 => some 128
  | .litlen, 10 => some 1334
  | .offset, 8 => some 402
  | _, _ => none

/-- Whether `size` entries hold every complete code of at most `n` symbols (R152): with tb at maxLen or above there are no subtables. -/
def extentFits (n tb maxLen size : Nat) : Bool :=
  decide (2 ^ tb ≤ size)
    && (decide (maxLen ≤ tb) || (List.range' 1 (min (2 ^ tb) n)).all fun k => decide (extentWith n tb maxLen k ≤ size))

/-- Whether a code's table is as large as the largest extent any complete code can have (R152, 93 U15); a configuration whose table is
not is refused, and so is a width that PEEK does not have (40_lane_demux.md R121; log 10). -/
def tablesAdmissible (cfg : Config) (c : Code) : Bool :=
  match statedExtent c (tableBits cfg c) with
  | some extent => decide (extent ≤ tableSize cfg c)
  | none => decide (tableBits cfg c ≤ 32) && extentFits c.maxSyms (tableBits cfg c) c.maxLen (tableSize cfg c)

end Sys2Proof.Machine
end

