-- ==== Sys2Proof/Machine/Ctrl.lean ====
section
/-! DEFINITION. The CTRL commands (45_host.md R240 to R242) and TILE_INIT (42_block_control.md R171). -/

namespace Sys2Proof.Machine

/-- A CTRL write sets IRQ_EN whatever BUSY is (R240). -/
def writeIrqEn (irqEn : Bool) (s : State) : State := { s with irqEn := irqEn }

/-- TILE_INIT (42_block_control.md R171): the per-tile state is cleared; `static_loaded`, the scratch arrays and the tables are not.
The tile's windows are closed to the host from now on, and no byte of them is contested yet (20_memory.md R71; log 12). -/
def tileInit (s : State) : State :=
  { s with
    lanes := Vector.replicate 32 {}, cur := 0, pend := 0#32, inPos := 0, outPos := 0, isFinal := false, btype := 0#2,
    overread := false, state := .prime, openTiles := s.windows :: s.openTiles, contested := [] }

/-- Whether the `n`-byte windows at `a` and `b` share an address, each of which may wrap (20_memory.md R69). -/
def windowsMeet (aw a na b nb : Nat) : Bool :=
  decide (0 < na) && decide (0 < nb)
    && (decide ((b + (2 ^ aw - a % 2 ^ aw)) % 2 ^ aw < na) || decide ((a + (2 ^ aw - b % 2 ^ aw)) % 2 ^ aw < nb))

/-- Every device region: the engine's own register window (60_exceptions.md R270) and the configuration's. -/
def deviceRegions (cfg : Config) : List Region := ⟨cfg.engineBase.toNat, 256⟩ :: cfg.devices

/-- Whether the input or the output window touches a device region (20_memory.md R68). -/
def State.windowOnDevice (s : State) : Bool :=
  (deviceRegions s.cfg).any fun r =>
    windowsMeet s.cfg.addrWidth s.inBase.toNat s.inLen.toNat r.base r.size
      || windowsMeet s.cfg.addrWidth s.outBase.toNat s.outBound.toNat r.base r.size

/-- Whether every table's parameters are ones the spec defines (41_huffman_tables.md R152). -/
def configAdmissible (cfg : Config) : Bool :=
  tablesAdmissible cfg .precode && tablesAdmissible cfg .litlen && tablesAdmissible cfg .offset

/-- The state an accepted START leaves (R241): the last result forgotten, then TILE_INIT. -/
def startTile (s : State) : State := tileInit { s with errCode := .none, errDetail := 0#4 }

/-- START with BUSY = 0 (R241): CONFIG_ERROR for a bound above one tile; the configurations the spec leaves undefined are refused
(20_memory.md R68, 41_huffman_tables.md R152; log 9, log 10). No rule says which of the two comes first; that the bound's CONFIG_ERROR does,
and nothing is then refused, is a DESIGN CHOICE (log 9). -/
def start (s : State) : Res Unit :=
  if 65536 < s.outBound.toNat then raise .configError 0#4 (startTile s)
  else if configAdmissible s.cfg = false then .refused .tableParameters
  else if s.windowOnDevice then .refused .windowOnDevice
  else .ok () (startTile s)

/-- CTRL.START (R240, R241): IRQ_EN is written; START acts only when BUSY = 0. -/
def execCtrlStart (irqEn : Bool) (s : State) : Host.Outcome State Fault Refusal :=
  if s.busy then .next (writeIrqEn irqEn s) else (start (writeIrqEn irqEn s)).outcome

/-- CTRL.ACK (R240, R242): IRQ_EN is written; ACK acts only when BUSY = 0. -/
def execCtrlAck (irqEn : Bool) (s : State) : Host.Outcome State Fault Refusal :=
  if s.busy then .next (writeIrqEn irqEn s) else .next (acknowledge (writeIrqEn irqEn s))

/-- CTRL.IRQ_EN (R240): a CTRL write with neither START nor ACK only writes IRQ_EN. -/
def execCtrlIrqEn (irqEn : Bool) (s : State) : Host.Outcome State Fault Refusal := .next (writeIrqEn irqEn s)

end Sys2Proof.Machine
end

