-- ==== Sys2Proof/Machine/Header.lean ====
section
/-! DEFINITION. The block header's dispatch (42_block_control.md R172 to R175), the dynamic counts (R176), the precode lengths (R177).
The elements' bits have been taken by the fetch (Machine/Engine.lean); these are the effects. -/

namespace Sys2Proof.Machine

/-- `is_final` and `btype` are latched before the dispatch (R172). -/
def latchHeader (final : Bool) (btype : BitVec 2) (s : State) : State := { s with isFinal := final, btype := btype }

/-- BHDR.STORED (R174): UnsupportedFeature, detail 4. -/
def execBhdrStored (final : Bool) (s : State) : Host.Outcome State Fault Refusal :=
  (raise (α := Unit) .unsupportedFeature 4#4 (latchHeader final 0#2 s)).outcome

/-- BHDR.STATIC (R172, R186): on to STATIC_TABLES. -/
def execBhdrStatic (final : Bool) (s : State) : Host.Outcome State Fault Refusal :=
  .next { latchHeader final 1#2 s with state := .staticTables }

/-- BHDR.DYNAMIC (R172, R176): on to DYN_TABLES, phase COUNTS. -/
def execBhdrDynamic (final : Bool) (s : State) : Host.Outcome State Fault Refusal :=
  .next { latchHeader final 2#2 s with state := .dynTables, phase := .counts }

/-- BHDR.RESERVED (R175): CorruptStream, detail 5. -/
def execBhdrReserved (final : Bool) (s : State) : Host.Outcome State Fault Refusal :=
  (raise (α := Unit) .corruptStream 5#4 (latchHeader final 3#2 s)).outcome

/-- DCOUNTS (R176): the static tables are no longer loaded, the three counts are latched, and the precode lengths follow. -/
def execDcounts (hlit hdist hclen : Nat) (s : State) : Host.Outcome State Fault Refusal :=
  .next { s with staticLoaded := false, hlit := hlit, hdist := hdist, hclen := hclen, pi := 0, phase := .prelens }

/-- `for pi in hclen..18: precode_lens[PERM[pi]] <- 0` (R177). -/
def zeroFillPrecode (hclen : Nat) (l : List (BitVec 3)) : List (BitVec 3) :=
  (permTable.drop hclen).foldl (fun l sym => l.set sym 0#3) l

/-- One precode length (R177); the last of them zero-fills the rest, which runs `pi` on to 19 (R30; log 26), and moves to PREBUILD. -/
def putPrecodeLen (len : BitVec 3) (s : State) : State :=
  let l := s.precodeLens.set (permTable.getD s.pi 19) len
  if s.hclen ≤ s.pi + 1 then { s with precodeLens := zeroFillPrecode s.hclen l, pi := 19, phase := .prebuild }
  else { s with precodeLens := l, pi := s.pi + 1 }

/-- PRELEN (R177). -/
def execPrelen (len : BitVec 3) (s : State) : Host.Outcome State Fault Refusal := .next (putPrecodeLen len s)

end Sys2Proof.Machine
end

