-- ==== Sys2Proof/Machine/Litlen.lean ====
section
/-! DEFINITION. The litlen elements (43_symbol_decode.md R202 to R205): literal, end of block, match record. -/

namespace Sys2Proof.Machine

/-- LITERAL (R202): the bound is checked before the byte is written; then ADVANCE. -/
def literal (byte : Byte) (s : State) : Res Unit :=
  if s.outBound.toNat ≤ s.outPos then raise .outputOverrun 8#4 s
  else advance { outWrite s.outPos byte s with outPos := s.outPos + 1 }

/-- What MATCH_RECORD records on lane `c` (R205): the slot, the event, the reserved bytes, the pending bit. -/
def recordMatch (c : Fin 32) (len : Nat) (s : State) : State :=
  setPending c
    { emit (.record c s.outPos len) (setLane c { s.lane c with plen := len, pdst := s.outPos } s) with
      outPos := s.outPos + len }

/-- MATCH_RECORD on the active lane (R205): a match past the bound fails; else it is recorded, and ADVANCE. -/
def matchRecord (len : Nat) (s : State) : Res Unit :=
  if s.outBound.toNat < s.outPos + len then raise .outputOverrun 9#4 s
  else advance (recordMatch s.cur len s)

/-- LLSYM.LITERAL (R202). -/
def execLlLiteral (byte : Byte) (s : State) : Host.Outcome State Fault Refusal := (literal byte s).outcome

/-- The end of a block (R204): to DRAIN, with no ADVANCE (the other reading is log 34). -/
def endOfBlock (s : State) : Res Unit :=
  let t := { emit (.eob s.cur) s with state := .drain }
  if s.cfg.reading.eobAdvances then advance t else .ok () t

/-- LLSYM.EOB (R204). -/
def execLlEob (s : State) : Host.Outcome State Fault Refusal := (endOfBlock s).outcome

/-- LLSYM.LEN_257 (R205, 30_encoding.md R96). -/
def execLlLen257 (s : State) : Host.Outcome State Fault Refusal := (matchRecord (lenBase 257) s).outcome

/-- LLSYM.LEN_258 (R205, 30_encoding.md R96). -/
def execLlLen258 (s : State) : Host.Outcome State Fault Refusal := (matchRecord (lenBase 258) s).outcome

/-- LLSYM.LEN_259 (R205, 30_encoding.md R96). -/
def execLlLen259 (s : State) : Host.Outcome State Fault Refusal := (matchRecord (lenBase 259) s).outcome

/-- LLSYM.LEN_260 (R205, 30_encoding.md R96). -/
def execLlLen260 (s : State) : Host.Outcome State Fault Refusal := (matchRecord (lenBase 260) s).outcome

/-- LLSYM.LEN_261 (R205, 30_encoding.md R96). -/
def execLlLen261 (s : State) : Host.Outcome State Fault Refusal := (matchRecord (lenBase 261) s).outcome

/-- LLSYM.LEN_262 (R205, 30_encoding.md R96). -/
def execLlLen262 (s : State) : Host.Outcome State Fault Refusal := (matchRecord (lenBase 262) s).outcome

/-- LLSYM.LEN_263 (R205, 30_encoding.md R96). -/
def execLlLen263 (s : State) : Host.Outcome State Fault Refusal := (matchRecord (lenBase 263) s).outcome

/-- LLSYM.LEN_264 (R205, 30_encoding.md R96). -/
def execLlLen264 (s : State) : Host.Outcome State Fault Refusal := (matchRecord (lenBase 264) s).outcome

/-- LLSYM.LEN_265 (R205, 30_encoding.md R96). -/
def execLlLen265 (extra : BitVec 1) (s : State) : Host.Outcome State Fault Refusal := (matchRecord (lenBase 265 + extra.toNat) s).outcome

/-- LLSYM.LEN_266 (R205, 30_encoding.md R96). -/
def execLlLen266 (extra : BitVec 1) (s : State) : Host.Outcome State Fault Refusal := (matchRecord (lenBase 266 + extra.toNat) s).outcome

/-- LLSYM.LEN_267 (R205, 30_encoding.md R96). -/
def execLlLen267 (extra : BitVec 1) (s : State) : Host.Outcome State Fault Refusal := (matchRecord (lenBase 267 + extra.toNat) s).outcome

/-- LLSYM.LEN_268 (R205, 30_encoding.md R96). -/
def execLlLen268 (extra : BitVec 1) (s : State) : Host.Outcome State Fault Refusal := (matchRecord (lenBase 268 + extra.toNat) s).outcome

/-- LLSYM.LEN_269 (R205, 30_encoding.md R96). -/
def execLlLen269 (extra : BitVec 2) (s : State) : Host.Outcome State Fault Refusal := (matchRecord (lenBase 269 + extra.toNat) s).outcome

/-- LLSYM.LEN_270 (R205, 30_encoding.md R96). -/
def execLlLen270 (extra : BitVec 2) (s : State) : Host.Outcome State Fault Refusal := (matchRecord (lenBase 270 + extra.toNat) s).outcome

/-- LLSYM.LEN_271 (R205, 30_encoding.md R96). -/
def execLlLen271 (extra : BitVec 2) (s : State) : Host.Outcome State Fault Refusal := (matchRecord (lenBase 271 + extra.toNat) s).outcome

/-- LLSYM.LEN_272 (R205, 30_encoding.md R96). -/
def execLlLen272 (extra : BitVec 2) (s : State) : Host.Outcome State Fault Refusal := (matchRecord (lenBase 272 + extra.toNat) s).outcome

/-- LLSYM.LEN_273 (R205, 30_encoding.md R96). -/
def execLlLen273 (extra : BitVec 3) (s : State) : Host.Outcome State Fault Refusal := (matchRecord (lenBase 273 + extra.toNat) s).outcome

/-- LLSYM.LEN_274 (R205, 30_encoding.md R96). -/
def execLlLen274 (extra : BitVec 3) (s : State) : Host.Outcome State Fault Refusal := (matchRecord (lenBase 274 + extra.toNat) s).outcome

/-- LLSYM.LEN_275 (R205, 30_encoding.md R96). -/
def execLlLen275 (extra : BitVec 3) (s : State) : Host.Outcome State Fault Refusal := (matchRecord (lenBase 275 + extra.toNat) s).outcome

/-- LLSYM.LEN_276 (R205, 30_encoding.md R96). -/
def execLlLen276 (extra : BitVec 3) (s : State) : Host.Outcome State Fault Refusal := (matchRecord (lenBase 276 + extra.toNat) s).outcome

/-- LLSYM.LEN_277 (R205, 30_encoding.md R96). -/
def execLlLen277 (extra : BitVec 4) (s : State) : Host.Outcome State Fault Refusal := (matchRecord (lenBase 277 + extra.toNat) s).outcome

/-- LLSYM.LEN_278 (R205, 30_encoding.md R96). -/
def execLlLen278 (extra : BitVec 4) (s : State) : Host.Outcome State Fault Refusal := (matchRecord (lenBase 278 + extra.toNat) s).outcome

/-- LLSYM.LEN_279 (R205, 30_encoding.md R96). -/
def execLlLen279 (extra : BitVec 4) (s : State) : Host.Outcome State Fault Refusal := (matchRecord (lenBase 279 + extra.toNat) s).outcome

/-- LLSYM.LEN_280 (R205, 30_encoding.md R96). -/
def execLlLen280 (extra : BitVec 4) (s : State) : Host.Outcome State Fault Refusal := (matchRecord (lenBase 280 + extra.toNat) s).outcome

/-- LLSYM.LEN_281 (R205, 30_encoding.md R96). -/
def execLlLen281 (extra : BitVec 5) (s : State) : Host.Outcome State Fault Refusal := (matchRecord (lenBase 281 + extra.toNat) s).outcome

/-- LLSYM.LEN_282 (R205, 30_encoding.md R96). -/
def execLlLen282 (extra : BitVec 5) (s : State) : Host.Outcome State Fault Refusal := (matchRecord (lenBase 282 + extra.toNat) s).outcome

/-- LLSYM.LEN_283 (R205, 30_encoding.md R96). -/
def execLlLen283 (extra : BitVec 5) (s : State) : Host.Outcome State Fault Refusal := (matchRecord (lenBase 283 + extra.toNat) s).outcome

/-- LLSYM.LEN_284 (R205, 30_encoding.md R96). -/
def execLlLen284 (extra : BitVec 5) (s : State) : Host.Outcome State Fault Refusal := (matchRecord (lenBase 284 + extra.toNat) s).outcome

/-- LLSYM.LEN_285 (R205, 30_encoding.md R96). -/
def execLlLen285 (s : State) : Host.Outcome State Fault Refusal := (matchRecord (lenBase 285) s).outcome

/-- LLSYM.LEN_286 (R205, 30_encoding.md R96). -/
def execLlLen286 (s : State) : Host.Outcome State Fault Refusal := (matchRecord (lenBase 286) s).outcome

/-- LLSYM.LEN_287 (R205, 30_encoding.md R96). -/
def execLlLen287 (s : State) : Host.Outcome State Fault Refusal := (matchRecord (lenBase 287) s).outcome

end Sys2Proof.Machine
end

