-- ==== Sys2Proof/Machine/Offset.lean ====
section
/-! DEFINITION. The offset elements (44_match_copy.md R220 to R224): the distance, the copy, the cleared pending bit. -/

namespace Sys2Proof.Machine

/-- `n` bytes of a copy from its `j`-th on, ascending, one byte at a time (R223). -/
def copyBytes (dst dist : Nat) : Nat → Nat → State → State
  | 0, _, s => s
  | n + 1, j, s =>
    let r := outRead (dst - dist + j) s
    copyBytes dst dist n (j + 1) (outWrite (dst + j) r.1 r.2)

/-- COPY(c, dist) (R223): a distance before the tile's first byte is CorruptStream, detail 7, with nothing written. -/
def copy (c : Fin 32) (dist : Nat) (s : State) : Res Unit :=
  let l := s.lane c
  if l.pdst < dist then raise .corruptStream 7#4 s
  else .ok () (emit (.copy c l.pdst dist l.plen) (copyBytes l.pdst dist l.plen 0 s))

/-- The active lane's copy at a distance, its pending bit cleared, and ADVANCE (R220, R224, R225). -/
def matchCopy (dist : Nat) (s : State) : Res Unit :=
  (copy s.cur dist s).bind fun _ s => advance (clearPending s.cur s)

/-- OFFSYM.DIST_0 (R220, R221, 30_encoding.md R97). -/
def execOffDist0 (s : State) : Host.Outcome State Fault Refusal := (matchCopy (offBase 0) s).outcome

/-- OFFSYM.DIST_1 (R220, R221, 30_encoding.md R97). -/
def execOffDist1 (s : State) : Host.Outcome State Fault Refusal := (matchCopy (offBase 1) s).outcome

/-- OFFSYM.DIST_2 (R220, R221, 30_encoding.md R97). -/
def execOffDist2 (s : State) : Host.Outcome State Fault Refusal := (matchCopy (offBase 2) s).outcome

/-- OFFSYM.DIST_3 (R220, R221, 30_encoding.md R97). -/
def execOffDist3 (s : State) : Host.Outcome State Fault Refusal := (matchCopy (offBase 3) s).outcome

/-- OFFSYM.DIST_4 (R220, R221, 30_encoding.md R97). -/
def execOffDist4 (extra : BitVec 1) (s : State) : Host.Outcome State Fault Refusal := (matchCopy (offBase 4 + extra.toNat) s).outcome

/-- OFFSYM.DIST_5 (R220, R221, 30_encoding.md R97). -/
def execOffDist5 (extra : BitVec 1) (s : State) : Host.Outcome State Fault Refusal := (matchCopy (offBase 5 + extra.toNat) s).outcome

/-- OFFSYM.DIST_6 (R220, R221, 30_encoding.md R97). -/
def execOffDist6 (extra : BitVec 2) (s : State) : Host.Outcome State Fault Refusal := (matchCopy (offBase 6 + extra.toNat) s).outcome

/-- OFFSYM.DIST_7 (R220, R221, 30_encoding.md R97). -/
def execOffDist7 (extra : BitVec 2) (s : State) : Host.Outcome State Fault Refusal := (matchCopy (offBase 7 + extra.toNat) s).outcome

/-- OFFSYM.DIST_8 (R220, R221, 30_encoding.md R97). -/
def execOffDist8 (extra : BitVec 3) (s : State) : Host.Outcome State Fault Refusal := (matchCopy (offBase 8 + extra.toNat) s).outcome

/-- OFFSYM.DIST_9 (R220, R221, 30_encoding.md R97). -/
def execOffDist9 (extra : BitVec 3) (s : State) : Host.Outcome State Fault Refusal := (matchCopy (offBase 9 + extra.toNat) s).outcome

/-- OFFSYM.DIST_10 (R220, R221, 30_encoding.md R97). -/
def execOffDist10 (extra : BitVec 4) (s : State) : Host.Outcome State Fault Refusal := (matchCopy (offBase 10 + extra.toNat) s).outcome

/-- OFFSYM.DIST_11 (R220, R221, 30_encoding.md R97). -/
def execOffDist11 (extra : BitVec 4) (s : State) : Host.Outcome State Fault Refusal := (matchCopy (offBase 11 + extra.toNat) s).outcome

/-- OFFSYM.DIST_12 (R220, R221, 30_encoding.md R97). -/
def execOffDist12 (extra : BitVec 5) (s : State) : Host.Outcome State Fault Refusal := (matchCopy (offBase 12 + extra.toNat) s).outcome

/-- OFFSYM.DIST_13 (R220, R221, 30_encoding.md R97). -/
def execOffDist13 (extra : BitVec 5) (s : State) : Host.Outcome State Fault Refusal := (matchCopy (offBase 13 + extra.toNat) s).outcome

/-- OFFSYM.DIST_14 (R220, R221, 30_encoding.md R97). -/
def execOffDist14 (extra : BitVec 6) (s : State) : Host.Outcome State Fault Refusal := (matchCopy (offBase 14 + extra.toNat) s).outcome

/-- OFFSYM.DIST_15 (R220, R221, 30_encoding.md R97). -/
def execOffDist15 (extra : BitVec 6) (s : State) : Host.Outcome State Fault Refusal := (matchCopy (offBase 15 + extra.toNat) s).outcome

/-- OFFSYM.DIST_16 (R220, R221, 30_encoding.md R97). -/
def execOffDist16 (extra : BitVec 7) (s : State) : Host.Outcome State Fault Refusal := (matchCopy (offBase 16 + extra.toNat) s).outcome

/-- OFFSYM.DIST_17 (R220, R221, 30_encoding.md R97). -/
def execOffDist17 (extra : BitVec 7) (s : State) : Host.Outcome State Fault Refusal := (matchCopy (offBase 17 + extra.toNat) s).outcome

/-- OFFSYM.DIST_18 (R220, R221, 30_encoding.md R97). -/
def execOffDist18 (extra : BitVec 8) (s : State) : Host.Outcome State Fault Refusal := (matchCopy (offBase 18 + extra.toNat) s).outcome

/-- OFFSYM.DIST_19 (R220, R221, 30_encoding.md R97). -/
def execOffDist19 (extra : BitVec 8) (s : State) : Host.Outcome State Fault Refusal := (matchCopy (offBase 19 + extra.toNat) s).outcome

/-- OFFSYM.DIST_20 (R220, R221, 30_encoding.md R97). -/
def execOffDist20 (extra : BitVec 9) (s : State) : Host.Outcome State Fault Refusal := (matchCopy (offBase 20 + extra.toNat) s).outcome

/-- OFFSYM.DIST_21 (R220, R221, 30_encoding.md R97). -/
def execOffDist21 (extra : BitVec 9) (s : State) : Host.Outcome State Fault Refusal := (matchCopy (offBase 21 + extra.toNat) s).outcome

/-- OFFSYM.DIST_22 (R220, R221, 30_encoding.md R97). -/
def execOffDist22 (extra : BitVec 10) (s : State) : Host.Outcome State Fault Refusal := (matchCopy (offBase 22 + extra.toNat) s).outcome

/-- OFFSYM.DIST_23 (R220, R221, 30_encoding.md R97). -/
def execOffDist23 (extra : BitVec 10) (s : State) : Host.Outcome State Fault Refusal := (matchCopy (offBase 23 + extra.toNat) s).outcome

/-- OFFSYM.DIST_24 (R220, R221, 30_encoding.md R97). -/
def execOffDist24 (extra : BitVec 11) (s : State) : Host.Outcome State Fault Refusal := (matchCopy (offBase 24 + extra.toNat) s).outcome

/-- OFFSYM.DIST_25 (R220, R221, 30_encoding.md R97). -/
def execOffDist25 (extra : BitVec 11) (s : State) : Host.Outcome State Fault Refusal := (matchCopy (offBase 25 + extra.toNat) s).outcome

/-- OFFSYM.DIST_26 (R220, R221, 30_encoding.md R97). -/
def execOffDist26 (extra : BitVec 12) (s : State) : Host.Outcome State Fault Refusal := (matchCopy (offBase 26 + extra.toNat) s).outcome

/-- OFFSYM.DIST_27 (R220, R221, 30_encoding.md R97). -/
def execOffDist27 (extra : BitVec 12) (s : State) : Host.Outcome State Fault Refusal := (matchCopy (offBase 27 + extra.toNat) s).outcome

/-- OFFSYM.DIST_28 (R220, R221, 30_encoding.md R97). -/
def execOffDist28 (extra : BitVec 13) (s : State) : Host.Outcome State Fault Refusal := (matchCopy (offBase 28 + extra.toNat) s).outcome

/-- OFFSYM.DIST_29 (R220, R221, 30_encoding.md R97). -/
def execOffDist29 (extra : BitVec 13) (s : State) : Host.Outcome State Fault Refusal := (matchCopy (offBase 29 + extra.toNat) s).outcome

/-- OFFSYM.DIST_30 (R220, R221, 30_encoding.md R97). -/
def execOffDist30 (extra : BitVec 14) (s : State) : Host.Outcome State Fault Refusal := (matchCopy (offBase 30 + extra.toNat) s).outcome

/-- OFFSYM.DIST_31 (R220, R221, 30_encoding.md R97). -/
def execOffDist31 (extra : BitVec 14) (s : State) : Host.Outcome State Fault Refusal := (matchCopy (offBase 31 + extra.toNat) s).outcome

end Sys2Proof.Machine
end

