-- ==== Sys2Proof/Machine/Presym.lean ====
section
/-! DEFINITION. The precode elements (42_block_control.md R179 to R184): explicit lengths and repeats into `lens`. -/

namespace Sys2Proof.Machine

/-- `l[i .. i+n-1] <- v`; a write past the list's end is dropped (no rule makes one, R184). -/
def setRun {α : Type} (v : α) : Nat → Nat → List α → List α
  | _, 0, l => l
  | i, n + 1, l => setRun v (i + 1) n (l.set i v)

/-- `n` codeword lengths `v` from `li` on, then the end of the length run (R180 to R184). -/
def putLengths (v : BitVec 4) (n : Nat) (s : State) : State :=
  { s with
    lens := setRun v s.li n s.lens, li := s.li + n,
    phase := if s.hlit + s.hdist ≤ s.li + n then .build else s.phase }

/-- PRESYM.REP16 (R181): CorruptStream, detail 6, when there is no previous length; else 3 + extra copies of it. -/
def execPresymRep16 (extra : BitVec 2) (s : State) : Host.Outcome State Fault Refusal :=
  if s.li = 0 then (raise (α := Unit) .corruptStream 6#4 s).outcome
  else .next (putLengths (s.lens.getD (s.li - 1) 0#4) (3 + extra.toNat) s)

/-- PRESYM.ZERO17 (R182): 3 + extra zeros. -/
def execPresymZero17 (extra : BitVec 3) (s : State) : Host.Outcome State Fault Refusal :=
  .next (putLengths 0#4 (3 + extra.toNat) s)

/-- PRESYM.ZERO18 (R183): 11 + extra zeros. -/
def execPresymZero18 (extra : BitVec 7) (s : State) : Host.Outcome State Fault Refusal :=
  .next (putLengths 0#4 (11 + extra.toNat) s)

/-- PRESYM.LEN0 (R180). -/
def execPresymLen0 (s : State) : Host.Outcome State Fault Refusal := .next (putLengths 0#4 1 s)

/-- PRESYM.LEN1 (R180). -/
def execPresymLen1 (s : State) : Host.Outcome State Fault Refusal := .next (putLengths 1#4 1 s)

/-- PRESYM.LEN2 (R180). -/
def execPresymLen2 (s : State) : Host.Outcome State Fault Refusal := .next (putLengths 2#4 1 s)

/-- PRESYM.LEN3 (R180). -/
def execPresymLen3 (s : State) : Host.Outcome State Fault Refusal := .next (putLengths 3#4 1 s)

/-- PRESYM.LEN4 (R180). -/
def execPresymLen4 (s : State) : Host.Outcome State Fault Refusal := .next (putLengths 4#4 1 s)

/-- PRESYM.LEN5 (R180). -/
def execPresymLen5 (s : State) : Host.Outcome State Fault Refusal := .next (putLengths 5#4 1 s)

/-- PRESYM.LEN6 (R180). -/
def execPresymLen6 (s : State) : Host.Outcome State Fault Refusal := .next (putLengths 6#4 1 s)

/-- PRESYM.LEN7 (R180). -/
def execPresymLen7 (s : State) : Host.Outcome State Fault Refusal := .next (putLengths 7#4 1 s)

/-- PRESYM.LEN8 (R180). -/
def execPresymLen8 (s : State) : Host.Outcome State Fault Refusal := .next (putLengths 8#4 1 s)

/-- PRESYM.LEN9 (R180). -/
def execPresymLen9 (s : State) : Host.Outcome State Fault Refusal := .next (putLengths 9#4 1 s)

/-- PRESYM.LEN10 (R180). -/
def execPresymLen10 (s : State) : Host.Outcome State Fault Refusal := .next (putLengths 10#4 1 s)

/-- PRESYM.LEN11 (R180). -/
def execPresymLen11 (s : State) : Host.Outcome State Fault Refusal := .next (putLengths 11#4 1 s)

/-- PRESYM.LEN12 (R180). -/
def execPresymLen12 (s : State) : Host.Outcome State Fault Refusal := .next (putLengths 12#4 1 s)

/-- PRESYM.LEN13 (R180). -/
def execPresymLen13 (s : State) : Host.Outcome State Fault Refusal := .next (putLengths 13#4 1 s)

/-- PRESYM.LEN14 (R180). -/
def execPresymLen14 (s : State) : Host.Outcome State Fault Refusal := .next (putLengths 14#4 1 s)

/-- PRESYM.LEN15 (R180). -/
def execPresymLen15 (s : State) : Host.Outcome State Fault Refusal := .next (putLengths 15#4 1 s)

end Sys2Proof.Machine
end

