-- ==== Sys2Proof/Machine/Dispatch.lean ====
section
/-! DEFINITION. exec: one arm per constructor of Instr, each a direct call of the instruction's meaning. -/

namespace Sys2Proof.Machine

def exec (i : Instr) (s : State) : Host.Outcome State Fault Refusal :=
  match i with
  | .ctrlStart _ irqEn _ => Sys2Proof.Machine.execCtrlStart irqEn s
  | .ctrlAck irqEn _ => Sys2Proof.Machine.execCtrlAck irqEn s
  | .ctrlIrqEn irqEn _ => Sys2Proof.Machine.execCtrlIrqEn irqEn s
  | .bhdrStored final => Sys2Proof.Machine.execBhdrStored final s
  | .bhdrStatic final => Sys2Proof.Machine.execBhdrStatic final s
  | .bhdrDynamic final => Sys2Proof.Machine.execBhdrDynamic final s
  | .bhdrReserved final => Sys2Proof.Machine.execBhdrReserved final s
  | .dcounts hlit hdist hclen => Sys2Proof.Machine.execDcounts hlit hdist hclen s
  | .prelen len => Sys2Proof.Machine.execPrelen len s
  | .presymLen0 => Sys2Proof.Machine.execPresymLen0 s
  | .presymLen1 => Sys2Proof.Machine.execPresymLen1 s
  | .presymLen2 => Sys2Proof.Machine.execPresymLen2 s
  | .presymLen3 => Sys2Proof.Machine.execPresymLen3 s
  | .presymLen4 => Sys2Proof.Machine.execPresymLen4 s
  | .presymLen5 => Sys2Proof.Machine.execPresymLen5 s
  | .presymLen6 => Sys2Proof.Machine.execPresymLen6 s
  | .presymLen7 => Sys2Proof.Machine.execPresymLen7 s
  | .presymLen8 => Sys2Proof.Machine.execPresymLen8 s
  | .presymLen9 => Sys2Proof.Machine.execPresymLen9 s
  | .presymLen10 => Sys2Proof.Machine.execPresymLen10 s
  | .presymLen11 => Sys2Proof.Machine.execPresymLen11 s
  | .presymLen12 => Sys2Proof.Machine.execPresymLen12 s
  | .presymLen13 => Sys2Proof.Machine.execPresymLen13 s
  | .presymLen14 => Sys2Proof.Machine.execPresymLen14 s
  | .presymLen15 => Sys2Proof.Machine.execPresymLen15 s
  | .presymRep16 extra => Sys2Proof.Machine.execPresymRep16 extra s
  | .presymZero17 extra => Sys2Proof.Machine.execPresymZero17 extra s
  | .presymZero18 extra => Sys2Proof.Machine.execPresymZero18 extra s
  | .llLiteral byte => Sys2Proof.Machine.execLlLiteral byte s
  | .llEob => Sys2Proof.Machine.execLlEob s
  | .llLen257 => Sys2Proof.Machine.execLlLen257 s
  | .llLen258 => Sys2Proof.Machine.execLlLen258 s
  | .llLen259 => Sys2Proof.Machine.execLlLen259 s
  | .llLen260 => Sys2Proof.Machine.execLlLen260 s
  | .llLen261 => Sys2Proof.Machine.execLlLen261 s
  | .llLen262 => Sys2Proof.Machine.execLlLen262 s
  | .llLen263 => Sys2Proof.Machine.execLlLen263 s
  | .llLen264 => Sys2Proof.Machine.execLlLen264 s
  | .llLen265 extra => Sys2Proof.Machine.execLlLen265 extra s
  | .llLen266 extra => Sys2Proof.Machine.execLlLen266 extra s
  | .llLen267 extra => Sys2Proof.Machine.execLlLen267 extra s
  | .llLen268 extra => Sys2Proof.Machine.execLlLen268 extra s
  | .llLen269 extra => Sys2Proof.Machine.execLlLen269 extra s
  | .llLen270 extra => Sys2Proof.Machine.execLlLen270 extra s
  | .llLen271 extra => Sys2Proof.Machine.execLlLen271 extra s
  | .llLen272 extra => Sys2Proof.Machine.execLlLen272 extra s
  | .llLen273 extra => Sys2Proof.Machine.execLlLen273 extra s
  | .llLen274 extra => Sys2Proof.Machine.execLlLen274 extra s
  | .llLen275 extra => Sys2Proof.Machine.execLlLen275 extra s
  | .llLen276 extra => Sys2Proof.Machine.execLlLen276 extra s
  | .llLen277 extra => Sys2Proof.Machine.execLlLen277 extra s
  | .llLen278 extra => Sys2Proof.Machine.execLlLen278 extra s
  | .llLen279 extra => Sys2Proof.Machine.execLlLen279 extra s
  | .llLen280 extra => Sys2Proof.Machine.execLlLen280 extra s
  | .llLen281 extra => Sys2Proof.Machine.execLlLen281 extra s
  | .llLen282 extra => Sys2Proof.Machine.execLlLen282 extra s
  | .llLen283 extra => Sys2Proof.Machine.execLlLen283 extra s
  | .llLen284 extra => Sys2Proof.Machine.execLlLen284 extra s
  | .llLen285 => Sys2Proof.Machine.execLlLen285 s
  | .llLen286 => Sys2Proof.Machine.execLlLen286 s
  | .llLen287 => Sys2Proof.Machine.execLlLen287 s
  | .offDist0 => Sys2Proof.Machine.execOffDist0 s
  | .offDist1 => Sys2Proof.Machine.execOffDist1 s
  | .offDist2 => Sys2Proof.Machine.execOffDist2 s
  | .offDist3 => Sys2Proof.Machine.execOffDist3 s
  | .offDist4 extra => Sys2Proof.Machine.execOffDist4 extra s
  | .offDist5 extra => Sys2Proof.Machine.execOffDist5 extra s
  | .offDist6 extra => Sys2Proof.Machine.execOffDist6 extra s
  | .offDist7 extra => Sys2Proof.Machine.execOffDist7 extra s
  | .offDist8 extra => Sys2Proof.Machine.execOffDist8 extra s
  | .offDist9 extra => Sys2Proof.Machine.execOffDist9 extra s
  | .offDist10 extra => Sys2Proof.Machine.execOffDist10 extra s
  | .offDist11 extra => Sys2Proof.Machine.execOffDist11 extra s
  | .offDist12 extra => Sys2Proof.Machine.execOffDist12 extra s
  | .offDist13 extra => Sys2Proof.Machine.execOffDist13 extra s
  | .offDist14 extra => Sys2Proof.Machine.execOffDist14 extra s
  | .offDist15 extra => Sys2Proof.Machine.execOffDist15 extra s
  | .offDist16 extra => Sys2Proof.Machine.execOffDist16 extra s
  | .offDist17 extra => Sys2Proof.Machine.execOffDist17 extra s
  | .offDist18 extra => Sys2Proof.Machine.execOffDist18 extra s
  | .offDist19 extra => Sys2Proof.Machine.execOffDist19 extra s
  | .offDist20 extra => Sys2Proof.Machine.execOffDist20 extra s
  | .offDist21 extra => Sys2Proof.Machine.execOffDist21 extra s
  | .offDist22 extra => Sys2Proof.Machine.execOffDist22 extra s
  | .offDist23 extra => Sys2Proof.Machine.execOffDist23 extra s
  | .offDist24 extra => Sys2Proof.Machine.execOffDist24 extra s
  | .offDist25 extra => Sys2Proof.Machine.execOffDist25 extra s
  | .offDist26 extra => Sys2Proof.Machine.execOffDist26 extra s
  | .offDist27 extra => Sys2Proof.Machine.execOffDist27 extra s
  | .offDist28 extra => Sys2Proof.Machine.execOffDist28 extra s
  | .offDist29 extra => Sys2Proof.Machine.execOffDist29 extra s
  | .offDist30 extra => Sys2Proof.Machine.execOffDist30 extra s
  | .offDist31 extra => Sys2Proof.Machine.execOffDist31 extra s

end Sys2Proof.Machine
end

