-- ==== Sys2Proof/Machine/Engine.lean ====
section
/-! DEFINITION. The engine's operations (42_block_control.md R170): fetching an element in its format, running it, and the operations
that read no element of their own (PRIME, PREBUILD, DYN_BUILD, STATIC_TABLES, DRAIN with BLOCK_DONE and FINISH). -/

namespace Sys2Proof.Machine

/-! ## Fetching one element

A fetch takes the element's bits from its lane, with the refills its rule gives, and decodes it (log 17). -/

/-- BLOCK_HEADER's `h <- HPOP(3)` (R172). -/
def fetchBhdr (s : State) : Res Instr :=
  (hpop s.cfg.headerRefills.blockHeader 3 s).bind fun h s => decoded (decode .bhdr h) s

/-- DYN_COUNTS' three fields (R176). `static_loaded` is cleared first and each latch is written as its field is read, so that an
overread under the FAULT policy between two of them leaves what R176's order gives. -/
def fetchDcounts (s : State) : Res Instr :=
  (hpop s.cfg.headerRefills.hlit 5 { s with staticLoaded := false }).bind fun h s =>
    (hpop s.cfg.headerRefills.hdist 5 { s with hlit := h + 257 }).bind fun d s =>
      (hpop s.cfg.headerRefills.hclen 4 { s with hdist := d + 1 }).bind fun c s => decoded (decode .dcounts (h + d * 2 ^ 5 + c * 2 ^ 10)) s

/-- One precode length's HPOP(3) (R177). -/
def fetchPrelen (s : State) : Res Instr :=
  (hpop s.cfg.headerRefills.precodeLength 3 s).bind fun l s => decoded (decode .prelen l) s

/-- PRESYM's element (R179): the schedule's refill, the lookup, then the extra bits, under PER_ELEMENT with no refill in between; a
repeat with no previous length reads none (R181). -/
def fetchPresym (s : State) : Res Instr :=
  (headerRefill s.cfg.headerRefills.precodeElement s).bind fun _ s =>
    (lookup .precode s.headerLane s).bind fun e s =>
      let sym := (entryByte e).toNat
      if sym = 16 ∧ s.li = 0 then decoded (decodePresym sym 0) s
      else
        (hpop (s.cfg.headerRefills.precodeExtra && presymExtra sym != 0) (presymExtra sym) s).bind fun x s =>
          decoded (decodePresym sym x) s

/-- LITLEN_TURN's element on lane `c` (43_symbol_decode.md R201, R203). -/
def fetchLitlen (c : Fin 32) (s : State) : Res Instr :=
  (lookup .litlen c s).bind fun e s =>
    if entryLit e then decoded (decodeLitlen (entryByte e).toNat 0) s
    else
      match lengthSymbol (entryResult e) with
      | none => .fault .entryUndecodable
      | some sym => (pop c (entryByte e).toNat s).bind fun x s => decoded (decodeLitlen sym x) s

/-- OFFSET_TURN's element on lane `c` (44_match_copy.md R220, R221). -/
def fetchOffset (c : Fin 32) (s : State) : Res Instr :=
  (lookup .offset c s).bind fun e s =>
    match offsetSymbol (entryResult e) with
    | none => .fault .entryUndecodable
    | some sym => (pop c (entryDextra e) s).bind fun x s => decoded (decodeOffset sym x) s

/-- The format of the element the engine reads next, where its next operation reads one (R170; 43_symbol_decode.md R200). -/
def nextFormat (s : State) : Option Format :=
  match s.state with
  | .header => some .bhdr
  | .dynTables =>
    match s.phase with
    | .counts => some .dcounts
    | .prelens => some .prelen
    | .lens => some .presym
    | .prebuild | .build => none
  | .decode => if s.pending s.cur then some .offsym else some .llsym
  | .idle | .prime | .staticTables | .drain | .done | .error => none

/-- Fetch an element of a format. CTRL words come from the host, not from a lane (Machine/HostPort.lean). -/
def fetch (f : Format) (s : State) : Res Instr :=
  match f with
  | .ctrl => .fault .entryUndecodable
  | .bhdr => fetchBhdr s
  | .dcounts => fetchDcounts s
  | .prelen => fetchPrelen s
  | .presym => fetchPresym s
  | .llsym => fetchLitlen s.cur s
  | .offsym => fetchOffset s.cur s

/-- Fetch an element and run it. -/
def runElement (f : Format) (s : State) : Res Unit :=
  (fetch f s).bind fun i s => .ofOutcome (exec i s)

/-! ## The engine's operations -/

/-- `n` ADVANCE steps. -/
def advances : Nat → State → Res Unit
  | 0, s => .ok () s
  | n + 1, s => (advance s).bind fun _ s => advances n s

/-- PRIME (40_lane_demux.md R126). -/
def opPrime (s : State) : Res Unit :=
  (advances 32 s).bind fun _ s => .ok () { s with state := .header }

/-- PRELENS (R177): up to `n` precode lengths, in one step, until the phase is left. -/
def opPrelens : Nat → State → Res Unit
  | 0, s => .ok () s
  | n + 1, s =>
    (runElement .prelen s).bind fun _ s => if s.phase = .prelens then opPrelens n s else .ok () s

/-- PREBUILD (R178). -/
def opPrebuild (s : State) : Res Unit :=
  (build .precode (s.precodeLens.map fun l => l.toNat) s).bind fun _ s => .ok () { s with li := 0, phase := .lens }

/-- ENTER_DECODE (R189). -/
def enterDecode (s : State) : Res Unit :=
  (headerRefill s.cfg.headerRefills.decodeEntry s).bind fun _ s => .ok () { s with state := .decode }

/-- The litlen lengths of a dynamic block (10_state.md R34). -/
def State.litlenLens (s : State) : List Nat := (s.lens.take s.hlit).map fun l => l.toNat

/-- The offset lengths of a dynamic block (10_state.md R34). -/
def State.offsetLens (s : State) : List Nat := ((s.lens.drop s.hlit).take s.hdist).map fun l => l.toNat

/-- DYN_BUILD (R185): the offset table, then the litlen table (R188), then ENTER_DECODE. -/
def opDynBuild (s : State) : Res Unit :=
  (build .offset s.offsetLens s).bind fun _ s =>
    (build .litlen s.litlenLens s).bind fun _ s => enterDecode s

/-- The static install (R186): both builds, then the flag. -/
def installStatic (s : State) : Res Unit :=
  (build .offset staticOffsetLens s).bind fun _ s =>
    (build .litlen staticLitlenLens s).bind fun _ s => .ok () { s with staticLoaded := true }

/-- STATIC_TABLES (R186): reuse when they are loaded, else install; then ENTER_DECODE. -/
def opStaticTables (s : State) : Res Unit :=
  if s.staticLoaded then enterDecode s else (installStatic s).bind fun _ s => enterDecode s

/-- FINISH (R191). -/
def finish (s : State) : Res Unit :=
  if s.cfg.strictTileLength ∧ s.outPos ≠ s.outBound.toNat then raise .corruptStream 10#4 s
  else .ok () { s with state := .done }

/-- BLOCK_DONE (R190); the cursor stays for the next block (10_state.md R25; the other reading is log 34). -/
def blockDone (s : State) : Res Unit :=
  if s.isFinal then finish s else .ok () { s with state := .header, cur := s.startLane s.cfg.reading.blockLane }

/-- One drain step (44_match_copy.md R225): a pending copy is fetched and performed, and the lane advances; else it only advances. -/
def drainStep (s : State) : Res Unit := if s.pending s.cur then runElement .offsym s else advance s

/-- `n` drain steps. -/
def drainSteps : Nat → State → Res Unit
  | 0, s => .ok () s
  | n + 1, s => (drainStep s).bind fun _ s => drainSteps n s

/-- The state DRAIN's rotation starts in: at the lane the cursor is at (44_match_copy.md R225; the other reading is log 34). -/
def drainStart (s : State) : State := { s with cur := s.startLane s.cfg.reading.drainLane }

/-- DRAIN (44_match_copy.md R225): 32 lane steps, then BLOCK_DONE. -/
def opDrain (s : State) : Res Unit := (drainSteps 32 (drainStart s)).bind fun _ s => blockDone s

/-- The engine's next operation, one atomic step (R170, 00_scope.md R13). In IDLE, DONE and ERROR there is none (log 23). -/
def operation (s : State) : Res Unit :=
  match s.state with
  | .idle | .done | .error => .ok () s
  | .prime => opPrime s
  | .header => runElement .bhdr s
  | .dynTables =>
    match s.phase with
    | .counts => runElement .dcounts s
    | .prelens => opPrelens 19 s
    | .prebuild => opPrebuild s
    | .lens => runElement .presym s
    | .build => opDynBuild s
  | .staticTables => opStaticTables s
  | .decode => if s.pending s.cur then runElement .offsym s else runElement .llsym s
  | .drain => opDrain s

/-- The engine's turn. -/
def engineStep (s : State) : Host.Outcome State Fault Refusal := (operation s).outcome

end Sys2Proof.Machine
end

