-- ==== Sys2Proof/Machine/HostPort.lean ====
section
/-! DEFINITION. The outside world: host loads and stores of registers and memory (10_state.md R39 to R50, 20_memory.md R71),
hardware reset (70_reset_and_hazards.md R290, R293), and one input of the schedule. -/

namespace Sys2Proof.Machine

/-- The bytes of an access. -/
def Size.bytes : Size → Nat
  | .byte => 1
  | .half => 2
  | .word => 4

/-- Whether an address is in the engine's register window (10_state.md R39). -/
def State.inRegisters (s : State) (a : Nat) : Bool := s.inWindow s.cfg.engineBase 256 a

/-- Whether a host access touches the register window. -/
def State.touchesRegisters (s : State) (addr : Word) (size : Size) : Bool :=
  (List.range size.bytes).any fun i => s.inRegisters (s.addr addr i)

/-- The register offset of an aligned 32-bit access of the window; none for any other access (10_state.md R39). An access is aligned
when its offset from ENGINE_BASE is a multiple of 4; where ENGINE_BASE itself is not word-aligned, which the spec does not exclude, that
is the model's choice (DESIGN CHOICE, log 32). -/
def State.registerOffset (s : State) (addr : Word) (size : Size) : Option Nat :=
  let off := (s.addr addr 0 + (2 ^ s.cfg.addrWidth - s.addr s.cfg.engineBase 0)) % 2 ^ s.cfg.addrWidth
  if size = .word ∧ off % 4 = 0 ∧ off < 256 then some off else none

/-- A host write of a register (10_state.md R39): a write of CTRL is a command (45_host.md R240). -/
def writeReg (off : Nat) (v : Word) (s : State) : Host.Outcome State Fault Refusal :=
  if off = 0 then exec (decodeCtrl v) s else .next (writeConfigReg off v s)

/-- A host store of one byte of memory. A store inside a window of an open tile is contested, and one inside the output window of an open
tile leaves a draw (20_memory.md R71, 93 U10; log 12). -/
def storeByte (a : Nat) (b : Byte) (s : State) : State :=
  if s.inOpenInput a || s.inOpenOutput a then
    let s1 := { s with contested := if s.contested.contains a then s.contested else a :: s.contested }
    if s.inOpenOutput a then
      let r := takeDraw s1
      { r.2 with mem := Mem.write a r.1 r.2.mem }
    else { s1 with mem := Mem.write a b s1.mem }
  else { s with mem := Mem.write a b s.mem }

/-- MemWrite(addr, n, v) by the host, from byte `i` on, little-endian (00_scope.md R10). -/
def storeBytes (addr v : Word) : Nat → Nat → State → State
  | _, 0, s => s
  | i, n + 1, s => storeBytes addr v (i + 1) n (storeByte (s.addr addr i) ((v >>> (8 * i)).setWidth 8) s)

/-- A host load of one byte of memory: a draw inside the output window of an open tile (20_memory.md R71, 93 U9). -/
def loadByte (a : Nat) (s : State) : Byte × State :=
  if s.inOpenOutput a then takeDraw s else (Mem.read s.mem a, s)

/-- MemRead(addr, n) by the host, from byte `i` on, little-endian (00_scope.md R10). -/
def loadBytes (addr : Word) : Nat → Nat → State → Word × State
  | _, 0, s => (0#32, s)
  | i, n + 1, s =>
    let r := loadByte (s.addr addr i) s
    let q := loadBytes addr (i + 1) n r.2
    ((r.1.setWidth 32 <<< (8 * i)) ||| q.1, q.2)

/-- A host store: to a register, refused unless it is an aligned 32-bit one (10_state.md R39, log 11), or to memory. -/
def hostStore (addr : Word) (size : Size) (v : Word) (s : State) : Host.Outcome State Fault Refusal :=
  if s.touchesRegisters addr size then
    match s.registerOffset addr size with
    | some off => writeReg off v s
    | none => .refused .registerAccess
  else .next (storeBytes addr v 0 size.bytes s)

/-- A host read of a register. A read of STATUS that sees BUSY = 0 ends the span of every tile started before (20_memory.md R71,
R74). -/
def readRegister (off : Nat) (s : State) : State :=
  { s with hostData := s.readReg off, openTiles := if off = 4 ∧ s.busy = false then [] else s.openTiles }

/-- A host load: of a register, refused unless it is an aligned 32-bit one (10_state.md R39, log 11), or of memory. -/
def hostLoad (addr : Word) (size : Size) (s : State) : Host.Outcome State Fault Refusal :=
  if s.touchesRegisters addr size then
    match s.registerOffset addr size with
    | some off => .next (readRegister off s)
    | none => .refused .registerAccess
  else
    let r := loadBytes addr 0 size.bytes s
    .next { r.2 with hostData := r.1 }

/-- Hardware reset (70_reset_and_hazards.md R290, R293): every piece of engine state at its reset value; memory is untouched, and so
are the parameters and the model's own record, draws and what is still to come (log 22). -/
def hardReset (s : State) : State :=
  { State.resetWith s.cfg with
    mem := s.mem, trace := s.trace, inputs := s.inputs, hostData := s.hostData, draws := s.draws }

/-- One input of the schedule (70_reset_and_hazards.md R304; log 1). -/
def perform (i : Input) (s : State) : Host.Outcome State Fault Refusal :=
  match i with
  | .engine => engineStep s
  | .store addr size v => hostStore addr size v s
  | .load addr size => hostLoad addr size s
  | .reset => .next (hardReset s)

end Sys2Proof.Machine
end

