-- ==== Sys2Proof/Machine/Place.lean ====
section
/-! DEFINITION. Placing one element where the next step reads it (log 19): what the host's probe of the opcode table asks for. -/

namespace Sys2Proof.Machine

/-- Lane `c` holds the bits `bits` next, and needs no refill before or after the element. -/
def placeBits (c : Fin 32) (bits : Nat) (s : State) : State :=
  setLane c { s.lane c with buf := BitVec.ofNat 64 bits, left := 64 } s

/-- A table of one-bit codewords, all of them the symbol with this result. -/
def placeTable (c : Code) (sym : Nat) (s : State) : State :=
  setTable c (List.replicate (tableSize s.cfg c) (some (directEntry (c.result sym) 1))) s

/-- A symbol's one-bit codeword with its `n` extra bits above it, in the order fields are read. -/
def placeCoded (c : Fin 32) (n extra : Nat) (s : State) : State :=
  placeBits c (2 * fieldValue s.cfg.reading.fieldBits n extra) s

/-- An element word where the next step reads its format: a CTRL value as the host's next store; a header field in the header lane; a coded
symbol as a one-bit codeword with its extra bits above it, in the table and the lane its turn reads. -/
def placeElement (f : Format) (w : Nat) (s : State) : State :=
  let field := fieldValue s.cfg.reading.fieldBits
  match f with
  | .ctrl => { s with inputs := [.store s.cfg.engineBase .word (BitVec.ofNat 32 w)] }
  | .bhdr => placeBits s.headerLane (field 3 w) { s with inputs := [], state := .header }
  | .dcounts =>
    placeBits s.headerLane (field 5 (w % 2 ^ 5) + 2 ^ 5 * field 5 (w / 2 ^ 5 % 2 ^ 5) + 2 ^ 10 * field 4 (w / 2 ^ 10))
      { s with inputs := [], state := .dynTables, phase := .counts }
  | .prelen => placeBits s.headerLane (field 3 w) { s with inputs := [], state := .dynTables, phase := .prelens, hclen := s.pi + 1 }
  | .presym =>
    placeCoded s.headerLane (presymExtra (w % 2 ^ 5)) (w / 2 ^ 5)
      (placeTable .precode (w % 2 ^ 5) { s with inputs := [], state := .dynTables, phase := .lens })
  | .llsym =>
    placeCoded s.cur (lenExtra (w % 2 ^ 9)) (w / 2 ^ 9)
      (placeTable .litlen (w % 2 ^ 9) (clearPending s.cur { s with inputs := [], state := .decode }))
  | .offsym =>
    placeCoded s.cur (offExtra (w % 2 ^ 5)) (w / 2 ^ 5)
      (placeTable .offset (w % 2 ^ 5) (setPending s.cur { s with inputs := [], state := .decode }))

end Sys2Proof.Machine
end

