-- ==== Sys2Proof/Machine/Step.lean ====
section
/-! DEFINITION. One step: the next input of the schedule, or the engine's next operation when none is waiting. -/

namespace Sys2Proof.Machine

/-- One step (70_reset_and_hazards.md R303, R304; log 1). -/
def step (s : State) : Host.Outcome State Fault Refusal :=
  match s.inputs with
  | [] => engineStep s
  | i :: rest => perform i { s with inputs := rest }

/-- `s` with the element the host's probe numbers `w` placed where the next step reads it (log 18, log 19). -/
def State.withFetchWord (s : State) (nbits w : Nat) : State := placeElement (tableFormat nbits w) w s

end Sys2Proof.Machine
end

