-- ==== Sys2Proof/Machine/Container.lean ====
section
/-! DEFINITION. The host's contract around the engine (45_host.md R246 to R253): container, tile slicing, tile cursor, failure policy,
and the reference driver for one engine. Surrounding software, not engine state (00_scope.md R4; log 24). -/

namespace Sys2Proof.Machine

/-- LAST_TILE_LEN_RULE (R249, 92_eei_decisions.md D35, OPEN): an argument, with no default. -/
inductive LastTileLenRule where
  | observedWrap
  | payloadEnd
  deriving DecidableEq, Repr

/-- A parsed container (R246): the tile count, the two flag fields, the signed tile offsets, the buffer's length. -/
structure Container where
  numTiles : Nat
  tileSizeIdx : Nat
  lastTileSize : Nat
  offsets : List Int
  length : Nat
  deriving DecidableEq, Repr

/-- A little-endian number (R246: "little-endian throughout"). -/
def leNat (bytes : List Byte) : Nat := bytes.foldr (fun b n => b.toNat + 2 ^ 8 * n) 0

/-- The i-th tile offset, a signed 32-bit number (R246). -/
def tileOffset (buf : List Byte) (i : Nat) : Int := (BitVec.ofNat 32 (leNat ((buf.drop (8 + 4 * i)).take 4))).toInt

/-- UncompressedSize (R247), evaluated exactly. -/
def Container.size (c : Container) : Int :=
  (c.numTiles : Int) * 65536 - (if c.lastTileSize = 0 then 0 else 65536 - (c.lastTileSize : Int))

/-- The container's parser (R246, R247, 60_exceptions.md R275): none is MalformedContainer, raised before anything is allocated. -/
def parseContainer (buf : List Byte) : Option Container :=
  let id := leNat (buf.take 1)
  let magic := leNat ((buf.drop 1).take 1)
  let n := leNat ((buf.drop 2).take 2)
  let flags := leNat ((buf.drop 4).take 4)
  if buf.length < 8 ∨ id ≠ 4 ∨ id ≠ magic ^^^ 0xFF ∨ buf.length < 8 + 4 * n then none
  else
    let c : Container :=
      { numTiles := n, tileSizeIdx := flags % 4, lastTileSize := flags / 4 % 2 ^ 18,
        offsets := (List.range n).map fun i => tileOffset buf i, length := buf.length }
    if c.size < 0 then none else some c

/-- `size_i`, the output bytes of tile `i` (R248). -/
def Container.tileSize (c : Container) (i : Nat) : Int :=
  if i + 1 < c.numTiles then 65536 else c.size - ((c.numTiles : Int) - 1) * 65536

/-- The payload's first byte (R249). -/
def Container.payload (c : Container) : Int := 8 + 4 * (c.numTiles : Int)

/-- `rel_i` (R249): tile 0 starts at the payload whatever its offset holds (92_eei_decisions.md D44). -/
def Container.rel (c : Container) (i : Nat) : Int := if i = 0 then 0 else c.offsets.getD i 0

/-- `start_i` (R249). -/
def Container.start (c : Container) (i : Nat) : Int := c.payload + c.rel i

/-- The compressed length of tile `i` before clipping (R249). -/
def Container.compressedLen (c : Container) (rule : LastTileLenRule) (i : Nat) : Int :=
  if i + 1 < c.numTiles then c.rel (i + 1) - c.rel i
  else
    match rule with
    | .observedWrap => c.offsets.getD 0 0 - c.rel i
    | .payloadEnd => ((c.length : Int) - c.payload) - c.rel i

/-- IN_LEN of tile `i` (R249): not negative, and not past the buffer's end. -/
def Container.inLen (c : Container) (rule : LastTileLenRule) (i : Nat) : Int :=
  max 0 (min (c.compressedLen rule i) ((c.length : Int) - c.start i))

/-- A store of one register of the engine's window. -/
def registerStore (cfg : Config) (off : Nat) (v : Word) : Input := .store (cfg.engineBase + BitVec.ofNat 32 off) .word v

/-- What the host stores to OUT_BOUND for a size: a size that the register's 17 bits cannot hold is stored as their largest value, so
that START raises CONFIG_ERROR for it as for every size above one tile (R247, 92_eei_decisions.md D41; log 24). -/
def storedBound (size : Int) : Word := BitVec.ofInt 32 (min size 131071)

/-- The host's stores for tile `i` (R248, R249, 70_reset_and_hazards.md R294): the four configuration registers, then START.
How the host drives CTRL is left to it (R244, R294): here it writes START with IRQ_EN and ACK 0, and polls (DESIGN CHOICE, log 36). -/
def tileInputs (cfg : Config) (c : Container) (rule : LastTileLenRule) (inBuf outBuf : Word) (i : Nat) : List Input :=
  [registerStore cfg 0x08 (inBuf + BitVec.ofInt 32 (c.start i)),
   registerStore cfg 0x0C (BitVec.ofInt 32 (c.inLen rule i)),
   registerStore cfg 0x10 (outBuf + BitVec.ofNat 32 (i * 65536)),
   registerStore cfg 0x14 (storedBound (c.tileSize i)),
   registerStore cfg 0x00 1#32]

/-! ## The tile cursor and the failure policy -/

/-- The host's state of one call (R250, R252): the tile cursor and the first error it observed. -/
structure HostCall where
  numTiles : Nat
  cursor : Nat := 0
  firstError : Option (Nat × ErrCode × BitVec 4) := none
  deriving DecidableEq, Repr

/-- `claim_next_tile()` (R250); after an error no tile is claimed (R252). -/
def claimNextTile (h : HostCall) : Option Nat × HostCall :=
  if h.firstError.isSome ∨ h.numTiles ≤ h.cursor then (none, h) else (some h.cursor, { h with cursor := h.cursor + 1 })

/-- The host observes tile `i` complete on an engine in state `s` (R244, R252): the first error is kept. A
tile that is DONE with fewer bytes than its size is no failure (R253); that the host does nothing with OUT_COUNT, which D24 has it compare
with that size, is a DESIGN CHOICE (log 37). -/
def observeTile (i : Nat) (s : State) (h : HostCall) : HostCall :=
  if s.isError ∧ h.firstError.isNone then { h with firstError := some (i, s.errCode, s.errDetail) } else h

/-- What a call gives (R252, R253): the whole output, or one error, never a partial output labelled a success. -/
inductive CallResult where
  | ok (bytes : List Byte)
  | malformedContainer
  | tileError (tile : Nat) (code : ErrCode) (detail : BitVec 4)
  /-- The model stopped, or the bound on steps was reached (70_reset_and_hazards.md R306). -/
  | notFinished
  deriving DecidableEq, Repr

/-- Step until the inputs are used up and BUSY = 0, within `fuel` steps (R244). -/
def runTile : Nat → State → Option State
  | 0, _ => none
  | fuel + 1, s =>
    if s.inputs.isEmpty ∧ s.busy = false then some s
    else
      match step s with
      | .next s' => runTile fuel s'
      | .fault _ => none
      | .refused _ => none

/-- One worker's loop (R251), at most `n` claims; a read of STATUS observes each completion (R244, 20_memory.md R71). -/
def workerLoop (fuel : Nat) (c : Container) (rule : LastTileLenRule) (inBuf outBuf : Word) :
    Nat → HostCall → State → Option (HostCall × State)
  | 0, h, s => some (h, s)
  | n + 1, h, s =>
    match claimNextTile h with
    | (none, h) => some (h, s)
    | (some i, h) =>
      match runTile fuel { s with inputs := tileInputs s.cfg c rule inBuf outBuf i } with
      | none => none
      | some s => workerLoop fuel c rule inBuf outBuf n (observeTile i s h) (readRegister 4 s)

/-- The reference driver (R253) with one engine, the container `buf` lying at `inBuf` in memory and the output at `outBuf`. -/
def decompress (fuel : Nat) (rule : LastTileLenRule) (buf : List Byte) (inBuf outBuf : Word) (s : State) : CallResult :=
  match parseContainer buf with
  | none => .malformedContainer
  | some c =>
    match workerLoop fuel c rule inBuf outBuf c.numTiles { numTiles := c.numTiles } s with
    | none => .notFinished
    | some (h, s) =>
      match h.firstError with
      | some (i, code, detail) => .tileError i code detail
      | none => .ok ((List.range c.size.toNat).map fun p => Mem.read s.mem (s.addr outBuf p))

end Sys2Proof.Machine
end

