-- ==== Sys2Proof/Safety.lean ====
section
/-! DEFINITION. The terms claims use: what an instruction stands for by the spec's own tables, the static codewords, what an operation
may change, and the invariants of the machine. -/

namespace Sys2Proof.Machine

/-! ## What an element stands for, written from the spec's tables -/

/-- The explicit codeword length of a precode symbol 0..15 (42_block_control.md R180). -/
def explicitLength : Instr → Option (BitVec 4)
  | .presymLen0 => some 0#4
  | .presymLen1 => some 1#4
  | .presymLen2 => some 2#4
  | .presymLen3 => some 3#4
  | .presymLen4 => some 4#4
  | .presymLen5 => some 5#4
  | .presymLen6 => some 6#4
  | .presymLen7 => some 7#4
  | .presymLen8 => some 8#4
  | .presymLen9 => some 9#4
  | .presymLen10 => some 10#4
  | .presymLen11 => some 11#4
  | .presymLen12 => some 12#4
  | .presymLen13 => some 13#4
  | .presymLen14 => some 14#4
  | .presymLen15 => some 15#4
  | _ => none

/-- The match length of a litlen symbol 257..287 with its extra bits (30_encoding.md R96). -/
def matchLength : Instr → Option Nat
  | .llLen257 => some 3
  | .llLen258 => some 4
  | .llLen259 => some 5
  | .llLen260 => some 6
  | .llLen261 => some 7
  | .llLen262 => some 8
  | .llLen263 => some 9
  | .llLen264 => some 10
  | .llLen265 extra => some (11 + extra.toNat)
  | .llLen266 extra => some (13 + extra.toNat)
  | .llLen267 extra => some (15 + extra.toNat)
  | .llLen268 extra => some (17 + extra.toNat)
  | .llLen269 extra => some (19 + extra.toNat)
  | .llLen270 extra => some (23 + extra.toNat)
  | .llLen271 extra => some (27 + extra.toNat)
  | .llLen272 extra => some (31 + extra.toNat)
  | .llLen273 extra => some (35 + extra.toNat)
  | .llLen274 extra => some (43 + extra.toNat)
  | .llLen275 extra => some (51 + extra.toNat)
  | .llLen276 extra => some (59 + extra.toNat)
  | .llLen277 extra => some (67 + extra.toNat)
  | .llLen278 extra => some (83 + extra.toNat)
  | .llLen279 extra => some (99 + extra.toNat)
  | .llLen280 extra => some (115 + extra.toNat)
  | .llLen281 extra => some (131 + extra.toNat)
  | .llLen282 extra => some (163 + extra.toNat)
  | .llLen283 extra => some (195 + extra.toNat)
  | .llLen284 extra => some (227 + extra.toNat)
  | .llLen285 => some 258
  | .llLen286 => some 258
  | .llLen287 => some 258
  | _ => none

/-- The distance of an offset symbol with its extra bits (30_encoding.md R97). -/
def distanceOf : Instr → Option Nat
  | .offDist0 => some 1
  | .offDist1 => some 2
  | .offDist2 => some 3
  | .offDist3 => some 4
  | .offDist4 extra => some (5 + extra.toNat)
  | .offDist5 extra => some (7 + extra.toNat)
  | .offDist6 extra => some (9 + extra.toNat)
  | .offDist7 extra => some (13 + extra.toNat)
  | .offDist8 extra => some (17 + extra.toNat)
  | .offDist9 extra => some (25 + extra.toNat)
  | .offDist10 extra => some (33 + extra.toNat)
  | .offDist11 extra => some (49 + extra.toNat)
  | .offDist12 extra => some (65 + extra.toNat)
  | .offDist13 extra => some (97 + extra.toNat)
  | .offDist14 extra => some (129 + extra.toNat)
  | .offDist15 extra => some (193 + extra.toNat)
  | .offDist16 extra => some (257 + extra.toNat)
  | .offDist17 extra => some (385 + extra.toNat)
  | .offDist18 extra => some (513 + extra.toNat)
  | .offDist19 extra => some (769 + extra.toNat)
  | .offDist20 extra => some (1025 + extra.toNat)
  | .offDist21 extra => some (1537 + extra.toNat)
  | .offDist22 extra => some (2049 + extra.toNat)
  | .offDist23 extra => some (3073 + extra.toNat)
  | .offDist24 extra => some (4097 + extra.toNat)
  | .offDist25 extra => some (6145 + extra.toNat)
  | .offDist26 extra => some (8193 + extra.toNat)
  | .offDist27 extra => some (12289 + extra.toNat)
  | .offDist28 extra => some (16385 + extra.toNat)
  | .offDist29 extra => some (24577 + extra.toNat)
  | .offDist30 extra => some (32769 + extra.toNat)
  | .offDist31 extra => some (49153 + extra.toNat)
  | _ => none

/-- The most bits an element word of a format has (30_encoding.md R89 to R93): the symbol's bits and the longest extra bits. -/
def elementBits : Format → Nat
  | .ctrl => 32
  | .bhdr => 3
  | .dcounts => 14
  | .prelen => 3
  | .presym => 12
  | .llsym => 14
  | .offsym => 19

/-! ## The static code (30_encoding.md R88) -/

/-- The codeword length of a litlen symbol in the static code. -/
def staticLitlenLen (s : Nat) : Nat := if s < 144 then 8 else if s < 256 then 9 else if s < 280 then 7 else 8

/-- The static codeword of a litlen symbol, most significant bit first. -/
def staticLitlenCode (s : Nat) : Nat :=
  if s < 144 then 0x30 + s else if s < 256 then 0x190 + (s - 144) else if s < 280 then s - 256 else 0xC0 + (s - 280)

/-- Whether lane `c` delivers the `n` bits `v` next, its first bit being bit 0 of `v` (30_encoding.md R80). -/
def State.delivers (s : State) (c : Fin 32) (n v : Nat) : Prop := n ≤ (s.lane c).left ∧ (s.lane c).buf.toNat % 2 ^ n = v

/-- Lane `c` after `n` bits were taken. -/
def Lane.drop (l : Lane) (n : Nat) : Lane := { l with buf := l.buf >>> n, left := l.left - n }

/-! ## Canonical codes (30_encoding.md R85, R86) -/

/-- The codespace a code's lengths take, summed over its symbols (30_encoding.md R85). -/
def kraftSum (lens : List Nat) (maxLen : Nat) : Nat := (lens.map fun l => if l = 0 then 0 else 2 ^ (maxLen - l)).sum

/-- The canonical codeword of symbol `sym`, most significant bit first (30_encoding.md R86): the codewords before it, in the order of
length and then symbol, each counted at the symbol's own length. -/
def canonicalCode (lens : List Nat) (sym : Nat) : Nat :=
  let len := lens.getD sym 0
  ((List.range lens.length).map fun s =>
    let l := lens.getD s 0
    if l ≠ 0 ∧ (l < len ∨ (l = len ∧ s < sym)) then 2 ^ (len - l) else 0).sum

/-! ## Runs of elements -/

/-- The elements of a list run one after another, as long as each gives a next state. -/
def execAll : List Instr → State → Host.Outcome State Fault Refusal
  | [], s => .next s
  | i :: is, s =>
    match exec i s with
    | .next t => execAll is t
    | .fault f => .fault f
    | .refused r => .refused r

/-- The width of the subtable that the codewords whose first `tb` bits are `p` share: what the longest of them has after those bits; 0
where none is longer than `tb` (41_huffman_tables.md R149). -/
def subtableBits (lens : List Nat) (tb p : Nat) : Nat :=
  ((List.range lens.length).map fun sym =>
    let len := lens.getD sym 0
    if tb < len ∧ canonicalCode lens sym / 2 ^ (len - tb) = p then len - tb else 0).foldl max 0

/-- The table extent of a complete code (41_huffman_tables.md R152): the main table and the subtables. -/
def codeExtent (lens : List Nat) (tb : Nat) : Nat :=
  2 ^ tb + ((List.range (2 ^ tb)).map fun p => let w := subtableBits lens tb p; if w = 0 then 0 else 2 ^ w).sum

/-! ## Input words -/

/-- Word `k` of the tile's input as memory holds it, little-endian (20_memory.md R62). -/
def State.wordAt (s : State) (k : Nat) : Word :=
  Mem.read s.mem (s.inAddr (4 * k + 3)) ++ Mem.read s.mem (s.inAddr (4 * k + 2)) ++ Mem.read s.mem (s.inAddr (4 * k + 1)) ++
    Mem.read s.mem (s.inAddr (4 * k))

/-- Word `k` lies inside the tile's input and no byte of it races (20_memory.md R63, R71, R73). -/
def WordDefined (s : State) (k : Nat) : Prop :=
  4 * k + 4 ≤ s.inLen.toNat ∧ ∀ j < 4, s.raced (s.inAddr (4 * k + j)) = false

/-- A refill of the next word raises nothing (20_memory.md R63). -/
def Refillable (s : State) : Prop := s.cfg.overreadPolicy = .draw ∨ 4 * s.inPos + 4 ≤ s.inLen.toNat

/-- A refill of lane `c` raises nothing: the lane needs no word, or the next word raises nothing (40_lane_demux.md R124). -/
def CanRefill (c : Fin 32) (s : State) : Prop := 32 ≤ (s.lane c).left ∨ Refillable s

/-- `s` after lane `c` was given the next input word, above its valid bits (40_lane_demux.md R124). -/
def State.withNextWord (c : Fin 32) (s : State) : State :=
  { s with
    lanes := s.lanes.set c.val
      { s.lane c with
        buf := (s.lane c).buf ||| ((s.asDelivered (inputWord s).1).setWidth 64 <<< (s.lane c).left), left := (s.lane c).left + 32 }
    inPos := s.inPos + 1, trace := .fetch s.inPos c :: s.trace
    draws := (inputWord s).2.draws, overread := (inputWord s).2.overread }

/-! ## What ADVANCE does -/

/-- The lane ADVANCE refills (40_lane_demux.md R125). -/
def State.refillLane (s : State) : Fin 32 :=
  match s.cfg.advanceOrder with
  | .refillThenMove => s.cur
  | .moveThenRefill => s.cur + 1

/-- ADVANCE raises nothing (40_lane_demux.md R124, R125). -/
def CanAdvance (s : State) : Prop := CanRefill s.refillLane s

/-- `t` is `s` after one ADVANCE, in the order the configuration gives (40_lane_demux.md R124, R125): the cursor moved, and the lane it
refills was given the next input word if it held fewer than 32 bits. -/
def Advanced (s t : State) : Prop :=
  t = { (if 32 ≤ (s.lane s.refillLane).left then s else s.withNextWord s.refillLane) with cur := s.cur + 1 }

/-! ## Drain -/

/-- `t` is `s` after one lane step of DRAIN that raises nothing (44_match_copy.md R225): a lane with a pending copy runs the offset element
its bits hold; any other lane only advances. -/
def DrainStep (s t : State) : Prop :=
  if s.pending s.cur then ∃ i u, fetchOffset s.cur s = .ok i u ∧ exec i u = .next t ∧ t.state ≠ .error
  else CanAdvance s ∧ Advanced s t

/-- `t` is `s` after `n` such steps. -/
def DrainSteps : Nat → State → State → Prop
  | 0, s, t => t = s
  | n + 1, s, t => ∃ u, DrainStep s u ∧ DrainSteps n u t

/-! ## Races -/

/-- No output byte below index `n` races (20_memory.md R71, R73): the host keeps its duties. -/
def NoOutputRace (s : State) (n : Nat) : Prop := ∀ p < n, s.raced (s.outAddr p) = false

/-! ## Invariants -/

/-- The lane invariant (10_state.md R24). -/
def LaneInv (s : State) : Prop := ∀ c : Fin 32, (s.lane c).left ≤ 64 ∧ (s.lane c).buf.toNat < 2 ^ (s.lane c).left

/-- Memory is in canonical form. -/
def MemoryInv (s : State) : Prop := Mem.wf s.mem = true

/-- The error codes with the details they are recorded with (60_exceptions.md R262). -/
def errorPairs : List (ErrCode × BitVec 4) :=
  [(.none, 0#4), (.laneUnderflow, 0#4), (.configError, 0#4), (.inputOverread, 0#4),
   (.corruptHuffmanCode, 1#4), (.corruptHuffmanCode, 2#4), (.corruptHuffmanCode, 3#4),
   (.unsupportedFeature, 1#4), (.unsupportedFeature, 2#4), (.unsupportedFeature, 3#4), (.unsupportedFeature, 4#4),
   (.corruptStream, 5#4), (.corruptStream, 6#4), (.corruptStream, 7#4), (.corruptStream, 10#4),
   (.outputOverrun, 8#4), (.outputOverrun, 9#4)]

/-- An error code is latched exactly in ERROR, and with a detail the spec gives it (60_exceptions.md R262, R263). -/
def ErrorInv (s : State) : Prop := (s.state = .error ↔ s.errCode ≠ .none) ∧ (s.errCode, s.errDetail) ∈ errorPairs

/-- While BUSY the output cursor stays inside a legal bound (10_state.md R28, R45). -/
def OutputInv (s : State) : Prop := s.outPos ≤ 65536 ∧ (s.busy = true → s.outPos ≤ s.outBound.toNat ∧ s.outBound.toNat ≤ 65536)

/-- No copy is pending outside DECODE and DRAIN while a tile runs, nor at DONE (44_match_copy.md R227). -/
def PendingInv (s : State) : Prop :=
  (s.state = .prime ∨ s.state = .header ∨ s.state = .dynTables ∨ s.state = .staticTables ∨ s.state = .done) → s.pend = 0#32

/-- The recorded slots of a running tile (43_symbol_decode.md R206): a pending lane's range is reserved, and no two overlap. -/
def SlotInv (s : State) : Prop :=
  s.busy = true → ∀ c : Fin 32, s.pending c = true →
    (s.lane c).pdst + (s.lane c).plen ≤ s.outPos ∧
    ∀ d : Fin 32, d ≠ c → s.pending d = true →
      (s.lane c).pdst + (s.lane c).plen ≤ (s.lane d).pdst ∨ (s.lane d).pdst + (s.lane d).plen ≤ (s.lane c).pdst

/-- The dynamic header's latches are in range whenever DYN_TABLES reads them (10_state.md R30, 42_block_control.md R176, R184). -/
def CountsInv (s : State) : Prop :=
  s.state = .dynTables → s.phase ≠ .counts →
    (257 ≤ s.hlit ∧ s.hlit ≤ 288) ∧ (1 ≤ s.hdist ∧ s.hdist ≤ 32) ∧ (4 ≤ s.hclen ∧ s.hclen ≤ 19) ∧
    (s.phase = .prelens → s.pi < s.hclen) ∧ (s.phase = .lens → s.li < s.hlit + s.hdist) ∧
    (s.phase = .build → s.hlit + s.hdist ≤ s.li ∧ s.li ≤ 457)

/-- The scratch arrays and the table memories have their sizes (10_state.md R33, R34, R36). -/
def SizesInv (s : State) : Prop :=
  s.precodeLens.length = 19 ∧ s.lens.length = 457 ∧
  s.pt.length = s.cfg.precodeTableSize ∧ s.lt.length = s.cfg.litlenTableSize ∧ s.ot.length = s.cfg.offsetTableSize

/-- The static tables are the loaded ones whenever the flag says so, and the flag is clear inside a dynamic header once its counts are
read (70_reset_and_hazards.md R299, 20_memory.md R77). -/
def StaticInv (s : State) : Prop :=
  (s.staticLoaded = true →
    (∃ t, s.lt = buildTable llRes s.cfg.litlenTableBits 15 staticLitlenLens t) ∧
    (∃ t, s.ot = buildTable offRes s.cfg.offsetTableBits 15 staticOffsetLens t)) ∧
  (s.state = .dynTables → s.phase ≠ .counts → s.staticLoaded = false)

end Sys2Proof.Machine
end

