-- ==== Sys2Proof/Certificates/Slice0/Obligations.lean ====
section
/-! DEFINITION. The statements for the provers. Each docstring names the rules of spec/ it formalises. A premise `reading = .ruled` asks
for the spec's rulings D3, D8 and D9 (00_scope.md R16), whose other values are the model's choice (log 34), and `headerRefills = .perElement`
for D7's (log 33). -/

open Sys2Proof Sys2Proof.Machine

/-! ## Encoding -/

/-- Decoding the element word of a well-formed instruction in its format gives the instruction back, with every operand at every value
its encoding admits (30_encoding.md R89 to R93, 45_host.md R240). -/
def Obligations.DecodeEncodeRoundTrip : Prop :=
  ∀ i : Instr, i.wellFormed = true → decode i.format (encode i) = .ok i

/-- The decoder only gives well-formed instructions of the format asked for, and each word has one meaning: encoding what was decoded
gives the word back. -/
def Obligations.DecodeSound : Prop :=
  ∀ (f : Format) (w : Nat) (i : Instr), decode f w = .ok i → i.wellFormed = true ∧ i.format = f ∧ encode i = w

/-- Words written out bit by bit from the spec's encodings, one or two for each family (45_host.md R240; 30_encoding.md R89, R90, R91,
R92, R96, R97, R98). That a word has its extra bits right above its symbol's 5 or 9 bits is the model's numbering (DESIGN CHOICE,
log 18). -/
def Obligations.DecodeSpecWords : Prop :=
  decode .ctrl 0b101 = .ok (.ctrlStart false true 0#29) ∧
  decode .ctrl 0b010 = .ok (.ctrlAck false 0#29) ∧
  decode .ctrl 0b100 = .ok (.ctrlIrqEn true 0#29) ∧
  decode .bhdr 0b000 = .ok (.bhdrStored false) ∧
  decode .bhdr 0b011 = .ok (.bhdrStatic true) ∧
  decode .bhdr 0b100 = .ok (.bhdrDynamic false) ∧
  decode .bhdr 0b111 = .ok (.bhdrReserved true) ∧
  decode .dcounts 0b11100000100001 = .ok (.dcounts 258 2 18) ∧
  decode .prelen 0b101 = .ok (.prelen 5#3) ∧
  decode .presym 0b01111 = .ok .presymLen15 ∧
  decode .presym 0b101011010010 = .ok (.presymZero18 86#7) ∧
  decode .llsym 0b001001000 = .ok (.llLiteral 0x48#8) ∧
  decode .llsym 0b100000000 = .ok .llEob ∧
  decode .llsym 0b1100001001 = .ok (.llLen265 1#1) ∧
  decode .offsym 0b111111111111111101 = .ok (.offDist29 8191#13)

/-- What is no instruction is refused by name: precode symbols above 18, litlen symbols above 287, words above an element's last bit;
every offset symbol has a meaning (30_encoding.md R84, R92, R95, R97). Which bits of a word are the symbol, and which is its last bit, is
the model's numbering (DESIGN CHOICE, log 18). -/
def Obligations.DecodeRejects : Prop :=
  (∀ w : Nat, 19 ≤ w % 32 → decode .presym w = .error .presymAbove18) ∧
  (∀ w : Nat, 288 ≤ w % 512 → decode .llsym w = .error .llsymAbove287) ∧
  (∀ w : Nat, decode .offsym w ≠ .error .offsymAbove31) ∧
  (∀ (f : Format) (w : Nat), 2 ^ elementBits f ≤ w → ∃ r, decode f w = .error r)

/-! ## Table entries and codes -/

/-- The fields read back from a direct entry are what the symbol's decode result holds, for every codeword length; a pointer entry gives
back its start and width (30_encoding.md R94, R95, R97; 41_huffman_tables.md R155). -/
def Obligations.EntryFields : Prop :=
  ∀ len : Nat, len < 256 →
    (∀ sym < 19, let e := directEntry (preRes sym) len
      entrySub e = false ∧ (entryByte e).toNat = sym ∧ entryLen e = len) ∧
    (∀ sym < 256, let e := directEntry (llRes sym) len
      entrySub e = false ∧ entryLit e = true ∧ (entryByte e).toNat = sym ∧ entryLen e = len) ∧
    (∀ sym < 288, 256 ≤ sym → let e := directEntry (llRes sym) len
      entrySub e = false ∧ entryLit e = false ∧ entryLbase e = lenBase sym ∧ (entryByte e).toNat = lenExtra sym ∧ entryLen e = len) ∧
    (∀ sym < 32, let e := directEntry (offRes sym) len
      entrySub e = false ∧ entryDbase e = offBase sym ∧ entryDextra e = offExtra sym ∧ entryLen e = len) ∧
    (∀ start < 2 ^ 23, let e := pointerEntry start len
      entrySub e = true ∧ entryStart e = start ∧ entryLen e = len)

/-- The static lengths, and that both static codes are complete (30_encoding.md R87). -/
def Obligations.StaticCodes : Prop :=
  staticLitlenLens.length = 288 ∧ (∀ sym < 288, staticLitlenLens.getD sym 0 = staticLitlenLen sym) ∧
  staticOffsetLens.length = 32 ∧ (∀ sym < 32, staticOffsetLens.getD sym 0 = 5) ∧
  kraftSum staticLitlenLens 15 = 2 ^ 15 ∧ kraftSum staticOffsetLens 15 = 2 ^ 15

/-- The bits of a litlen element. After the lookup of a symbol's entry, in whatever table a build left it, the symbol's extra bits follow in
the same lane, none for a literal or the end of block; too few of them is LANE_UNDERFLOW. So with the static litlen table, a lane that
delivers the static codeword of a litlen symbol, most significant bit first, and then its extra bits, gives exactly that element and loses
exactly those bits (30_encoding.md R82, R83, R88, R93, R95, R96; 40_lane_demux.md R122; 41_huffman_tables.md R156, R157;
43_symbol_decode.md R201, R203). The symbols 286 and 287 are fetched as 285, whose entry theirs equals (log 16); where the extra bits
stand in the word that is decoded is the model's numbering (DESIGN CHOICE, log 18). -/
def Obligations.StaticLitlenFetch : Prop :=
  (∀ (s v : State) (c : Fin 32) (sym len : Nat),
    s.cfg.reading.fieldBits = .lsbFirst → sym < 288 → len < 256 → lookup .litlen c s = .ok (directEntry (llRes sym) len) v →
    let extra := lenExtra sym
    (extra ≤ (v.lane c).left →
      ∃ i, decode .llsym ((if 286 ≤ sym then 285 else sym) + 2 ^ 9 * ((v.lane c).buf.toNat % 2 ^ extra)) = .ok i ∧
        fetchLitlen c s = .ok i (setLane c ((v.lane c).drop extra) v)) ∧
    ((v.lane c).left < extra →
      fetchLitlen c s = .raised { v with errCode := .laneUnderflow, errDetail := 0#4, state := .error })) ∧
  ∀ (s : State) (c : Fin 32) (i : Instr),
    i.format = .llsym → s.cfg.reading.fieldBits = .lsbFirst → s.cfg.litlenTableBits = 10 →
    s.lt = buildTable llRes 10 15 staticLitlenLens (List.replicate 1334 none) →
    let sym := encode i % 2 ^ 9
    let len := staticLitlenLen sym
    s.delivers c (len + lenExtra sym) (revBits len (staticLitlenCode sym) + encode i / 2 ^ 9 * 2 ^ len) →
    fetchLitlen c s =
      .ok (if i = .llLen286 ∨ i = .llLen287 then .llLen285 else i) (setLane c ((s.lane c).drop (len + lenExtra sym)) s)

/-- The bits of an offset element. After the lookup of a symbol's entry, in whatever table a build left it, the symbol's extra bits follow
in the same lane; too few of them is LANE_UNDERFLOW. So with the static offset table, a lane that delivers the five-bit codeword `d`, most
significant bit first, and then symbol `d`'s extra bits gives exactly that element and loses exactly those bits (30_encoding.md R88, R93,
R97; 40_lane_demux.md R122; 41_huffman_tables.md R157; 44_match_copy.md R220, R221). Where the extra bits stand in the word that is
decoded is the model's numbering (DESIGN CHOICE, log 18). -/
def Obligations.StaticOffsetFetch : Prop :=
  (∀ (s v : State) (c : Fin 32) (sym len : Nat),
    s.cfg.reading.fieldBits = .lsbFirst → sym < 32 → len < 256 → lookup .offset c s = .ok (directEntry (offRes sym) len) v →
    let extra := offExtra sym
    (extra ≤ (v.lane c).left →
      ∃ i, decode .offsym (sym + 2 ^ 5 * ((v.lane c).buf.toNat % 2 ^ extra)) = .ok i ∧
        fetchOffset c s = .ok i (setLane c ((v.lane c).drop extra) v)) ∧
    ((v.lane c).left < extra →
      fetchOffset c s = .raised { v with errCode := .laneUnderflow, errDetail := 0#4, state := .error })) ∧
  ∀ (s : State) (c : Fin 32) (i : Instr),
    i.format = .offsym → s.cfg.reading.fieldBits = .lsbFirst → s.cfg.offsetTableBits = 8 →
    s.ot = buildTable offRes 8 15 staticOffsetLens (List.replicate 402 none) →
    let sym := encode i % 2 ^ 5
    s.delivers c (5 + offExtra sym) (revBits 5 sym + encode i / 2 ^ 5 * 2 ^ 5) →
    fetchOffset c s = .ok i (setLane c ((s.lane c).drop (5 + offExtra sym)) s)

/-- The lookup law for every complete code without subtables, which every precode is under the default width: after its build, a lane
that delivers the canonical codeword of a symbol is looked up to that symbol's direct entry and loses exactly the codeword's bits
(30_encoding.md R82, R85, R86; 41_huffman_tables.md R147, R148, R156, R157, R159). -/
def Obligations.DirectLookupLaw : Prop :=
  ∀ (c : Code) (lens : List Nat) (s t : State) (lane : Fin 32) (sym : Nat),
    tableBits s.cfg c ≤ c.maxLen → 2 ^ tableBits s.cfg c ≤ (s.table c).length → lens.length ≤ c.maxSyms →
    (∀ l ∈ lens, l ≤ tableBits s.cfg c) → kraftSum lens c.maxLen = 2 ^ c.maxLen →
    build c lens s = .ok () t →
    sym < lens.length → lens.getD sym 0 ≠ 0 →
    let len := lens.getD sym 0
    t.delivers lane len (revBits len (canonicalCode lens sym)) →
    lookup c lane t = .ok (directEntry (c.result sym) len) (setLane lane ((t.lane lane).drop len) t)

/-- The lookup law for every complete code, with or without subtables: after its build into a table that holds its extent, a lane that
delivers the canonical codeword of a symbol is looked up to that symbol's entry and loses exactly the codeword's bits. The entry holds the
whole length, or, from a subtable, the length left after the main table's index (30_encoding.md R82, R85, R86; 41_huffman_tables.md R147,
R149, R150, R151, R152, R156, R157). -/
def Obligations.LookupLaw : Prop :=
  ∀ (c : Code) (lens : List Nat) (s t : State) (lane : Fin 32) (sym : Nat),
    let tb := tableBits s.cfg c
    tb ≤ 32 → codeExtent lens tb ≤ (s.table c).length → lens.length ≤ c.maxSyms →
    (∀ l ∈ lens, l ≤ c.maxLen) → kraftSum lens c.maxLen = 2 ^ c.maxLen →
    build c lens s = .ok () t →
    sym < lens.length → lens.getD sym 0 ≠ 0 →
    let len := lens.getD sym 0
    t.delivers lane len (revBits len (canonicalCode lens sym)) →
    lookup c lane t =
      .ok (directEntry (c.result sym) (if len ≤ tb then len else len - tb)) (setLane lane ((t.lane lane).drop len) t)

/-! ## Steps -/

/-- With no input waiting, a step that reads one element runs exactly the element its fetch decodes, on the state the fetch leaves.
PRELENS, which runs several, has its own statement (42_block_control.md R170; 43_symbol_decode.md R200; 70_reset_and_hazards.md R303). -/
def Obligations.StepRunsFetchedElement : Prop :=
  ∀ (s s' : State) (f : Format) (i : Instr),
    s.inputs = [] → nextFormat s = some f → f ≠ .prelen → fetch f s = .ok i s' → step s = exec i s'

/-- A host store of a value to CTRL runs the command that value decodes to (45_host.md R240; 10_state.md R39). That the store at ENGINE_BASE
is an aligned one where ENGINE_BASE itself is not word-aligned is the model's choice (DESIGN CHOICE, log 32). -/
def Obligations.StepRunsCtrlStore : Prop :=
  ∀ (s : State) (v : Word) (rest : List Input),
    s.inputs = .store s.cfg.engineBase .word v :: rest →
    step s = exec (decodeCtrl v) { s with inputs := rest }

/-- PRELENS is one step: it runs the fetched precode length and then, while the phase stays, the next ones
(42_block_control.md R170, R177). -/
def Obligations.PrelensStep : Prop :=
  ∀ (s s' t : State) (i : Instr),
    s.inputs = [] → s.state = .dynTables → s.phase = .prelens → s.hclen ≤ 19 →
    fetch .prelen s = .ok i s' → exec i s' = .next t →
    step s = if t.phase = .prelens then step t else .next t

/-- In IDLE, DONE and ERROR the engine does nothing of its own (42_block_control.md R170; 60_exceptions.md R264; that the model's step
answers the same state is log 23). -/
def Obligations.IdleWaits : Prop :=
  ∀ s : State, s.inputs = [] → s.state = .idle ∨ s.state = .done ∨ s.state = .error → step s = .next s

/-! ## CTRL commands -/

/-- A CTRL write: bits 31:3 are ignored, IRQ_EN is always written, START and ACK act only with BUSY = 0, START wins over ACK, and a
write with neither changes IRQ_EN alone (45_host.md R240). -/
def Obligations.CtrlCommandEncoding : Prop :=
  ∀ (s : State) (v : Word),
    (∀ w : Word, w.extractLsb' 0 3 = v.extractLsb' 0 3 → exec (decodeCtrl w) s = exec (decodeCtrl v) s) ∧
    (∀ t, exec (decodeCtrl v) s = .next t → t.irqEn = v.getLsbD 2) ∧
    (s.busy = true → exec (decodeCtrl v) s = .next { s with irqEn := v.getLsbD 2 }) ∧
    (v.getLsbD 0 = true → exec (decodeCtrl v) s = exec (decodeCtrl (v &&& ~~~2#32)) s) ∧
    (v.getLsbD 0 = false → v.getLsbD 1 = false → exec (decodeCtrl v) s = .next { s with irqEn := v.getLsbD 2 })

/-- START with BUSY = 0 performs TILE_INIT, forgets the last error, and keeps every other piece of the engine's state: `static_loaded`, the
scratch arrays, the tables, the configuration registers, and memory. A bound above one tile then fails with CONFIG_ERROR
(42_block_control.md R171; 45_host.md R241; 70_reset_and_hazards.md R295). That START opens the tile's windows to races and forgets the
bytes contested before, also where it ends in CONFIG_ERROR, is the model's reading of 20_memory.md R71 (DEDUCED, log 12). That CONFIG_ERROR
comes before the refusals, so also for inadmissible tables or a window on a device, is the model's choice (DESIGN CHOICE, log 9); which
tables and windows those are is its own too (log 10, log 9). -/
def Obligations.StartBeginsTile : Prop :=
  ∀ (s : State) (ack irqEn : Bool) (rsv : BitVec 29), s.busy = false →
    (s.outBound.toNat ≤ 65536 → configAdmissible s.cfg = true → s.windowOnDevice = false →
      exec (.ctrlStart ack irqEn rsv) s =
        .next { s with
          irqEn := irqEn, errCode := .none, errDetail := 0#4, state := .prime
          lanes := Vector.replicate 32 { buf := 0#64, left := 0, plen := 0, pdst := 0 }
          cur := 0, pend := 0#32, inPos := 0, outPos := 0, isFinal := false, btype := 0#2, overread := false
          openTiles := s.windows :: s.openTiles, contested := [] }) ∧
    (65536 < s.outBound.toNat →
      exec (.ctrlStart ack irqEn rsv) s =
        .next { s with
          irqEn := irqEn, errCode := .configError, errDetail := 0#4, state := .error
          lanes := Vector.replicate 32 { buf := 0#64, left := 0, plen := 0, pdst := 0 }
          cur := 0, pend := 0#32, inPos := 0, outPos := 0, isFinal := false, btype := 0#2, overread := false
          openTiles := s.windows :: s.openTiles, contested := [] })

/-- The STARTs the spec tells a model to refuse are refused by name: table parameters below the bounds (41_huffman_tables.md R152; the
bound for other parameters is log 10), a window on a device region (20_memory.md R68; which regions is log 9). -/
def Obligations.StartRefusals : Prop :=
  ∀ (s : State) (ack irqEn : Bool) (rsv : BitVec 29), s.busy = false → s.outBound.toNat ≤ 65536 →
    (configAdmissible s.cfg = false → exec (.ctrlStart ack irqEn rsv) s = .refused .tableParameters) ∧
    (configAdmissible s.cfg = true → s.windowOnDevice = true →
      exec (.ctrlStart ack irqEn rsv) s = .refused .windowOnDevice)

/-- ACK with BUSY = 0 clears the error, the sticky flag and DONE or ERROR, and keeps everything else (45_host.md R242). -/
def Obligations.AckClears : Prop :=
  ∀ (s : State) (irqEn : Bool) (rsv : BitVec 29), s.busy = false →
    exec (.ctrlAck irqEn rsv) s =
      .next { s with irqEn := irqEn, errCode := .none, errDetail := 0#4, overread := false, state := .idle }

/-- The interrupt line is high exactly when enabled in DONE or ERROR, and falls on ACK, on an accepted START and on IRQ_EN written 0;
it is low after reset (10_state.md R51). -/
def Obligations.IrqLine : Prop :=
  State.reset.irq = false ∧
  ∀ s : State,
    (s.irq = true ↔ s.irqEn = true ∧ (s.state = .done ∨ s.state = .error)) ∧
    (∀ irqEn rsv, s.busy = false → ∃ t, exec (.ctrlAck irqEn rsv) s = .next t ∧ t.irq = false) ∧
    (∀ ack irqEn rsv t, s.busy = false → s.outBound.toNat ≤ 65536 →
      exec (.ctrlStart ack irqEn rsv) s = .next t → t.irq = false) ∧
    (∀ rsv, ∃ t, exec (.ctrlIrqEn false rsv) s = .next t ∧ t.irq = false)

/-! ## Block header and dynamic header -/

/-- The four block headers: `is_final` and `btype` are latched first; static and dynamic blocks go to their tables; an uncompressed block
is UNSUPPORTED_FEATURE with detail 4, the reserved type CORRUPT_STREAM with detail 5; nothing else changes (42_block_control.md R172,
R174, R175). -/
def Obligations.BhdrElements : Prop :=
  ∀ (s : State) (final : Bool),
    exec (.bhdrStored final) s =
      .next { s with isFinal := final, btype := 0#2, errCode := .unsupportedFeature, errDetail := 4#4, state := .error } ∧
    exec (.bhdrStatic final) s = .next { s with isFinal := final, btype := 1#2, state := .staticTables } ∧
    exec (.bhdrDynamic final) s = .next { s with isFinal := final, btype := 2#2, state := .dynTables, phase := .counts } ∧
    exec (.bhdrReserved final) s =
      .next { s with isFinal := final, btype := 3#2, errCode := .corruptStream, errDetail := 5#4, state := .error }

/-- BLOCK_HEADER: after lane 0's refill, its low three bits are taken; bit 0 is `is_final`, bits 2:1 the block type; the cursor stays; a
refill that cannot be done ends in INPUT_OVERREAD with nothing changed (42_block_control.md R172; 30_encoding.md R89; 40_lane_demux.md
R124, R127, R128). -/
def Obligations.BlockHeaderStep : Prop :=
  ∀ s : State, s.inputs = [] → s.state = .header → s.cfg.reading = .ruled → s.cfg.headerRefills = .perElement →
    (¬ CanRefill 0 s → step s = .next { s with errCode := .inputOverread, errDetail := 0#4, state := .error }) ∧
    (CanRefill 0 s → ∃ u, refill 0 s = .ok () u ∧
      let h := (u.lane 0).buf.toNat % 8
      let t : State :=
        { u with lanes := u.lanes.set 0 ((u.lane 0).drop 3), isFinal := decide (h % 2 = 1), btype := BitVec.ofNat 2 (h / 2) }
      u.cur = s.cur ∧
      (h / 2 = 0 → step s = .next { t with errCode := .unsupportedFeature, errDetail := 4#4, state := .error }) ∧
      (h / 2 = 1 → step s = .next { t with state := .staticTables }) ∧
      (h / 2 = 2 → step s = .next { t with state := .dynTables, phase := .counts }) ∧
      (h / 2 = 3 → step s = .next { t with errCode := .corruptStream, errDetail := 5#4, state := .error }))

/-- The dynamic counts: the element clears `static_loaded` and latches the three counts; the step refills lane 0 before each of the three
fields, reads them as 5 + 5 + 4 bits and adds 257, 1 and 4; a refill that cannot be done ends in INPUT_OVERREAD with the fields read
before it latched (42_block_control.md R176; 30_encoding.md R90; 40_lane_demux.md R124, R128). With 42 bits buffered no refill falls in
between. -/
def Obligations.DynCounts : Prop :=
  ∀ s : State,
    (∀ hlit hdist hclen, exec (.dcounts hlit hdist hclen) s =
      .next { s with staticLoaded := false, hlit := hlit, hdist := hdist, hclen := hclen, pi := 0, phase := .prelens }) ∧
    (s.inputs = [] → s.state = .dynTables → s.phase = .counts → s.cfg.reading = .ruled → s.cfg.headerRefills = .perElement →
      let s1 := { s with staticLoaded := false }
      (¬ CanRefill 0 s1 → step s = .next { s1 with errCode := .inputOverread, errDetail := 0#4, state := .error }) ∧
      ∀ u1, refill 0 s1 = .ok () u1 →
        let s2 := { u1 with lanes := u1.lanes.set 0 ((u1.lane 0).drop 5), hlit := (u1.lane 0).buf.toNat % 32 + 257 }
        (¬ CanRefill 0 s2 → step s = .next { s2 with errCode := .inputOverread, errDetail := 0#4, state := .error }) ∧
        ∀ u2, refill 0 s2 = .ok () u2 →
          let s3 := { u2 with lanes := u2.lanes.set 0 ((u2.lane 0).drop 5), hdist := (u2.lane 0).buf.toNat % 32 + 1 }
          (¬ CanRefill 0 s3 → step s = .next { s3 with errCode := .inputOverread, errDetail := 0#4, state := .error }) ∧
          ∀ u3, refill 0 s3 = .ok () u3 →
            step s = .next { u3 with
              lanes := u3.lanes.set 0 ((u3.lane 0).drop 4), hclen := (u3.lane 0).buf.toNat % 16 + 4, pi := 0, phase := .prelens }) ∧
    (s.inputs = [] → s.state = .dynTables → s.phase = .counts → s.cfg.reading = .ruled → 42 ≤ (s.lane 0).left →
      let b := (s.lane 0).buf.toNat
      step s =
        .next { s with
          lanes := s.lanes.set 0 ((s.lane 0).drop 14), staticLoaded := false
          hlit := b % 32 + 257, hdist := b / 32 % 32 + 1, hclen := b / 1024 % 16 + 4, pi := 0, phase := .prelens })

/-- The bits of the precode family, all from lane 0: a precode length is its next three bits after a refill; a precode element is a refill,
a codeword, and then, with no refill in between, the symbol's 2, 3 or 7 extra bits, of which a first 16 reads none; a refill that cannot
be done ends in INPUT_OVERREAD (42_block_control.md R177, R179, R180, R181, R182, R183; 30_encoding.md R91, R92; 40_lane_demux.md R124,
R128). Where the extra bits stand in the word that is decoded is the model's numbering (DESIGN CHOICE, log 18). -/
def Obligations.PrecodeFetches : Prop :=
  ∀ s : State, s.cfg.reading = .ruled → s.cfg.headerRefills = .perElement →
    (¬ CanRefill 0 s →
      fetchPrelen s = .raised { s with errCode := .inputOverread, errDetail := 0#4, state := .error } ∧
      fetchPresym s = .raised { s with errCode := .inputOverread, errDetail := 0#4, state := .error }) ∧
    ∀ u, refill 0 s = .ok () u →
      fetchPrelen s =
        .ok (.prelen ((u.lane 0).buf.extractLsb' 0 3)) { u with lanes := u.lanes.set 0 ((u.lane 0).drop 3) } ∧
      ∀ (sym len : Nat) (v : State), sym < 19 → len < 256 → lookup .precode 0 u = .ok (directEntry (preRes sym) len) v →
        let extra := if sym = 16 then 2 else if sym = 17 then 3 else if sym = 18 then 7 else 0
        (sym = 16 → s.li = 0 → fetchPresym s = .ok (.presymRep16 0#2) v) ∧
        (¬ (sym = 16 ∧ s.li = 0) → extra ≤ (v.lane 0).left →
          ∃ i, decode .presym (sym + 2 ^ 5 * ((v.lane 0).buf.toNat % 2 ^ extra)) = .ok i ∧
            fetchPresym s = .ok i { v with lanes := v.lanes.set 0 ((v.lane 0).drop extra) })

/-- One precode length goes to the symbol PERM names, and nothing else but `pi` changes while more follow; all `hclen` of them give every
symbol PERM names first its length, zero the rest, and move to PREBUILD (42_block_control.md R177; 30_encoding.md R91). That `pi` stands
at 19 after the zero-fill is the model's reading (DEDUCED, log 26). -/
def Obligations.PrelensFill : Prop :=
  ∀ s : State, s.precodeLens.length = 19 →
    (∀ len, s.pi + 1 < s.hclen →
      exec (.prelen len) s =
        .next { s with precodeLens := s.precodeLens.set (permTable.getD s.pi 19) len, pi := s.pi + 1 }) ∧
    (∀ len, s.hclen ≤ s.pi + 1 →
      ∃ t, exec (.prelen len) s = .next t ∧
        t = { s with precodeLens := t.precodeLens, pi := 19, phase := .prebuild }) ∧
    (∀ lens : List (BitVec 3), 4 ≤ lens.length → lens.length ≤ 19 → s.hclen = lens.length → s.pi = 0 →
      ∃ t, execAll (lens.map fun l => .prelen l) s = .next t ∧
        t = { s with precodeLens := t.precodeLens, pi := 19, phase := .prebuild } ∧ t.precodeLens.length = 19 ∧
        (∀ k < lens.length, t.precodeLens.getD (permTable.getD k 19) 0#3 = lens.getD k 0#3) ∧
        (∀ k < 19, lens.length ≤ k → t.precodeLens.getD (permTable.getD k 19) 0#3 = 0#3))

/-- The sixteen explicit lengths: one codeword length is written at `li`, and the run ends when `hlit + hdist` lengths are there
(42_block_control.md R180, R184; 30_encoding.md R92). -/
def Obligations.PresymExplicit : Prop :=
  ∀ (s : State) (i : Instr) (v : BitVec 4), explicitLength i = some v →
    exec i s =
      .next { s with
        lens := s.lens.set s.li v, li := s.li + 1
        phase := if s.hlit + s.hdist ≤ s.li + 1 then .build else s.phase }

/-- The repeats. Symbol 16: CORRUPT_STREAM with detail 6 when there is no previous length, else 3 + extra copies of it. Symbols 17 and 18:
3 + extra and 11 + extra zeros. The excess past `hlit + hdist` is accepted (42_block_control.md R181, R182, R183, R184;
30_encoding.md R92). -/
def Obligations.PresymRepeats : Prop :=
  (∀ (s : State) (extra : BitVec 2),
    (s.li = 0 →
      exec (.presymRep16 extra) s = .next { s with errCode := .corruptStream, errDetail := 6#4, state := .error }) ∧
    (s.li ≠ 0 →
      ∃ t, exec (.presymRep16 extra) s = .next t ∧
        t = { s with
          lens := t.lens, li := s.li + (3 + extra.toNat)
          phase := if s.hlit + s.hdist ≤ s.li + (3 + extra.toNat) then .build else s.phase } ∧
        t.lens.length = s.lens.length ∧
        ∀ k, t.lens.getD k 0#4 =
          if s.li ≤ k ∧ k < s.li + (3 + extra.toNat) ∧ k < s.lens.length then s.lens.getD (s.li - 1) 0#4
          else s.lens.getD k 0#4)) ∧
  ∀ (s : State) (i : Instr) (n : Nat),
    ((∃ extra, i = .presymZero17 extra ∧ n = 3 + extra.toNat) ∨ (∃ extra, i = .presymZero18 extra ∧ n = 11 + extra.toNat)) →
    ∃ t, exec i s = .next t ∧
      t = { s with
        lens := t.lens, li := s.li + n, phase := if s.hlit + s.hdist ≤ s.li + n then .build else s.phase } ∧
      t.lens.length = s.lens.length ∧
      ∀ k, t.lens.getD k 0#4 = if s.li ≤ k ∧ k < s.li + n then 0#4 else s.lens.getD k 0#4

/-! ## Symbols -/

/-- A literal at the bound is OUTPUT_OVERRUN with detail 8 and writes nothing; else its byte is written at the output cursor, no other
byte of memory changes, the cursor moves on by one, and ADVANCE follows (43_symbol_decode.md R202; 40_lane_demux.md R125). -/
def Obligations.LiteralElement : Prop :=
  ∀ (s : State) (b : Byte),
    (s.outBound.toNat ≤ s.outPos →
      exec (.llLiteral b) s = .next { s with errCode := .outputOverrun, errDetail := 8#4, state := .error }) ∧
    (s.outPos < s.outBound.toNat → CanAdvance s → MemoryInv s →
      ∃ (t : State) (m : List Host.Cell),
        exec (.llLiteral b) s = .next t ∧
        Advanced
          { s with
            outPos := s.outPos + 1, mem := m, trace := .write s.outPos b :: s.trace
            draws := if s.raced (s.outAddr s.outPos) then s.draws + 1 else s.draws } t ∧
        (s.raced (s.outAddr s.outPos) = false → Mem.read m (s.outAddr s.outPos) = b) ∧
        ∀ a, a ≠ s.outAddr s.outPos → Mem.read m a = Mem.read s.mem a)

/-- End of block, whatever space remains: to DRAIN, with no ADVANCE (43_symbol_decode.md R204). -/
def Obligations.EobElement : Prop :=
  ∀ s : State, s.cfg.reading = .ruled → exec .llEob s = .next { s with state := .drain, trace := .eob s.cur :: s.trace }

/-- The 31 length symbols, with the lengths of the spec's table: a match past the bound is OUTPUT_OVERRUN with detail 9 and records
nothing; else the lane's slot takes the length and the output cursor, the cursor moves past the match, the pending bit is set, and
ADVANCE follows; memory is unchanged (43_symbol_decode.md R203, R205; 30_encoding.md R96). -/
def Obligations.MatchRecordElements : Prop :=
  ∀ (s : State) (i : Instr) (len : Nat), matchLength i = some len →
    (s.outBound.toNat < s.outPos + len →
      exec i s = .next { s with errCode := .outputOverrun, errDetail := 9#4, state := .error }) ∧
    (s.outPos + len ≤ s.outBound.toNat → CanAdvance s →
      ∃ t, exec i s = .next t ∧
        Advanced
          { s with
            lanes := s.lanes.set s.cur.val { s.lane s.cur with plen := len, pdst := s.outPos }
            outPos := s.outPos + len, pend := s.pend ||| (1#32 <<< s.cur.val)
            trace := .record s.cur s.outPos len :: s.trace } t)

/-- The 32 distance symbols, with the distances of the spec's table: a distance before the tile's first byte is CORRUPT_STREAM with detail
7 and writes nothing; else the lane's copy is performed, its pending bit cleared, and ADVANCE follows. The bytes copied are those at the
distance before the destination, repeating where the ranges overlap; no byte outside the destination range changes
(44_match_copy.md R220, R221, R223, R224; 30_encoding.md R97). -/
def Obligations.OffsetElements : Prop :=
  ∀ (s : State) (i : Instr) (dist : Nat), distanceOf i = some dist →
    let dst := (s.lane s.cur).pdst
    let len := (s.lane s.cur).plen
    (dst < dist → exec i s = .next { s with errCode := .corruptStream, errDetail := 7#4, state := .error }) ∧
    (dist ≤ dst → CanAdvance s → MemoryInv s →
      ∃ (t : State) (m : List Host.Cell) (writes : List Event) (d : Nat),
        exec i s = .next t ∧
        Advanced
          { s with
            mem := m, pend := s.pend &&& ~~~(1#32 <<< s.cur.val), draws := d
            trace := .copy s.cur dst dist len :: (writes ++ s.trace) } t ∧
        writes.length = len ∧ (∀ e ∈ writes, ∃ k b, k < len ∧ e = .write (dst + k) b) ∧
        (∀ a, (∀ k < len, a ≠ s.outAddr (dst + k)) → Mem.read m a = Mem.read s.mem a) ∧
        (dst + len ≤ 2 ^ s.cfg.addrWidth → NoOutputRace s (dst + len) →
          d = s.draws ∧
          ∀ k < len, Mem.read m (s.outAddr (dst + k)) = Mem.read s.mem (s.outAddr (dst - dist + k % dist))))

/-- Every element but START gives a next state in every state: no element of the stream and no other command stops the model. START
does too while BUSY, above the bound, and for the configurations the spec defines (42_block_control.md R170; 45_host.md R240, R241). That
above the bound it does so also with inadmissible tables or a window on a device, CONFIG_ERROR coming before the refusals, is the model's
choice (DESIGN CHOICE, log 9); which configurations count as defined is its own too: the devices (DESIGN CHOICE, log 9) and the table bounds
(DEDUCED, log 10). -/
def Obligations.EveryElementRuns : Prop :=
  ∀ (i : Instr) (s : State),
    ((∀ ack irqEn rsv, i ≠ .ctrlStart ack irqEn rsv) ∨ s.busy = true ∨ 65536 < s.outBound.toNat ∨
      (configAdmissible s.cfg = true ∧ s.windowOnDevice = false)) →
    ∃ t, exec i s = .next t

/-- Errors are precise: an element whose ADVANCE reads past the input under the FAULT policy ends in INPUT_OVERREAD with its own effects
kept and no lane refilled: a literal's byte and output cursor, a match's recorded slot, a copy's bytes and cleared pending bit
(60_exceptions.md R260, R263; 40_lane_demux.md R124, R125; 20_memory.md R63). -/
def Obligations.OverreadKeepsEffects : Prop :=
  (∀ (s : State) (b : Byte),
    s.outPos < s.outBound.toNat → ¬ CanAdvance s → MemoryInv s →
    ∃ (t : State) (m : List Host.Cell),
      exec (.llLiteral b) s = .next t ∧
      t = { s with
        errCode := .inputOverread, errDetail := 0#4, state := .error, cur := s.refillLane
        outPos := s.outPos + 1, mem := m, trace := .write s.outPos b :: s.trace
        draws := if s.raced (s.outAddr s.outPos) then s.draws + 1 else s.draws } ∧
      (s.raced (s.outAddr s.outPos) = false → Mem.read m (s.outAddr s.outPos) = b) ∧
      ∀ a, a ≠ s.outAddr s.outPos → Mem.read m a = Mem.read s.mem a) ∧
  ∀ (s : State) (i : Instr), ¬ CanAdvance s →
    (∀ len, matchLength i = some len → s.outPos + len ≤ s.outBound.toNat →
      exec i s =
        .next { s with
          errCode := .inputOverread, errDetail := 0#4, state := .error, cur := s.refillLane
          lanes := s.lanes.set s.cur.val { s.lane s.cur with plen := len, pdst := s.outPos }
          outPos := s.outPos + len, pend := s.pend ||| (1#32 <<< s.cur.val)
          trace := .record s.cur s.outPos len :: s.trace }) ∧
    (∀ dist, distanceOf i = some dist → dist ≤ (s.lane s.cur).pdst → MemoryInv s →
      let dst := (s.lane s.cur).pdst
      let len := (s.lane s.cur).plen
      ∃ (t : State) (m : List Host.Cell) (writes : List Event) (d : Nat),
        exec i s = .next t ∧
        t = { s with
          errCode := .inputOverread, errDetail := 0#4, state := .error, cur := s.refillLane
          mem := m, pend := s.pend &&& ~~~(1#32 <<< s.cur.val), draws := d
          trace := .copy s.cur dst dist len :: (writes ++ s.trace) } ∧
        writes.length = len ∧
        (∀ a, (∀ k < len, a ≠ s.outAddr (dst + k)) → Mem.read m a = Mem.read s.mem a) ∧
        (dst + len ≤ 2 ^ s.cfg.addrWidth → NoOutputRace s (dst + len) →
          d = s.draws ∧
          ∀ k < len, Mem.read m (s.outAddr (dst + k)) = Mem.read s.mem (s.outAddr (dst - dist + k % dist))))

/-! ## Lanes and input -/

/-- REFILL: nothing with 32 bits or more; under the FAULT policy INPUT_OVERREAD before any write for a word past the input; else the input
word (stated below) goes above the lane's valid bits, which leaves 32 to 63 of them, and nothing changes beside but the word count, the
trace, and the draws and the sticky flag of a word that is not all defined (40_lane_demux.md R124). The word goes there as it stands
under the ruling D3; the reading that the spec does not take is left unstated (log 34). -/
def Obligations.RefillFetches : Prop :=
  ∀ (s : State) (c : Fin 32),
    (32 ≤ (s.lane c).left → refill c s = .ok () s) ∧
    ((s.lane c).left < 32 → s.cfg.overreadPolicy = .fault → s.inLen.toNat < 4 * s.inPos + 4 →
      refill c s = .raised { s with errCode := .inputOverread, errDetail := 0#4, state := .error }) ∧
    ((s.lane c).left < 32 → Refillable s →
      ∃ t : State,
        refill c s = .ok () t ∧
        t = { s with
          lanes := s.lanes.set c.val
            { s.lane c with
              buf := (s.lane c).buf ||| ((s.asDelivered (inputWord s).1).setWidth 64 <<< (s.lane c).left)
              left := (s.lane c).left + 32 }
          inPos := s.inPos + 1, trace := .fetch s.inPos c :: s.trace
          draws := (inputWord s).2.draws, overread := (inputWord s).2.overread } ∧
        32 ≤ (t.lane c).left ∧ (t.lane c).left ≤ 63 ∧
        t.overread = (s.overread || decide (s.inLen.toNat < 4 * s.inPos + 4)) ∧
        (WordDefined s s.inPos → (inputWord s).1 = s.wordAt s.inPos ∧ t.draws = s.draws ∧ t.overread = s.overread)) ∧
    (s.cfg.reading.wordBits = .lsbFirst → ∀ w : Word, s.asDelivered w = w)

/-- The input word: four bytes, the lowest address in the lowest bits; a byte inside the tile that does not race is memory's; the sticky
flag is set exactly when a byte lies past the tile; nothing but the flag and the draws changes (20_memory.md R62, R63). -/
def Obligations.InputWordBytes : Prop :=
  ∀ s : State,
    (inputWord s).2 = { s with draws := (inputWord s).2.draws, overread := s.overread || decide (s.inLen.toNat < 4 * s.inPos + 4) } ∧
    (∀ j < 4, 4 * s.inPos + j < s.inLen.toNat → s.raced (s.inAddr (4 * s.inPos + j)) = false →
      (inputWord s).1.extractLsb' (8 * j) 8 = Mem.read s.mem (s.inAddr (4 * s.inPos + j))) ∧
    (WordDefined s s.inPos → inputWord s = (s.wordAt s.inPos, s))

/-- PRIME deals the first 32 words: word k to lane k, or to lane k + 1 modulo 32 under the other order; every lane then holds 32 bits, the
cursor is back at lane 0, and the header follows. What a lane holds is the word as it delivers it (stated with REFILL). Under the FAULT policy an input shorter than 128 bytes ends in INPUT_OVERREAD
(40_lane_demux.md R126). -/
def Obligations.PrimeDealsWords : Prop :=
  ∀ s : State, s.inputs = [] → s.state = .prime → s.lanes = Vector.replicate 32 {} → s.cur = 0 → s.inPos = 0 →
    (s.cfg.overreadPolicy = .draw ∨ 128 ≤ s.inLen.toNat →
      let laneOf : Fin 32 → Fin 32 := fun k =>
        match s.cfg.advanceOrder with
        | .refillThenMove => k
        | .moveThenRefill => k + 1
      ∃ t, step s = .next t ∧
        t = { s with
          lanes := t.lanes, inPos := 32, trace := t.trace, state := .header, draws := t.draws, overread := t.overread } ∧
        (∀ k : Fin 32, (t.lane (laneOf k)).left = 32 ∧ (t.lane (laneOf k)).plen = 0 ∧ (t.lane (laneOf k)).pdst = 0 ∧
          (WordDefined s k.val → (t.lane (laneOf k)).buf = (s.asDelivered (s.wordAt k.val)).setWidth 64)) ∧
        t.trace = ((List.finRange 32).map fun k => Event.fetch k.val (laneOf k)).reverse ++ s.trace) ∧
    (s.cfg.overreadPolicy = .fault → s.inLen.toNat < 128 →
      ∃ t, step s = .next t ∧ t.state = .error ∧ t.errCode = .inputOverread ∧ t.errDetail = 0#4 ∧ t.mem = s.mem)

/-! ## Tables -/

/-- PREBUILD: an overfull precode is CORRUPT_HUFFMAN_CODE with detail 1, an incomplete one UNSUPPORTED_FEATURE with detail 1, each with the
table unchanged; a complete one is built, and the lengths follow from `li` = 0 (42_block_control.md R178; 41_huffman_tables.md R144,
R145, R154; 30_encoding.md R85). The sort scratch alone is left unstated (10_state.md R35). -/
def Obligations.PrebuildStep : Prop :=
  ∀ s : State, s.inputs = [] → s.state = .dynTables → s.phase = .prebuild →
    let lens := s.precodeLens.map fun l => l.toNat
    ∃ t, step s = .next t ∧
      (128 < kraftSum lens 7 →
        t = { s with sortedSyms := t.sortedSyms, errCode := .corruptHuffmanCode, errDetail := 1#4, state := .error }) ∧
      (kraftSum lens 7 < 128 →
        t = { s with sortedSyms := t.sortedSyms, errCode := .unsupportedFeature, errDetail := 1#4, state := .error }) ∧
      (kraftSum lens 7 = 128 →
        t = { s with
          sortedSyms := t.sortedSyms, pt := buildTable preRes s.cfg.precodeTableBits 7 lens s.pt
          trace := .build .precode :: s.trace, li := 0, phase := .lens })

/-- DYN_BUILD: the offset code is checked and built before the litlen code, so its error wins and leaves both tables; a litlen error comes
with the new offset table in place; with both complete, both tables are built from the two runs of lengths, lane 0 is refilled and DECODE
follows, or the refill's INPUT_OVERREAD ends the step with both tables built (42_block_control.md R185, R188, R189; 41_huffman_tables.md R144, R145, R154). -/
def Obligations.DynBuildStep : Prop :=
  ∀ s : State, s.inputs = [] → s.state = .dynTables → s.phase = .build → s.cfg.reading = .ruled → s.cfg.headerRefills = .perElement →
    let offset := kraftSum s.offsetLens 15
    let litlen := kraftSum s.litlenLens 15
    let ot := buildTable offRes s.cfg.offsetTableBits 15 s.offsetLens s.ot
    let lt := buildTable llRes s.cfg.litlenTableBits 15 s.litlenLens s.lt
    ∃ t, step s = .next t ∧
      (2 ^ 15 < offset →
        t = { s with sortedSyms := t.sortedSyms, errCode := .corruptHuffmanCode, errDetail := 3#4, state := .error }) ∧
      (offset < 2 ^ 15 →
        t = { s with sortedSyms := t.sortedSyms, errCode := .unsupportedFeature, errDetail := 3#4, state := .error }) ∧
      (offset = 2 ^ 15 → 2 ^ 15 < litlen →
        t = { s with
          sortedSyms := t.sortedSyms, ot := ot, trace := .build .offset :: s.trace
          errCode := .corruptHuffmanCode, errDetail := 2#4, state := .error }) ∧
      (offset = 2 ^ 15 → litlen < 2 ^ 15 →
        t = { s with
          sortedSyms := t.sortedSyms, ot := ot, trace := .build .offset :: s.trace
          errCode := .unsupportedFeature, errDetail := 2#4, state := .error }) ∧
      (offset = 2 ^ 15 → litlen = 2 ^ 15 →
        let built := { s with sortedSyms := t.sortedSyms, ot := ot, lt := lt, trace := .build .litlen :: .build .offset :: s.trace }
        (CanRefill 0 s → ∃ u, refill 0 built = .ok () u ∧ t = { u with state := .decode }) ∧
        (¬ CanRefill 0 s → t = { built with errCode := .inputOverread, errDetail := 0#4, state := .error }))

/-- STATIC_TABLES: with the flag set nothing is built; with it clear the offset table and then the litlen table are built from the static
lengths and the flag is set; either way lane 0 is refilled and DECODE follows, or the refill's INPUT_OVERREAD ends the step
(42_block_control.md R186, R187, R189; 40_lane_demux.md R124). -/
def Obligations.StaticTablesStep : Prop :=
  ∀ s : State, s.inputs = [] → s.state = .staticTables → s.cfg.reading = .ruled → s.cfg.headerRefills = .perElement →
    ∃ t, step s = .next t ∧
      let ready :=
        if s.staticLoaded then s
        else
          { s with
            sortedSyms := t.sortedSyms, staticLoaded := true
            ot := buildTable offRes s.cfg.offsetTableBits 15 staticOffsetLens s.ot
            lt := buildTable llRes s.cfg.litlenTableBits 15 staticLitlenLens s.lt
            trace := .build .litlen :: .build .offset :: s.trace }
      (CanRefill 0 s → ∃ u, refill 0 ready = .ok () u ∧ t = { u with state := .decode }) ∧
      (¬ CanRefill 0 s → t = { ready with errCode := .inputOverread, errDetail := 0#4, state := .error })

/-! ## Drain and finish -/

/-- DRAIN is 32 lane steps and then BLOCK_DONE. A step at a lane with a pending copy fetches that lane's offset element and runs it, which
performs the copy, clears the bit and advances; a step at any other lane only advances. The first step that cannot be done ends the drain
with its error and the effects of the steps before it: a distance before the tile's first byte is CORRUPT_STREAM with detail 7, a refill
past the input INPUT_OVERREAD. A drain that ends without an error took all 32 steps, leaves no pending copy, the lane cursor where it was,
the output cursor unmoved, and goes to the next header or to DONE (44_match_copy.md R220, R225, R227; 42_block_control.md R190, R191;
40_lane_demux.md R124, R125). -/
def Obligations.DrainClearsPending : Prop :=
  ∀ s : State, s.inputs = [] → s.state = .drain → s.cfg.reading = .ruled →
    (∀ u, DrainSteps 32 s u →
      let short := u.isFinal = true ∧ u.cfg.strictTileLength = true ∧ u.outPos ≠ u.outBound.toNat
      (short → step s = .next { u with errCode := .corruptStream, errDetail := 10#4, state := .error }) ∧
      (¬ short → step s = .next { u with state := if u.isFinal then .done else .header })) ∧
    (∀ k < 32, ∀ u, DrainSteps k s u → u.pending u.cur = true →
      (∀ i v t, fetchOffset u.cur u = .ok i v → exec i v = .next t → t.state = .error → step s = .next t) ∧
      (∀ i v dist, fetchOffset u.cur u = .ok i v → distanceOf i = some dist → (v.lane v.cur).pdst < dist →
        step s = .next { v with errCode := .corruptStream, errDetail := 7#4, state := .error }) ∧
      (∀ t, fetchOffset u.cur u = .raised t → step s = .next t)) ∧
    (∀ k < 32, ∀ u, DrainSteps k s u → u.pending u.cur = false → ¬ CanAdvance u →
      step s = .next { u with errCode := .inputOverread, errDetail := 0#4, state := .error, cur := u.refillLane }) ∧
    ∀ t, step s = .next t → t.state ≠ .error →
      (∃ u, DrainSteps 32 s u ∧ t = { u with state := t.state }) ∧
      t.pend = 0#32 ∧ t.cur = s.cur ∧ t.outPos = s.outPos ∧ t.state = if s.isFinal then .done else .header

/-- A drain with nothing pending writes no byte; a block that is not final goes back to the header; the final one finishes, with
CORRUPT_STREAM and detail 10 when the strict length check finds the tile shorter than its bound (42_block_control.md R190, R191;
44_match_copy.md R225). -/
def Obligations.DrainFinishes : Prop :=
  ∀ s : State, s.inputs = [] → s.state = .drain → s.cfg.reading = .ruled → s.pend = 0#32 →
    s.cfg.overreadPolicy = .draw ∨ 4 * (s.inPos + 32) ≤ s.inLen.toNat →
    let short := s.isFinal = true ∧ s.cfg.strictTileLength = true ∧ s.outPos ≠ s.outBound.toNat
    ∃ t, step s = .next t ∧
      t = { s with
        lanes := t.lanes, inPos := t.inPos, trace := t.trace, draws := t.draws, overread := t.overread
        state := t.state, errCode := t.errCode, errDetail := t.errDetail } ∧
      (short → t.state = .error ∧ t.errCode = .corruptStream ∧ t.errDetail = 10#4) ∧
      (¬ short → t.state = (if s.isFinal then .done else .header) ∧ t.errCode = s.errCode ∧ t.errDetail = s.errDetail)

/-- The engine's own steps change no byte of memory outside the tile's output window (20_memory.md R60, R61, R64, R65). The premises are
invariants of the machine, each stated below. -/
def Obligations.EngineWritesOnlyOutput : Prop :=
  ∀ s t : State, s.inputs = [] → MemoryInv s → OutputInv s → SlotInv s → step s = .next t →
    ∀ a, (∀ p < s.outBound.toNat, a ≠ s.outAddr p) → Mem.read t.mem a = Mem.read s.mem a

/-! ## Host accesses and reset -/

/-- A host store to a register other than CTRL: the four configuration registers take the value while BUSY = 0 (OUT_BOUND its low 17 bits);
while BUSY, and at every other offset, the write is ignored (10_state.md R39, R42, R43, R44, R45, R50). For an ENGINE_BASE that is not
word-aligned, that alignment is counted from it is the model's choice (DESIGN CHOICE, log 32). -/
def Obligations.RegisterWrites : Prop :=
  ∀ (s : State) (off : Nat) (v : Word) (rest : List Input),
    8 ≤ s.cfg.addrWidth → s.cfg.addrWidth ≤ 32 → 0 < off → off < 256 → off % 4 = 0 →
    s.inputs = .store (s.cfg.engineBase + BitVec.ofNat 32 off) .word v :: rest →
    step s =
      .next { s with
        inputs := rest
        inBase := if s.busy = false ∧ off = 0x08 then v else s.inBase
        inLen := if s.busy = false ∧ off = 0x0C then v else s.inLen
        outBase := if s.busy = false ∧ off = 0x10 then v else s.outBase
        outBound := if s.busy = false ∧ off = 0x14 then v.extractLsb' 0 17 else s.outBound }

/-- A host load of a register gives the register's value and has no side effect on the engine (10_state.md R40, R42 to R50; 45_host.md
R243); that a STATUS read with BUSY = 0 ends the span of the tiles started before is the model's reading of 20_memory.md R71 (DEDUCED, log 12);
which field shows a load's value is its own choice (DESIGN CHOICE, log 29), and so is that alignment is counted from an ENGINE_BASE that is
not word-aligned (DESIGN CHOICE, log 32). -/
def Obligations.RegisterReads : Prop :=
  ∀ (s : State) (off : Nat) (rest : List Input),
    8 ≤ s.cfg.addrWidth → s.cfg.addrWidth ≤ 32 → off < 256 → off % 4 = 0 →
    s.inputs = .load (s.cfg.engineBase + BitVec.ofNat 32 off) .word :: rest →
    step s =
      .next { s with
        inputs := rest
        openTiles := if off = 4 ∧ s.busy = false then [] else s.openTiles
        hostData :=
          if off = 0x00 then (if s.irqEn then 4#32 else 0#32)
          else if off = 0x04 then s.statusReg
          else if off = 0x08 then s.inBase
          else if off = 0x0C then s.inLen
          else if off = 0x10 then s.outBase
          else if off = 0x14 then s.outBound.setWidth 32
          else if off = 0x18 then BitVec.ofNat 32 (s.outPos % 2 ^ 17)
          else if off = 0x1C then BitVec.ofNat 32 s.inPos
          else if off = 0x20 then BitVec.ofNat 32 s.cur.val
          else if off = 0x24 then s.pend
          else 0#32 }

/-- Every field of STATUS, with the numbers of the states and of the error codes, and that all of them are 0 after reset (10_state.md R41,
R21; 60_exceptions.md R261). -/
def Obligations.StatusFields : Prop :=
  State.reset.statusReg = 0#32 ∧
  ∀ s : State,
    (s.statusReg.getLsbD 0 = true ↔
      s.state = .prime ∨ s.state = .header ∨ s.state = .dynTables ∨ s.state = .staticTables ∨ s.state = .decode ∨
        s.state = .drain) ∧
    (s.statusReg.getLsbD 1 = true ↔ s.state = .done) ∧
    (s.statusReg.getLsbD 2 = true ↔ s.state = .error) ∧
    s.statusReg.getLsbD 3 = s.overread ∧
    (∀ p ∈ ([(.none, 0#4), (.corruptHuffmanCode, 1#4), (.unsupportedFeature, 2#4), (.outputOverrun, 3#4), (.corruptStream, 4#4),
        (.laneUnderflow, 5#4), (.configError, 6#4), (.inputOverread, 7#4)] : List (ErrCode × BitVec 4)),
      s.statusReg.extractLsb' 4 4 = p.2 ↔ s.errCode = p.1) ∧
    s.statusReg.extractLsb' 8 4 = s.errDetail ∧
    (∀ p ∈ ([(.idle, 0#4), (.prime, 1#4), (.header, 2#4), (.dynTables, 3#4), (.staticTables, 4#4), (.decode, 5#4), (.drain, 6#4),
        (.done, 7#4), (.error, 8#4)] : List (EngineState × BitVec 4)),
      s.statusReg.extractLsb' 12 4 = p.2 ↔ s.state = p.1) ∧
    s.statusReg.getLsbD 16 = s.staticLoaded ∧
    s.statusReg.getLsbD 17 = s.isFinal ∧
    s.statusReg.extractLsb' 18 14 = 0#14

/-- A host access that starts in the register window and is not an aligned 32-bit one is refused (10_state.md R39; log 11). For an
ENGINE_BASE that is not word-aligned, that alignment is counted from it is the model's choice (DESIGN CHOICE, log 32). -/
def Obligations.BadRegisterAccess : Prop :=
  ∀ (s : State) (off : Nat) (size : Size) (v : Word) (rest : List Input),
    8 ≤ s.cfg.addrWidth → s.cfg.addrWidth ≤ 32 → off < 256 → size ≠ .word ∨ off % 4 ≠ 0 →
    (s.inputs = .store (s.cfg.engineBase + BitVec.ofNat 32 off) size v :: rest → step s = .refused .registerAccess) ∧
    (s.inputs = .load (s.cfg.engineBase + BitVec.ofNat 32 off) size :: rest → step s = .refused .registerAccess)

/-- Hardware reset, in any state: IDLE at once, every value the spec gives, the tables without a value, no error recorded, the interrupt
line low; memory is untouched (70_reset_and_hazards.md R290, R293; 10_state.md R52). -/
def Obligations.HardResetStep : Prop :=
  ∀ (s : State) (rest : List Input), s.inputs = .reset :: rest →
    ∃ t, step s = .next t ∧ t.mem = s.mem ∧ t.cfg = s.cfg ∧ t.inputs = rest ∧
      t.state = .idle ∧ t.irq = false ∧ t.statusReg = 0#32 ∧ t.errCode = .none ∧ t.errDetail = 0#4 ∧ t.irqEn = false ∧
      t.cur = 0 ∧ t.pend = 0#32 ∧ t.inPos = 0 ∧ t.outPos = 0 ∧ t.isFinal = false ∧ t.btype = 0#2 ∧
      t.staticLoaded = false ∧ t.overread = false ∧
      t.inBase = 0#32 ∧ t.inLen = 0#32 ∧ t.outBase = 0#32 ∧ t.outBound = 0#17 ∧
      (∀ e ∈ t.pt, e = none) ∧ (∀ e ∈ t.lt, e = none) ∧ (∀ e ∈ t.ot, e = none)

/-- The state right after reset: the values the spec gives (10_state.md R52). -/
def Obligations.ResetValues : Prop :=
  let s := State.reset
  s.state = .idle ∧ s.cur = 0 ∧ s.pend = 0#32 ∧ s.inPos = 0 ∧ s.outPos = 0 ∧ s.isFinal = false ∧ s.btype = 0#2 ∧
  s.staticLoaded = false ∧ s.overread = false ∧ s.irqEn = false ∧ s.statusReg = 0#32 ∧ s.errCode = .none ∧ s.errDetail = 0#4 ∧
  s.inBase = 0#32 ∧ s.inLen = 0#32 ∧ s.outBase = 0#32 ∧ s.outBound = 0#17 ∧ s.irq = false ∧
  (∀ e ∈ s.pt, e = none) ∧ (∀ e ∈ s.lt, e = none) ∧ (∀ e ∈ s.ot, e = none) ∧
  (∀ k < 64, s.readReg (4 * k) = 0#32)

/-- With no tile open (the span is log 12), a 32-bit host store to memory puts its bytes little-endian at four addresses and changes nothing
else, and a load from the same address gives the value back (00_scope.md R10; 20_memory.md R60, R66). That the host has such accesses,
and the field that shows what it loaded, are the model's choice (DESIGN CHOICE, log 29). -/
def Obligations.StoreThenLoad : Prop :=
  ∀ (s : State) (addr v : Word) (rest : List Input),
    2 ≤ s.cfg.addrWidth → s.openTiles = [] → MemoryInv s → s.touchesRegisters addr .word = false →
    s.inputs = .store addr .word v :: .load addr .word :: rest →
    ∃ t u, step s = .next t ∧ step t = .next u ∧
      t = { s with inputs := .load addr .word :: rest, mem := t.mem } ∧
      (∀ k < 4, Mem.read t.mem (s.addr addr k) = v.extractLsb' (8 * k) 8) ∧
      (∀ a, (∀ k < 4, a ≠ s.addr addr k) → Mem.read t.mem a = Mem.read s.mem a) ∧
      u = { t with inputs := rest, hostData := v }

/-- In the span from a START to the STATUS read that sees BUSY = 0, a host load of an output byte of the tile gives an unconstrained value
and changes no engine state, a host store of an output byte leaves an unconstrained byte there, and a host store of an input byte makes
the engine's later reads of it unconstrained, and stores its value where the byte is no output byte too; no store changes another byte,
and every other byte is memory's (20_memory.md R71; 45_host.md R245; 93 U9, U10; the span, and
that a load's value is shown in a field, are log 12 and log 29). The value is `Config.draw` at the draw counter, of which nothing is known
(log 6). -/
def Obligations.HostRaces : Prop :=
  ∀ (s : State) (addr v : Word) (rest : List Input),
    s.touchesRegisters addr .byte = false →
    let a := s.addr addr 0
    (s.inOpenOutput a = true → s.inputs = .load addr .byte :: rest →
      step s = .next { s with inputs := rest, hostData := (Config.draw s.draws).setWidth 32, draws := s.draws + 1 }) ∧
    (s.inOpenOutput a = false → s.inputs = .load addr .byte :: rest →
      step s = .next { s with inputs := rest, hostData := (Mem.read s.mem a).setWidth 32 }) ∧
    (s.inOpenOutput a = true → s.inputs = .store addr .byte v :: rest →
      ∃ t, step s = .next t ∧
        t = { s with inputs := rest, mem := Mem.write a (Config.draw s.draws) s.mem, contested := t.contested, draws := s.draws + 1 } ∧
        t.raced a = true) ∧
    (s.inOpenInput a = true → s.inputs = .store addr .byte v :: rest →
      ∃ t, step s = .next t ∧
        t = { s with
          inputs := rest, contested := t.contested
          mem := Mem.write a (if s.inOpenOutput a then Config.draw s.draws else v.setWidth 8) s.mem
          draws := if s.inOpenOutput a then s.draws + 1 else s.draws } ∧
        ∀ off, off < s.inLen.toNat → s.inAddr off = a →
          inputByte t off = (Config.draw t.draws, { t with draws := t.draws + 1 })) ∧
    (s.inOpenInput a = false → s.inOpenOutput a = false → s.inputs = .store addr .byte v :: rest →
      step s = .next { s with inputs := rest, mem := Mem.write a (v.setWidth 8) s.mem })

/-- The container's header: a header written from its fields is accepted with those fields and the size the spec's formula gives, unless
the size is negative; a wrong Id or Magic, a short header or a short offset table is rejected (45_host.md R246, R247;
60_exceptions.md R275). -/
def Obligations.ContainerHeader : Prop :=
  (∀ (n idx last : Nat) (tail : List Byte),
    n < 2 ^ 16 → idx < 4 → last < 2 ^ 18 → 4 * n ≤ tail.length →
    let flags := idx + 4 * last
    let size : Int := (n : Int) * 65536 - (if last = 0 then 0 else 65536 - (last : Int))
    let buf : List Byte :=
      [0x04#8, 0xFB#8, BitVec.ofNat 8 n, BitVec.ofNat 8 (n / 2 ^ 8), BitVec.ofNat 8 flags, BitVec.ofNat 8 (flags / 2 ^ 8),
        BitVec.ofNat 8 (flags / 2 ^ 16), 0x00#8] ++ tail
    (0 ≤ size → ∃ c, parseContainer buf = some c ∧ c.numTiles = n ∧ c.tileSizeIdx = idx ∧ c.lastTileSize = last ∧
      c.offsets.length = n ∧ c.length = buf.length ∧ c.size = size) ∧
    (size < 0 → parseContainer buf = none)) ∧
  (∀ buf : List Byte,
    (buf.length < 8 ∨ buf.getD 0 0#8 ≠ 0x04#8 ∨ buf.getD 1 0#8 ≠ 0xFB#8 ∨
      buf.length < 8 + 4 * ((buf.getD 2 0#8).toNat + 2 ^ 8 * (buf.getD 3 0#8).toNat)) →
    parseContainer buf = none)

/-! ## Invariants -/

/-- Every step keeps memory in canonical form (log 3). -/
def Obligations.StepKeepsMemoryForm : Prop := ∀ s t : State, MemoryInv s → step s = .next t → MemoryInv t

/-- Every step keeps the lane invariant: at most 64 valid bits, and none set above them (10_state.md R24). -/
def Obligations.StepKeepsLanes : Prop := ∀ s t : State, LaneInv s → step s = .next t → LaneInv t

/-- Every step keeps the output cursor inside the bound while a tile runs (10_state.md R28). -/
def Obligations.StepKeepsOutputBound : Prop := ∀ s t : State, OutputInv s → step s = .next t → OutputInv t

/-- Every step keeps: an error is latched exactly in ERROR, with a detail the spec gives its code (60_exceptions.md R261, R262, R263,
R265). -/
def Obligations.StepKeepsErrorLatch : Prop := ∀ s t : State, ErrorInv s → step s = .next t → ErrorInv t

/-- Every step keeps: no copy is pending at a block header, in the table states, or at DONE (44_match_copy.md R227). -/
def Obligations.StepKeepsPendingClear : Prop := ∀ s t : State, PendingInv s → step s = .next t → PendingInv t

/-- Every step keeps the recorded slots reserved and disjoint (43_symbol_decode.md R206). -/
def Obligations.StepKeepsSlots : Prop := ∀ s t : State, SlotInv s → step s = .next t → SlotInv t

/-- Every step keeps the dynamic header's counts and indices in the ranges the spec gives them (10_state.md R30; 42_block_control.md R176,
R184). -/
def Obligations.StepKeepsCounts : Prop := ∀ s t : State, CountsInv s → step s = .next t → CountsInv t

/-- Every step keeps the parameters and the sizes of the arrays and table memories (00_scope.md R7; 10_state.md R33, R34, R36). -/
def Obligations.StepKeepsSizes : Prop := ∀ s t : State, SizesInv s → step s = .next t → SizesInv t ∧ t.cfg = s.cfg

/-- Every step keeps: whenever `static_loaded` is set, both tables are the static ones, and the flag is clear inside a dynamic header, so
a reused table is valid and a failed tile leaves no wrong one behind (70_reset_and_hazards.md R299; 60_exceptions.md R274;
20_memory.md R77). -/
def Obligations.StepKeepsStaticCache : Prop := ∀ s t : State, StaticInv s → step s = .next t → StaticInv t

/-- All the invariants hold right after reset. The lanes' part rests on the zeros the model gives what the spec leaves unspecified (DESIGN
CHOICE, log 4), memory's on the form in which it lists no byte (DESIGN CHOICE, log 3), the sizes' on the default parameters. -/
def Obligations.InvariantsAtReset : Prop :=
  MemoryInv State.reset ∧ LaneInv State.reset ∧ OutputInv State.reset ∧ ErrorInv State.reset ∧ PendingInv State.reset ∧
  SlotInv State.reset ∧ CountsInv State.reset ∧ SizesInv State.reset ∧ StaticInv State.reset
end

