-- ==== Sys2Proof/Laws/State.lean ====
section
/-! SUPPORT. The fields of each named state update: what it writes, and that it leaves every other field alone. -/

namespace Sys2Proof.Machine

/-! ## errorEntry -/

@[simp] theorem errorEntry_errCode (code : ErrCode) (detail : BitVec 4) (s : State) : (errorEntry code detail s).errCode = code := rfl
@[simp] theorem errorEntry_errDetail (code : ErrCode) (detail : BitVec 4) (s : State) : (errorEntry code detail s).errDetail = detail := rfl
@[simp] theorem errorEntry_state (code : ErrCode) (detail : BitVec 4) (s : State) : (errorEntry code detail s).state = .error := rfl
@[simp] theorem errorEntry_cfg (code : ErrCode) (detail : BitVec 4) (s : State) : (errorEntry code detail s).cfg = s.cfg := rfl
@[simp] theorem errorEntry_phase (code : ErrCode) (detail : BitVec 4) (s : State) : (errorEntry code detail s).phase = s.phase := rfl
@[simp] theorem errorEntry_lanes (code : ErrCode) (detail : BitVec 4) (s : State) : (errorEntry code detail s).lanes = s.lanes := rfl
@[simp] theorem errorEntry_cur (code : ErrCode) (detail : BitVec 4) (s : State) : (errorEntry code detail s).cur = s.cur := rfl
@[simp] theorem errorEntry_pend (code : ErrCode) (detail : BitVec 4) (s : State) : (errorEntry code detail s).pend = s.pend := rfl
@[simp] theorem errorEntry_inPos (code : ErrCode) (detail : BitVec 4) (s : State) : (errorEntry code detail s).inPos = s.inPos := rfl
@[simp] theorem errorEntry_outPos (code : ErrCode) (detail : BitVec 4) (s : State) : (errorEntry code detail s).outPos = s.outPos := rfl
@[simp] theorem errorEntry_isFinal (code : ErrCode) (detail : BitVec 4) (s : State) : (errorEntry code detail s).isFinal = s.isFinal := rfl
@[simp] theorem errorEntry_btype (code : ErrCode) (detail : BitVec 4) (s : State) : (errorEntry code detail s).btype = s.btype := rfl
@[simp] theorem errorEntry_hlit (code : ErrCode) (detail : BitVec 4) (s : State) : (errorEntry code detail s).hlit = s.hlit := rfl
@[simp] theorem errorEntry_hdist (code : ErrCode) (detail : BitVec 4) (s : State) : (errorEntry code detail s).hdist = s.hdist := rfl
@[simp] theorem errorEntry_hclen (code : ErrCode) (detail : BitVec 4) (s : State) : (errorEntry code detail s).hclen = s.hclen := rfl
@[simp] theorem errorEntry_pi (code : ErrCode) (detail : BitVec 4) (s : State) : (errorEntry code detail s).pi = s.pi := rfl
@[simp] theorem errorEntry_li (code : ErrCode) (detail : BitVec 4) (s : State) : (errorEntry code detail s).li = s.li := rfl
@[simp] theorem errorEntry_staticLoaded (code : ErrCode) (detail : BitVec 4) (s : State) : (errorEntry code detail s).staticLoaded = s.staticLoaded := rfl
@[simp] theorem errorEntry_overread (code : ErrCode) (detail : BitVec 4) (s : State) : (errorEntry code detail s).overread = s.overread := rfl
@[simp] theorem errorEntry_precodeLens (code : ErrCode) (detail : BitVec 4) (s : State) : (errorEntry code detail s).precodeLens = s.precodeLens := rfl
@[simp] theorem errorEntry_lens (code : ErrCode) (detail : BitVec 4) (s : State) : (errorEntry code detail s).lens = s.lens := rfl
@[simp] theorem errorEntry_sortedSyms (code : ErrCode) (detail : BitVec 4) (s : State) : (errorEntry code detail s).sortedSyms = s.sortedSyms := rfl
@[simp] theorem errorEntry_pt (code : ErrCode) (detail : BitVec 4) (s : State) : (errorEntry code detail s).pt = s.pt := rfl
@[simp] theorem errorEntry_lt (code : ErrCode) (detail : BitVec 4) (s : State) : (errorEntry code detail s).lt = s.lt := rfl
@[simp] theorem errorEntry_ot (code : ErrCode) (detail : BitVec 4) (s : State) : (errorEntry code detail s).ot = s.ot := rfl
@[simp] theorem errorEntry_irqEn (code : ErrCode) (detail : BitVec 4) (s : State) : (errorEntry code detail s).irqEn = s.irqEn := rfl
@[simp] theorem errorEntry_inBase (code : ErrCode) (detail : BitVec 4) (s : State) : (errorEntry code detail s).inBase = s.inBase := rfl
@[simp] theorem errorEntry_inLen (code : ErrCode) (detail : BitVec 4) (s : State) : (errorEntry code detail s).inLen = s.inLen := rfl
@[simp] theorem errorEntry_outBase (code : ErrCode) (detail : BitVec 4) (s : State) : (errorEntry code detail s).outBase = s.outBase := rfl
@[simp] theorem errorEntry_outBound (code : ErrCode) (detail : BitVec 4) (s : State) : (errorEntry code detail s).outBound = s.outBound := rfl
@[simp] theorem errorEntry_mem (code : ErrCode) (detail : BitVec 4) (s : State) : (errorEntry code detail s).mem = s.mem := rfl
@[simp] theorem errorEntry_trace (code : ErrCode) (detail : BitVec 4) (s : State) : (errorEntry code detail s).trace = s.trace := rfl
@[simp] theorem errorEntry_inputs (code : ErrCode) (detail : BitVec 4) (s : State) : (errorEntry code detail s).inputs = s.inputs := rfl
@[simp] theorem errorEntry_hostData (code : ErrCode) (detail : BitVec 4) (s : State) : (errorEntry code detail s).hostData = s.hostData := rfl
@[simp] theorem errorEntry_openTiles (code : ErrCode) (detail : BitVec 4) (s : State) : (errorEntry code detail s).openTiles = s.openTiles := rfl
@[simp] theorem errorEntry_contested (code : ErrCode) (detail : BitVec 4) (s : State) : (errorEntry code detail s).contested = s.contested := rfl
@[simp] theorem errorEntry_draws (code : ErrCode) (detail : BitVec 4) (s : State) : (errorEntry code detail s).draws = s.draws := rfl

/-! ## acknowledge -/

@[simp] theorem acknowledge_errCode (s : State) : (acknowledge s).errCode = .none := rfl
@[simp] theorem acknowledge_errDetail (s : State) : (acknowledge s).errDetail = 0#4 := rfl
@[simp] theorem acknowledge_overread (s : State) : (acknowledge s).overread = false := rfl
@[simp] theorem acknowledge_state (s : State) : (acknowledge s).state = .idle := rfl
@[simp] theorem acknowledge_cfg (s : State) : (acknowledge s).cfg = s.cfg := rfl
@[simp] theorem acknowledge_phase (s : State) : (acknowledge s).phase = s.phase := rfl
@[simp] theorem acknowledge_lanes (s : State) : (acknowledge s).lanes = s.lanes := rfl
@[simp] theorem acknowledge_cur (s : State) : (acknowledge s).cur = s.cur := rfl
@[simp] theorem acknowledge_pend (s : State) : (acknowledge s).pend = s.pend := rfl
@[simp] theorem acknowledge_inPos (s : State) : (acknowledge s).inPos = s.inPos := rfl
@[simp] theorem acknowledge_outPos (s : State) : (acknowledge s).outPos = s.outPos := rfl
@[simp] theorem acknowledge_isFinal (s : State) : (acknowledge s).isFinal = s.isFinal := rfl
@[simp] theorem acknowledge_btype (s : State) : (acknowledge s).btype = s.btype := rfl
@[simp] theorem acknowledge_hlit (s : State) : (acknowledge s).hlit = s.hlit := rfl
@[simp] theorem acknowledge_hdist (s : State) : (acknowledge s).hdist = s.hdist := rfl
@[simp] theorem acknowledge_hclen (s : State) : (acknowledge s).hclen = s.hclen := rfl
@[simp] theorem acknowledge_pi (s : State) : (acknowledge s).pi = s.pi := rfl
@[simp] theorem acknowledge_li (s : State) : (acknowledge s).li = s.li := rfl
@[simp] theorem acknowledge_staticLoaded (s : State) : (acknowledge s).staticLoaded = s.staticLoaded := rfl
@[simp] theorem acknowledge_precodeLens (s : State) : (acknowledge s).precodeLens = s.precodeLens := rfl
@[simp] theorem acknowledge_lens (s : State) : (acknowledge s).lens = s.lens := rfl
@[simp] theorem acknowledge_sortedSyms (s : State) : (acknowledge s).sortedSyms = s.sortedSyms := rfl
@[simp] theorem acknowledge_pt (s : State) : (acknowledge s).pt = s.pt := rfl
@[simp] theorem acknowledge_lt (s : State) : (acknowledge s).lt = s.lt := rfl
@[simp] theorem acknowledge_ot (s : State) : (acknowledge s).ot = s.ot := rfl
@[simp] theorem acknowledge_irqEn (s : State) : (acknowledge s).irqEn = s.irqEn := rfl
@[simp] theorem acknowledge_inBase (s : State) : (acknowledge s).inBase = s.inBase := rfl
@[simp] theorem acknowledge_inLen (s : State) : (acknowledge s).inLen = s.inLen := rfl
@[simp] theorem acknowledge_outBase (s : State) : (acknowledge s).outBase = s.outBase := rfl
@[simp] theorem acknowledge_outBound (s : State) : (acknowledge s).outBound = s.outBound := rfl
@[simp] theorem acknowledge_mem (s : State) : (acknowledge s).mem = s.mem := rfl
@[simp] theorem acknowledge_trace (s : State) : (acknowledge s).trace = s.trace := rfl
@[simp] theorem acknowledge_inputs (s : State) : (acknowledge s).inputs = s.inputs := rfl
@[simp] theorem acknowledge_hostData (s : State) : (acknowledge s).hostData = s.hostData := rfl
@[simp] theorem acknowledge_openTiles (s : State) : (acknowledge s).openTiles = s.openTiles := rfl
@[simp] theorem acknowledge_contested (s : State) : (acknowledge s).contested = s.contested := rfl
@[simp] theorem acknowledge_draws (s : State) : (acknowledge s).draws = s.draws := rfl

/-! ## takeDraw -/

@[simp] theorem takeDraw_draws (s : State) : ((takeDraw s).2).draws = s.draws + 1 := rfl
@[simp] theorem takeDraw_cfg (s : State) : ((takeDraw s).2).cfg = s.cfg := rfl
@[simp] theorem takeDraw_state (s : State) : ((takeDraw s).2).state = s.state := rfl
@[simp] theorem takeDraw_phase (s : State) : ((takeDraw s).2).phase = s.phase := rfl
@[simp] theorem takeDraw_lanes (s : State) : ((takeDraw s).2).lanes = s.lanes := rfl
@[simp] theorem takeDraw_cur (s : State) : ((takeDraw s).2).cur = s.cur := rfl
@[simp] theorem takeDraw_pend (s : State) : ((takeDraw s).2).pend = s.pend := rfl
@[simp] theorem takeDraw_inPos (s : State) : ((takeDraw s).2).inPos = s.inPos := rfl
@[simp] theorem takeDraw_outPos (s : State) : ((takeDraw s).2).outPos = s.outPos := rfl
@[simp] theorem takeDraw_isFinal (s : State) : ((takeDraw s).2).isFinal = s.isFinal := rfl
@[simp] theorem takeDraw_btype (s : State) : ((takeDraw s).2).btype = s.btype := rfl
@[simp] theorem takeDraw_hlit (s : State) : ((takeDraw s).2).hlit = s.hlit := rfl
@[simp] theorem takeDraw_hdist (s : State) : ((takeDraw s).2).hdist = s.hdist := rfl
@[simp] theorem takeDraw_hclen (s : State) : ((takeDraw s).2).hclen = s.hclen := rfl
@[simp] theorem takeDraw_pi (s : State) : ((takeDraw s).2).pi = s.pi := rfl
@[simp] theorem takeDraw_li (s : State) : ((takeDraw s).2).li = s.li := rfl
@[simp] theorem takeDraw_staticLoaded (s : State) : ((takeDraw s).2).staticLoaded = s.staticLoaded := rfl
@[simp] theorem takeDraw_overread (s : State) : ((takeDraw s).2).overread = s.overread := rfl
@[simp] theorem takeDraw_precodeLens (s : State) : ((takeDraw s).2).precodeLens = s.precodeLens := rfl
@[simp] theorem takeDraw_lens (s : State) : ((takeDraw s).2).lens = s.lens := rfl
@[simp] theorem takeDraw_sortedSyms (s : State) : ((takeDraw s).2).sortedSyms = s.sortedSyms := rfl
@[simp] theorem takeDraw_pt (s : State) : ((takeDraw s).2).pt = s.pt := rfl
@[simp] theorem takeDraw_lt (s : State) : ((takeDraw s).2).lt = s.lt := rfl
@[simp] theorem takeDraw_ot (s : State) : ((takeDraw s).2).ot = s.ot := rfl
@[simp] theorem takeDraw_irqEn (s : State) : ((takeDraw s).2).irqEn = s.irqEn := rfl
@[simp] theorem takeDraw_errCode (s : State) : ((takeDraw s).2).errCode = s.errCode := rfl
@[simp] theorem takeDraw_errDetail (s : State) : ((takeDraw s).2).errDetail = s.errDetail := rfl
@[simp] theorem takeDraw_inBase (s : State) : ((takeDraw s).2).inBase = s.inBase := rfl
@[simp] theorem takeDraw_inLen (s : State) : ((takeDraw s).2).inLen = s.inLen := rfl
@[simp] theorem takeDraw_outBase (s : State) : ((takeDraw s).2).outBase = s.outBase := rfl
@[simp] theorem takeDraw_outBound (s : State) : ((takeDraw s).2).outBound = s.outBound := rfl
@[simp] theorem takeDraw_mem (s : State) : ((takeDraw s).2).mem = s.mem := rfl
@[simp] theorem takeDraw_trace (s : State) : ((takeDraw s).2).trace = s.trace := rfl
@[simp] theorem takeDraw_inputs (s : State) : ((takeDraw s).2).inputs = s.inputs := rfl
@[simp] theorem takeDraw_hostData (s : State) : ((takeDraw s).2).hostData = s.hostData := rfl
@[simp] theorem takeDraw_openTiles (s : State) : ((takeDraw s).2).openTiles = s.openTiles := rfl
@[simp] theorem takeDraw_contested (s : State) : ((takeDraw s).2).contested = s.contested := rfl

/-! ## emit -/

@[simp] theorem emit_trace (e : Event) (s : State) : (emit e s).trace = e :: s.trace := rfl
@[simp] theorem emit_cfg (e : Event) (s : State) : (emit e s).cfg = s.cfg := rfl
@[simp] theorem emit_state (e : Event) (s : State) : (emit e s).state = s.state := rfl
@[simp] theorem emit_phase (e : Event) (s : State) : (emit e s).phase = s.phase := rfl
@[simp] theorem emit_lanes (e : Event) (s : State) : (emit e s).lanes = s.lanes := rfl
@[simp] theorem emit_cur (e : Event) (s : State) : (emit e s).cur = s.cur := rfl
@[simp] theorem emit_pend (e : Event) (s : State) : (emit e s).pend = s.pend := rfl
@[simp] theorem emit_inPos (e : Event) (s : State) : (emit e s).inPos = s.inPos := rfl
@[simp] theorem emit_outPos (e : Event) (s : State) : (emit e s).outPos = s.outPos := rfl
@[simp] theorem emit_isFinal (e : Event) (s : State) : (emit e s).isFinal = s.isFinal := rfl
@[simp] theorem emit_btype (e : Event) (s : State) : (emit e s).btype = s.btype := rfl
@[simp] theorem emit_hlit (e : Event) (s : State) : (emit e s).hlit = s.hlit := rfl
@[simp] theorem emit_hdist (e : Event) (s : State) : (emit e s).hdist = s.hdist := rfl
@[simp] theorem emit_hclen (e : Event) (s : State) : (emit e s).hclen = s.hclen := rfl
@[simp] theorem emit_pi (e : Event) (s : State) : (emit e s).pi = s.pi := rfl
@[simp] theorem emit_li (e : Event) (s : State) : (emit e s).li = s.li := rfl
@[simp] theorem emit_staticLoaded (e : Event) (s : State) : (emit e s).staticLoaded = s.staticLoaded := rfl
@[simp] theorem emit_overread (e : Event) (s : State) : (emit e s).overread = s.overread := rfl
@[simp] theorem emit_precodeLens (e : Event) (s : State) : (emit e s).precodeLens = s.precodeLens := rfl
@[simp] theorem emit_lens (e : Event) (s : State) : (emit e s).lens = s.lens := rfl
@[simp] theorem emit_sortedSyms (e : Event) (s : State) : (emit e s).sortedSyms = s.sortedSyms := rfl
@[simp] theorem emit_pt (e : Event) (s : State) : (emit e s).pt = s.pt := rfl
@[simp] theorem emit_lt (e : Event) (s : State) : (emit e s).lt = s.lt := rfl
@[simp] theorem emit_ot (e : Event) (s : State) : (emit e s).ot = s.ot := rfl
@[simp] theorem emit_irqEn (e : Event) (s : State) : (emit e s).irqEn = s.irqEn := rfl
@[simp] theorem emit_errCode (e : Event) (s : State) : (emit e s).errCode = s.errCode := rfl
@[simp] theorem emit_errDetail (e : Event) (s : State) : (emit e s).errDetail = s.errDetail := rfl
@[simp] theorem emit_inBase (e : Event) (s : State) : (emit e s).inBase = s.inBase := rfl
@[simp] theorem emit_inLen (e : Event) (s : State) : (emit e s).inLen = s.inLen := rfl
@[simp] theorem emit_outBase (e : Event) (s : State) : (emit e s).outBase = s.outBase := rfl
@[simp] theorem emit_outBound (e : Event) (s : State) : (emit e s).outBound = s.outBound := rfl
@[simp] theorem emit_mem (e : Event) (s : State) : (emit e s).mem = s.mem := rfl
@[simp] theorem emit_inputs (e : Event) (s : State) : (emit e s).inputs = s.inputs := rfl
@[simp] theorem emit_hostData (e : Event) (s : State) : (emit e s).hostData = s.hostData := rfl
@[simp] theorem emit_openTiles (e : Event) (s : State) : (emit e s).openTiles = s.openTiles := rfl
@[simp] theorem emit_contested (e : Event) (s : State) : (emit e s).contested = s.contested := rfl
@[simp] theorem emit_draws (e : Event) (s : State) : (emit e s).draws = s.draws := rfl

/-! ## setLane -/

@[simp] theorem setLane_lanes (c : Fin 32) (l : Lane) (s : State) : (setLane c l s).lanes = s.lanes.set c.val l := rfl
@[simp] theorem setLane_cfg (c : Fin 32) (l : Lane) (s : State) : (setLane c l s).cfg = s.cfg := rfl
@[simp] theorem setLane_state (c : Fin 32) (l : Lane) (s : State) : (setLane c l s).state = s.state := rfl
@[simp] theorem setLane_phase (c : Fin 32) (l : Lane) (s : State) : (setLane c l s).phase = s.phase := rfl
@[simp] theorem setLane_cur (c : Fin 32) (l : Lane) (s : State) : (setLane c l s).cur = s.cur := rfl
@[simp] theorem setLane_pend (c : Fin 32) (l : Lane) (s : State) : (setLane c l s).pend = s.pend := rfl
@[simp] theorem setLane_inPos (c : Fin 32) (l : Lane) (s : State) : (setLane c l s).inPos = s.inPos := rfl
@[simp] theorem setLane_outPos (c : Fin 32) (l : Lane) (s : State) : (setLane c l s).outPos = s.outPos := rfl
@[simp] theorem setLane_isFinal (c : Fin 32) (l : Lane) (s : State) : (setLane c l s).isFinal = s.isFinal := rfl
@[simp] theorem setLane_btype (c : Fin 32) (l : Lane) (s : State) : (setLane c l s).btype = s.btype := rfl
@[simp] theorem setLane_hlit (c : Fin 32) (l : Lane) (s : State) : (setLane c l s).hlit = s.hlit := rfl
@[simp] theorem setLane_hdist (c : Fin 32) (l : Lane) (s : State) : (setLane c l s).hdist = s.hdist := rfl
@[simp] theorem setLane_hclen (c : Fin 32) (l : Lane) (s : State) : (setLane c l s).hclen = s.hclen := rfl
@[simp] theorem setLane_pi (c : Fin 32) (l : Lane) (s : State) : (setLane c l s).pi = s.pi := rfl
@[simp] theorem setLane_li (c : Fin 32) (l : Lane) (s : State) : (setLane c l s).li = s.li := rfl
@[simp] theorem setLane_staticLoaded (c : Fin 32) (l : Lane) (s : State) : (setLane c l s).staticLoaded = s.staticLoaded := rfl
@[simp] theorem setLane_overread (c : Fin 32) (l : Lane) (s : State) : (setLane c l s).overread = s.overread := rfl
@[simp] theorem setLane_precodeLens (c : Fin 32) (l : Lane) (s : State) : (setLane c l s).precodeLens = s.precodeLens := rfl
@[simp] theorem setLane_lens (c : Fin 32) (l : Lane) (s : State) : (setLane c l s).lens = s.lens := rfl
@[simp] theorem setLane_sortedSyms (c : Fin 32) (l : Lane) (s : State) : (setLane c l s).sortedSyms = s.sortedSyms := rfl
@[simp] theorem setLane_pt (c : Fin 32) (l : Lane) (s : State) : (setLane c l s).pt = s.pt := rfl
@[simp] theorem setLane_lt (c : Fin 32) (l : Lane) (s : State) : (setLane c l s).lt = s.lt := rfl
@[simp] theorem setLane_ot (c : Fin 32) (l : Lane) (s : State) : (setLane c l s).ot = s.ot := rfl
@[simp] theorem setLane_irqEn (c : Fin 32) (l : Lane) (s : State) : (setLane c l s).irqEn = s.irqEn := rfl
@[simp] theorem setLane_errCode (c : Fin 32) (l : Lane) (s : State) : (setLane c l s).errCode = s.errCode := rfl
@[simp] theorem setLane_errDetail (c : Fin 32) (l : Lane) (s : State) : (setLane c l s).errDetail = s.errDetail := rfl
@[simp] theorem setLane_inBase (c : Fin 32) (l : Lane) (s : State) : (setLane c l s).inBase = s.inBase := rfl
@[simp] theorem setLane_inLen (c : Fin 32) (l : Lane) (s : State) : (setLane c l s).inLen = s.inLen := rfl
@[simp] theorem setLane_outBase (c : Fin 32) (l : Lane) (s : State) : (setLane c l s).outBase = s.outBase := rfl
@[simp] theorem setLane_outBound (c : Fin 32) (l : Lane) (s : State) : (setLane c l s).outBound = s.outBound := rfl
@[simp] theorem setLane_mem (c : Fin 32) (l : Lane) (s : State) : (setLane c l s).mem = s.mem := rfl
@[simp] theorem setLane_trace (c : Fin 32) (l : Lane) (s : State) : (setLane c l s).trace = s.trace := rfl
@[simp] theorem setLane_inputs (c : Fin 32) (l : Lane) (s : State) : (setLane c l s).inputs = s.inputs := rfl
@[simp] theorem setLane_hostData (c : Fin 32) (l : Lane) (s : State) : (setLane c l s).hostData = s.hostData := rfl
@[simp] theorem setLane_openTiles (c : Fin 32) (l : Lane) (s : State) : (setLane c l s).openTiles = s.openTiles := rfl
@[simp] theorem setLane_contested (c : Fin 32) (l : Lane) (s : State) : (setLane c l s).contested = s.contested := rfl
@[simp] theorem setLane_draws (c : Fin 32) (l : Lane) (s : State) : (setLane c l s).draws = s.draws := rfl

/-! ## setPending -/

@[simp] theorem setPending_pend (c : Fin 32) (s : State) : (setPending c s).pend = s.pend ||| (1#32 <<< c.val) := rfl
@[simp] theorem setPending_cfg (c : Fin 32) (s : State) : (setPending c s).cfg = s.cfg := rfl
@[simp] theorem setPending_state (c : Fin 32) (s : State) : (setPending c s).state = s.state := rfl
@[simp] theorem setPending_phase (c : Fin 32) (s : State) : (setPending c s).phase = s.phase := rfl
@[simp] theorem setPending_lanes (c : Fin 32) (s : State) : (setPending c s).lanes = s.lanes := rfl
@[simp] theorem setPending_cur (c : Fin 32) (s : State) : (setPending c s).cur = s.cur := rfl
@[simp] theorem setPending_inPos (c : Fin 32) (s : State) : (setPending c s).inPos = s.inPos := rfl
@[simp] theorem setPending_outPos (c : Fin 32) (s : State) : (setPending c s).outPos = s.outPos := rfl
@[simp] theorem setPending_isFinal (c : Fin 32) (s : State) : (setPending c s).isFinal = s.isFinal := rfl
@[simp] theorem setPending_btype (c : Fin 32) (s : State) : (setPending c s).btype = s.btype := rfl
@[simp] theorem setPending_hlit (c : Fin 32) (s : State) : (setPending c s).hlit = s.hlit := rfl
@[simp] theorem setPending_hdist (c : Fin 32) (s : State) : (setPending c s).hdist = s.hdist := rfl
@[simp] theorem setPending_hclen (c : Fin 32) (s : State) : (setPending c s).hclen = s.hclen := rfl
@[simp] theorem setPending_pi (c : Fin 32) (s : State) : (setPending c s).pi = s.pi := rfl
@[simp] theorem setPending_li (c : Fin 32) (s : State) : (setPending c s).li = s.li := rfl
@[simp] theorem setPending_staticLoaded (c : Fin 32) (s : State) : (setPending c s).staticLoaded = s.staticLoaded := rfl
@[simp] theorem setPending_overread (c : Fin 32) (s : State) : (setPending c s).overread = s.overread := rfl
@[simp] theorem setPending_precodeLens (c : Fin 32) (s : State) : (setPending c s).precodeLens = s.precodeLens := rfl
@[simp] theorem setPending_lens (c : Fin 32) (s : State) : (setPending c s).lens = s.lens := rfl
@[simp] theorem setPending_sortedSyms (c : Fin 32) (s : State) : (setPending c s).sortedSyms = s.sortedSyms := rfl
@[simp] theorem setPending_pt (c : Fin 32) (s : State) : (setPending c s).pt = s.pt := rfl
@[simp] theorem setPending_lt (c : Fin 32) (s : State) : (setPending c s).lt = s.lt := rfl
@[simp] theorem setPending_ot (c : Fin 32) (s : State) : (setPending c s).ot = s.ot := rfl
@[simp] theorem setPending_irqEn (c : Fin 32) (s : State) : (setPending c s).irqEn = s.irqEn := rfl
@[simp] theorem setPending_errCode (c : Fin 32) (s : State) : (setPending c s).errCode = s.errCode := rfl
@[simp] theorem setPending_errDetail (c : Fin 32) (s : State) : (setPending c s).errDetail = s.errDetail := rfl
@[simp] theorem setPending_inBase (c : Fin 32) (s : State) : (setPending c s).inBase = s.inBase := rfl
@[simp] theorem setPending_inLen (c : Fin 32) (s : State) : (setPending c s).inLen = s.inLen := rfl
@[simp] theorem setPending_outBase (c : Fin 32) (s : State) : (setPending c s).outBase = s.outBase := rfl
@[simp] theorem setPending_outBound (c : Fin 32) (s : State) : (setPending c s).outBound = s.outBound := rfl
@[simp] theorem setPending_mem (c : Fin 32) (s : State) : (setPending c s).mem = s.mem := rfl
@[simp] theorem setPending_trace (c : Fin 32) (s : State) : (setPending c s).trace = s.trace := rfl
@[simp] theorem setPending_inputs (c : Fin 32) (s : State) : (setPending c s).inputs = s.inputs := rfl
@[simp] theorem setPending_hostData (c : Fin 32) (s : State) : (setPending c s).hostData = s.hostData := rfl
@[simp] theorem setPending_openTiles (c : Fin 32) (s : State) : (setPending c s).openTiles = s.openTiles := rfl
@[simp] theorem setPending_contested (c : Fin 32) (s : State) : (setPending c s).contested = s.contested := rfl
@[simp] theorem setPending_draws (c : Fin 32) (s : State) : (setPending c s).draws = s.draws := rfl

/-! ## clearPending -/

@[simp] theorem clearPending_pend (c : Fin 32) (s : State) : (clearPending c s).pend = s.pend &&& ~~~(1#32 <<< c.val) := rfl
@[simp] theorem clearPending_cfg (c : Fin 32) (s : State) : (clearPending c s).cfg = s.cfg := rfl
@[simp] theorem clearPending_state (c : Fin 32) (s : State) : (clearPending c s).state = s.state := rfl
@[simp] theorem clearPending_phase (c : Fin 32) (s : State) : (clearPending c s).phase = s.phase := rfl
@[simp] theorem clearPending_lanes (c : Fin 32) (s : State) : (clearPending c s).lanes = s.lanes := rfl
@[simp] theorem clearPending_cur (c : Fin 32) (s : State) : (clearPending c s).cur = s.cur := rfl
@[simp] theorem clearPending_inPos (c : Fin 32) (s : State) : (clearPending c s).inPos = s.inPos := rfl
@[simp] theorem clearPending_outPos (c : Fin 32) (s : State) : (clearPending c s).outPos = s.outPos := rfl
@[simp] theorem clearPending_isFinal (c : Fin 32) (s : State) : (clearPending c s).isFinal = s.isFinal := rfl
@[simp] theorem clearPending_btype (c : Fin 32) (s : State) : (clearPending c s).btype = s.btype := rfl
@[simp] theorem clearPending_hlit (c : Fin 32) (s : State) : (clearPending c s).hlit = s.hlit := rfl
@[simp] theorem clearPending_hdist (c : Fin 32) (s : State) : (clearPending c s).hdist = s.hdist := rfl
@[simp] theorem clearPending_hclen (c : Fin 32) (s : State) : (clearPending c s).hclen = s.hclen := rfl
@[simp] theorem clearPending_pi (c : Fin 32) (s : State) : (clearPending c s).pi = s.pi := rfl
@[simp] theorem clearPending_li (c : Fin 32) (s : State) : (clearPending c s).li = s.li := rfl
@[simp] theorem clearPending_staticLoaded (c : Fin 32) (s : State) : (clearPending c s).staticLoaded = s.staticLoaded := rfl
@[simp] theorem clearPending_overread (c : Fin 32) (s : State) : (clearPending c s).overread = s.overread := rfl
@[simp] theorem clearPending_precodeLens (c : Fin 32) (s : State) : (clearPending c s).precodeLens = s.precodeLens := rfl
@[simp] theorem clearPending_lens (c : Fin 32) (s : State) : (clearPending c s).lens = s.lens := rfl
@[simp] theorem clearPending_sortedSyms (c : Fin 32) (s : State) : (clearPending c s).sortedSyms = s.sortedSyms := rfl
@[simp] theorem clearPending_pt (c : Fin 32) (s : State) : (clearPending c s).pt = s.pt := rfl
@[simp] theorem clearPending_lt (c : Fin 32) (s : State) : (clearPending c s).lt = s.lt := rfl
@[simp] theorem clearPending_ot (c : Fin 32) (s : State) : (clearPending c s).ot = s.ot := rfl
@[simp] theorem clearPending_irqEn (c : Fin 32) (s : State) : (clearPending c s).irqEn = s.irqEn := rfl
@[simp] theorem clearPending_errCode (c : Fin 32) (s : State) : (clearPending c s).errCode = s.errCode := rfl
@[simp] theorem clearPending_errDetail (c : Fin 32) (s : State) : (clearPending c s).errDetail = s.errDetail := rfl
@[simp] theorem clearPending_inBase (c : Fin 32) (s : State) : (clearPending c s).inBase = s.inBase := rfl
@[simp] theorem clearPending_inLen (c : Fin 32) (s : State) : (clearPending c s).inLen = s.inLen := rfl
@[simp] theorem clearPending_outBase (c : Fin 32) (s : State) : (clearPending c s).outBase = s.outBase := rfl
@[simp] theorem clearPending_outBound (c : Fin 32) (s : State) : (clearPending c s).outBound = s.outBound := rfl
@[simp] theorem clearPending_mem (c : Fin 32) (s : State) : (clearPending c s).mem = s.mem := rfl
@[simp] theorem clearPending_trace (c : Fin 32) (s : State) : (clearPending c s).trace = s.trace := rfl
@[simp] theorem clearPending_inputs (c : Fin 32) (s : State) : (clearPending c s).inputs = s.inputs := rfl
@[simp] theorem clearPending_hostData (c : Fin 32) (s : State) : (clearPending c s).hostData = s.hostData := rfl
@[simp] theorem clearPending_openTiles (c : Fin 32) (s : State) : (clearPending c s).openTiles = s.openTiles := rfl
@[simp] theorem clearPending_contested (c : Fin 32) (s : State) : (clearPending c s).contested = s.contested := rfl
@[simp] theorem clearPending_draws (c : Fin 32) (s : State) : (clearPending c s).draws = s.draws := rfl

/-! ## moveCursor -/

@[simp] theorem moveCursor_cur (s : State) : (moveCursor s).cur = s.cur + 1 := rfl
@[simp] theorem moveCursor_cfg (s : State) : (moveCursor s).cfg = s.cfg := rfl
@[simp] theorem moveCursor_state (s : State) : (moveCursor s).state = s.state := rfl
@[simp] theorem moveCursor_phase (s : State) : (moveCursor s).phase = s.phase := rfl
@[simp] theorem moveCursor_lanes (s : State) : (moveCursor s).lanes = s.lanes := rfl
@[simp] theorem moveCursor_pend (s : State) : (moveCursor s).pend = s.pend := rfl
@[simp] theorem moveCursor_inPos (s : State) : (moveCursor s).inPos = s.inPos := rfl
@[simp] theorem moveCursor_outPos (s : State) : (moveCursor s).outPos = s.outPos := rfl
@[simp] theorem moveCursor_isFinal (s : State) : (moveCursor s).isFinal = s.isFinal := rfl
@[simp] theorem moveCursor_btype (s : State) : (moveCursor s).btype = s.btype := rfl
@[simp] theorem moveCursor_hlit (s : State) : (moveCursor s).hlit = s.hlit := rfl
@[simp] theorem moveCursor_hdist (s : State) : (moveCursor s).hdist = s.hdist := rfl
@[simp] theorem moveCursor_hclen (s : State) : (moveCursor s).hclen = s.hclen := rfl
@[simp] theorem moveCursor_pi (s : State) : (moveCursor s).pi = s.pi := rfl
@[simp] theorem moveCursor_li (s : State) : (moveCursor s).li = s.li := rfl
@[simp] theorem moveCursor_staticLoaded (s : State) : (moveCursor s).staticLoaded = s.staticLoaded := rfl
@[simp] theorem moveCursor_overread (s : State) : (moveCursor s).overread = s.overread := rfl
@[simp] theorem moveCursor_precodeLens (s : State) : (moveCursor s).precodeLens = s.precodeLens := rfl
@[simp] theorem moveCursor_lens (s : State) : (moveCursor s).lens = s.lens := rfl
@[simp] theorem moveCursor_sortedSyms (s : State) : (moveCursor s).sortedSyms = s.sortedSyms := rfl
@[simp] theorem moveCursor_pt (s : State) : (moveCursor s).pt = s.pt := rfl
@[simp] theorem moveCursor_lt (s : State) : (moveCursor s).lt = s.lt := rfl
@[simp] theorem moveCursor_ot (s : State) : (moveCursor s).ot = s.ot := rfl
@[simp] theorem moveCursor_irqEn (s : State) : (moveCursor s).irqEn = s.irqEn := rfl
@[simp] theorem moveCursor_errCode (s : State) : (moveCursor s).errCode = s.errCode := rfl
@[simp] theorem moveCursor_errDetail (s : State) : (moveCursor s).errDetail = s.errDetail := rfl
@[simp] theorem moveCursor_inBase (s : State) : (moveCursor s).inBase = s.inBase := rfl
@[simp] theorem moveCursor_inLen (s : State) : (moveCursor s).inLen = s.inLen := rfl
@[simp] theorem moveCursor_outBase (s : State) : (moveCursor s).outBase = s.outBase := rfl
@[simp] theorem moveCursor_outBound (s : State) : (moveCursor s).outBound = s.outBound := rfl
@[simp] theorem moveCursor_mem (s : State) : (moveCursor s).mem = s.mem := rfl
@[simp] theorem moveCursor_trace (s : State) : (moveCursor s).trace = s.trace := rfl
@[simp] theorem moveCursor_inputs (s : State) : (moveCursor s).inputs = s.inputs := rfl
@[simp] theorem moveCursor_hostData (s : State) : (moveCursor s).hostData = s.hostData := rfl
@[simp] theorem moveCursor_openTiles (s : State) : (moveCursor s).openTiles = s.openTiles := rfl
@[simp] theorem moveCursor_contested (s : State) : (moveCursor s).contested = s.contested := rfl
@[simp] theorem moveCursor_draws (s : State) : (moveCursor s).draws = s.draws := rfl

/-! ## setTable -/

@[simp] theorem setTable_cfg (c : Code) (t : Table) (s : State) : (setTable c t s).cfg = s.cfg := by cases c <;> rfl
@[simp] theorem setTable_state (c : Code) (t : Table) (s : State) : (setTable c t s).state = s.state := by cases c <;> rfl
@[simp] theorem setTable_phase (c : Code) (t : Table) (s : State) : (setTable c t s).phase = s.phase := by cases c <;> rfl
@[simp] theorem setTable_lanes (c : Code) (t : Table) (s : State) : (setTable c t s).lanes = s.lanes := by cases c <;> rfl
@[simp] theorem setTable_cur (c : Code) (t : Table) (s : State) : (setTable c t s).cur = s.cur := by cases c <;> rfl
@[simp] theorem setTable_pend (c : Code) (t : Table) (s : State) : (setTable c t s).pend = s.pend := by cases c <;> rfl
@[simp] theorem setTable_inPos (c : Code) (t : Table) (s : State) : (setTable c t s).inPos = s.inPos := by cases c <;> rfl
@[simp] theorem setTable_outPos (c : Code) (t : Table) (s : State) : (setTable c t s).outPos = s.outPos := by cases c <;> rfl
@[simp] theorem setTable_isFinal (c : Code) (t : Table) (s : State) : (setTable c t s).isFinal = s.isFinal := by cases c <;> rfl
@[simp] theorem setTable_btype (c : Code) (t : Table) (s : State) : (setTable c t s).btype = s.btype := by cases c <;> rfl
@[simp] theorem setTable_hlit (c : Code) (t : Table) (s : State) : (setTable c t s).hlit = s.hlit := by cases c <;> rfl
@[simp] theorem setTable_hdist (c : Code) (t : Table) (s : State) : (setTable c t s).hdist = s.hdist := by cases c <;> rfl
@[simp] theorem setTable_hclen (c : Code) (t : Table) (s : State) : (setTable c t s).hclen = s.hclen := by cases c <;> rfl
@[simp] theorem setTable_pi (c : Code) (t : Table) (s : State) : (setTable c t s).pi = s.pi := by cases c <;> rfl
@[simp] theorem setTable_li (c : Code) (t : Table) (s : State) : (setTable c t s).li = s.li := by cases c <;> rfl
@[simp] theorem setTable_staticLoaded (c : Code) (t : Table) (s : State) : (setTable c t s).staticLoaded = s.staticLoaded := by cases c <;> rfl
@[simp] theorem setTable_overread (c : Code) (t : Table) (s : State) : (setTable c t s).overread = s.overread := by cases c <;> rfl
@[simp] theorem setTable_precodeLens (c : Code) (t : Table) (s : State) : (setTable c t s).precodeLens = s.precodeLens := by cases c <;> rfl
@[simp] theorem setTable_lens (c : Code) (t : Table) (s : State) : (setTable c t s).lens = s.lens := by cases c <;> rfl
@[simp] theorem setTable_sortedSyms (c : Code) (t : Table) (s : State) : (setTable c t s).sortedSyms = s.sortedSyms := by cases c <;> rfl
@[simp] theorem setTable_irqEn (c : Code) (t : Table) (s : State) : (setTable c t s).irqEn = s.irqEn := by cases c <;> rfl
@[simp] theorem setTable_errCode (c : Code) (t : Table) (s : State) : (setTable c t s).errCode = s.errCode := by cases c <;> rfl
@[simp] theorem setTable_errDetail (c : Code) (t : Table) (s : State) : (setTable c t s).errDetail = s.errDetail := by cases c <;> rfl
@[simp] theorem setTable_inBase (c : Code) (t : Table) (s : State) : (setTable c t s).inBase = s.inBase := by cases c <;> rfl
@[simp] theorem setTable_inLen (c : Code) (t : Table) (s : State) : (setTable c t s).inLen = s.inLen := by cases c <;> rfl
@[simp] theorem setTable_outBase (c : Code) (t : Table) (s : State) : (setTable c t s).outBase = s.outBase := by cases c <;> rfl
@[simp] theorem setTable_outBound (c : Code) (t : Table) (s : State) : (setTable c t s).outBound = s.outBound := by cases c <;> rfl
@[simp] theorem setTable_mem (c : Code) (t : Table) (s : State) : (setTable c t s).mem = s.mem := by cases c <;> rfl
@[simp] theorem setTable_trace (c : Code) (t : Table) (s : State) : (setTable c t s).trace = s.trace := by cases c <;> rfl
@[simp] theorem setTable_inputs (c : Code) (t : Table) (s : State) : (setTable c t s).inputs = s.inputs := by cases c <;> rfl
@[simp] theorem setTable_hostData (c : Code) (t : Table) (s : State) : (setTable c t s).hostData = s.hostData := by cases c <;> rfl
@[simp] theorem setTable_openTiles (c : Code) (t : Table) (s : State) : (setTable c t s).openTiles = s.openTiles := by cases c <;> rfl
@[simp] theorem setTable_contested (c : Code) (t : Table) (s : State) : (setTable c t s).contested = s.contested := by cases c <;> rfl
@[simp] theorem setTable_draws (c : Code) (t : Table) (s : State) : (setTable c t s).draws = s.draws := by cases c <;> rfl

/-! ## sortScratch -/

@[simp] theorem sortScratch_cfg (lens : List Nat) (maxLen : Nat) (s : State) : (sortScratch lens maxLen s).cfg = s.cfg := rfl
@[simp] theorem sortScratch_state (lens : List Nat) (maxLen : Nat) (s : State) : (sortScratch lens maxLen s).state = s.state := rfl
@[simp] theorem sortScratch_phase (lens : List Nat) (maxLen : Nat) (s : State) : (sortScratch lens maxLen s).phase = s.phase := rfl
@[simp] theorem sortScratch_lanes (lens : List Nat) (maxLen : Nat) (s : State) : (sortScratch lens maxLen s).lanes = s.lanes := rfl
@[simp] theorem sortScratch_cur (lens : List Nat) (maxLen : Nat) (s : State) : (sortScratch lens maxLen s).cur = s.cur := rfl
@[simp] theorem sortScratch_pend (lens : List Nat) (maxLen : Nat) (s : State) : (sortScratch lens maxLen s).pend = s.pend := rfl
@[simp] theorem sortScratch_inPos (lens : List Nat) (maxLen : Nat) (s : State) : (sortScratch lens maxLen s).inPos = s.inPos := rfl
@[simp] theorem sortScratch_outPos (lens : List Nat) (maxLen : Nat) (s : State) : (sortScratch lens maxLen s).outPos = s.outPos := rfl
@[simp] theorem sortScratch_isFinal (lens : List Nat) (maxLen : Nat) (s : State) : (sortScratch lens maxLen s).isFinal = s.isFinal := rfl
@[simp] theorem sortScratch_btype (lens : List Nat) (maxLen : Nat) (s : State) : (sortScratch lens maxLen s).btype = s.btype := rfl
@[simp] theorem sortScratch_hlit (lens : List Nat) (maxLen : Nat) (s : State) : (sortScratch lens maxLen s).hlit = s.hlit := rfl
@[simp] theorem sortScratch_hdist (lens : List Nat) (maxLen : Nat) (s : State) : (sortScratch lens maxLen s).hdist = s.hdist := rfl
@[simp] theorem sortScratch_hclen (lens : List Nat) (maxLen : Nat) (s : State) : (sortScratch lens maxLen s).hclen = s.hclen := rfl
@[simp] theorem sortScratch_pi (lens : List Nat) (maxLen : Nat) (s : State) : (sortScratch lens maxLen s).pi = s.pi := rfl
@[simp] theorem sortScratch_li (lens : List Nat) (maxLen : Nat) (s : State) : (sortScratch lens maxLen s).li = s.li := rfl
@[simp] theorem sortScratch_staticLoaded (lens : List Nat) (maxLen : Nat) (s : State) : (sortScratch lens maxLen s).staticLoaded = s.staticLoaded := rfl
@[simp] theorem sortScratch_overread (lens : List Nat) (maxLen : Nat) (s : State) : (sortScratch lens maxLen s).overread = s.overread := rfl
@[simp] theorem sortScratch_precodeLens (lens : List Nat) (maxLen : Nat) (s : State) : (sortScratch lens maxLen s).precodeLens = s.precodeLens := rfl
@[simp] theorem sortScratch_lens (lens : List Nat) (maxLen : Nat) (s : State) : (sortScratch lens maxLen s).lens = s.lens := rfl
@[simp] theorem sortScratch_pt (lens : List Nat) (maxLen : Nat) (s : State) : (sortScratch lens maxLen s).pt = s.pt := rfl
@[simp] theorem sortScratch_lt (lens : List Nat) (maxLen : Nat) (s : State) : (sortScratch lens maxLen s).lt = s.lt := rfl
@[simp] theorem sortScratch_ot (lens : List Nat) (maxLen : Nat) (s : State) : (sortScratch lens maxLen s).ot = s.ot := rfl
@[simp] theorem sortScratch_irqEn (lens : List Nat) (maxLen : Nat) (s : State) : (sortScratch lens maxLen s).irqEn = s.irqEn := rfl
@[simp] theorem sortScratch_errCode (lens : List Nat) (maxLen : Nat) (s : State) : (sortScratch lens maxLen s).errCode = s.errCode := rfl
@[simp] theorem sortScratch_errDetail (lens : List Nat) (maxLen : Nat) (s : State) : (sortScratch lens maxLen s).errDetail = s.errDetail := rfl
@[simp] theorem sortScratch_inBase (lens : List Nat) (maxLen : Nat) (s : State) : (sortScratch lens maxLen s).inBase = s.inBase := rfl
@[simp] theorem sortScratch_inLen (lens : List Nat) (maxLen : Nat) (s : State) : (sortScratch lens maxLen s).inLen = s.inLen := rfl
@[simp] theorem sortScratch_outBase (lens : List Nat) (maxLen : Nat) (s : State) : (sortScratch lens maxLen s).outBase = s.outBase := rfl
@[simp] theorem sortScratch_outBound (lens : List Nat) (maxLen : Nat) (s : State) : (sortScratch lens maxLen s).outBound = s.outBound := rfl
@[simp] theorem sortScratch_mem (lens : List Nat) (maxLen : Nat) (s : State) : (sortScratch lens maxLen s).mem = s.mem := rfl
@[simp] theorem sortScratch_trace (lens : List Nat) (maxLen : Nat) (s : State) : (sortScratch lens maxLen s).trace = s.trace := rfl
@[simp] theorem sortScratch_inputs (lens : List Nat) (maxLen : Nat) (s : State) : (sortScratch lens maxLen s).inputs = s.inputs := rfl
@[simp] theorem sortScratch_hostData (lens : List Nat) (maxLen : Nat) (s : State) : (sortScratch lens maxLen s).hostData = s.hostData := rfl
@[simp] theorem sortScratch_openTiles (lens : List Nat) (maxLen : Nat) (s : State) : (sortScratch lens maxLen s).openTiles = s.openTiles := rfl
@[simp] theorem sortScratch_contested (lens : List Nat) (maxLen : Nat) (s : State) : (sortScratch lens maxLen s).contested = s.contested := rfl
@[simp] theorem sortScratch_draws (lens : List Nat) (maxLen : Nat) (s : State) : (sortScratch lens maxLen s).draws = s.draws := rfl

/-! ## writeIrqEn -/

@[simp] theorem writeIrqEn_irqEn (irqEn : Bool) (s : State) : (writeIrqEn irqEn s).irqEn = irqEn := rfl
@[simp] theorem writeIrqEn_cfg (irqEn : Bool) (s : State) : (writeIrqEn irqEn s).cfg = s.cfg := rfl
@[simp] theorem writeIrqEn_state (irqEn : Bool) (s : State) : (writeIrqEn irqEn s).state = s.state := rfl
@[simp] theorem writeIrqEn_phase (irqEn : Bool) (s : State) : (writeIrqEn irqEn s).phase = s.phase := rfl
@[simp] theorem writeIrqEn_lanes (irqEn : Bool) (s : State) : (writeIrqEn irqEn s).lanes = s.lanes := rfl
@[simp] theorem writeIrqEn_cur (irqEn : Bool) (s : State) : (writeIrqEn irqEn s).cur = s.cur := rfl
@[simp] theorem writeIrqEn_pend (irqEn : Bool) (s : State) : (writeIrqEn irqEn s).pend = s.pend := rfl
@[simp] theorem writeIrqEn_inPos (irqEn : Bool) (s : State) : (writeIrqEn irqEn s).inPos = s.inPos := rfl
@[simp] theorem writeIrqEn_outPos (irqEn : Bool) (s : State) : (writeIrqEn irqEn s).outPos = s.outPos := rfl
@[simp] theorem writeIrqEn_isFinal (irqEn : Bool) (s : State) : (writeIrqEn irqEn s).isFinal = s.isFinal := rfl
@[simp] theorem writeIrqEn_btype (irqEn : Bool) (s : State) : (writeIrqEn irqEn s).btype = s.btype := rfl
@[simp] theorem writeIrqEn_hlit (irqEn : Bool) (s : State) : (writeIrqEn irqEn s).hlit = s.hlit := rfl
@[simp] theorem writeIrqEn_hdist (irqEn : Bool) (s : State) : (writeIrqEn irqEn s).hdist = s.hdist := rfl
@[simp] theorem writeIrqEn_hclen (irqEn : Bool) (s : State) : (writeIrqEn irqEn s).hclen = s.hclen := rfl
@[simp] theorem writeIrqEn_pi (irqEn : Bool) (s : State) : (writeIrqEn irqEn s).pi = s.pi := rfl
@[simp] theorem writeIrqEn_li (irqEn : Bool) (s : State) : (writeIrqEn irqEn s).li = s.li := rfl
@[simp] theorem writeIrqEn_staticLoaded (irqEn : Bool) (s : State) : (writeIrqEn irqEn s).staticLoaded = s.staticLoaded := rfl
@[simp] theorem writeIrqEn_overread (irqEn : Bool) (s : State) : (writeIrqEn irqEn s).overread = s.overread := rfl
@[simp] theorem writeIrqEn_precodeLens (irqEn : Bool) (s : State) : (writeIrqEn irqEn s).precodeLens = s.precodeLens := rfl
@[simp] theorem writeIrqEn_lens (irqEn : Bool) (s : State) : (writeIrqEn irqEn s).lens = s.lens := rfl
@[simp] theorem writeIrqEn_sortedSyms (irqEn : Bool) (s : State) : (writeIrqEn irqEn s).sortedSyms = s.sortedSyms := rfl
@[simp] theorem writeIrqEn_pt (irqEn : Bool) (s : State) : (writeIrqEn irqEn s).pt = s.pt := rfl
@[simp] theorem writeIrqEn_lt (irqEn : Bool) (s : State) : (writeIrqEn irqEn s).lt = s.lt := rfl
@[simp] theorem writeIrqEn_ot (irqEn : Bool) (s : State) : (writeIrqEn irqEn s).ot = s.ot := rfl
@[simp] theorem writeIrqEn_errCode (irqEn : Bool) (s : State) : (writeIrqEn irqEn s).errCode = s.errCode := rfl
@[simp] theorem writeIrqEn_errDetail (irqEn : Bool) (s : State) : (writeIrqEn irqEn s).errDetail = s.errDetail := rfl
@[simp] theorem writeIrqEn_inBase (irqEn : Bool) (s : State) : (writeIrqEn irqEn s).inBase = s.inBase := rfl
@[simp] theorem writeIrqEn_inLen (irqEn : Bool) (s : State) : (writeIrqEn irqEn s).inLen = s.inLen := rfl
@[simp] theorem writeIrqEn_outBase (irqEn : Bool) (s : State) : (writeIrqEn irqEn s).outBase = s.outBase := rfl
@[simp] theorem writeIrqEn_outBound (irqEn : Bool) (s : State) : (writeIrqEn irqEn s).outBound = s.outBound := rfl
@[simp] theorem writeIrqEn_mem (irqEn : Bool) (s : State) : (writeIrqEn irqEn s).mem = s.mem := rfl
@[simp] theorem writeIrqEn_trace (irqEn : Bool) (s : State) : (writeIrqEn irqEn s).trace = s.trace := rfl
@[simp] theorem writeIrqEn_inputs (irqEn : Bool) (s : State) : (writeIrqEn irqEn s).inputs = s.inputs := rfl
@[simp] theorem writeIrqEn_hostData (irqEn : Bool) (s : State) : (writeIrqEn irqEn s).hostData = s.hostData := rfl
@[simp] theorem writeIrqEn_openTiles (irqEn : Bool) (s : State) : (writeIrqEn irqEn s).openTiles = s.openTiles := rfl
@[simp] theorem writeIrqEn_contested (irqEn : Bool) (s : State) : (writeIrqEn irqEn s).contested = s.contested := rfl
@[simp] theorem writeIrqEn_draws (irqEn : Bool) (s : State) : (writeIrqEn irqEn s).draws = s.draws := rfl

/-! ## tileInit -/

@[simp] theorem tileInit_lanes (s : State) : (tileInit s).lanes = Vector.replicate 32 {} := rfl
@[simp] theorem tileInit_cur (s : State) : (tileInit s).cur = 0 := rfl
@[simp] theorem tileInit_pend (s : State) : (tileInit s).pend = 0#32 := rfl
@[simp] theorem tileInit_inPos (s : State) : (tileInit s).inPos = 0 := rfl
@[simp] theorem tileInit_outPos (s : State) : (tileInit s).outPos = 0 := rfl
@[simp] theorem tileInit_isFinal (s : State) : (tileInit s).isFinal = false := rfl
@[simp] theorem tileInit_btype (s : State) : (tileInit s).btype = 0#2 := rfl
@[simp] theorem tileInit_overread (s : State) : (tileInit s).overread = false := rfl
@[simp] theorem tileInit_state (s : State) : (tileInit s).state = .prime := rfl
@[simp] theorem tileInit_openTiles (s : State) : (tileInit s).openTiles = s.windows :: s.openTiles := rfl
@[simp] theorem tileInit_contested (s : State) : (tileInit s).contested = [] := rfl
@[simp] theorem tileInit_cfg (s : State) : (tileInit s).cfg = s.cfg := rfl
@[simp] theorem tileInit_phase (s : State) : (tileInit s).phase = s.phase := rfl
@[simp] theorem tileInit_hlit (s : State) : (tileInit s).hlit = s.hlit := rfl
@[simp] theorem tileInit_hdist (s : State) : (tileInit s).hdist = s.hdist := rfl
@[simp] theorem tileInit_hclen (s : State) : (tileInit s).hclen = s.hclen := rfl
@[simp] theorem tileInit_pi (s : State) : (tileInit s).pi = s.pi := rfl
@[simp] theorem tileInit_li (s : State) : (tileInit s).li = s.li := rfl
@[simp] theorem tileInit_staticLoaded (s : State) : (tileInit s).staticLoaded = s.staticLoaded := rfl
@[simp] theorem tileInit_precodeLens (s : State) : (tileInit s).precodeLens = s.precodeLens := rfl
@[simp] theorem tileInit_lens (s : State) : (tileInit s).lens = s.lens := rfl
@[simp] theorem tileInit_sortedSyms (s : State) : (tileInit s).sortedSyms = s.sortedSyms := rfl
@[simp] theorem tileInit_pt (s : State) : (tileInit s).pt = s.pt := rfl
@[simp] theorem tileInit_lt (s : State) : (tileInit s).lt = s.lt := rfl
@[simp] theorem tileInit_ot (s : State) : (tileInit s).ot = s.ot := rfl
@[simp] theorem tileInit_irqEn (s : State) : (tileInit s).irqEn = s.irqEn := rfl
@[simp] theorem tileInit_errCode (s : State) : (tileInit s).errCode = s.errCode := rfl
@[simp] theorem tileInit_errDetail (s : State) : (tileInit s).errDetail = s.errDetail := rfl
@[simp] theorem tileInit_inBase (s : State) : (tileInit s).inBase = s.inBase := rfl
@[simp] theorem tileInit_inLen (s : State) : (tileInit s).inLen = s.inLen := rfl
@[simp] theorem tileInit_outBase (s : State) : (tileInit s).outBase = s.outBase := rfl
@[simp] theorem tileInit_outBound (s : State) : (tileInit s).outBound = s.outBound := rfl
@[simp] theorem tileInit_mem (s : State) : (tileInit s).mem = s.mem := rfl
@[simp] theorem tileInit_trace (s : State) : (tileInit s).trace = s.trace := rfl
@[simp] theorem tileInit_inputs (s : State) : (tileInit s).inputs = s.inputs := rfl
@[simp] theorem tileInit_hostData (s : State) : (tileInit s).hostData = s.hostData := rfl
@[simp] theorem tileInit_draws (s : State) : (tileInit s).draws = s.draws := rfl

/-! ## latchHeader -/

@[simp] theorem latchHeader_isFinal (final : Bool) (btype : BitVec 2) (s : State) : (latchHeader final btype s).isFinal = final := rfl
@[simp] theorem latchHeader_btype (final : Bool) (btype : BitVec 2) (s : State) : (latchHeader final btype s).btype = btype := rfl
@[simp] theorem latchHeader_cfg (final : Bool) (btype : BitVec 2) (s : State) : (latchHeader final btype s).cfg = s.cfg := rfl
@[simp] theorem latchHeader_state (final : Bool) (btype : BitVec 2) (s : State) : (latchHeader final btype s).state = s.state := rfl
@[simp] theorem latchHeader_phase (final : Bool) (btype : BitVec 2) (s : State) : (latchHeader final btype s).phase = s.phase := rfl
@[simp] theorem latchHeader_lanes (final : Bool) (btype : BitVec 2) (s : State) : (latchHeader final btype s).lanes = s.lanes := rfl
@[simp] theorem latchHeader_cur (final : Bool) (btype : BitVec 2) (s : State) : (latchHeader final btype s).cur = s.cur := rfl
@[simp] theorem latchHeader_pend (final : Bool) (btype : BitVec 2) (s : State) : (latchHeader final btype s).pend = s.pend := rfl
@[simp] theorem latchHeader_inPos (final : Bool) (btype : BitVec 2) (s : State) : (latchHeader final btype s).inPos = s.inPos := rfl
@[simp] theorem latchHeader_outPos (final : Bool) (btype : BitVec 2) (s : State) : (latchHeader final btype s).outPos = s.outPos := rfl
@[simp] theorem latchHeader_hlit (final : Bool) (btype : BitVec 2) (s : State) : (latchHeader final btype s).hlit = s.hlit := rfl
@[simp] theorem latchHeader_hdist (final : Bool) (btype : BitVec 2) (s : State) : (latchHeader final btype s).hdist = s.hdist := rfl
@[simp] theorem latchHeader_hclen (final : Bool) (btype : BitVec 2) (s : State) : (latchHeader final btype s).hclen = s.hclen := rfl
@[simp] theorem latchHeader_pi (final : Bool) (btype : BitVec 2) (s : State) : (latchHeader final btype s).pi = s.pi := rfl
@[simp] theorem latchHeader_li (final : Bool) (btype : BitVec 2) (s : State) : (latchHeader final btype s).li = s.li := rfl
@[simp] theorem latchHeader_staticLoaded (final : Bool) (btype : BitVec 2) (s : State) : (latchHeader final btype s).staticLoaded = s.staticLoaded := rfl
@[simp] theorem latchHeader_overread (final : Bool) (btype : BitVec 2) (s : State) : (latchHeader final btype s).overread = s.overread := rfl
@[simp] theorem latchHeader_precodeLens (final : Bool) (btype : BitVec 2) (s : State) : (latchHeader final btype s).precodeLens = s.precodeLens := rfl
@[simp] theorem latchHeader_lens (final : Bool) (btype : BitVec 2) (s : State) : (latchHeader final btype s).lens = s.lens := rfl
@[simp] theorem latchHeader_sortedSyms (final : Bool) (btype : BitVec 2) (s : State) : (latchHeader final btype s).sortedSyms = s.sortedSyms := rfl
@[simp] theorem latchHeader_pt (final : Bool) (btype : BitVec 2) (s : State) : (latchHeader final btype s).pt = s.pt := rfl
@[simp] theorem latchHeader_lt (final : Bool) (btype : BitVec 2) (s : State) : (latchHeader final btype s).lt = s.lt := rfl
@[simp] theorem latchHeader_ot (final : Bool) (btype : BitVec 2) (s : State) : (latchHeader final btype s).ot = s.ot := rfl
@[simp] theorem latchHeader_irqEn (final : Bool) (btype : BitVec 2) (s : State) : (latchHeader final btype s).irqEn = s.irqEn := rfl
@[simp] theorem latchHeader_errCode (final : Bool) (btype : BitVec 2) (s : State) : (latchHeader final btype s).errCode = s.errCode := rfl
@[simp] theorem latchHeader_errDetail (final : Bool) (btype : BitVec 2) (s : State) : (latchHeader final btype s).errDetail = s.errDetail := rfl
@[simp] theorem latchHeader_inBase (final : Bool) (btype : BitVec 2) (s : State) : (latchHeader final btype s).inBase = s.inBase := rfl
@[simp] theorem latchHeader_inLen (final : Bool) (btype : BitVec 2) (s : State) : (latchHeader final btype s).inLen = s.inLen := rfl
@[simp] theorem latchHeader_outBase (final : Bool) (btype : BitVec 2) (s : State) : (latchHeader final btype s).outBase = s.outBase := rfl
@[simp] theorem latchHeader_outBound (final : Bool) (btype : BitVec 2) (s : State) : (latchHeader final btype s).outBound = s.outBound := rfl
@[simp] theorem latchHeader_mem (final : Bool) (btype : BitVec 2) (s : State) : (latchHeader final btype s).mem = s.mem := rfl
@[simp] theorem latchHeader_trace (final : Bool) (btype : BitVec 2) (s : State) : (latchHeader final btype s).trace = s.trace := rfl
@[simp] theorem latchHeader_inputs (final : Bool) (btype : BitVec 2) (s : State) : (latchHeader final btype s).inputs = s.inputs := rfl
@[simp] theorem latchHeader_hostData (final : Bool) (btype : BitVec 2) (s : State) : (latchHeader final btype s).hostData = s.hostData := rfl
@[simp] theorem latchHeader_openTiles (final : Bool) (btype : BitVec 2) (s : State) : (latchHeader final btype s).openTiles = s.openTiles := rfl
@[simp] theorem latchHeader_contested (final : Bool) (btype : BitVec 2) (s : State) : (latchHeader final btype s).contested = s.contested := rfl
@[simp] theorem latchHeader_draws (final : Bool) (btype : BitVec 2) (s : State) : (latchHeader final btype s).draws = s.draws := rfl

/-! ## putLengths -/

@[simp] theorem putLengths_lens (v : BitVec 4) (n : Nat) (s : State) : (putLengths v n s).lens = setRun v s.li n s.lens := rfl
@[simp] theorem putLengths_li (v : BitVec 4) (n : Nat) (s : State) : (putLengths v n s).li = s.li + n := rfl
@[simp] theorem putLengths_cfg (v : BitVec 4) (n : Nat) (s : State) : (putLengths v n s).cfg = s.cfg := rfl
@[simp] theorem putLengths_state (v : BitVec 4) (n : Nat) (s : State) : (putLengths v n s).state = s.state := rfl
@[simp] theorem putLengths_lanes (v : BitVec 4) (n : Nat) (s : State) : (putLengths v n s).lanes = s.lanes := rfl
@[simp] theorem putLengths_cur (v : BitVec 4) (n : Nat) (s : State) : (putLengths v n s).cur = s.cur := rfl
@[simp] theorem putLengths_pend (v : BitVec 4) (n : Nat) (s : State) : (putLengths v n s).pend = s.pend := rfl
@[simp] theorem putLengths_inPos (v : BitVec 4) (n : Nat) (s : State) : (putLengths v n s).inPos = s.inPos := rfl
@[simp] theorem putLengths_outPos (v : BitVec 4) (n : Nat) (s : State) : (putLengths v n s).outPos = s.outPos := rfl
@[simp] theorem putLengths_isFinal (v : BitVec 4) (n : Nat) (s : State) : (putLengths v n s).isFinal = s.isFinal := rfl
@[simp] theorem putLengths_btype (v : BitVec 4) (n : Nat) (s : State) : (putLengths v n s).btype = s.btype := rfl
@[simp] theorem putLengths_hlit (v : BitVec 4) (n : Nat) (s : State) : (putLengths v n s).hlit = s.hlit := rfl
@[simp] theorem putLengths_hdist (v : BitVec 4) (n : Nat) (s : State) : (putLengths v n s).hdist = s.hdist := rfl
@[simp] theorem putLengths_hclen (v : BitVec 4) (n : Nat) (s : State) : (putLengths v n s).hclen = s.hclen := rfl
@[simp] theorem putLengths_pi (v : BitVec 4) (n : Nat) (s : State) : (putLengths v n s).pi = s.pi := rfl
@[simp] theorem putLengths_staticLoaded (v : BitVec 4) (n : Nat) (s : State) : (putLengths v n s).staticLoaded = s.staticLoaded := rfl
@[simp] theorem putLengths_overread (v : BitVec 4) (n : Nat) (s : State) : (putLengths v n s).overread = s.overread := rfl
@[simp] theorem putLengths_precodeLens (v : BitVec 4) (n : Nat) (s : State) : (putLengths v n s).precodeLens = s.precodeLens := rfl
@[simp] theorem putLengths_sortedSyms (v : BitVec 4) (n : Nat) (s : State) : (putLengths v n s).sortedSyms = s.sortedSyms := rfl
@[simp] theorem putLengths_pt (v : BitVec 4) (n : Nat) (s : State) : (putLengths v n s).pt = s.pt := rfl
@[simp] theorem putLengths_lt (v : BitVec 4) (n : Nat) (s : State) : (putLengths v n s).lt = s.lt := rfl
@[simp] theorem putLengths_ot (v : BitVec 4) (n : Nat) (s : State) : (putLengths v n s).ot = s.ot := rfl
@[simp] theorem putLengths_irqEn (v : BitVec 4) (n : Nat) (s : State) : (putLengths v n s).irqEn = s.irqEn := rfl
@[simp] theorem putLengths_errCode (v : BitVec 4) (n : Nat) (s : State) : (putLengths v n s).errCode = s.errCode := rfl
@[simp] theorem putLengths_errDetail (v : BitVec 4) (n : Nat) (s : State) : (putLengths v n s).errDetail = s.errDetail := rfl
@[simp] theorem putLengths_inBase (v : BitVec 4) (n : Nat) (s : State) : (putLengths v n s).inBase = s.inBase := rfl
@[simp] theorem putLengths_inLen (v : BitVec 4) (n : Nat) (s : State) : (putLengths v n s).inLen = s.inLen := rfl
@[simp] theorem putLengths_outBase (v : BitVec 4) (n : Nat) (s : State) : (putLengths v n s).outBase = s.outBase := rfl
@[simp] theorem putLengths_outBound (v : BitVec 4) (n : Nat) (s : State) : (putLengths v n s).outBound = s.outBound := rfl
@[simp] theorem putLengths_mem (v : BitVec 4) (n : Nat) (s : State) : (putLengths v n s).mem = s.mem := rfl
@[simp] theorem putLengths_trace (v : BitVec 4) (n : Nat) (s : State) : (putLengths v n s).trace = s.trace := rfl
@[simp] theorem putLengths_inputs (v : BitVec 4) (n : Nat) (s : State) : (putLengths v n s).inputs = s.inputs := rfl
@[simp] theorem putLengths_hostData (v : BitVec 4) (n : Nat) (s : State) : (putLengths v n s).hostData = s.hostData := rfl
@[simp] theorem putLengths_openTiles (v : BitVec 4) (n : Nat) (s : State) : (putLengths v n s).openTiles = s.openTiles := rfl
@[simp] theorem putLengths_contested (v : BitVec 4) (n : Nat) (s : State) : (putLengths v n s).contested = s.contested := rfl
@[simp] theorem putLengths_draws (v : BitVec 4) (n : Nat) (s : State) : (putLengths v n s).draws = s.draws := rfl

/-! ## readRegister -/

@[simp] theorem readRegister_hostData (off : Nat) (s : State) : (readRegister off s).hostData = s.readReg off := rfl
@[simp] theorem readRegister_cfg (off : Nat) (s : State) : (readRegister off s).cfg = s.cfg := rfl
@[simp] theorem readRegister_state (off : Nat) (s : State) : (readRegister off s).state = s.state := rfl
@[simp] theorem readRegister_phase (off : Nat) (s : State) : (readRegister off s).phase = s.phase := rfl
@[simp] theorem readRegister_lanes (off : Nat) (s : State) : (readRegister off s).lanes = s.lanes := rfl
@[simp] theorem readRegister_cur (off : Nat) (s : State) : (readRegister off s).cur = s.cur := rfl
@[simp] theorem readRegister_pend (off : Nat) (s : State) : (readRegister off s).pend = s.pend := rfl
@[simp] theorem readRegister_inPos (off : Nat) (s : State) : (readRegister off s).inPos = s.inPos := rfl
@[simp] theorem readRegister_outPos (off : Nat) (s : State) : (readRegister off s).outPos = s.outPos := rfl
@[simp] theorem readRegister_isFinal (off : Nat) (s : State) : (readRegister off s).isFinal = s.isFinal := rfl
@[simp] theorem readRegister_btype (off : Nat) (s : State) : (readRegister off s).btype = s.btype := rfl
@[simp] theorem readRegister_hlit (off : Nat) (s : State) : (readRegister off s).hlit = s.hlit := rfl
@[simp] theorem readRegister_hdist (off : Nat) (s : State) : (readRegister off s).hdist = s.hdist := rfl
@[simp] theorem readRegister_hclen (off : Nat) (s : State) : (readRegister off s).hclen = s.hclen := rfl
@[simp] theorem readRegister_pi (off : Nat) (s : State) : (readRegister off s).pi = s.pi := rfl
@[simp] theorem readRegister_li (off : Nat) (s : State) : (readRegister off s).li = s.li := rfl
@[simp] theorem readRegister_staticLoaded (off : Nat) (s : State) : (readRegister off s).staticLoaded = s.staticLoaded := rfl
@[simp] theorem readRegister_overread (off : Nat) (s : State) : (readRegister off s).overread = s.overread := rfl
@[simp] theorem readRegister_precodeLens (off : Nat) (s : State) : (readRegister off s).precodeLens = s.precodeLens := rfl
@[simp] theorem readRegister_lens (off : Nat) (s : State) : (readRegister off s).lens = s.lens := rfl
@[simp] theorem readRegister_sortedSyms (off : Nat) (s : State) : (readRegister off s).sortedSyms = s.sortedSyms := rfl
@[simp] theorem readRegister_pt (off : Nat) (s : State) : (readRegister off s).pt = s.pt := rfl
@[simp] theorem readRegister_lt (off : Nat) (s : State) : (readRegister off s).lt = s.lt := rfl
@[simp] theorem readRegister_ot (off : Nat) (s : State) : (readRegister off s).ot = s.ot := rfl
@[simp] theorem readRegister_irqEn (off : Nat) (s : State) : (readRegister off s).irqEn = s.irqEn := rfl
@[simp] theorem readRegister_errCode (off : Nat) (s : State) : (readRegister off s).errCode = s.errCode := rfl
@[simp] theorem readRegister_errDetail (off : Nat) (s : State) : (readRegister off s).errDetail = s.errDetail := rfl
@[simp] theorem readRegister_inBase (off : Nat) (s : State) : (readRegister off s).inBase = s.inBase := rfl
@[simp] theorem readRegister_inLen (off : Nat) (s : State) : (readRegister off s).inLen = s.inLen := rfl
@[simp] theorem readRegister_outBase (off : Nat) (s : State) : (readRegister off s).outBase = s.outBase := rfl
@[simp] theorem readRegister_outBound (off : Nat) (s : State) : (readRegister off s).outBound = s.outBound := rfl
@[simp] theorem readRegister_mem (off : Nat) (s : State) : (readRegister off s).mem = s.mem := rfl
@[simp] theorem readRegister_trace (off : Nat) (s : State) : (readRegister off s).trace = s.trace := rfl
@[simp] theorem readRegister_inputs (off : Nat) (s : State) : (readRegister off s).inputs = s.inputs := rfl
@[simp] theorem readRegister_contested (off : Nat) (s : State) : (readRegister off s).contested = s.contested := rfl
@[simp] theorem readRegister_draws (off : Nat) (s : State) : (readRegister off s).draws = s.draws := rfl

end Sys2Proof.Machine
end

