-- ==== Sys2Proof/Laws/Memory.lean ====
section
/-! SUPPORT. Memory: read after write, and that every operation of the machine that writes memory keeps the canonical form. -/

namespace Sys2Proof.Machine

theorem Mem.wfFrom_mono {lo lo' : Nat} {m : List Host.Cell} (h : lo' ≤ lo) (hm : Mem.wfFrom lo m = true) :
    Mem.wfFrom lo' m = true := by
  cases m with
  | nil => rfl
  | cons e m =>
    obtain ⟨k, v⟩ := e
    simp only [Mem.wfFrom, Bool.and_eq_true, decide_eq_true_eq] at hm ⊢
    exact ⟨⟨by omega, hm.1.2⟩, hm.2⟩

/-- An address below every listed one reads as an unlisted address. -/
theorem Mem.read_below {lo a : Nat} {m : List Host.Cell} (hm : Mem.wfFrom lo m = true) (h : a < lo) :
    Mem.read m a = 0#8 := by
  induction m generalizing lo with
  | nil => rfl
  | cons e m ih =>
    obtain ⟨k, v⟩ := e
    simp only [Mem.wfFrom, Bool.and_eq_true, decide_eq_true_eq] at hm
    have hk : k ≠ a := by omega
    simp only [Mem.read, if_neg hk]
    exact ih hm.2 (by omega)

theorem Mem.wfFrom_write {lo a : Nat} {b : Byte} {m : List Host.Cell} (hm : Mem.wfFrom lo m = true) (h : lo ≤ a) :
    Mem.wfFrom lo (Mem.write a b m) = true := by
  induction m generalizing lo with
  | nil => by_cases hb : b = 0#8 <;> simp [Mem.write, Mem.wfFrom, hb, h]
  | cons e m ih =>
    obtain ⟨k, v⟩ := e
    simp only [Mem.wfFrom, Bool.and_eq_true, decide_eq_true_eq] at hm
    obtain ⟨⟨hk, hv⟩, hm⟩ := hm
    rcases Nat.lt_trichotomy a k with hlt | rfl | hgt
    · by_cases hb : b = 0#8
      · simp [Mem.write, Mem.wfFrom, hlt, hb, hk, hv, hm]
      · have := Mem.wfFrom_mono (lo' := a + 1) (lo := a + 1) (Nat.le_refl _) (m := (k, v) :: m)
          (by simp [Mem.wfFrom, hv, hm]; omega)
        simp only [Mem.write, if_pos hlt, if_neg hb]
        simp only [Mem.wfFrom, Bool.and_eq_true, decide_eq_true_eq]
        exact ⟨⟨h, hb⟩, ⟨by omega, hv⟩, hm⟩
    · by_cases hb : b = 0#8
      · simpa [Mem.write, hb] using Mem.wfFrom_mono (by omega) hm
      · simp [Mem.write, Mem.wfFrom, hb, hk, hm]
    · have h1 : ¬ a < k := by omega
      have h2 : a ≠ k := by omega
      simp only [Mem.write, if_neg h1, if_neg h2, Mem.wfFrom, Bool.and_eq_true, decide_eq_true_eq]
      exact ⟨⟨hk, hv⟩, ih hm (by omega)⟩

/-- A write keeps the canonical form. -/
theorem Mem.wf_write {a : Nat} {b : Byte} {m : List Host.Cell} (hm : Mem.wf m = true) : Mem.wf (Mem.write a b m) = true :=
  Mem.wfFrom_write hm (Nat.zero_le _)

theorem Mem.read_writeFrom {lo a x : Nat} {b : Byte} {m : List Host.Cell} (hm : Mem.wfFrom lo m = true) :
    Mem.read (Mem.write a b m) x = if x = a then b else Mem.read m x := by
  induction m generalizing lo with
  | nil =>
    by_cases hb : b = 0#8
    · simp [Mem.write, hb, Mem.read]
    · by_cases hx : x = a
      · simp [Mem.write, hb, Mem.read, hx]
      · simp [Mem.write, hb, Mem.read, hx, Ne.symm hx]
  | cons e m ih =>
    obtain ⟨k, v⟩ := e
    simp only [Mem.wfFrom, Bool.and_eq_true, decide_eq_true_eq] at hm
    obtain ⟨⟨hk, hv⟩, hm⟩ := hm
    rcases Nat.lt_trichotomy a k with hlt | rfl | hgt
    · by_cases hb : b = 0#8
      · by_cases hx : x = a
        · subst hx
          have hka : k ≠ x := by omega
          simp [Mem.write, hlt, hb, Mem.read, hka, Mem.read_below hm (by omega : x < k + 1)]
        · simp [Mem.write, hlt, hb, hx]
      · by_cases hx : x = a
        · simp [Mem.write, hlt, hb, hx, Mem.read]
        · simp [Mem.write, hlt, hb, hx, Mem.read, Ne.symm hx]
    · by_cases hb : b = 0#8
      · by_cases hx : x = a
        · simp [Mem.write, hb, hx, Mem.read_below hm (by omega : a < a + 1)]
        · simp [Mem.write, hb, hx, Mem.read, Ne.symm hx]
      · by_cases hx : x = a
        · simp [Mem.write, hb, hx, Mem.read]
        · simp [Mem.write, hb, hx, Mem.read, Ne.symm hx]
    · have h1 : ¬ a < k := by omega
      have h2 : a ≠ k := by omega
      by_cases hx : k = x
      · subst hx
        simp [Mem.write, h1, h2, Mem.read, Ne.symm h2]
      · simp [Mem.write, h1, h2, Mem.read, hx, ih hm]

/-- A read after a write, at every address. -/
theorem Mem.read_write {a x : Nat} {b : Byte} {m : List Host.Cell} (hm : Mem.wf m = true) :
    Mem.read (Mem.write a b m) x = if x = a then b else Mem.read m x :=
  Mem.read_writeFrom hm

/-- The memory right after reset is canonical. -/
theorem reset_mem_wf : Mem.wf State.reset.mem = true := rfl

end Sys2Proof.Machine
end

