-- ==== Sys2Proof/Laws/Ops.lean ====
section
/-! SUPPORT. What each shared operation can do, said once: results, input words, refills, advances, bit reads, output bytes. -/

namespace Sys2Proof.Machine

/-! ## Results -/

@[simp] theorem Res.bind_ok {α β : Type} (a : α) (s : State) (k : α → State → Res β) : (Res.ok a s).bind k = k a s := rfl
@[simp] theorem Res.bind_raised {α β : Type} (s : State) (k : α → State → Res β) : (Res.raised s).bind k = .raised s := rfl
@[simp] theorem Res.bind_fault {α β : Type} (f : Fault) (k : α → State → Res β) : (Res.fault f).bind k = .fault f := rfl
@[simp] theorem Res.bind_refused {α β : Type} (r : Refusal) (k : α → State → Res β) :
    (Res.refused r).bind k = .refused r := rfl
@[simp] theorem Res.outcome_ok {α : Type} (a : α) (s : State) : (Res.ok a s).outcome = .next s := rfl
@[simp] theorem Res.outcome_raised {α : Type} (s : State) : (Res.raised s : Res α).outcome = .next s := rfl
@[simp] theorem Res.outcome_fault {α : Type} (f : Fault) : (Res.fault f : Res α).outcome = .fault f := rfl
@[simp] theorem Res.outcome_refused {α : Type} (r : Refusal) : (Res.refused r : Res α).outcome = .refused r := rfl

/-- A sequence that succeeds: each part did. -/
theorem Res.bind_eq_ok {α β : Type} {r : Res α} {k : α → State → Res β} {b : β} {t : State} :
    r.bind k = .ok b t ↔ ∃ a s, r = .ok a s ∧ k a s = .ok b t := by
  cases r <;> simp

/-- A sequence that raises: the first part raised, or the second did. -/
theorem Res.bind_eq_raised {α β : Type} {r : Res α} {k : α → State → Res β} {t : State} :
    r.bind k = .raised t ↔ r = .raised t ∨ ∃ a s, r = .ok a s ∧ k a s = .raised t := by
  cases r <;> simp

/-- A next state is a success or a raise. -/
theorem Res.outcome_eq_next {α : Type} {r : Res α} {t : State} :
    r.outcome = .next t ↔ (∃ a, r = .ok a t) ∨ r = .raised t := by
  cases r <;> simp

/-- A property that holds after every success or raise of the first part and that the second part keeps, holds after both. -/
theorem Res.bind_keeps {α β : Type} {P : State → Prop} {r : Res α} {k : α → State → Res β}
    (h1 : ∀ a s, r = .ok a s → P s) (h2 : ∀ s, r = .raised s → P s)
    (h3 : ∀ a s, r = .ok a s → P s → (∀ b t, k a s = .ok b t → P t) ∧ (∀ t, k a s = .raised t → P t)) :
    (∀ b t, r.bind k = .ok b t → P t) ∧ (∀ t, r.bind k = .raised t → P t) := by
  cases r with
  | ok a s => exact h3 a s rfl (h1 a s rfl)
  | raised s => exact ⟨fun b t h => by simp at h, fun t h => by simp at h; exact h ▸ h2 s rfl⟩
  | fault f => exact ⟨fun b t h => by simp at h, fun t h => by simp at h⟩
  | refused q => exact ⟨fun b t h => by simp at h, fun t h => by simp at h⟩

@[simp] theorem raise_eq {α : Type} (code : ErrCode) (detail : BitVec 4) (s : State) :
    (raise code detail s : Res α) = .raised (errorEntry code detail s) := rfl

/-! ## Lanes -/

theorem setLane_lane (c d : Fin 32) (l : Lane) (s : State) : (setLane c l s).lane d = if c = d then l else s.lane d := by
  simp [State.lane, setLane, Vector.getElem_set, Fin.ext_iff]

@[simp] theorem setLane_lane_same (c : Fin 32) (l : Lane) (s : State) : (setLane c l s).lane c = l := by
  simp [setLane_lane]

theorem setLane_lane_other {c d : Fin 32} (h : c ≠ d) (l : Lane) (s : State) : (setLane c l s).lane d = s.lane d := by
  simp [setLane_lane, h]

/-! ## Input words -/

/-- An input byte touches only the draw counter and the sticky flag. -/
theorem inputByte_frame (s : State) (off : Nat) :
    (inputByte s off).2 = { s with draws := (inputByte s off).2.draws, overread := (inputByte s off).2.overread } := by
  unfold inputByte
  split
  · split <;> rfl
  · rfl

/-- An input word touches only the draw counter and the sticky flag. -/
theorem inputWord_frame (s : State) :
    (inputWord s).2 = { s with draws := (inputWord s).2.draws, overread := (inputWord s).2.overread } := by
  simp only [inputWord]
  generalize h0 : inputByte s (4 * s.inPos) = r0
  have e0 := inputByte_frame s (4 * s.inPos); rw [h0] at e0
  generalize h1 : inputByte r0.2 (4 * s.inPos + 1) = r1
  have e1 := inputByte_frame r0.2 (4 * s.inPos + 1); rw [h1] at e1
  generalize h2 : inputByte r1.2 (4 * s.inPos + 2) = r2
  have e2 := inputByte_frame r1.2 (4 * s.inPos + 2); rw [h2] at e2
  have e3 := inputByte_frame r2.2 (4 * s.inPos + 3)
  rw [e3, e2, e1, e0]

/-- A byte of the tile's input that does not race is the byte in memory, and reading it changes nothing. -/
theorem inputByte_defined {s : State} {off : Nat} (h : off < s.inLen.toNat) (hr : s.raced (s.inAddr off) = false) :
    inputByte s off = (Mem.read s.mem (s.inAddr off), s) := by
  simp [inputByte, h, hr]

/-- What a fetching refill writes. -/
theorem fetchWord_frame (c : Fin 32) (s : State) :
    fetchWord c s =
      { s with
        lanes := s.lanes.set c.val
          { s.lane c with
            buf := (s.lane c).buf ||| ((s.asDelivered (inputWord s).1).setWidth 64 <<< (s.lane c).left)
            left := (s.lane c).left + 32 }
        inPos := s.inPos + 1, trace := .fetch s.inPos c :: s.trace
        draws := (inputWord s).2.draws, overread := (inputWord s).2.overread } := by
  simp only [fetchWord, setLane, emit, State.lane]
  rw [inputWord_frame s]

/-- Everything REFILL can do (40_lane_demux.md R124). -/
theorem refill_cases (c : Fin 32) (s : State) :
    (32 ≤ (s.lane c).left ∧ refill c s = .ok () s) ∨
    ((s.lane c).left < 32 ∧ s.cfg.overreadPolicy = .fault ∧ s.inLen.toNat < 4 * s.inPos + 4 ∧
      refill c s = .raised (errorEntry .inputOverread 0#4 s)) ∨
    ((s.lane c).left < 32 ∧ ¬ (s.cfg.overreadPolicy = .fault ∧ s.inLen.toNat < 4 * s.inPos + 4) ∧
      refill c s = .ok () (fetchWord c s)) := by
  by_cases h : 32 ≤ (s.lane c).left
  · exact .inl ⟨h, by simp [refill, h]⟩
  · by_cases h2 : s.cfg.overreadPolicy = .fault ∧ s.inLen.toNat < 4 * s.inPos + 4
    · exact .inr (.inl ⟨by omega, h2.1, h2.2, by simp [refill, h, h2]⟩)
    · exact .inr (.inr ⟨by omega, h2, by simp only [refill, if_neg h, if_neg h2]⟩)

/-- A refill changes only its lane, the word count, the trace, the draws and the sticky flag. -/
theorem refill_ok {c : Fin 32} {s t : State} (h : refill c s = .ok () t) :
    t = { s with lanes := t.lanes, inPos := t.inPos, trace := t.trace, draws := t.draws, overread := t.overread } ∧
      ∀ d, d ≠ c → t.lane d = s.lane d := by
  rcases refill_cases c s with ⟨_, e⟩ | ⟨_, _, _, e⟩ | ⟨_, _, e⟩ <;> rw [e] at h
  · cases h; exact ⟨rfl, fun _ _ => rfl⟩
  · cases h
  · injection h with _ h
    subst h
    constructor
    · rw [fetchWord_frame]
    · intro d hd
      rw [fetchWord_frame]
      simp [State.lane, Vector.getElem_set]
      omega

/-- A refill that raises is error entry with INPUT_OVERREAD, before any write. -/
theorem refill_raised {c : Fin 32} {s t : State} (h : refill c s = .raised t) : t = errorEntry .inputOverread 0#4 s := by
  rcases refill_cases c s with ⟨_, e⟩ | ⟨_, _, _, e⟩ | ⟨_, _, e⟩ <;> rw [e] at h <;> cases h
  rfl

/-- Under the DRAW policy, or with the whole word inside the tile, a refill succeeds. -/
theorem refill_succeeds {c : Fin 32} {s : State} (h : s.cfg.overreadPolicy = .draw ∨ 4 * s.inPos + 4 ≤ s.inLen.toNat) :
    ∃ t, refill c s = .ok () t := by
  rcases refill_cases c s with ⟨_, e⟩ | ⟨_, hp, hl, e⟩ | ⟨_, _, e⟩
  · exact ⟨_, e⟩
  · rcases h with h | h
    · rw [h] at hp; cases hp
    · omega
  · exact ⟨_, e⟩

/-- Refills never stop with a fault or a refusal. -/
theorem refill_runs (c : Fin 32) (s : State) : (∃ t, refill c s = .ok () t) ∨ (∃ t, refill c s = .raised t) := by
  rcases refill_cases c s with ⟨_, e⟩ | ⟨_, _, _, e⟩ | ⟨_, _, e⟩
  · exact .inl ⟨_, e⟩
  · exact .inr ⟨_, e⟩
  · exact .inl ⟨_, e⟩

/-! ## ADVANCE -/

/-- ADVANCE moves the cursor by one and otherwise changes only what one lane's refill changes (40_lane_demux.md R125). -/
theorem advance_ok {s t : State} (h : advance s = .ok () t) :
    t.cur = s.cur + 1 ∧
    t = { s with
      cur := t.cur, lanes := t.lanes, inPos := t.inPos, trace := t.trace, draws := t.draws, overread := t.overread } := by
  unfold advance at h
  split at h
  · obtain ⟨_, u, hu, e⟩ := Res.bind_eq_ok.mp h
    injection e with _ e
    subst e
    have e := (refill_ok hu).1
    constructor
    · rw [e]; rfl
    · simp only [moveCursor]
      rw [e]
  · have e := (refill_ok h).1
    constructor
    · rw [e]; rfl
    · rw [e]; rfl

/-- ADVANCE raises only INPUT_OVERREAD. -/
theorem advance_raised {s t : State} (h : advance s = .raised t) :
    t = errorEntry .inputOverread 0#4 { s with cur := t.cur } ∧ (t.cur = s.cur ∨ t.cur = s.cur + 1) := by
  unfold advance at h
  split at h
  · rcases Res.bind_eq_raised.mp h with h | ⟨_, u, _, e⟩
    · rw [refill_raised h]; exact ⟨rfl, .inl rfl⟩
    · cases e
  · rw [refill_raised h]; exact ⟨rfl, .inr rfl⟩

/-- ADVANCE never stops with a fault or a refusal. -/
theorem advance_runs (s : State) : (∃ t, advance s = .ok () t) ∨ (∃ t, advance s = .raised t) := by
  unfold advance
  split
  · rcases refill_runs s.cur s with ⟨t, e⟩ | ⟨t, e⟩ <;> rw [e]
    · exact .inl ⟨_, rfl⟩
    · exact .inr ⟨_, rfl⟩
  · exact refill_runs _ _

/-- Under the DRAW policy ADVANCE succeeds. -/
theorem advance_succeeds {s : State} (h : s.cfg.overreadPolicy = .draw) : ∃ t, advance s = .ok () t := by
  unfold advance
  split
  · obtain ⟨t, e⟩ := refill_succeeds (c := s.cur) (s := s) (.inl h)
    exact ⟨_, by rw [e]; rfl⟩
  · exact refill_succeeds (.inl h)

/-! ## Bits of a lane -/

/-- Everything CONSUME can do (40_lane_demux.md R122). -/
theorem consume_cases (c : Fin 32) (n : Nat) (s : State) :
    ((s.lane c).left < n ∧ consume c n s = .raised (errorEntry .laneUnderflow 0#4 s)) ∨
    (n ≤ (s.lane c).left ∧
      consume c n s =
        .ok () (setLane c { s.lane c with buf := (s.lane c).buf >>> n, left := (s.lane c).left - n } s)) := by
  by_cases h : (s.lane c).left < n
  · exact .inl ⟨h, by simp [consume, h]⟩
  · exact .inr ⟨by omega, by simp [consume, h]⟩

/-- A POP that has its bits returns them and takes them from the lane (40_lane_demux.md R123). -/
theorem pop_ok {c : Fin 32} {n : Nat} {s : State} (h : n ≤ (s.lane c).left) :
    pop c n s =
      .ok (fieldValue s.cfg.reading.fieldBits n (peek s c n))
        (setLane c { s.lane c with buf := (s.lane c).buf >>> n, left := (s.lane c).left - n } s) := by
  have h' : ¬ (s.lane c).left < n := by omega
  simp [pop, consume, h']

/-- A POP that lacks bits raises LANE_UNDERFLOW. -/
theorem pop_raised {c : Fin 32} {n : Nat} {s : State} (h : (s.lane c).left < n) :
    pop c n s = .raised (errorEntry .laneUnderflow 0#4 s) := by
  simp [pop, consume, h]

/-- The spec's order of a field's bits (30_encoding.md R81). -/
@[simp] theorem fieldValue_lsbFirst (n bits : Nat) : fieldValue .lsbFirst n bits = bits := rfl

/-- In either order an `n`-bit field's value is below 2^n. -/
theorem revBits_lt (n v : Nat) : revBits n v < 2 ^ n := by
  induction n generalizing v with
  | zero => exact Nat.one_pos
  | succ n ih =>
    have h := ih (v / 2)
    have h2 := Nat.mod_lt v (show 0 < 2 by decide)
    simp only [revBits, pow_succ]
    rcases Nat.mod_two_eq_zero_or_one v with e | e <;> rw [e] <;> omega

/-- In either order an `n`-bit field's value is below 2^n. -/
theorem fieldValue_lt {order : BitOrder} {n bits : Nat} (h : bits < 2 ^ n) : fieldValue order n bits < 2 ^ n := by
  cases order
  · exact h
  · exact revBits_lt n bits

/-- The spec's order of a word's bits (30_encoding.md R80). -/
theorem asDelivered_lsbFirst {s : State} (h : s.cfg.reading.wordBits = .lsbFirst) (w : Word) : s.asDelivered w = w := by
  simp [State.asDelivered, h]

@[simp] theorem startLane_current (s : State) : s.startLane .current = s.cur := rfl
@[simp] theorem startLane_zero (s : State) : s.startLane .zero = 0 := rfl

/-- Under the rulings headers are read from lane 0 (40_lane_demux.md R127). -/
theorem headerLane_ruled {s : State} (h : s.cfg.reading = .ruled) : s.headerLane = 0 := by
  simp [State.headerLane, h, StreamReading.ruled]

@[simp] theorem headerRefill_true (s : State) : headerRefill true s = refill s.headerLane s := rfl
@[simp] theorem headerRefill_false (s : State) : headerRefill false s = .ok () s := rfl

/-- HPOP of at most 32 bits with at least 32 in the header lane needs no refill (40_lane_demux.md R129). -/
theorem hpop_ok {due : Bool} {n : Nat} {s : State} (h : 32 ≤ (s.lane s.headerLane).left) (hn : n ≤ 32) :
    hpop due n s =
      .ok (fieldValue s.cfg.reading.fieldBits n (peek s s.headerLane n))
        (setLane s.headerLane
          { s.lane s.headerLane with buf := (s.lane s.headerLane).buf >>> n, left := (s.lane s.headerLane).left - n } s) := by
  cases due <;> simp [hpop, headerRefill, refill, h, pop_ok (show n ≤ (s.lane s.headerLane).left by omega)]

/-! ## Output bytes -/

/-- What OUT_WRITE writes: one byte of memory, the trace, and the draw counter where the byte races (20_memory.md R65, R73). -/
theorem outWrite_frame (p : Nat) (b : Byte) (s : State) :
    outWrite p b s =
      { s with
        mem := Mem.write (s.outAddr p) (if s.raced (s.outAddr p) then Config.draw s.draws else b) s.mem
        trace := .write p b :: s.trace
        draws := if s.raced (s.outAddr p) then s.draws + 1 else s.draws } := by
  unfold outWrite racedByte
  split <;> simp_all [emit, takeDraw]

/-- Reading an output byte changes only the draw counter. -/
theorem outRead_frame (p : Nat) (s : State) : (outRead p s).2 = { s with draws := (outRead p s).2.draws } := by
  unfold outRead
  split <;> rfl

theorem outWrite_wf (p : Nat) (b : Byte) {s : State} (h : Mem.wf s.mem = true) : Mem.wf (outWrite p b s).mem = true := by
  rw [outWrite_frame]
  exact Mem.wf_write h

/-- A copy's bytes touch only memory, the trace and the draw counter (44_match_copy.md R223). -/
theorem copyBytes_frame (dst dist n j : Nat) (s : State) :
    copyBytes dst dist n j s =
      { s with
        mem := (copyBytes dst dist n j s).mem, trace := (copyBytes dst dist n j s).trace,
        draws := (copyBytes dst dist n j s).draws } := by
  induction n generalizing j s with
  | zero => rfl
  | succ n ih =>
    simp only [copyBytes]
    have e := outRead_frame (dst - dist + j) s
    generalize outRead (dst - dist + j) s = r at e ⊢
    obtain ⟨b, u⟩ := r
    change u = { s with draws := u.draws } at e
    generalize u.draws = d at e
    subst e
    rw [ih, outWrite_frame]

theorem copyBytes_wf (dst dist n j : Nat) {s : State} (h : Mem.wf s.mem = true) :
    Mem.wf (copyBytes dst dist n j s).mem = true := by
  induction n generalizing j s with
  | zero => exact h
  | succ n ih =>
    apply ih
    apply outWrite_wf
    rw [outRead_frame]
    exact h

end Sys2Proof.Machine
end

