-- ==== Sys2Proof/Laws/Tables.lean ====
section
/-! SUPPORT. What BUILD and LOOKUP can do, said once. -/

namespace Sys2Proof.Machine

@[simp] theorem setTable_table_same (c : Code) (t : Table) (s : State) : (setTable c t s).table c = t := by cases c <;> rfl

theorem setTable_table_other {c d : Code} (h : c ≠ d) (t : Table) (s : State) : (setTable c t s).table d = s.table d := by
  cases c <;> cases d <;> first | rfl | exact absurd rfl h

/-- Everything BUILD can do (41_huffman_tables.md R144, R145, R154): an overfull or an incomplete code raises, with no table written;
a complete code writes its own table and records the build. -/
theorem build_cases (c : Code) (lens : List Nat) (s : State) :
    (2 ^ c.maxLen < codespaceUsed lens c.maxLen ∧
      build c lens s = .raised (errorEntry .corruptHuffmanCode c.detail (sortScratch lens c.maxLen s))) ∨
    (codespaceUsed lens c.maxLen < 2 ^ c.maxLen ∧
      build c lens s = .raised (errorEntry .unsupportedFeature c.detail (sortScratch lens c.maxLen s))) ∨
    (codespaceUsed lens c.maxLen = 2 ^ c.maxLen ∧
      build c lens s =
        .ok () (emit (.build c) (setTable c (buildTable c.result (tableBits s.cfg c) c.maxLen lens (s.table c))
          (sortScratch lens c.maxLen s)))) := by
  rcases Nat.lt_trichotomy (codespaceUsed lens c.maxLen) (2 ^ c.maxLen) with h | h | h
  · exact .inr (.inl ⟨h, by simp [build, h, Nat.lt_asymm h]⟩)
  · exact .inr (.inr ⟨h, by simp [build, h]⟩)
  · exact .inl ⟨h, by simp [build, h]⟩

/-- A complete code's build writes its own table and records it (41_huffman_tables.md R154). -/
theorem build_complete {c : Code} {lens : List Nat} {s : State} (h : codespaceUsed lens c.maxLen = 2 ^ c.maxLen) :
    build c lens s =
      .ok () (emit (.build c)
        (setTable c (buildTable c.result (tableBits s.cfg c) c.maxLen lens (s.table c)) (sortScratch lens c.maxLen s))) := by
  rcases build_cases c lens s with ⟨h', _⟩ | ⟨h', _⟩ | ⟨_, e⟩
  · omega
  · omega
  · exact e

/-- A complete offset code's build, field by field. -/
theorem build_offset_complete {lens : List Nat} {s : State} (h : codespaceUsed lens 15 = 2 ^ 15) :
    build .offset lens s =
      .ok () { s with
        sortedSyms := (sortScratch lens 15 s).sortedSyms
        ot := buildTable offRes s.cfg.offsetTableBits 15 lens s.ot, trace := .build .offset :: s.trace } := by
  rw [build_complete (c := .offset) h]
  simp only [Code.maxLen, Code.result, tableBits, State.table, setTable, emit, sortScratch]

/-- A complete litlen code's build, field by field. -/
theorem build_litlen_complete {lens : List Nat} {s : State} (h : codespaceUsed lens 15 = 2 ^ 15) :
    build .litlen lens s =
      .ok () { s with
        sortedSyms := (sortScratch lens 15 s).sortedSyms
        lt := buildTable llRes s.cfg.litlenTableBits 15 lens s.lt, trace := .build .litlen :: s.trace } := by
  rw [build_complete (c := .litlen) h]
  simp only [Code.maxLen, Code.result, tableBits, State.table, setTable, emit, sortScratch]

/-- BUILD never stops with a fault or a refusal. -/
theorem build_runs (c : Code) (lens : List Nat) (s : State) :
    (∃ t, build c lens s = .ok () t) ∨ (∃ t, build c lens s = .raised t) := by
  rcases build_cases c lens s with ⟨_, e⟩ | ⟨_, e⟩ | ⟨_, e⟩
  · exact .inr ⟨_, e⟩
  · exact .inr ⟨_, e⟩
  · exact .inl ⟨_, e⟩

/-- Reading an entry changes nothing, and the entry was written. -/
theorem readEntry_ok {c : Code} {i : Nat} {s t : State} {e : Word} (h : readEntry c i s = .ok e t) :
    t = s ∧ (s.table c).getD i none = some e := by
  unfold readEntry at h
  split at h
  · rename_i e' he
    injection h with h1 h2
    subst h1 h2
    exact ⟨rfl, he⟩
  · cases h

theorem readEntry_not_raised {c : Code} {i : Nat} {s t : State} : readEntry c i s ≠ .raised t := by
  unfold readEntry
  split <;> simp

/-- CONSUME that succeeds touches only its lane. -/
theorem consume_ok {c : Fin 32} {n : Nat} {s t : State} (h : consume c n s = .ok () t) :
    n ≤ (s.lane c).left ∧
      t = setLane c { s.lane c with buf := (s.lane c).buf >>> n, left := (s.lane c).left - n } s := by
  rcases consume_cases c n s with ⟨_, e⟩ | ⟨hn, e⟩ <;> rw [e] at h
  · cases h
  · injection h with _ h
    exact ⟨hn, h.symm⟩

/-- LOOKUP that succeeds touches only its lane (41_huffman_tables.md R156). -/
theorem lookup_ok {c : Code} {lane : Fin 32} {s t : State} {e : Word} (h : lookup c lane s = .ok e t) :
    t = { s with lanes := t.lanes } ∧ ∀ d, d ≠ lane → t.lane d = s.lane d := by
  unfold lookup at h
  obtain ⟨e1, s1, h1, k1⟩ := Res.bind_eq_ok.mp h
  obtain ⟨rfl, _⟩ := readEntry_ok h1
  split at k1
  · obtain ⟨_, s2, h2, k2⟩ := Res.bind_eq_ok.mp k1
    obtain ⟨_, rfl⟩ := consume_ok h2
    obtain ⟨e2, s3, h3, k3⟩ := Res.bind_eq_ok.mp k2
    obtain ⟨rfl, _⟩ := readEntry_ok h3
    obtain ⟨_, s4, h4, k4⟩ := Res.bind_eq_ok.mp k3
    obtain ⟨_, rfl⟩ := consume_ok h4
    injection k4 with _ k4
    subst k4
    exact ⟨rfl, fun d hd => by simp [setLane_lane, Ne.symm hd]⟩
  · obtain ⟨_, s4, h4, k4⟩ := Res.bind_eq_ok.mp k1
    obtain ⟨_, rfl⟩ := consume_ok h4
    injection k4 with _ k4
    subst k4
    exact ⟨rfl, fun d hd => by simp [setLane_lane, Ne.symm hd]⟩

/-- CONSUME raises only LANE_UNDERFLOW, with nothing changed before. -/
theorem consume_raised {c : Fin 32} {n : Nat} {s t : State} (h : consume c n s = .raised t) :
    t = errorEntry .laneUnderflow 0#4 s := by
  rcases consume_cases c n s with ⟨_, e⟩ | ⟨_, e⟩ <;> rw [e] at h <;> cases h
  rfl

/-- LOOKUP raises only LANE_UNDERFLOW, with only its lane changed before (41_huffman_tables.md R156). -/
theorem lookup_raised {c : Code} {lane : Fin 32} {s t : State} (h : lookup c lane s = .raised t) :
    t = errorEntry .laneUnderflow 0#4 { s with lanes := t.lanes } := by
  unfold lookup at h
  rcases Res.bind_eq_raised.mp h with k1 | ⟨e1, s1, h1, k1⟩
  · exact absurd k1 readEntry_not_raised
  obtain ⟨rfl, _⟩ := readEntry_ok h1
  split at k1
  · rcases Res.bind_eq_raised.mp k1 with k2 | ⟨_, s2, h2, k2⟩
    · rw [consume_raised k2]; rfl
    obtain ⟨_, rfl⟩ := consume_ok h2
    rcases Res.bind_eq_raised.mp k2 with k3 | ⟨e2, s3, h3, k3⟩
    · exact absurd k3 readEntry_not_raised
    obtain ⟨rfl, _⟩ := readEntry_ok h3
    rcases Res.bind_eq_raised.mp k3 with k4 | ⟨_, s4, h4, k4⟩
    · rw [consume_raised k4]; rfl
    · cases k4
  · rcases Res.bind_eq_raised.mp k1 with k2 | ⟨_, s4, h4, k2⟩
    · rw [consume_raised k2]; rfl
    · cases k2

end Sys2Proof.Machine
end

