-- ==== Sys2Proof/Laws/Host.lean ====
section
/-! SUPPORT. What the host's accesses and reset can do, said once. -/

namespace Sys2Proof.Machine

/-- A host store of a byte touches only memory, the contested addresses and the draw counter (20_memory.md R71). -/
theorem storeByte_frame (a : Nat) (b : Byte) (s : State) :
    storeByte a b s =
      { s with
        mem := (storeByte a b s).mem, contested := (storeByte a b s).contested, draws := (storeByte a b s).draws } := by
  unfold storeByte
  split
  · dsimp only
    split <;> rfl
  · rfl

theorem storeByte_wf (a : Nat) (b : Byte) {s : State} (h : Mem.wf s.mem = true) : Mem.wf (storeByte a b s).mem = true := by
  unfold storeByte
  split
  · dsimp only
    split <;> exact Mem.wf_write h
  · exact Mem.wf_write h

theorem storeBytes_frame (addr v : Word) (i n : Nat) (s : State) :
    storeBytes addr v i n s =
      { s with
        mem := (storeBytes addr v i n s).mem, contested := (storeBytes addr v i n s).contested,
        draws := (storeBytes addr v i n s).draws } := by
  induction n generalizing i s with
  | zero => rfl
  | succ n ih =>
    simp only [storeBytes]
    have e := storeByte_frame (s.addr addr i) ((v >>> (8 * i)).setWidth 8) s
    generalize storeByte (s.addr addr i) ((v >>> (8 * i)).setWidth 8) s = u at e ⊢
    generalize u.mem = m at e
    generalize u.contested = k at e
    generalize u.draws = d at e
    subst e
    rw [ih]

theorem storeBytes_wf (addr v : Word) (i n : Nat) {s : State} (h : Mem.wf s.mem = true) :
    Mem.wf (storeBytes addr v i n s).mem = true := by
  induction n generalizing i s with
  | zero => exact h
  | succ n ih => exact ih (i := i + 1) (storeByte_wf _ _ h)

/-- A host load of memory touches only the draw counter. -/
theorem loadBytes_frame (addr : Word) (i n : Nat) (s : State) :
    (loadBytes addr i n s).2 = { s with draws := (loadBytes addr i n s).2.draws } := by
  induction n generalizing i s with
  | zero => rfl
  | succ n ih =>
    simp only [loadBytes]
    have e : (loadByte (s.addr addr i) s).2 = { s with draws := (loadByte (s.addr addr i) s).2.draws } := by
      unfold loadByte; split <;> rfl
    generalize (loadByte (s.addr addr i) s).2 = u at e ⊢
    generalize u.draws = d at e
    subst e
    rw [ih]

/-- A write of a configuration register touches only the four of them, and nothing while BUSY (10_state.md R39). -/
theorem writeConfigReg_frame (off : Nat) (v : Word) (s : State) :
    writeConfigReg off v s =
      { s with
        inBase := (writeConfigReg off v s).inBase, inLen := (writeConfigReg off v s).inLen,
        outBase := (writeConfigReg off v s).outBase, outBound := (writeConfigReg off v s).outBound } := by
  unfold writeConfigReg
  split
  · rfl
  · split <;> rfl

theorem writeConfigReg_busy {off : Nat} {v : Word} {s : State} (h : s.busy = true) : writeConfigReg off v s = s := by
  simp [writeConfigReg, h]

/-- Reset leaves memory alone (70_reset_and_hazards.md R293). -/
@[simp] theorem hardReset_mem (s : State) : (hardReset s).mem = s.mem := rfl
@[simp] theorem hardReset_cfg (s : State) : (hardReset s).cfg = s.cfg := rfl
@[simp] theorem hardReset_state (s : State) : (hardReset s).state = .idle := rfl

/-- With nothing waiting, a step is the engine's turn. -/
theorem step_engine {s : State} (h : s.inputs = []) : step s = engineStep s := by
  unfold step; rw [h]

/-- With an input waiting, a step performs it on the state without it. -/
theorem step_input {s : State} {i : Input} {rest : List Input} (h : s.inputs = i :: rest) :
    step s = perform i { s with inputs := rest } := by
  unfold step; rw [h]

end Sys2Proof.Machine
end

