-- ==== Sys2Proof/Laws/Elements.lean ====
section
/-! SUPPORT. What the parts of the elements' meanings do, in the terms claims use: defined input words, ADVANCE, runs of lengths, copied
bytes, the codespace sum, one element of a step. -/

namespace Sys2Proof.Machine

/-! ## An element in a step -/

/-- Packing an instruction's outcome as a part of an operation loses nothing. -/
theorem ofOutcome_outcome (o : Host.Outcome State Fault Refusal) : (Res.ofOutcome o).outcome = o := by
  cases o with
  | next t => simp only [Res.ofOutcome]; split <;> rfl
  | fault f => rfl
  | refused r => rfl

/-- An instruction's next state is a success of the operation unless it is in ERROR. -/
theorem ofOutcome_next {t : State} (h : t.state ≠ .error) : Res.ofOutcome (.next t) = .ok () t := by
  simp [Res.ofOutcome, h]

/-- Running a fetched element is its instruction's meaning on the state the fetch leaves. -/
theorem runElement_outcome {f : Format} {s s' : State} {i : Instr} (h : fetch f s = .ok i s') :
    (runElement f s).outcome = exec i s' := by
  simp [runElement, h, ofOutcome_outcome]

/-- What running an element that succeeds did: a fetch, then the instruction, which did not end in ERROR. -/
theorem runElement_ok {f : Format} {s t : State} (h : runElement f s = .ok () t) :
    ∃ i u, fetch f s = .ok i u ∧ exec i u = .next t ∧ t.state ≠ .error := by
  obtain ⟨i, u, hf, hr⟩ := Res.bind_eq_ok.mp h
  refine ⟨i, u, hf, ?_⟩
  unfold Res.ofOutcome at hr
  split at hr
  · rename_i v hv
    split at hr
    · cases hr
    · injection hr with _ hr
      subst hr
      exact ⟨hv, by assumption⟩
  · cases hr
  · cases hr

/-- What running an element that raises did: the fetch raised, or the instruction ended in ERROR. -/
theorem runElement_raised {f : Format} {s t : State} (h : runElement f s = .raised t) :
    fetch f s = .raised t ∨ ∃ i u, fetch f s = .ok i u ∧ exec i u = .next t ∧ t.state = .error := by
  rcases Res.bind_eq_raised.mp h with hf | ⟨i, u, hf, hr⟩
  · exact .inl hf
  · refine .inr ⟨i, u, hf, ?_⟩
    unfold Res.ofOutcome at hr
    split at hr
    · rename_i v hv
      split at hr
      · injection hr with hr
        subst hr
        exact ⟨hv, by assumption⟩
      · cases hr
    · cases hr
    · cases hr

/-! ## Input words and ADVANCE -/

/-- A defined input word is memory's, and reading it changes nothing (20_memory.md R62). -/
theorem inputWord_defined {s : State} (h : WordDefined s s.inPos) : inputWord s = (s.wordAt s.inPos, s) := by
  obtain ⟨hl, hr⟩ := h
  have e0 : inputByte s (4 * s.inPos) = (Mem.read s.mem (s.inAddr (4 * s.inPos)), s) :=
    inputByte_defined (by omega) (by simpa using hr 0 (by decide))
  have e1 : inputByte s (4 * s.inPos + 1) = (Mem.read s.mem (s.inAddr (4 * s.inPos + 1)), s) :=
    inputByte_defined (by omega) (hr 1 (by decide))
  have e2 : inputByte s (4 * s.inPos + 2) = (Mem.read s.mem (s.inAddr (4 * s.inPos + 2)), s) :=
    inputByte_defined (by omega) (hr 2 (by decide))
  have e3 : inputByte s (4 * s.inPos + 3) = (Mem.read s.mem (s.inAddr (4 * s.inPos + 3)), s) :=
    inputByte_defined (by omega) (hr 3 (by decide))
  simp [inputWord, e0, e1, e2, e3, State.wordAt]

/-- A refillable state's refill fetches when the lane holds fewer than 32 bits. -/
theorem refill_fetches {c : Fin 32} {s : State} (h : Refillable s) (hl : (s.lane c).left < 32) :
    refill c s = .ok () (fetchWord c s) := by
  rcases refill_cases c s with ⟨h1, _⟩ | ⟨_, hp, hi, _⟩ | ⟨_, _, e⟩
  · omega
  · rcases h with h | h
    · rw [h] at hp; cases hp
    · omega
  · exact e

/-- A refill that can be done gives a state. -/
theorem CanRefill.refill_ok {c : Fin 32} {s : State} (h : CanRefill c s) : ∃ t, refill c s = .ok () t := by
  rcases refill_cases c s with ⟨_, e⟩ | ⟨hl, hp, hi, _⟩ | ⟨_, _, e⟩
  · exact ⟨_, e⟩
  · rcases h with h | h | h
    · omega
    · rw [h] at hp; cases hp
    · omega
  · exact ⟨_, e⟩

/-- A refill that cannot be done raises INPUT_OVERREAD before any write (40_lane_demux.md R124). -/
theorem refill_overread {c : Fin 32} {s : State} (h : ¬ CanRefill c s) : refill c s = .raised (errorEntry .inputOverread 0#4 s) := by
  rcases refill_cases c s with ⟨hl, _⟩ | ⟨_, _, _, e⟩ | ⟨_, hn, _⟩
  · exact absurd (.inl hl) h
  · exact e
  · refine absurd (.inr ?_) h
    by_cases hp : s.cfg.overreadPolicy = .draw
    · exact .inl hp
    · refine .inr (Nat.le_of_not_lt fun hi => hn ⟨?_, hi⟩)
      cases hq : s.cfg.overreadPolicy with
      | draw => exact absurd hq hp
      | fault => rfl

/-- An ADVANCE whose refill cannot be done raises INPUT_OVERREAD with the cursor at the lane it would have refilled
(40_lane_demux.md R125). -/
theorem advance_overread {s : State} (h : ¬ CanAdvance s) :
    advance s = .raised (errorEntry .inputOverread 0#4 { s with cur := s.refillLane }) := by
  unfold CanAdvance at h
  unfold advance
  cases ho : s.cfg.advanceOrder with
  | refillThenMove =>
    have hr : s.refillLane = s.cur := by simp [State.refillLane, ho]
    rw [hr] at h ⊢
    simp only [refill_overread h]
    rfl
  | moveThenRefill =>
    have hr : s.refillLane = s.cur + 1 := by simp [State.refillLane, ho]
    rw [hr] at h ⊢
    exact refill_overread (c := (moveCursor s).cur) (s := moveCursor s) h

/-- A fetching refill gives the lane the next input word (40_lane_demux.md R124). -/
theorem fetchWord_eq (c : Fin 32) (s : State) : fetchWord c s = s.withNextWord c := fetchWord_frame c s

/-- The input word does not depend on the cursor. -/
theorem moveCursor_inputWord (s : State) : inputWord (moveCursor s) = ((inputWord s).1, moveCursor (inputWord s).2) := by
  have hb : ∀ (u : State) (off : Nat),
      inputByte (moveCursor u) off = ((inputByte u off).1, moveCursor (inputByte u off).2) := by
    intro u off
    have hr : (moveCursor u).raced ((moveCursor u).inAddr off) = u.raced (u.inAddr off) := rfl
    simp only [inputByte, hr, moveCursor_inLen, moveCursor_mem]
    split
    · split <;> rfl
    · rfl
  simp only [inputWord, hb, moveCursor_inPos]

/-- An ADVANCE that can be done (40_lane_demux.md R125). -/
theorem advance_advanced {s : State} (h : CanAdvance s) : ∃ t, advance s = .ok () t ∧ Advanced s t := by
  unfold CanAdvance at h
  unfold advance Advanced
  cases ho : s.cfg.advanceOrder with
  | refillThenMove =>
    rw [show s.refillLane = s.cur by simp [State.refillLane, ho]] at h ⊢
    by_cases hl : 32 ≤ (s.lane s.cur).left
    · exact ⟨moveCursor s, by simp [refill, hl], by simp only [hl, if_true]; rfl⟩
    · refine ⟨moveCursor (fetchWord s.cur s), by
        rw [refill_fetches (h.resolve_left hl) (show (s.lane s.cur).left < 32 by omega)]; rfl, ?_⟩
      simp only [hl, if_false]
      rw [fetchWord_eq]; rfl
  | moveThenRefill =>
    rw [show s.refillLane = s.cur + 1 by simp [State.refillLane, ho]] at h ⊢
    by_cases hl : 32 ≤ (s.lane (s.cur + 1)).left
    · refine ⟨moveCursor s, ?_, by simp only [hl, if_true]; rfl⟩
      have hl' : 32 ≤ ((moveCursor s).lane (moveCursor s).cur).left := hl
      simp only [refill, hl', if_true]
    · have hl' : ((moveCursor s).lane (moveCursor s).cur).left < 32 := by
        have : ((moveCursor s).lane (moveCursor s).cur).left = (s.lane (s.cur + 1)).left := rfl
        omega
      refine ⟨fetchWord (moveCursor s).cur (moveCursor s), refill_fetches (s := moveCursor s) (h.resolve_left hl) hl', ?_⟩
      simp only [hl, if_false]
      rw [fetchWord_frame, moveCursor_inputWord]; rfl

/-- The state ADVANCE leaves, where it can be done, is the one `Advanced` names. -/
theorem Advanced.advance_ok {s t : State} (h : Advanced s t) (hc : CanAdvance s) : advance s = .ok () t := by
  obtain ⟨u, hu, ha⟩ := advance_advanced hc
  rw [hu, ha, ← h]

/-! ## DRAIN -/

/-- Under the rulings the drain starts where the cursor is (44_match_copy.md R225). -/
theorem drainStart_ruled {s : State} (h : s.cfg.reading = .ruled) : drainStart s = s := by
  simp [drainStart, h, StreamReading.ruled]

/-- Under the rulings the next block begins where the drain ended (42_block_control.md R190). -/
theorem blockDone_ruled {s : State} (h : s.cfg.reading = .ruled) :
    blockDone s = if s.isFinal then finish s else .ok () { s with state := .header } := by
  simp [blockDone, h, StreamReading.ruled]

/-- Under the rulings an end of block does not advance (43_symbol_decode.md R204). -/
theorem endOfBlock_ruled {s : State} (h : s.cfg.reading = .ruled) :
    endOfBlock s = .ok () { s with state := .drain, trace := .eob s.cur :: s.trace } := by
  simp [endOfBlock, h, StreamReading.ruled, emit]

/-- A lane step of DRAIN that raises nothing (44_match_copy.md R225). -/
theorem drainStep_ok {s t : State} : drainStep s = .ok () t ↔ DrainStep s t := by
  unfold drainStep DrainStep
  split
  · constructor
    · intro h
      obtain ⟨i, u, hf, he⟩ := Res.bind_eq_ok.mp h
      refine ⟨i, u, hf, ?_⟩
      unfold Res.ofOutcome at he
      split at he
      · rename_i hv
        split at he
        · cases he
        · cases he; exact ⟨hv, by assumption⟩
      · cases he
      · cases he
    · rintro ⟨i, u, hf, he, hn⟩
      simp [runElement, fetch, hf, he, Res.ofOutcome, hn]
  · constructor
    · intro h
      by_cases hc : CanAdvance s
      · obtain ⟨u, hu, ha⟩ := advance_advanced hc
        cases hu.symm.trans h
        exact ⟨hc, ha⟩
      · rw [advance_overread hc] at h; cases h
    · exact fun ⟨hc, ha⟩ => ha.advance_ok hc

/-- Lane steps of DRAIN that raise nothing. -/
theorem drainSteps_ok {n : Nat} {s t : State} : drainSteps n s = .ok () t ↔ DrainSteps n s t := by
  induction n generalizing s with
  | zero => simp [drainSteps, DrainSteps, eq_comm]
  | succ n ih =>
    simp only [drainSteps, DrainSteps, Res.bind_eq_ok]
    exact ⟨fun ⟨_, u, h, hs⟩ => ⟨u, drainStep_ok.mp h, ih.mp hs⟩, fun ⟨u, h, hs⟩ => ⟨(), u, drainStep_ok.mpr h, ih.mpr hs⟩⟩

/-- Lane steps of DRAIN in two parts. -/
theorem drainSteps_add (k n : Nat) (s : State) : drainSteps (k + n) s = (drainSteps k s).bind fun _ s => drainSteps n s := by
  induction k generalizing s with
  | zero => simp [drainSteps]
  | succ k ih =>
    rw [Nat.add_right_comm]
    simp only [drainSteps]
    cases drainStep s <;> simp [ih]

/-! ## Recording a match -/

/-- Recording a match changes no lane's bits (43_symbol_decode.md R205). -/
theorem recordMatch_left (c d : Fin 32) (len : Nat) (s : State) : ((recordMatch c len s).lane d).left = (s.lane d).left := by
  have h : (recordMatch c len s).lane d = (setLane c { s.lane c with plen := len, pdst := s.outPos } s).lane d := rfl
  rw [h, setLane_lane]
  split
  · rename_i e; subst e; rfl
  · rfl

/-- Recording a match leaves what ADVANCE can do as it was. -/
theorem recordMatch_canAdvance (c : Fin 32) (len : Nat) (s : State) : CanAdvance (recordMatch c len s) ↔ CanAdvance s := by
  unfold CanAdvance CanRefill
  rw [recordMatch_left]
  exact Iff.rfl

/-! ## Runs of codeword lengths -/

@[simp] theorem setRun_length {α : Type} (v : α) (i n : Nat) (l : List α) : (setRun v i n l).length = l.length := by
  induction n generalizing i l with
  | zero => rfl
  | succ n ih => simp [setRun, ih]

/-- A run writes its value at `n` places from `i` on, where the list has them. -/
theorem setRun_getD {α : Type} (v d : α) (i n k : Nat) (l : List α) :
    (setRun v i n l).getD k d = if i ≤ k ∧ k < i + n ∧ k < l.length then v else l.getD k d := by
  induction n generalizing i l with
  | zero =>
    have h : ¬ (i ≤ k ∧ k < i + 0 ∧ k < l.length) := by omega
    simp only [setRun, if_neg h]
  | succ n ih =>
    simp only [setRun, ih, List.length_set]
    by_cases hk : k < l.length
    · by_cases hi : i = k
      · subst hi
        simp [List.getD, hk]
      · by_cases h1 : i + 1 ≤ k ∧ k < i + 1 + n
        · have h2 : i ≤ k ∧ k < i + (n + 1) := by omega
          simp [h1, h2, hk]
        · have h2 : ¬ (i ≤ k ∧ k < i + (n + 1)) := by omega
          have h1' : ¬ (i + 1 ≤ k ∧ k < i + 1 + n ∧ k < l.length) := by omega
          have h2' : ¬ (i ≤ k ∧ k < i + (n + 1) ∧ k < l.length) := by omega
          rw [if_neg h1', if_neg h2']
          simp [List.getD, hi]
    · simp [hk, List.getD]

/-! ## Codespace -/

/-- The builder's codespace, counted by length, is the spec's sum over the symbols (41_huffman_tables.md R141; 30_encoding.md R85). -/
theorem codespaceUsed_eq_kraftSum {lens : List Nat} {maxLen : Nat} (h : ∀ l ∈ lens, l ≤ maxLen) :
    codespaceUsed lens maxLen = kraftSum lens maxLen := by
  induction lens with
  | nil =>
    simp only [codespaceUsed, kraftSum, List.count_nil, Nat.zero_mul, List.map_nil, List.sum_nil]
    exact List.sum_eq_zero (by simp)
  | cons a lens ih =>
    have ha := h a (by simp)
    have ih := ih fun l hl => h l (by simp [hl])
    have key : codespaceUsed (a :: lens) maxLen = (if a = 0 then 0 else 2 ^ (maxLen - a)) + codespaceUsed lens maxLen := by
      unfold codespaceUsed
      have hs : ∀ (k n : Nat),
          ((List.range' k n).map fun len => (a :: lens).count len * 2 ^ (maxLen - len)).sum =
            (if k ≤ a ∧ a < k + n then 2 ^ (maxLen - a) else 0) +
              ((List.range' k n).map fun len => lens.count len * 2 ^ (maxLen - len)).sum := by
        intro k n
        induction n generalizing k with
        | zero =>
          have : ¬ (k ≤ a ∧ a < k + 0) := by omega
          simp [List.range']
        | succ n ih2 =>
          rw [List.range'_succ, List.map_cons, List.map_cons, List.sum_cons, List.sum_cons, ih2, List.count_cons]
          by_cases hk : a = k
          · subst hk
            have h1 : ¬ (a + 1 ≤ a ∧ a < a + 1 + n) := by omega
            have h2 : a ≤ a ∧ a < a + (n + 1) := by omega
            rw [if_neg h1, if_pos h2]
            simp only [BEq.rfl, if_true, Nat.add_mul]
            omega
          · have h1 : (k + 1 ≤ a ∧ a < k + 1 + n) ↔ (k ≤ a ∧ a < k + (n + 1)) := by omega
            have h2 : (a == k) = false := by simp [hk]
            simp only [h1, h2, Bool.false_eq_true, if_false, Nat.add_zero]
            omega
      rw [hs]
      have h1 : (1 ≤ a ∧ a < 1 + maxLen) ↔ a ≠ 0 := by omega
      simp [h1]
    rw [key, ih]
    simp [kraftSum]

/-! ## Copied bytes -/

/-- Writing an output byte changes no other byte of memory (20_memory.md R65). -/
theorem outWrite_other {p a : Nat} {b : Byte} {s : State} (h : Mem.wf s.mem = true) (ha : a ≠ s.outAddr p) :
    Mem.read (outWrite p b s).mem a = Mem.read s.mem a := by
  rw [outWrite_frame]
  simp [Mem.read_write h, ha]

/-- A copy changes no byte outside its destination range (44_match_copy.md R223). -/
theorem copyBytes_other {dst dist n j a : Nat} {s : State} (h : Mem.wf s.mem = true)
    (ha : ∀ k < n, a ≠ s.outAddr (dst + (j + k))) : Mem.read (copyBytes dst dist n j s).mem a = Mem.read s.mem a := by
  induction n generalizing j s with
  | zero => rfl
  | succ n ih =>
    simp only [copyBytes]
    have e := outRead_frame (dst - dist + j) s
    generalize outRead (dst - dist + j) s = r at e ⊢
    obtain ⟨b, u⟩ := r
    change u = { s with draws := u.draws } at e
    generalize u.draws = d at e
    subst e
    rw [ih]
    · exact outWrite_other (s := { s with draws := d }) h (ha 0 (by omega))
    · exact outWrite_wf _ _ h
    · intro k hk
      have := ha (k + 1) (by omega)
      rw [show dst + (j + 1 + k) = dst + (j + (k + 1)) by omega]
      rw [outWrite_frame]
      exact this

/-- Two output indices below the size of the address space have different addresses (20_memory.md R64, R69). -/
theorem outAddr_inj {s : State} {p q : Nat} (hp : p < 2 ^ s.cfg.addrWidth) (hq : q < 2 ^ s.cfg.addrWidth)
    (h : s.outAddr p = s.outAddr q) : p = q := by
  have h' : p % 2 ^ s.cfg.addrWidth = q % 2 ^ s.cfg.addrWidth := Nat.ModEq.add_left_cancel' s.outBase.toNat h
  rwa [Nat.mod_eq_of_lt hp, Nat.mod_eq_of_lt hq] at h'

/-- The bytes a copy leaves, when none of them races: those at the distance before, repeating (44_match_copy.md R223). -/
theorem copyBytes_data {dst dist n j : Nat} {s : State} (h : Mem.wf s.mem = true) (h1 : 1 ≤ dist) (h2 : dist ≤ dst)
    (hb : dst + j + n ≤ 2 ^ s.cfg.addrWidth) (hr : NoOutputRace s (dst + j + n)) :
    (copyBytes dst dist n j s).draws = s.draws ∧
      ∀ k < n, Mem.read (copyBytes dst dist n j s).mem (s.outAddr (dst + j + k)) =
        Mem.read s.mem (s.outAddr (dst - dist + j + k % dist)) := by
  induction n generalizing j s with
  | zero => exact ⟨rfl, by omega⟩
  | succ n ih =>
    have hread : outRead (dst - dist + j) s = (Mem.read s.mem (s.outAddr (dst - dist + j)), s) := by
      simp [outRead, hr (dst - dist + j) (by omega)]
    generalize hbyte : Mem.read s.mem (s.outAddr (dst - dist + j)) = byte at hread
    have hwrite : outWrite (dst + j) byte s =
        { s with mem := Mem.write (s.outAddr (dst + j)) byte s.mem, trace := .write (dst + j) byte :: s.trace } := by
      rw [outWrite_frame]
      simp [hr (dst + j) (by omega)]
    simp only [copyBytes, hread, hwrite]
    generalize hu : ({ s with
      mem := Mem.write (s.outAddr (dst + j)) byte s.mem, trace := .write (dst + j) byte :: s.trace } : State) = u
    have hmem : u.mem = Mem.write (s.outAddr (dst + j)) byte s.mem := by rw [← hu]
    have haddr : ∀ p, u.outAddr p = s.outAddr p := by intro p; rw [← hu]; rfl
    have hcfg : u.cfg = s.cfg := by rw [← hu]
    have hdraws : u.draws = s.draws := by rw [← hu]
    have hraced : ∀ a, u.raced a = s.raced a := by intro a; rw [← hu]; rfl
    have hwf : Mem.wf u.mem = true := by rw [hmem]; exact Mem.wf_write h
    obtain ⟨hd, ih⟩ := ih hwf (j := j + 1) (by rw [hcfg]; omega)
      (by intro p hp; rw [hraced, haddr]; exact hr p (by omega))
    refine ⟨by rw [hd, hdraws], ?_⟩
    intro k hk
    have hself : Mem.read u.mem (s.outAddr (dst + j)) = byte := by rw [hmem, Mem.read_write h, if_pos rfl]
    cases k with
    | zero =>
      rw [copyBytes_other hwf, Nat.add_zero, hself, Nat.zero_mod, Nat.add_zero, hbyte]
      intro k hk' heq
      rw [haddr] at heq
      have := outAddr_inj (s := s) (by omega) (by omega) heq
      omega
    | succ k =>
      have ih := ih k (by omega)
      simp only [haddr] at ih
      rw [show dst + j + (k + 1) = dst + (j + 1) + k by omega, ih]
      have hlt : k % dist < dist := Nat.mod_lt _ (by omega)
      by_cases hlast : k % dist + 1 = dist
      · have : (k + 1) % dist = 0 := by rw [← Nat.mod_add_mod, hlast, Nat.mod_self]
        rw [this, show dst - dist + (j + 1) + k % dist = dst + j by omega, hself, Nat.add_zero, hbyte]
      · have : (k + 1) % dist = k % dist + 1 := by
          rw [← Nat.mod_add_mod]
          exact Nat.mod_eq_of_lt (by omega)
        rw [this, hmem, Mem.read_write h, if_neg, show dst - dist + (j + 1) + k % dist = dst - dist + j + (k % dist + 1) by omega]
        intro heq
        have := outAddr_inj (s := s) (by omega) (by omega) heq
        omega

/-- The events a copy records are the writes of its destination range, one a byte (20_memory.md R72). -/
theorem copyBytes_trace (dst dist n j : Nat) (s : State) :
    ∃ writes : List Event, (copyBytes dst dist n j s).trace = writes ++ s.trace ∧ writes.length = n ∧
      ∀ e ∈ writes, ∃ k b, j ≤ k ∧ k < j + n ∧ e = .write (dst + k) b := by
  induction n generalizing j s with
  | zero => exact ⟨[], rfl, rfl, by simp⟩
  | succ n ih =>
    obtain ⟨writes, ht, hl, hw⟩ := ih (j + 1) (outWrite (dst + j) (outRead (dst - dist + j) s).1 (outRead (dst - dist + j) s).2)
    refine ⟨writes ++ [.write (dst + j) (outRead (dst - dist + j) s).1], ?_, by simp [hl], ?_⟩
    · simp only [copyBytes]
      rw [ht, outWrite_frame, outRead_frame]
      simp
    · intro e he
      rcases List.mem_append.mp he with he | he
      · obtain ⟨k, b, h1, h2, rfl⟩ := hw e he
        exact ⟨k, b, by omega, by omega, rfl⟩
      · simp only [List.mem_singleton] at he
        exact ⟨j, _, by omega, by omega, he⟩

end Sys2Proof.Machine
end

