-- ==== Sys2Proof/Laws/PerInstr.lean ====
section
/-! SUPPORT. The per-instruction family EncodeFits: an instruction's element word has no bit above its format's width. -/

namespace Sys2Proof.Laws.EncodeFits

/-- The element word of a well-formed instruction fits in the bits of its format (30_encoding.md R89 to R93, 45_host.md R240). -/
def Statement (i : Instr) : Prop := i.wellFormed = true → encode i < 2 ^ Machine.elementBits i.format

/-- A symbol word fits below the symbol's width plus the extra bits' width. -/
theorem symWord_lt {width sym k extra n : Nat} (hs : sym < 2 ^ width) (he : extra < 2 ^ k) (hn : width + k ≤ n) :
    symWord width sym extra < 2 ^ n := by
  have h1 : (extra + 1) * 2 ^ width ≤ 2 ^ k * 2 ^ width := Nat.mul_le_mul_right _ he
  have h2 : 2 ^ k * 2 ^ width = 2 ^ (width + k) := by rw [Nat.mul_comm, Nat.pow_add]
  have h3 : 2 ^ (width + k) ≤ 2 ^ n := Nat.pow_le_pow_right (by decide) hn
  rw [Nat.add_mul] at h1
  unfold symWord
  omega

/-- A CTRL value fits in 32 bits. -/
theorem ctrlWord_lt (start ack irqEn : Bool) (rsv : BitVec 29) : ctrlWord start ack irqEn rsv < 2 ^ 32 := by
  have h := rsv.isLt
  unfold ctrlWord
  cases start <;> cases ack <;> cases irqEn <;> simp <;> omega

theorem ctrlStart (ack irqEn : Bool) (rsv : BitVec 29) : Statement (.ctrlStart ack irqEn rsv) := fun _ => ctrlWord_lt _ _ _ _
theorem ctrlAck (irqEn : Bool) (rsv : BitVec 29) : Statement (.ctrlAck irqEn rsv) := fun _ => ctrlWord_lt _ _ _ _
theorem ctrlIrqEn (irqEn : Bool) (rsv : BitVec 29) : Statement (.ctrlIrqEn irqEn rsv) := fun _ => ctrlWord_lt _ _ _ _
theorem bhdrStored (final : Bool) : Statement (.bhdrStored final) := fun _ => by cases final <;> decide
theorem bhdrStatic (final : Bool) : Statement (.bhdrStatic final) := fun _ => by cases final <;> decide
theorem bhdrDynamic (final : Bool) : Statement (.bhdrDynamic final) := fun _ => by cases final <;> decide
theorem bhdrReserved (final : Bool) : Statement (.bhdrReserved final) := fun _ => by cases final <;> decide
theorem dcounts (hlit hdist hclen : Nat) : Statement (.dcounts hlit hdist hclen) := by
  intro h
  simp only [Instr.wellFormed, Bool.and_eq_true, decide_eq_true_eq] at h
  simp only [encode, Instr.format, Machine.elementBits]
  omega
theorem prelen (len : BitVec 3) : Statement (.prelen len) := fun _ => len.isLt
theorem presymLen0 : Statement (.presymLen0) := fun _ => by decide
theorem presymLen1 : Statement (.presymLen1) := fun _ => by decide
theorem presymLen2 : Statement (.presymLen2) := fun _ => by decide
theorem presymLen3 : Statement (.presymLen3) := fun _ => by decide
theorem presymLen4 : Statement (.presymLen4) := fun _ => by decide
theorem presymLen5 : Statement (.presymLen5) := fun _ => by decide
theorem presymLen6 : Statement (.presymLen6) := fun _ => by decide
theorem presymLen7 : Statement (.presymLen7) := fun _ => by decide
theorem presymLen8 : Statement (.presymLen8) := fun _ => by decide
theorem presymLen9 : Statement (.presymLen9) := fun _ => by decide
theorem presymLen10 : Statement (.presymLen10) := fun _ => by decide
theorem presymLen11 : Statement (.presymLen11) := fun _ => by decide
theorem presymLen12 : Statement (.presymLen12) := fun _ => by decide
theorem presymLen13 : Statement (.presymLen13) := fun _ => by decide
theorem presymLen14 : Statement (.presymLen14) := fun _ => by decide
theorem presymLen15 : Statement (.presymLen15) := fun _ => by decide
theorem presymRep16 (extra : BitVec 2) : Statement (.presymRep16 extra) := fun _ => symWord_lt (by decide) extra.isLt (Nat.le_of_ble_eq_true rfl)
theorem presymZero17 (extra : BitVec 3) : Statement (.presymZero17 extra) := fun _ => symWord_lt (by decide) extra.isLt (Nat.le_of_ble_eq_true rfl)
theorem presymZero18 (extra : BitVec 7) : Statement (.presymZero18 extra) := fun _ => symWord_lt (by decide) extra.isLt (Nat.le_of_ble_eq_true rfl)
theorem llLiteral (byte : Byte) : Statement (.llLiteral byte) := fun _ => symWord_lt (k := 0) (by have := byte.isLt; omega) (by decide) (Nat.le_of_ble_eq_true rfl)
theorem llEob : Statement (.llEob) := fun _ => by decide
theorem llLen257 : Statement (.llLen257) := fun _ => by decide
theorem llLen258 : Statement (.llLen258) := fun _ => by decide
theorem llLen259 : Statement (.llLen259) := fun _ => by decide
theorem llLen260 : Statement (.llLen260) := fun _ => by decide
theorem llLen261 : Statement (.llLen261) := fun _ => by decide
theorem llLen262 : Statement (.llLen262) := fun _ => by decide
theorem llLen263 : Statement (.llLen263) := fun _ => by decide
theorem llLen264 : Statement (.llLen264) := fun _ => by decide
theorem llLen265 (extra : BitVec 1) : Statement (.llLen265 extra) := fun _ => symWord_lt (by decide) extra.isLt (Nat.le_of_ble_eq_true rfl)
theorem llLen266 (extra : BitVec 1) : Statement (.llLen266 extra) := fun _ => symWord_lt (by decide) extra.isLt (Nat.le_of_ble_eq_true rfl)
theorem llLen267 (extra : BitVec 1) : Statement (.llLen267 extra) := fun _ => symWord_lt (by decide) extra.isLt (Nat.le_of_ble_eq_true rfl)
theorem llLen268 (extra : BitVec 1) : Statement (.llLen268 extra) := fun _ => symWord_lt (by decide) extra.isLt (Nat.le_of_ble_eq_true rfl)
theorem llLen269 (extra : BitVec 2) : Statement (.llLen269 extra) := fun _ => symWord_lt (by decide) extra.isLt (Nat.le_of_ble_eq_true rfl)
theorem llLen270 (extra : BitVec 2) : Statement (.llLen270 extra) := fun _ => symWord_lt (by decide) extra.isLt (Nat.le_of_ble_eq_true rfl)
theorem llLen271 (extra : BitVec 2) : Statement (.llLen271 extra) := fun _ => symWord_lt (by decide) extra.isLt (Nat.le_of_ble_eq_true rfl)
theorem llLen272 (extra : BitVec 2) : Statement (.llLen272 extra) := fun _ => symWord_lt (by decide) extra.isLt (Nat.le_of_ble_eq_true rfl)
theorem llLen273 (extra : BitVec 3) : Statement (.llLen273 extra) := fun _ => symWord_lt (by decide) extra.isLt (Nat.le_of_ble_eq_true rfl)
theorem llLen274 (extra : BitVec 3) : Statement (.llLen274 extra) := fun _ => symWord_lt (by decide) extra.isLt (Nat.le_of_ble_eq_true rfl)
theorem llLen275 (extra : BitVec 3) : Statement (.llLen275 extra) := fun _ => symWord_lt (by decide) extra.isLt (Nat.le_of_ble_eq_true rfl)
theorem llLen276 (extra : BitVec 3) : Statement (.llLen276 extra) := fun _ => symWord_lt (by decide) extra.isLt (Nat.le_of_ble_eq_true rfl)
theorem llLen277 (extra : BitVec 4) : Statement (.llLen277 extra) := fun _ => symWord_lt (by decide) extra.isLt (Nat.le_of_ble_eq_true rfl)
theorem llLen278 (extra : BitVec 4) : Statement (.llLen278 extra) := fun _ => symWord_lt (by decide) extra.isLt (Nat.le_of_ble_eq_true rfl)
theorem llLen279 (extra : BitVec 4) : Statement (.llLen279 extra) := fun _ => symWord_lt (by decide) extra.isLt (Nat.le_of_ble_eq_true rfl)
theorem llLen280 (extra : BitVec 4) : Statement (.llLen280 extra) := fun _ => symWord_lt (by decide) extra.isLt (Nat.le_of_ble_eq_true rfl)
theorem llLen281 (extra : BitVec 5) : Statement (.llLen281 extra) := fun _ => symWord_lt (by decide) extra.isLt (Nat.le_of_ble_eq_true rfl)
theorem llLen282 (extra : BitVec 5) : Statement (.llLen282 extra) := fun _ => symWord_lt (by decide) extra.isLt (Nat.le_of_ble_eq_true rfl)
theorem llLen283 (extra : BitVec 5) : Statement (.llLen283 extra) := fun _ => symWord_lt (by decide) extra.isLt (Nat.le_of_ble_eq_true rfl)
theorem llLen284 (extra : BitVec 5) : Statement (.llLen284 extra) := fun _ => symWord_lt (by decide) extra.isLt (Nat.le_of_ble_eq_true rfl)
theorem llLen285 : Statement (.llLen285) := fun _ => by decide
theorem llLen286 : Statement (.llLen286) := fun _ => by decide
theorem llLen287 : Statement (.llLen287) := fun _ => by decide
theorem offDist0 : Statement (.offDist0) := fun _ => by decide
theorem offDist1 : Statement (.offDist1) := fun _ => by decide
theorem offDist2 : Statement (.offDist2) := fun _ => by decide
theorem offDist3 : Statement (.offDist3) := fun _ => by decide
theorem offDist4 (extra : BitVec 1) : Statement (.offDist4 extra) := fun _ => symWord_lt (by decide) extra.isLt (Nat.le_of_ble_eq_true rfl)
theorem offDist5 (extra : BitVec 1) : Statement (.offDist5 extra) := fun _ => symWord_lt (by decide) extra.isLt (Nat.le_of_ble_eq_true rfl)
theorem offDist6 (extra : BitVec 2) : Statement (.offDist6 extra) := fun _ => symWord_lt (by decide) extra.isLt (Nat.le_of_ble_eq_true rfl)
theorem offDist7 (extra : BitVec 2) : Statement (.offDist7 extra) := fun _ => symWord_lt (by decide) extra.isLt (Nat.le_of_ble_eq_true rfl)
theorem offDist8 (extra : BitVec 3) : Statement (.offDist8 extra) := fun _ => symWord_lt (by decide) extra.isLt (Nat.le_of_ble_eq_true rfl)
theorem offDist9 (extra : BitVec 3) : Statement (.offDist9 extra) := fun _ => symWord_lt (by decide) extra.isLt (Nat.le_of_ble_eq_true rfl)
theorem offDist10 (extra : BitVec 4) : Statement (.offDist10 extra) := fun _ => symWord_lt (by decide) extra.isLt (Nat.le_of_ble_eq_true rfl)
theorem offDist11 (extra : BitVec 4) : Statement (.offDist11 extra) := fun _ => symWord_lt (by decide) extra.isLt (Nat.le_of_ble_eq_true rfl)
theorem offDist12 (extra : BitVec 5) : Statement (.offDist12 extra) := fun _ => symWord_lt (by decide) extra.isLt (Nat.le_of_ble_eq_true rfl)
theorem offDist13 (extra : BitVec 5) : Statement (.offDist13 extra) := fun _ => symWord_lt (by decide) extra.isLt (Nat.le_of_ble_eq_true rfl)
theorem offDist14 (extra : BitVec 6) : Statement (.offDist14 extra) := fun _ => symWord_lt (by decide) extra.isLt (Nat.le_of_ble_eq_true rfl)
theorem offDist15 (extra : BitVec 6) : Statement (.offDist15 extra) := fun _ => symWord_lt (by decide) extra.isLt (Nat.le_of_ble_eq_true rfl)
theorem offDist16 (extra : BitVec 7) : Statement (.offDist16 extra) := fun _ => symWord_lt (by decide) extra.isLt (Nat.le_of_ble_eq_true rfl)
theorem offDist17 (extra : BitVec 7) : Statement (.offDist17 extra) := fun _ => symWord_lt (by decide) extra.isLt (Nat.le_of_ble_eq_true rfl)
theorem offDist18 (extra : BitVec 8) : Statement (.offDist18 extra) := fun _ => symWord_lt (by decide) extra.isLt (Nat.le_of_ble_eq_true rfl)
theorem offDist19 (extra : BitVec 8) : Statement (.offDist19 extra) := fun _ => symWord_lt (by decide) extra.isLt (Nat.le_of_ble_eq_true rfl)
theorem offDist20 (extra : BitVec 9) : Statement (.offDist20 extra) := fun _ => symWord_lt (by decide) extra.isLt (Nat.le_of_ble_eq_true rfl)
theorem offDist21 (extra : BitVec 9) : Statement (.offDist21 extra) := fun _ => symWord_lt (by decide) extra.isLt (Nat.le_of_ble_eq_true rfl)
theorem offDist22 (extra : BitVec 10) : Statement (.offDist22 extra) := fun _ => symWord_lt (by decide) extra.isLt (Nat.le_of_ble_eq_true rfl)
theorem offDist23 (extra : BitVec 10) : Statement (.offDist23 extra) := fun _ => symWord_lt (by decide) extra.isLt (Nat.le_of_ble_eq_true rfl)
theorem offDist24 (extra : BitVec 11) : Statement (.offDist24 extra) := fun _ => symWord_lt (by decide) extra.isLt (Nat.le_of_ble_eq_true rfl)
theorem offDist25 (extra : BitVec 11) : Statement (.offDist25 extra) := fun _ => symWord_lt (by decide) extra.isLt (Nat.le_of_ble_eq_true rfl)
theorem offDist26 (extra : BitVec 12) : Statement (.offDist26 extra) := fun _ => symWord_lt (by decide) extra.isLt (Nat.le_of_ble_eq_true rfl)
theorem offDist27 (extra : BitVec 12) : Statement (.offDist27 extra) := fun _ => symWord_lt (by decide) extra.isLt (Nat.le_of_ble_eq_true rfl)
theorem offDist28 (extra : BitVec 13) : Statement (.offDist28 extra) := fun _ => symWord_lt (by decide) extra.isLt (Nat.le_of_ble_eq_true rfl)
theorem offDist29 (extra : BitVec 13) : Statement (.offDist29 extra) := fun _ => symWord_lt (by decide) extra.isLt (Nat.le_of_ble_eq_true rfl)
theorem offDist30 (extra : BitVec 14) : Statement (.offDist30 extra) := fun _ => symWord_lt (by decide) extra.isLt (Nat.le_of_ble_eq_true rfl)
theorem offDist31 (extra : BitVec 14) : Statement (.offDist31 extra) := fun _ => symWord_lt (by decide) extra.isLt (Nat.le_of_ble_eq_true rfl)

end Sys2Proof.Laws.EncodeFits
end

