-- ==== Sys2Proof/Tests/Slice0.lean ====
section
/-! SUPPORT. The model's own tests: ill-formed terms, words written out from the encodings, the spec's vectors (spec/95_test_vectors.md,
named V-… and P…), and for every statement with hypotheses a state and operands that meet them. Expected values are the spec's. -/

namespace Sys2Proof.Tests

set_option Elab.async false

open Sys2Proof Sys2Proof.Machine

/-! ## Helpers -/

/-- The outcome is a next state with a property. -/
def nextIs (o : Host.Outcome State Fault Refusal) (p : State → Bool) : Bool :=
  match o with
  | .next t => p t
  | .fault _ => false
  | .refused _ => false

/-- A part of an operation gives a value and a state with a property. -/
def okIs {α : Type} (r : Res α) (p : α → State → Bool) : Bool :=
  match r with
  | .ok a t => p a t
  | .raised _ => false
  | .fault _ => false
  | .refused _ => false

theorem next_of {o : Host.Outcome State Fault Refusal} {p : State → Bool} (h : nextIs o p = true) :
    ∃ t, o = .next t ∧ p t = true := by
  cases o with
  | next t => exact ⟨t, rfl, h⟩
  | fault f => cases h
  | refused r => cases h

/-- An engine at work with the buffers spec/95 uses: input at 0x1000, output at 0x8000, a bound of one tile. -/
def running : State :=
  { State.reset with
    state := .decode, inBase := 0x1000#32, inLen := 256#32, outBase := 0x8000#32, outBound := 65536#17 }

/-- A lane's bits. -/
def withLane (c : Fin 32) (buf : BitVec 64) (left : Nat) (s : State) : State :=
  setLane c { s.lane c with buf := buf, left := left } s

/-- A lane's deferred copy. -/
def withSlot (c : Fin 32) (pdst plen : Nat) (s : State) : State :=
  setPending c (setLane c { s.lane c with pdst := pdst, plen := plen } s)

/-- Bytes in memory from an address on. -/
def withBytes (a : Nat) (bytes : List Byte) (s : State) : State :=
  { s with mem := (bytes.zipIdx.foldl (fun m p => Mem.write (a + p.2) p.1 m) s.mem) }

/-- The bytes of memory from an address on. -/
def bytesAt (a n : Nat) (s : State) : List Byte := (List.range n).map fun k => Mem.read s.mem (a + k)

/-- An engine with the FAULT policy. -/
def faulting : State := { running with cfg := { overreadPolicy := .fault } }

/-- A dynamic header at a phase. -/
def dynamic (phase : Phase) : State := { running with state := .dynTables, phase := phase, hlit := 258, hdist := 2, hclen := 18 }

/-- The address of a register. -/
def reg (off : Nat) : Word := 0xFFFFFF00#32 + BitVec.ofNat 32 off

/-- A static-table engine about to take lane 0's turn, with the bits given. -/
def staticTurn (buf : BitVec 64) : State :=
  withLane 0 buf 61
    { running with
      lt := buildTable llRes 10 15 staticLitlenLens (List.replicate 1334 none)
      ot := buildTable offRes 8 15 staticOffsetLens (List.replicate 402 none) }

/-! ## Well-formedness and decoding -/

/-- Each check of WellFormed refuses a term (30_encoding.md R90: 257..288, 1..32, 4..19). -/
theorem test_wellFormed_refuses :
    (Instr.dcounts 256 1 4).wellFormed = false ∧ (Instr.dcounts 289 1 4).wellFormed = false ∧
    (Instr.dcounts 257 0 4).wellFormed = false ∧ (Instr.dcounts 257 33 4).wellFormed = false ∧
    (Instr.dcounts 257 1 3).wellFormed = false ∧ (Instr.dcounts 257 1 20).wellFormed = false ∧
    (Instr.dcounts 257 1 4).wellFormed = true ∧ (Instr.dcounts 288 32 19).wellFormed = true := by decide

/-- CTRL values (45_host.md R240): START bit 0, ACK bit 1, IRQ_EN bit 2; START wins (V-H3). -/
theorem test_decode_ctrl :
    ∀ p ∈ ([(0b101, .ctrlStart false true 0#29), (0b011, .ctrlStart true false 0#29), (0b1010, .ctrlAck false 1#29),
      (0b100, .ctrlIrqEn true 0#29), (0b000, .ctrlIrqEn false 0#29)] : List (Nat × Instr)), decode .ctrl p.1 = .ok p.2 := by
  decide +kernel

/-- Block headers (30_encoding.md R89): the final bit is bit 0, the type bits 2:1. -/
theorem test_decode_bhdr :
    ∀ p ∈ ([(0b000, .bhdrStored false), (0b001, .bhdrStored true), (0b010, .bhdrStatic false), (0b011, .bhdrStatic true),
      (0b100, .bhdrDynamic false), (0b101, .bhdrDynamic true), (0b110, .bhdrReserved false),
      (0b111, .bhdrReserved true)] : List (Nat × Instr)), decode .bhdr p.1 = .ok p.2 := by
  decide +kernel

/-- Counts and precode lengths (30_encoding.md R90, R91; V-B5, V-B6; fields 1, 1, 14 give 258, 2, 18). -/
theorem test_decode_header :
    decode .dcounts 0b11100000100001 = .ok (.dcounts 258 2 18) ∧ decode .dcounts 0 = .ok (.dcounts 257 1 4) ∧
    decode .dcounts 0b11111111111111 = .ok (.dcounts 288 32 19) ∧ decode .prelen 0b110 = .ok (.prelen 6#3) := by
  decide +kernel

/-- Literals and end of block (30_encoding.md R98). -/
theorem test_decode_literals :
    decode .llsym 0b000000000 = .ok (.llLiteral 0#8) ∧ decode .llsym 0b011111111 = .ok (.llLiteral 255#8) ∧
    decode .llsym 0b001001000 = .ok (.llLiteral 72#8) ∧ decode .llsym 0b100000000 = .ok .llEob := by
  decide +kernel

/-- Precode symbols in bits 4:0 with their extra bits above (30_encoding.md R92; opcode table). -/
theorem test_decode_presym :
    ∀ p ∈ ([(0b00000, .presymLen0), (0b00001, .presymLen1), (0b00010, .presymLen2), (0b00011, .presymLen3), (0b00100, .presymLen4),
    (0b00101, .presymLen5), (0b00110, .presymLen6), (0b00111, .presymLen7), (0b01000, .presymLen8), (0b01001, .presymLen9),
    (0b01010, .presymLen10), (0b01011, .presymLen11), (0b01100, .presymLen12), (0b01101, .presymLen13),
    (0b01110, .presymLen14), (0b01111, .presymLen15), (0b1010000, .presymRep16 2#2), (0b11010001, .presymZero17 6#3),
    (0b111111010010, .presymZero18 126#7)] : List (Nat × Instr)), decode .presym p.1 = .ok p.2 := by
  decide +kernel

/-- Litlen symbols 257 to 272 in bits 8:0 with their extra bits above (30_encoding.md R96; opcode table). -/
theorem test_decode_llsym_low :
    ∀ p ∈ ([(0b100000001, .llLen257), (0b100000010, .llLen258), (0b100000011, .llLen259), (0b100000100, .llLen260),
    (0b100000101, .llLen261), (0b100000110, .llLen262), (0b100000111, .llLen263), (0b100001000, .llLen264),
    (0b1100001001, .llLen265 1#1), (0b1100001010, .llLen266 1#1), (0b1100001011, .llLen267 1#1), (0b1100001100, .llLen268 1#1),
    (0b10100001101, .llLen269 2#2), (0b10100001110, .llLen270 2#2), (0b10100001111, .llLen271 2#2),
    (0b10100010000, .llLen272 2#2)] : List (Nat × Instr)), decode .llsym p.1 = .ok p.2 := by
  decide +kernel

/-- Litlen symbols 273 to 287 (30_encoding.md R96; opcode table). -/
theorem test_decode_llsym_high :
    ∀ p ∈ ([(0b110100010001, .llLen273 6#3), (0b110100010010, .llLen274 6#3), (0b110100010011, .llLen275 6#3),
    (0b110100010100, .llLen276 6#3), (0b1110100010101, .llLen277 14#4), (0b1110100010110, .llLen278 14#4),
    (0b1110100010111, .llLen279 14#4), (0b1110100011000, .llLen280 14#4), (0b11110100011001, .llLen281 30#5),
    (0b11110100011010, .llLen282 30#5), (0b11110100011011, .llLen283 30#5), (0b11110100011100, .llLen284 30#5),
    (0b100011101, .llLen285), (0b100011110, .llLen286), (0b100011111, .llLen287)] : List (Nat × Instr)), decode .llsym p.1 = .ok p.2 := by
  decide +kernel

/-- Offset symbols 0 to 15 in bits 4:0 with their extra bits above (30_encoding.md R97; opcode table). -/
theorem test_decode_offsym_low :
    ∀ p ∈ ([(0b00000, .offDist0), (0b00001, .offDist1), (0b00010, .offDist2), (0b00011, .offDist3), (0b100100, .offDist4 1#1),
    (0b100101, .offDist5 1#1), (0b1000110, .offDist6 2#2), (0b1000111, .offDist7 2#2), (0b11001000, .offDist8 6#3),
    (0b11001001, .offDist9 6#3), (0b111001010, .offDist10 14#4), (0b111001011, .offDist11 14#4),
    (0b1111001100, .offDist12 30#5), (0b1111001101, .offDist13 30#5), (0b11111001110, .offDist14 62#6),
    (0b11111001111, .offDist15 62#6)] : List (Nat × Instr)), decode .offsym p.1 = .ok p.2 := by
  decide +kernel

/-- Offset symbols 16 to 31 (30_encoding.md R97; opcode table). -/
theorem test_decode_offsym_high :
    ∀ p ∈ ([(0b111111010000, .offDist16 126#7), (0b111111010001, .offDist17 126#7), (0b1111111010010, .offDist18 254#8),
    (0b1111111010011, .offDist19 254#8), (0b11111111010100, .offDist20 510#9), (0b11111111010101, .offDist21 510#9),
    (0b111111111010110, .offDist22 1022#10), (0b111111111010111, .offDist23 1022#10), (0b1111111111011000, .offDist24 2046#11),
    (0b1111111111011001, .offDist25 2046#11), (0b11111111111011010, .offDist26 4094#12),
    (0b11111111111011011, .offDist27 4094#12), (0b111111111111011100, .offDist28 8190#13),
    (0b111111111111011101, .offDist29 8190#13), (0b1111111111111011110, .offDist30 16382#14),
    (0b1111111111111011111, .offDist31 16382#14)] : List (Nat × Instr)), decode .offsym p.1 = .ok p.2 := by
  decide +kernel

/-- Witness for DecodeEncodeRoundTrip and DecodeSound, at the counts' limits. -/
theorem witness_round_trip :
    (Instr.dcounts 288 32 19).wellFormed = true ∧ decode .dcounts (encode (.dcounts 288 32 19)) = .ok (.dcounts 288 32 19) := by
  decide +kernel

/-- Witness for DecodeRejects: the first symbol past each alphabet, and the first word past each width. -/
theorem witness_rejects :
    decode .presym 19 = .error .presymAbove18 ∧ decode .llsym 288 = .error .llsymAbove287 ∧
    decode .bhdr 8 = .error .tooWide ∧ decode .ctrl (2 ^ 32) = .error .tooWide ∧ decode .offsym (2 ^ 19 + 31) = .error .tooWide := by
  decide +kernel

/-- The word the host's probe of the table gives runs as the first step (log 19): OFFSYM.DIST_31 with an empty slot and a distance before
the tile's start is CORRUPT_STREAM 7 (44_match_copy.md R223), a literal at the bound OUTPUT_OVERRUN 8 (43_symbol_decode.md R202). -/
theorem test_withFetchWord :
    decodeTableWord 32 31 = some (.offDist31 0#14) ∧ decodeTableWord 16 65 = some (.llLiteral 65#8) ∧
    decodeTableWord 8 1 = some (.ctrlStart false false 0#29) ∧ decodeTableWord 8 4 = some (.bhdrDynamic false) ∧
    nextIs (step (State.reset.withFetchWord 8 1)) (fun t => t.state == .prime) = true ∧
    nextIs (step (State.reset.withFetchWord 8 4)) (fun t => t.state == .dynTables && t.phase == .counts) = true ∧
    nextIs (step (State.reset.withFetchWord 32 31)) (fun t => t.errCode == .corruptStream && t.errDetail == 7#4) = true ∧
    nextIs (step (State.reset.withFetchWord 16 65)) (fun t => t.errCode == .outputOverrun && t.errDetail == 8#4) = true ∧
    nextIs (step (State.reset.withFetchWord 32 4)) (fun t => t.irqEn && t.state == .idle) = true := by
  decide +kernel

/-! ## Lanes (spec/95 §2.1) -/

/-- V-L1, V-L2: PEEK and CONSUME of three bits; V-L8: an underflow. -/
theorem test_pop :
    okIs (pop 3 3 (withLane 3 0xF3#64 32 running)) (fun v t => v == 3 && t.lane 3 == ⟨0x1E#64, 29, 0, 0⟩) = true ∧
    nextIs (consume 3 6 (withLane 3 0x1F#64 5 running)).outcome (fun t => t.errCode == .laneUnderflow && t.isError) = true := by
  decide +kernel

/-- V-L4: a refill above 17 bits. -/
theorem test_refill :
    okIs (refill 3 (withBytes 0x1000 [0x99#8] (withLane 3 0x1ABCD#64 17 running)))
      (fun _ t => t.lane 3 == ⟨0x133ABCD#64, 49, 0, 0⟩ && t.inPos == 1 && t.trace == [.fetch 0 3]) = true := by
  decide +kernel

/-- Witness for RefillFetches, its three clauses at 32, 31 and 31 bits (V-L6, V-L7). -/
theorem witness_refill :
    32 ≤ ((withLane 3 0#64 32 running).lane 3).left ∧
    (((withLane 3 0#64 31 faulting).lane 3).left < 32 ∧ faulting.cfg.overreadPolicy = .fault ∧
      { faulting with inLen := 3#32 }.inLen.toNat < 4 * faulting.inPos + 4) ∧
    (((withLane 3 0#64 31 faulting).lane 3).left < 32 ∧ Refillable (withLane 3 0#64 31 faulting)) := by
  unfold Refillable; decide +kernel

/-- Witness for InputWordBytes: a defined word, little-endian (20_memory.md R62), and a byte inside a word that ends past the tile. -/
theorem witness_inputWord :
    WordDefined (withBytes 0x1000 [0x78#8, 0x56#8, 0x34#8, 0x12#8] running) 0 ∧
    (withBytes 0x1000 [0x78#8, 0x56#8, 0x34#8, 0x12#8] running).wordAt 0 = 0x12345678#32 ∧
    (4 * running.inPos + 1 < { running with inLen := 2#32 }.inLen.toNat ∧ running.raced (running.inAddr 1) = false) := by
  unfold WordDefined; decide +kernel

/-- A primed tile in either order, or a short input under FAULT: witness for PrimeDealsWords. -/
theorem witness_prime :
    let s := { running with state := .prime }
    (s.inputs = [] ∧ s.state = .prime ∧ s.lanes = Vector.replicate 32 {} ∧ s.cur = 0 ∧ s.inPos = 0) ∧
    (s.cfg.overreadPolicy = .draw ∨ 128 ≤ s.inLen.toNat) ∧ WordDefined s 31 ∧
    (faulting.cfg.overreadPolicy = .fault ∧ { faulting with inLen := 127#32 }.inLen.toNat < 128) := by
  unfold WordDefined; decide +kernel

/-- V-L10: under the other order word 0 goes to lane 1 and word 31 to lane 0. -/
theorem test_prime_other_order :
    nextIs (step (withBytes 0x1000 [7#8]
      { running with state := .prime, cfg := { advanceOrder := .moveThenRefill } }))
      (fun t => t.lane 1 == ⟨7#64, 32, 0, 0⟩ && t.cur == 0 && t.inPos == 32 && t.trace.head? == some (.fetch 31 0)) = true := by
  decide +kernel

/-! ## Tables (spec/95 §2.2, §2.3) -/

/-- V-T1, V-T4: direct entries and their fan-out. -/
theorem test_build_direct :
    buildTable (BitVec.ofNat 24) 3 3 [2, 1, 3, 3] (List.replicate 8 none) =
      [some 0x101#32, some 0x2#32, some 0x101#32, some 0x203#32, some 0x101#32, some 0x2#32, some 0x101#32, some 0x303#32] ∧
    buildTable (BitVec.ofNat 24) 3 7 [1, 1] (List.replicate 8 none) =
      [some 0x1#32, some 0x101#32, some 0x1#32, some 0x101#32, some 0x1#32, some 0x101#32, some 0x1#32, some 0x101#32] := by
  decide +kernel

/-- V-T2: one subtable. -/
theorem test_build_subtable :
    buildTable (BitVec.ofNat 24) 2 4 [1, 2, 3, 4, 4] (List.replicate 8 none) =
      [some 0x1#32, some 0x102#32, some 0x1#32, some 0x80000402#32, some 0x201#32, some 0x302#32, some 0x201#32,
        some 0x402#32] := by
  decide +kernel

/-- V-T3: four subtables. -/
theorem test_build_subtables :
    buildTable (BitVec.ofNat 24) 2 3 [3, 3, 3, 3, 3, 3, 3, 3] (List.replicate 12 none) =
      [some 0x80000401#32, some 0x80000801#32, some 0x80000601#32, some 0x80000A01#32, some 0x1#32, some 0x101#32,
        some 0x201#32, some 0x301#32, some 0x401#32, some 0x501#32, some 0x601#32, some 0x701#32] := by
  decide +kernel

/-- V-T13, V-T15: lookups through V-T2's subtable. -/
theorem test_lookup_subtable :
    let s := { running with
      cfg := { precodeTableBits := 2 }
      pt := buildTable (BitVec.ofNat 24) 2 4 [1, 2, 3, 4, 4] (List.replicate 8 none) }
    okIs (lookup .precode 0 (withLane 0 0b0111#64 32 s)) (fun e t => e == 0x302#32 && (t.lane 0).left == 28) = true ∧
    okIs (lookup .precode 0 (withLane 0 0b1011#64 32 s)) (fun e t => e == 0x201#32 && (t.lane 0).left == 29) = true := by
  decide +kernel

/-- An entry no build has written is a model fault (10_state.md R36). -/
theorem test_lookup_unwritten : (lookup .litlen 0 (withLane 0 0#64 32 running)).outcome = .fault .tableSlotUnwritten := by
  rfl

/-- Static litlen entries (spec/95 §2.3): 'H', symbol 144, 255, end of block, 280, 285. -/
theorem test_static_litlen :
    let t := buildTable llRes 10 15 staticLitlenLens (List.replicate 1334 none)
    t.getD 30 none = some 0x40004808#32 ∧ t.getD 19 none = some 0x40009009#32 ∧ t.getD 511 none = some 0x4000FF09#32 ∧
    t.getD 0 none = some 0x00000007#32 ∧ t.getD 3 none = some 0x00730408#32 ∧ t.getD 163 none = some 0x01020008#32 ∧
    t.getD 1024 none = none := by
  decide +kernel

/-- Static offset entries (spec/95 §2.3). -/
theorem test_static_offset :
    let t := buildTable offRes 8 15 staticOffsetLens (List.replicate 402 none)
    t.getD 0 none = some 0x00000105#32 ∧ t.getD 16 none = some 0x00000205#32 ∧ t.getD 23 none = some 0x0D600105#32 ∧
    t.getD 31 none = some 0x0EC00105#32 ∧ t.getD 256 none = none := by
  decide +kernel

/-- Witness for StaticLitlenFetch: 'H' (V-S1), 284 with extra 31 (V-S7), the code 11000100 and five ones, and 286's code 11000110. -/
theorem witness_static_litlen :
    let s := staticTurn 0b1111100100011#64
    Instr.format (.llLen284 31#5) = .llsym ∧ s.cfg.litlenTableBits = 10 ∧
    s.lt = buildTable llRes 10 15 staticLitlenLens (List.replicate 1334 none) ∧
    (s.lane 0).left = 61 ∧ (s.lane 0).buf.toNat % 2 ^ 13 = revBits 8 (staticLitlenCode 284) + 31 * 2 ^ 8 ∧
    okIs (fetchLitlen 0 s) (fun i t => i == .llLen284 31#5 && (t.lane 0).left == 48) = true ∧
    okIs (fetchLitlen 0 (staticTurn 0x1E#64)) (fun i t => i == .llLiteral 0x48#8 && (t.lane 0).left == 53) = true ∧
    okIs (fetchLitlen 0 (staticTurn 0b01100011#64)) (fun i t => i == .llLen285 && (t.lane 0).left == 53) = true := by
  decide +kernel

/-- Witness for StaticOffsetFetch: symbol 29 with extra 8191 (V-M5). -/
theorem witness_static_offset :
    let s := staticTurn 0b111111111111110111#64
    Instr.format (.offDist29 8191#13) = .offsym ∧ s.cfg.offsetTableBits = 8 ∧
    s.ot = buildTable offRes 8 15 staticOffsetLens (List.replicate 402 none) ∧
    (s.lane 0).buf.toNat % 2 ^ 18 = revBits 5 29 + 8191 * 2 ^ 5 ∧
    okIs (fetchOffset 0 s) (fun i t => i == .offDist29 8191#13 && (t.lane 0).left == 43) = true := by
  decide +kernel

/-- Witness for StaticLitlenFetch's and StaticOffsetFetch's first clauses, under tables whose entries have one-bit codewords: a length with
five extra bits, an offset with one, and the same with the extra bits missing. -/
theorem witness_symbol_fetches :
    let l := placeTable .litlen 284 (withLane 3 0b111110#64 40 running)
    let o := placeTable .offset 4 (withLane 3 0b10#64 40 running)
    okIs (lookup .litlen 3 l) (fun e v => e == directEntry (llRes 284) 1 && (v.lane 3).left == 39 && (v.lane 3).buf == 31#64) = true ∧
    okIs (fetchLitlen 3 l) (fun i v => i == .llLen284 31#5 && (v.lane 3).left == 34) = true ∧
    okIs (lookup .offset 3 o) (fun e v => e == directEntry (offRes 4) 1 && (v.lane 3).left == 39) = true ∧
    okIs (fetchOffset 3 o) (fun i v => i == .offDist4 1#1 && (v.lane 3).left == 38) = true ∧
    nextIs (fetchLitlen 3 (withLane 3 0b10#64 5 l)).outcome (fun t => t.errCode == .laneUnderflow && (t.lane 3).left == 4) = true ∧
    nextIs (fetchOffset 3 (withLane 3 0#64 1 o)).outcome (fun t => t.errCode == .laneUnderflow && (t.lane 3).left == 0) = true := by
  decide +kernel

/-- Witness for DirectLookupLaw: the code of V-T1 as a precode, symbol 2 with codeword 110 (V-T11). -/
theorem witness_direct_lookup :
    let s := withLane 0 0b011#64 3 running
    tableBits s.cfg .precode ≤ Code.maxLen .precode ∧ 2 ^ tableBits s.cfg .precode ≤ (s.table .precode).length ∧
    [2, 1, 3, 3].length ≤ Code.maxSyms .precode ∧ (∀ l ∈ [2, 1, 3, 3], l ≤ tableBits s.cfg .precode) ∧
    kraftSum [2, 1, 3, 3] 7 = 2 ^ 7 ∧ revBits 3 (canonicalCode [2, 1, 3, 3] 2) = 0b011 ∧
    okIs (build .precode [2, 1, 3, 3] s)
      (fun _ t => okIs (lookup .precode 0 t) (fun e u => e == 0x203#32 && (u.lane 0).left == 0)) = true := by
  decide +kernel

/-- Witness for LookupLaw: the code of V-T2 under a two-bit precode table, whose last codeword 1111 is reached through its subtable, and
the extents of V-T2's and V-T3's codes. -/
theorem witness_lookup :
    let lens := [3, 1, 2, 4, 4]
    let s := withLane 0 0b1111#64 4 { running with cfg := { precodeTableBits := 2 } }
    (tableBits s.cfg .precode = 2 ∧ codeExtent lens 2 = 8 ∧ codeExtent [3, 3, 3, 3, 3, 3, 3, 3] 2 = 12 ∧
      8 ≤ (s.table .precode).length ∧ lens.length ≤ Code.maxSyms .precode ∧ (∀ l ∈ lens, l ≤ Code.maxLen .precode) ∧
      kraftSum lens 7 = 2 ^ 7 ∧ revBits 4 (canonicalCode lens 4) = 0b1111) ∧
    okIs (build .precode lens s)
      (fun _ t => okIs (lookup .precode 0 t) (fun e u => e == 0x402#32 && (u.lane 0).left == 0)) = true := by
  decide +kernel

/-- The default sizes are the largest extents, and one entry less is refused (41_huffman_tables.md R152, 93 K8); zlib's bound of 852
for 286 symbols at width 9, and the bounds of narrower tables, which are smaller. -/
theorem test_table_sizes :
    configAdmissible {} = true ∧ tablesAdmissible { precodeTableSize := 127 } .precode = false ∧
    tablesAdmissible { litlenTableSize := 1333 } .litlen = false ∧ tablesAdmissible { offsetTableSize := 401 } .offset = false ∧
    tablesAdmissible { litlenTableBits := 9 } .litlen = true ∧
    tablesAdmissible { precodeTableBits := 6, precodeTableSize := 80 } .precode = true ∧
    extentFits 286 9 15 852 = true ∧ extentFits 286 9 15 851 = false ∧
    extentFits 19 7 7 128 = true ∧ extentFits 288 10 15 1334 = true ∧ extentFits 288 10 15 1333 = false ∧
    extentFits 32 8 15 402 = true ∧ extentFits 32 8 15 401 = false := by
  decide +kernel

/-- V-T5 to V-T9: overfull, incomplete, empty and one-symbol codes; no table is written. -/
theorem test_build_errors :
    nextIs (build .precode [1, 1, 1] running).outcome (fun t => t.errCode == .corruptHuffmanCode && t.errDetail == 1#4 && t.pt == running.pt) = true ∧
    nextIs (build .precode [1, 2] running).outcome (fun t => t.errCode == .unsupportedFeature && t.errDetail == 1#4) = true ∧
    nextIs (build .litlen [0, 0] running).outcome (fun t => t.errCode == .unsupportedFeature && t.errDetail == 2#4) = true ∧
    nextIs (build .offset [1] running).outcome (fun t => t.errCode == .unsupportedFeature && t.errDetail == 3#4) = true := by
  decide +kernel

/-! ## Steps -/

/-- Witness for StepRunsFetchedElement, in each format: the element is fetched (V-B2, V-B5, V-B8, V-S1, V-M5). -/
theorem witness_step_element :
    (running.inputs = [] ∧ nextFormat { running with state := .header } = some .bhdr ∧
      okIs (fetch .bhdr (withLane 0 3#64 32 running)) (fun i _ => i == .bhdrStatic true) = true) ∧
    (nextFormat (dynamic .counts) = some .dcounts ∧
      okIs (fetch .dcounts (withLane 0 0b11100000100001#64 42 running)) (fun i _ => i == .dcounts 258 2 18) = true) ∧
    (nextFormat (dynamic .lens) = some .presym ∧
      okIs (fetch .presym (withLane 0 1#64 32 (placeTable .precode 15 running))) (fun i _ => i == .presymLen15) = true) ∧
    (nextFormat (staticTurn 0x1E#64) = some .llsym ∧
      okIs (fetch .llsym (staticTurn 0x1E#64)) (fun i _ => i == .llLiteral 0x48#8) = true) ∧
    (nextFormat (withSlot 0 1 3 running) = some .offsym ∧
      okIs (fetch .offsym (staticTurn 0#64)) (fun i _ => i == .offDist0) = true) := by
  decide +kernel

/-- Witness for StepRunsCtrlStore: the first store of spec/95's programs to CTRL. -/
theorem witness_step_ctrl :
    { running with inputs := [.store 0xFFFFFF00#32 .word 5#32] }.inputs = .store running.cfg.engineBase .word 5#32 :: [] := by
  decide +kernel

/-- Witness for PrelensStep: the last of the lengths (the step ends there), and one before (it goes on). -/
theorem witness_step_prelens :
    let s := withLane 0 0b111#64 32 { dynamic .prelens with pi := 17 }
    let u := withLane 0 0b111#64 64 { dynamic .prelens with pi := 16 }
    (s.inputs = [] ∧ s.state = .dynTables ∧ s.phase = .prelens ∧ s.hclen ≤ 19) ∧
    okIs (fetch .prelen s) (fun i v => i == .prelen 7#3 && nextIs (exec i v) (fun t => t.phase == .prebuild)) = true ∧
    okIs (fetch .prelen u) (fun i v => i == .prelen 7#3 && nextIs (exec i v) (fun t => t.phase == .prelens)) = true := by
  decide +kernel

/-- Witness for IdleWaits. -/
theorem witness_idle :
    State.reset.inputs = [] ∧ State.reset.state = .idle ∧ { running with state := .done }.state = .done ∧
    { running with state := .error }.state = .error := by
  decide +kernel

/-! ## CTRL (spec/95 §2.7) -/

/-- V-H2, V-H4, V-H6: START with IRQ_EN; START while BUSY only writes IRQ_EN; 0 clears IRQ_EN. -/
theorem test_ctrl :
    nextIs (exec (decodeCtrl 5#32) { running with state := .idle }) (fun t => t.irqEn && t.busy && t.state == .prime) = true ∧
    nextIs (exec (decodeCtrl 1#32) { running with irqEn := true, outPos := 9 })
      (fun t => !t.irqEn && t.state == .decode && t.outPos == 9) = true ∧
    nextIs (exec (decodeCtrl 0#32) { running with irqEn := true, state := .done }) (fun t => !t.irqEn && t.isDone) = true := by
  decide +kernel

/-- Witness for CtrlCommandEncoding's clauses: bits above 2 differ; a next state; BUSY; START with ACK; neither. -/
theorem witness_ctrl :
    (0xFFFFFFF8#32).extractLsb' 0 3 = (0#32).extractLsb' 0 3 ∧ (∃ t, exec (decodeCtrl 2#32) running = .next t) ∧
    running.busy = true ∧ (3#32).getLsbD 0 = true ∧ (4#32).getLsbD 0 = false ∧ (4#32).getLsbD 1 = false := by
  refine ⟨by decide, ⟨_, rfl⟩, ?_⟩; decide +kernel

/-- Witness for StartBeginsTile: a bound of exactly one tile, and one more (V-H7: STATUS 0x00008064). -/
theorem witness_start :
    let s := { running with state := .done }
    (s.busy = false ∧ s.outBound.toNat ≤ 65536 ∧ configAdmissible s.cfg = true ∧ s.windowOnDevice = false) ∧
    65536 < { s with outBound := 65537#17 }.outBound.toNat ∧
    nextIs (exec (decodeCtrl 1#32) { State.reset with outBound := 65537#17 })
      (fun t => t.statusReg == 0x00008064#32 && t.outPos == 0 && t.inPos == 0) = true := by
  decide +kernel

/-- Witness for StartRefusals: a table one entry too small, and a window on the engine's own registers. -/
theorem witness_start_refused :
    let s := { running with state := .idle, cfg := { litlenTableSize := 1333 } }
    let d := { running with state := .idle, outBase := 0xFFFFFF80#32 }
    (s.busy = false ∧ s.outBound.toNat ≤ 65536 ∧ configAdmissible s.cfg = false) ∧
    (d.busy = false ∧ d.outBound.toNat ≤ 65536 ∧ configAdmissible d.cfg = true ∧ d.windowOnDevice = true) := by
  decide +kernel

/-- Witness for AckClears and IrqLine, and V-H5: ACK in ERROR. -/
theorem witness_ack :
    let s := { running with state := .error, errCode := .corruptStream, errDetail := 7#4, overread := true, outPos := 4, irqEn := true }
    s.busy = false ∧ s.irq = true ∧
    nextIs (exec (decodeCtrl 2#32) s)
      (fun t => t.state == .idle && t.statusReg == 0#32 && t.outPos == 4 && !t.irq) = true ∧
    (∃ t, exec (.ctrlStart false true 0#29) s = .next t) := by
  refine ⟨by decide +kernel, by decide +kernel, by decide +kernel, ?_⟩
  exact (next_of (p := fun _ => true) (by decide +kernel)).imp fun _ h => h.1

/-! ## Headers (spec/95 §2.4) -/

/-- V-B1, V-B4: an uncompressed block and the reserved type, with `is_final` shown. -/
theorem test_bhdr_errors :
    nextIs (step (withLane 0 1#64 32 { running with state := .header }))
      (fun t => t.isFinal && t.errCode == .unsupportedFeature && t.errDetail == 4#4 && (t.lane 0).left == 29) = true ∧
    nextIs (step (withLane 0 6#64 32 { running with state := .header }))
      (fun t => !t.isFinal && t.errCode == .corruptStream && t.errDetail == 5#4 && t.statusReg == 0x00008544#32) = true := by
  decide +kernel

/-- Witness for BlockHeaderStep, for each block type: the refill succeeds, and bits 2:1 are 0, 1, 2, 3. -/
theorem witness_bhdr :
    (running.inputs = [] ∧ { running with state := .header }.state = .header) ∧
    CanRefill 0 running ∧ ¬ CanRefill 0 { faulting with state := .header, inLen := 3#32 } ∧
    ∀ p ∈ [(0, 0), (3, 1), (5, 2), (7, 3)],
      okIs (refill 0 (withLane 0 (BitVec.ofNat 64 p.1) 32 { running with state := .header }))
        (fun _ u => (u.lane 0).buf.toNat % 8 / 2 == p.2) = true := by
  unfold CanRefill Refillable; decide +kernel

/-- Witness for DynCounts, and fields 1, 1, 14 in a step (42_block_control.md R176). -/
theorem witness_dcounts :
    let s := withLane 0 0b11100000100001#64 42 { dynamic .counts with staticLoaded := true }
    (s.inputs = [] ∧ s.state = .dynTables ∧ s.phase = .counts ∧ 42 ≤ (s.lane 0).left) ∧
    nextIs (step s) (fun t => t.hlit == 258 && t.hdist == 2 && t.hclen == 18 && !t.staticLoaded && (t.lane 0).left == 28) = true := by
  decide +kernel

/-- Witness for DynCounts' ordinary path: a tile's first dynamic header with 29 bits in lane 0, which fetches one word before HLIT (V-L13);
an overread before HLIT, and one before HDIST, which keeps HLIT. -/
theorem witness_dcounts_refill :
    let s := withLane 0 0b11100000100001#64 29 (withBytes 0x1000 [7#8] (dynamic .counts))
    let d := { s with cfg := faulting.cfg, inLen := 3#32 }
    (s.cfg.headerRefills = .perElement ∧ s.cfg.reading = .ruled ∧ CanRefill 0 s ∧ ¬ CanRefill 0 d) ∧
    nextIs (step s) (fun t => t.hlit == 258 && t.hdist == 2 && t.hclen == 18 && t.inPos == 1 && (t.lane 0).left == 47) = true ∧
    nextIs (step d) (fun t => t.errCode == .inputOverread && (t.lane 0).left == 29) = true ∧
    nextIs (step (withLane 0 0b100001#64 32 { d with hlit := 0 }))
      (fun t => t.errCode == .inputOverread && t.hlit == 258 && (t.lane 0).left == 27) = true := by
  unfold CanRefill Refillable; decide +kernel

/-- Witness for PrecodeFetches: three bits of a precode length; a one-bit codeword and seven extra bits of an 18 (V-B13); a first 16, which
reads no extra bit (V-B11). -/
theorem witness_precode_fetches :
    let s := withLane 0 0b110#64 40 (dynamic .lens)
    let u := placeTable .precode 18 (withLane 0 0b10101100#64 40 (dynamic .lens))
    (s.cfg.headerRefills = .perElement ∧ s.cfg.reading = .ruled ∧ CanRefill 0 s ∧ ¬ CanRefill 0 { faulting with inLen := 3#32 }) ∧
    okIs (fetchPrelen s) (fun i t => i == .prelen 6#3 && (t.lane 0).left == 37) = true ∧
    okIs (lookup .precode 0 u) (fun e t => e == directEntry (preRes 18) 1 && (t.lane 0).left == 39) = true ∧
    okIs (fetchPresym u) (fun i t => i == .presymZero18 86#7 && (t.lane 0).left == 32) = true ∧
    okIs (fetchPresym (placeTable .precode 16 s)) (fun i t => i == .presymRep16 0#2 && (t.lane 0).left == 39) = true := by
  unfold CanRefill Refillable; decide +kernel

/-- V-B7, and witness for PrelensFill: P4's eighteen fields; the zero-fill leaves `pi` at 19. -/
theorem witness_prelens :
    let s := { dynamic .prelens with pi := 0 }
    let fields : List (BitVec 3) := [0#3, 0#3, 1#3, 0#3, 0#3, 0#3, 0#3, 0#3, 0#3, 0#3, 0#3, 0#3, 0#3, 0#3, 0#3, 2#3, 0#3, 2#3]
    (s.precodeLens.length = 19 ∧ s.pi + 1 < s.hclen ∧ s.hclen ≤ { s with pi := 17 }.pi + 1) ∧
    (4 ≤ fields.length ∧ fields.length ≤ 19 ∧ s.hclen = fields.length ∧ s.pi = 0) ∧
    nextIs (execAll (fields.map fun l => .prelen l) s)
      (fun t => t.precodeLens == [0#3, 2#3, 2#3, 0#3, 0#3, 0#3, 0#3, 0#3, 0#3, 0#3, 0#3, 0#3, 0#3, 0#3, 0#3, 0#3, 0#3, 0#3, 1#3] && t.pi == 19) = true := by
  decide +kernel

/-- V-B8 and V-B14 (a long zero run past the end of the lengths), and witness for PresymExplicit. -/
theorem witness_presym :
    explicitLength .presymLen2 = some 2#4 ∧ explicitLength .presymLen15 = some 15#4 ∧
    nextIs (exec .presymLen2 { dynamic .lens with li := 97 }) (fun t => t.lens.getD 97 0#4 == 2#4 && t.li == 98 && t.phase == .lens) = true ∧
    nextIs (exec (.presymZero18 127#7) { dynamic .lens with hlit := 256, li := 250, lens := List.replicate 457 9#4 })
      (fun t => t.lens.getD 249 0#4 == 9#4 && t.lens.getD 250 9#4 == 0#4 && t.lens.getD 387 9#4 == 0#4 && t.lens.getD 388 0#4 == 9#4 &&
        t.li == 388 && t.phase == .build) = true := by
  decide +kernel

/-- V-B9, V-B11, and witness for PresymRepeats' first part at `li` = 0 and 5. -/
theorem witness_rep16 :
    (dynamic .lens).li = 0 ∧ { dynamic .lens with li := 5 }.li ≠ 0 ∧
    nextIs (exec (.presymRep16 3#2) { dynamic .lens with li := 5, lens := (List.replicate 457 0#4).set 4 8#4 })
      (fun t => t.li == 11 && (t.lens.drop 4).take 8 == [8#4, 8#4, 8#4, 8#4, 8#4, 8#4, 8#4, 0#4]) = true ∧
    nextIs (exec (.presymRep16 0#2) (dynamic .lens)) (fun t => t.errCode == .corruptStream && t.errDetail == 6#4) = true := by
  decide +kernel

/-- V-B12, V-B13, and witness for PresymRepeats' second part. -/
theorem witness_zeros :
    ((∃ extra, Instr.presymZero17 7#3 = .presymZero17 extra ∧ 10 = 3 + extra.toNat) ∧
      (∃ extra, Instr.presymZero18 86#7 = .presymZero18 extra ∧ 97 = 11 + extra.toNat)) ∧
    nextIs (exec (.presymZero17 7#3) (dynamic .lens)) (fun t => t.li == 10) = true ∧
    nextIs (exec (.presymZero18 86#7) { dynamic .lens with lens := List.replicate 457 9#4 })
      (fun t => t.li == 97 && t.lens.getD 96 9#4 == 0#4 && t.lens.getD 97 0#4 == 9#4) = true := by
  refine ⟨⟨⟨_, rfl, rfl⟩, ⟨_, rfl, rfl⟩⟩, ?_⟩; decide +kernel

/-- V-B11 in a step: a first 16 fails before its extra bits are read, so only its one-bit codeword is gone. -/
theorem test_rep16_first :
    nextIs (step (withLane 0 0b110#64 40 (placeTable .precode 16 (dynamic .lens))))
      (fun t => t.errDetail == 6#4 && (t.lane 0).left == 39) = true := by
  decide +kernel

/-! ## Symbols (spec/95 §2.5) -/

/-- V-S1: P1's first turn writes 'H' at index 0 and moves to lane 1 with no fetch. -/
theorem test_literal :
    nextIs (step (staticTurn 0x1E#64))
      (fun t => bytesAt 0x8000 2 t == [0x48#8, 0#8] && t.outPos == 1 && t.cur == 1 && (t.lane 0).left == 53 && t.inPos == 0 &&
        t.trace == [.write 0 0x48#8]) = true := by
  decide +kernel

/-- Witness for LiteralElement: at the bound (V-S2) and one below it. -/
theorem witness_literal :
    ({ running with outPos := 2, outBound := 2#17 }.outBound.toNat ≤ 2) ∧
    (65535 < running.outBound.toNat ∧ CanAdvance { running with outPos := 65535 } ∧ MemoryInv running ∧
      running.raced (running.outAddr 65535) = false) := by
  unfold CanAdvance CanRefill Refillable MemoryInv; decide +kernel

/-- V-S4, V-S5: end of block at the bound; no ADVANCE. -/
theorem test_eob :
    nextIs (exec .llEob { running with outPos := 4, outBound := 4#17, cur := 3 })
      (fun t => t.state == .drain && t.cur == 3 && t.trace == [.eob 3]) = true := by
  decide +kernel

/-- P2: after "abc" lane 3 records a match of length 6. -/
theorem test_match_record :
    nextIs (exec .llLen260 (withLane 3 0#64 40 { running with cur := 3, outPos := 3 }))
      (fun t => (t.lane 3).plen == 6 && (t.lane 3).pdst == 3 && t.outPos == 9 && t.pend == 8#32 && t.cur == 4) = true := by
  decide +kernel

/-- Witness for MatchRecordElements: one byte too long (V-S9) and an exact fit (V-S10); V-S6 and V-S8's lengths. -/
theorem witness_match_record :
    (matchLength .llLen257 = some 3 ∧ matchLength (.llLen265 1#1) = some 12 ∧ matchLength .llLen287 = some 258) ∧
    { running with outPos := 2, outBound := 4#17 }.outBound.toNat < 2 + 3 ∧
    (1 + 3 ≤ { running with outPos := 1, outBound := 4#17 }.outBound.toNat ∧ CanAdvance { running with outPos := 1 }) := by
  unfold CanAdvance CanRefill Refillable; decide +kernel

/-- V-S9: a match past the bound records nothing. -/
theorem test_match_overrun :
    nextIs (exec .llLen257 { running with outPos := 2, outBound := 4#17 })
      (fun t => t.errCode == .outputOverrun && t.errDetail == 9#4 && t.outPos == 2 && t.pend == 0#32) = true := by
  decide +kernel

/-! ## Copies (spec/95 §2.6) -/

/-- V-M1: "abc" and a copy of six at distance 3. -/
theorem test_copy :
    nextIs (exec .offDist2 (withSlot 3 3 6 (withLane 3 0#64 40
        (withBytes 0x8000 [0x61#8, 0x62#8, 0x63#8] { running with cur := 3, outPos := 9 }))))
      (fun t => bytesAt 0x8000 10 t == [0x61#8, 0x62#8, 0x63#8, 0x61#8, 0x62#8, 0x63#8, 0x61#8, 0x62#8, 0x63#8, 0#8] &&
        t.pend == 0#32 && t.cur == 4) = true := by
  decide +kernel

/-- V-M2: a distance of 1 repeats the last byte; the distance equals the destination. -/
theorem test_copy_overlap :
    nextIs (exec .offDist0 (withSlot 0 1 3 (withLane 0 0#64 40 (withBytes 0x8000 [0x78#8] { running with outPos := 4 }))))
      (fun t => bytesAt 0x8000 5 t == [0x78#8, 0x78#8, 0x78#8, 0x78#8, 0#8]) = true := by
  decide +kernel

/-- V-M4: a distance before the tile's start writes nothing and leaves the copy pending. -/
theorem test_copy_before_start :
    nextIs (exec .offDist1 (withSlot 1 1 3 (withBytes 0x8000 [0x71#8] { running with cur := 1, outPos := 4 })))
      (fun t => t.errCode == .corruptStream && t.errDetail == 7#4 && t.pend == 2#32 && bytesAt 0x8000 2 t == [0x71#8, 0#8]) = true := by
  decide +kernel

/-- Witness for OffsetElements: V-M4's distance and V-M2's; the largest distance (V-M6). -/
theorem witness_offset :
    (distanceOf .offDist1 = some 2 ∧ distanceOf .offDist0 = some 1 ∧ distanceOf (.offDist31 16383#14) = some 65536) ∧
    ((withSlot 0 1 3 running).lane 0).pdst < 2 ∧
    (1 ≤ ((withSlot 0 1 3 running).lane 0).pdst ∧ CanAdvance (withSlot 0 1 3 running) ∧ MemoryInv (withSlot 0 1 3 running)) ∧
    (1 + 3 ≤ 2 ^ running.cfg.addrWidth ∧ NoOutputRace (withSlot 0 1 3 running) (1 + 3)) := by
  unfold CanAdvance CanRefill Refillable MemoryInv NoOutputRace; decide +kernel

/-- Witness for EveryElementRuns' four cases. -/
theorem witness_every_element :
    (∀ ack irqEn rsv, Instr.llEob ≠ .ctrlStart ack irqEn rsv) ∧ running.busy = true ∧
    65536 < { running with outBound := 65537#17 }.outBound.toNat ∧ (configAdmissible running.cfg = true ∧ running.windowOnDevice = false) := by
  have h : ∀ ack irqEn rsv, Instr.llEob ≠ .ctrlStart ack irqEn rsv := by intro ack irqEn rsv e; cases e
  exact ⟨h, by decide +kernel⟩

/-- Witness for OverreadKeepsEffects: the fourth byte of the word ADVANCE would fetch is past the input. -/
theorem witness_overread :
    let s := withSlot 0 1 3 (withLane 0 0#64 31 { faulting with inLen := 3#32, outPos := 4 })
    ¬ CanAdvance s ∧ s.outPos < s.outBound.toNat ∧ MemoryInv s ∧ s.outPos + 3 ≤ s.outBound.toNat ∧ 1 ≤ (s.lane s.cur).pdst ∧
    NoOutputRace s (1 + 3) ∧
    nextIs (exec .llLen257 s) (fun t => t.errCode == .inputOverread && t.pend == 1#32 && t.outPos == 7) = true ∧
    nextIs (exec (.llLiteral 7#8) s) (fun t => t.errCode == .inputOverread && bytesAt 0x8004 1 t == [7#8]) = true := by
  unfold CanAdvance CanRefill Refillable MemoryInv NoOutputRace; decide +kernel

/-! ## Tables in steps (spec/95 §2.4) -/

/-- Witness for PrebuildStep: overfull (V-B21's lengths 1, 1, 1), incomplete, complete (V-B7's lengths). -/
theorem witness_prebuild :
    let s := dynamic .prebuild
    let zeros : List (BitVec 3) := List.replicate 16 0#3
    (s.inputs = [] ∧ s.state = .dynTables ∧ s.phase = .prebuild) ∧
    128 < kraftSum ((zeros ++ [1#3, 1#3, 1#3]).map fun l => l.toNat) 7 ∧
    kraftSum (s.precodeLens.map fun l => l.toNat) 7 < 128 ∧
    kraftSum ((zeros ++ [1#3, 2#3, 2#3]).map fun l => l.toNat) 7 = 128 := by
  decide +kernel

/-- Lengths of a dynamic block with `hlit` = 258 and `hdist` = 2, from the first two and the last two of them. -/
def blockLens (a b c d : BitVec 4) : List (BitVec 4) :=
  [a, b] ++ List.replicate 256 0#4 ++ [c, d] ++ List.replicate 197 0#4

/-- Witness for DynBuildStep: an overfull and an incomplete offset code, then an overfull, an incomplete and a complete litlen code. -/
theorem witness_dynBuild :
    let s := dynamic .build
    (s.inputs = [] ∧ s.state = .dynTables ∧ s.phase = .build ∧ s.cfg.reading = .ruled ∧ CanRefill 0 s ∧ ¬ CanRefill 0 { faulting with inLen := 3#32 }) ∧
    2 ^ 15 < kraftSum { s with hdist := 3, lens := [0#4] ++ List.replicate 257 0#4 ++ [1#4, 1#4, 1#4] }.offsetLens 15 ∧
    kraftSum { s with lens := blockLens 1#4 1#4 1#4 0#4 }.offsetLens 15 < 2 ^ 15 ∧
    (kraftSum { s with lens := blockLens 1#4 1#4 1#4 1#4 }.offsetLens 15 = 2 ^ 15 ∧
      2 ^ 15 < kraftSum { s with lens := [1#4] ++ blockLens 1#4 1#4 0#4 0#4 }.litlenLens 15 ∧
      kraftSum { s with lens := blockLens 1#4 2#4 1#4 1#4 }.litlenLens 15 < 2 ^ 15 ∧
      kraftSum { s with lens := blockLens 1#4 1#4 1#4 1#4 }.litlenLens 15 = 2 ^ 15) := by
  unfold CanRefill Refillable; decide +kernel

/-- V-B15: the offset code's error comes first. -/
theorem test_dynBuild_order :
    nextIs (step { dynamic .build with lens := blockLens 1#4 1#4 1#4 0#4 })
      (fun t => t.errCode == .unsupportedFeature && t.errDetail == 3#4 && t.trace == []) = true ∧
    nextIs (step { dynamic .build with lens := blockLens 1#4 2#4 1#4 1#4 })
      (fun t => t.errCode == .unsupportedFeature && t.errDetail == 2#4 && t.trace == [.build .offset]) = true := by
  decide +kernel

/-- V-B17, and witness for StaticTablesStep: loaded, and not loaded. -/
theorem witness_static_tables :
    let s := { running with state := .staticTables }
    (s.inputs = [] ∧ s.state = .staticTables ∧ s.cfg.reading = .ruled ∧ CanRefill 0 s ∧ s.staticLoaded = false ∧ { s with staticLoaded := true }.staticLoaded = true) ∧
    nextIs (step { withLane 0 0#64 32 s with staticLoaded := true }) (fun t => t.state == .decode && t.trace == []) = true ∧
    nextIs (step (withLane 0 0#64 32 s))
      (fun t => t.state == .decode && t.staticLoaded && t.trace == [.build .litlen, .build .offset]) = true := by
  unfold CanRefill Refillable; decide +kernel

/-! ## Drain (spec/95 §2.4, §2.6) -/

/-- V-M8, V-M9, and witness for DrainClearsPending's first and last clauses and EngineWritesOnlyOutput: the end of block at lane 5 with
lane 3's copy pending; all 32 lane steps can be done. -/
theorem witness_drain :
    let s := withLane 3 0b01000#64 32 (withSlot 3 3 6 (withBytes 0x8000 [0x61#8, 0x62#8, 0x63#8]
      { staticTurn 0#64 with state := .drain, cur := 5, outPos := 9, isFinal := true }))
    (s.inputs = [] ∧ s.state = .drain ∧ s.cfg.reading = .ruled ∧ MemoryInv s ∧ OutputInv s ∧ SlotInv s) ∧
    nextIs (step s)
      (fun t => t.pend == 0#32 && t.cur == 5 && t.state == .done && bytesAt 0x8003 6 t == [0x61#8, 0x62#8, 0x63#8, 0x61#8, 0x62#8, 0x63#8])
      = true := by
  unfold MemoryInv OutputInv SlotInv; decide +kernel

/-- Witness for DrainClearsPending's errors in the first step: a distance before the tile's first byte (V-M4), a lane with too few bits, and
an ADVANCE past the input under FAULT at a lane with nothing pending. -/
theorem witness_drain_errors :
    let s := { staticTurn 0b01000#64 with state := .drain }
    let near := withSlot 0 2 6 s
    let far := withLane 0 0b01000#64 5 (withSlot 0 3 6 s)
    let dry := withLane 0 0#64 0 { faulting with state := .drain, inLen := 3#32 }
    (near.pending near.cur = true ∧ far.pending far.cur = true ∧ dry.pending dry.cur = false ∧ ¬ CanAdvance dry) ∧
    okIs (fetchOffset near.cur near) (fun i v => distanceOf i == some 3 && (v.lane v.cur).pdst == 2) = true ∧
    nextIs (step near) (fun t => t.errCode == .corruptStream && t.errDetail == 7#4 && t.pend == 1#32) = true ∧
    nextIs (step far) (fun t => t.state == .done || t.state == .header) = true ∧
    nextIs (step (withLane 0 0b01000#64 4 near)) (fun t => t.errCode == .laneUnderflow) = true ∧
    nextIs (step dry) (fun t => t.errCode == .inputOverread && t.cur == 0) = true := by
  unfold CanAdvance CanRefill Refillable; decide +kernel

/-- V-B20, and witness for DrainFinishes: a short tile under the strict check, and a block that is not final. -/
theorem witness_finish :
    let s := { running with state := .drain, isFinal := true, cfg := { strictTileLength := true } }
    (s.inputs = [] ∧ s.state = .drain ∧ s.cfg.reading = .ruled ∧ s.pend = 0#32 ∧ s.cfg.overreadPolicy = .draw ∧ 4 * ({ faulting with inPos := 32 }.inPos + 32) ≤ faulting.inLen.toNat) ∧
    (s.isFinal = true ∧ s.cfg.strictTileLength = true ∧ s.outPos ≠ s.outBound.toNat) ∧
    ¬ ({ s with isFinal := false }.isFinal = true) ∧
    nextIs (step s) (fun t => t.errCode == .corruptStream && t.errDetail == 10#4) = true ∧
    nextIs (step { s with outBound := 0#17 }) (fun t => t.state == .done) = true := by
  decide +kernel

/-- The readings 00_scope.md R16 keeps as parameters change what they are named for (92_eei_decisions.md D3, D8, D9): the EOB turn
advances; the drain starts at lane 0; the next block begins at lane 0; a header is read from the cursor's lane; a field, or a word, has its
most significant bit first. -/
theorem test_other_readings :
    let under (r : StreamReading) : State := { running with cur := 5, cfg := { reading := r } }
    nextIs (exec .llEob (under { eobAdvances := true })) (fun t => t.state == .drain && t.cur == 6 && (t.lane 5).left == 32) = true ∧
    nextIs (step { under { drainLane := .zero } with state := .drain, isFinal := true }) (fun t => t.state == .done && t.cur == 0) = true ∧
    nextIs (step { under { blockLane := .zero } with state := .drain }) (fun t => t.state == .header && t.cur == 0) = true ∧
    nextIs (step (withLane 5 0b011#64 32 { under { headerLane := .current } with state := .header }))
      (fun t => t.state == .staticTables && t.isFinal) = true ∧
    nextIs (step (withLane 0 0b110#64 32 { under { fieldBits := .msbFirst } with state := .header }))
      (fun t => t.state == .staticTables && t.isFinal) = true ∧
    okIs (refill 5 (withBytes 0x1003 [0x80#8] (under { wordBits := .msbFirst }))) (fun _ t => (t.lane 5).buf == 1#64) = true := by
  decide +kernel

/-! ## Host accesses and reset (spec/95 §2.7, §2.9) -/

/-- V-H8, and witness for RegisterWrites: OUT_BOUND while BUSY and while not, the last reserved offset. -/
theorem witness_register_write :
    (8 ≤ running.cfg.addrWidth ∧ running.cfg.addrWidth ≤ 32) ∧ (0 < 0xFC ∧ 0xFC < 256 ∧ 0xFC % 4 = 0) ∧
    running.cfg.engineBase + BitVec.ofNat 32 0xFC = reg 0xFC ∧
    nextIs (step { running with inputs := [.store (reg 0x14) .word 5#32] }) (fun t => t.outBound == 65536#17) = true ∧
    nextIs (step { running with state := .done, inputs := [.store (reg 0x14) .word 0xFFFE0005#32] }) (fun t => t.outBound == 5#17) = true := by
  decide +kernel

/-- V-H9, and witness for RegisterReads: OUT_COUNT and a reserved offset. -/
theorem witness_register_read :
    (0x24 < 256 ∧ 0x24 % 4 = 0) ∧
    nextIs (step { running with outPos := 3, inputs := [.load (reg 0x18) .word] }) (fun t => t.hostData == 3#32) = true ∧
    nextIs (step { running with pend := 8#32, hostData := 1#32, inputs := [.load (reg 0x28) .word] }) (fun t => t.hostData == 0#32) = true := by
  decide +kernel

/-- Witness for BadRegisterAccess: a byte access, and a misaligned one. -/
theorem witness_bad_access :
    (Size.byte ≠ .word ∧ 2 % 4 ≠ 0) ∧
    step { running with inputs := [.load (reg 4) .byte] } = .refused .registerAccess ∧
    step { running with inputs := [.store (reg 2) .word 1#32] } = .refused .registerAccess := by
  exact ⟨by decide, rfl, rfl⟩

/-- V-R1, and witness for HardResetStep: reset in the middle of a tile keeps the bytes written. -/
theorem witness_hard_reset :
    nextIs (step (withBytes 0x8000 [0x48#8] { running with staticLoaded := true, outPos := 1, inputs := [.reset] }))
      (fun t => t.state == .idle && !t.staticLoaded && t.outPos == 0 && bytesAt 0x8000 1 t == [0x48#8]) = true := by
  decide +kernel

/-- Witness for StoreThenLoad, with the bytes in order. -/
theorem witness_store_load :
    let s := { running with inputs := [.store 0x20#32 .word 0x12345678#32, .load 0x20#32 .word] }
    (2 ≤ s.cfg.addrWidth ∧ s.openTiles = [] ∧ MemoryInv s ∧ s.touchesRegisters 0x20#32 .word = false) ∧
    nextIs (step s) (fun t => bytesAt 0x20 4 t == [0x78#8, 0x56#8, 0x34#8, 0x12#8]) = true := by
  unfold MemoryInv; decide +kernel

/-- Witness for HostRaces' clauses: the first output byte, a byte of neither window, the last input byte. -/
theorem witness_races :
    let s := { running with openTiles := [running.windows] }
    (s.touchesRegisters 0x8000#32 .byte = false ∧ s.inOpenOutput (s.addr 0x8000#32 0) = true) ∧
    (s.touchesRegisters 0x20#32 .byte = false ∧ s.inOpenInput (s.addr 0x20#32 0) = false ∧ s.inOpenOutput (s.addr 0x20#32 0) = false) ∧
    (s.touchesRegisters 0x10FF#32 .byte = false ∧ s.inOpenInput (s.addr 0x10FF#32 0) = true ∧
      255 < s.inLen.toNat ∧ s.inAddr 255 = s.addr 0x10FF#32 0) := by
  decide +kernel

/-- The span of 20_memory.md R71 is the started tile's windows: with the registers rewritten after BUSY fell, the tile's own output byte is
still a draw, the new window's is not, and a STATUS read ends the span. -/
theorem test_span :
    let s := { running with state := .done, openTiles := [running.windows], outBase := 0x40000#32 }
    nextIs (step { s with inputs := [.load 0x8000#32 .byte] }) (fun t => t.draws == 1) = true ∧
    nextIs (step { s with inputs := [.store 0x40000#32 .byte 7#32] }) (fun t => t.draws == 0 && bytesAt 0x40000 1 t == [7#8]) = true ∧
    nextIs (step { s with inputs := [.load (reg 4) .word] }) (fun t => t.openTiles == []) = true ∧
    nextIs (step { s with state := .decode, inputs := [.load (reg 4) .word] }) (fun t => t.openTiles == [running.windows]) = true := by
  decide +kernel

/-- V-H10, V-H11, V-H13, V-H16, and witness for ContainerHeader. -/
theorem witness_container :
    let tail : List Byte := List.replicate 12 0#8
    (3 < 2 ^ 16 ∧ 1 < 4 ∧ 100 < 2 ^ 18 ∧ 4 * 3 ≤ tail.length) ∧
    ((parseContainer ([0x04#8, 0xFB#8, 3#8, 0#8, 0x91#8, 1#8, 0#8, 0#8] ++ tail)).map fun c => (c.numTiles, c.lastTileSize, c.size)) =
      some (3, 100, 131172) ∧
    parseContainer [0x05#8, 0xFA#8, 0#8, 0#8, 0#8, 0#8, 0#8, 0#8] = none ∧
    parseContainer [0x04#8, 0xFB#8, 0#8, 0#8, 20#8, 0#8, 0#8, 0#8] = none ∧
    parseContainer [0x04#8, 0xFB#8, 0#8, 0#8, 0#8, 0#8, 0#8] = none := by
  decide +kernel

/-- V-H18: the slices of a container of three tiles. -/
theorem test_slices :
    let c : Container := { numTiles := 3, tileSizeIdx := 0, lastTileSize := 0, offsets := [0, 100, 250], length := 420 }
    (c.start 0, c.inLen .payloadEnd 0) = (20, 100) ∧ (c.start 1, c.inLen .payloadEnd 1) = (120, 150) ∧
    (c.start 2, c.inLen .payloadEnd 2) = (270, 150) ∧ c.inLen .observedWrap 2 = 0 := by
  decide +kernel

/-- 92_eei_decisions.md D41: a last tile above one tile is CONFIG_ERROR, also where its size does not fit OUT_BOUND's 17 bits. -/
theorem test_large_last_tile :
    ∀ last ∈ [65537, 131072, 196608],
      let c : Container := { numTiles := 1, tileSizeIdx := 0, lastTileSize := last, offsets := [0], length := 420 }
      (runTile 6 { State.reset with inputs := tileInputs {} c .payloadEnd 0x1000#32 0x8000#32 0 }).map (fun t => t.errCode) =
        some .configError := by
  decide +kernel

/-! ## Invariants -/

/-- A tile in DECODE with a pending copy, a loaded static table and a literal to decode. -/
def midTile : State := withSlot 3 3 6 { staticTurn 0x1E#64 with outPos := 9, staticLoaded := true }

/-- Witness for the invariants' statements: the state meets every one of them. -/
theorem witness_invariants :
    (MemoryInv midTile ∧ LaneInv midTile ∧ OutputInv midTile ∧ ErrorInv midTile) ∧ PendingInv midTile ∧
    SlotInv midTile ∧ CountsInv midTile ∧ SizesInv midTile ∧ StaticInv midTile := by
  refine ⟨?_, ?_, ?_, ?_, ?_, ⟨fun _ => ?_, fun h => by cases h⟩⟩
  · unfold MemoryInv LaneInv OutputInv ErrorInv; decide +kernel
  · unfold PendingInv; decide +kernel
  · unfold SlotInv; decide +kernel
  · unfold CountsInv; decide +kernel
  · unfold SizesInv; decide +kernel
  · simp only [midTile, withSlot, setPending, setLane, staticTurn, withLane, running, State.reset]
    exact ⟨⟨List.replicate 1334 none, rfl⟩, ⟨List.replicate 402 none, rfl⟩⟩

/-- Witness for the invariants' statements: the state steps. -/
theorem witness_invariants_step : ∃ t, step midTile = .next t :=
  (next_of (p := fun _ => true) (by decide +kernel)).imp fun _ h => h.1

end Sys2Proof.Tests
end

section
/-! PROOFS. The form of a state: the parameters (00_scope.md R7), memory's canonical form (log 3), the sizes of the arrays and tables
(10_state.md R33, R34, R36). One walk through every operation shows that all three are kept. -/

namespace Sys2Proof.Machine

/-! ## What a part of an operation keeps -/

/-- `P` holds of the state a part of an operation leaves, whether it succeeds or raises. -/
def Res.Keeps {α : Type} (P : State → Prop) (r : Res α) : Prop := (∀ a t, r = .ok a t → P t) ∧ (∀ t, r = .raised t → P t)

@[simp] theorem Res.keeps_ok {α : Type} {P : State → Prop} {a : α} {s : State} : (Res.ok a s).Keeps P ↔ P s := by
  simp [Res.Keeps]

@[simp] theorem Res.keeps_raised {α : Type} {P : State → Prop} {s : State} : (Res.raised s : Res α).Keeps P ↔ P s := by
  simp [Res.Keeps]

@[simp] theorem Res.keeps_fault {α : Type} {P : State → Prop} {f : Fault} : (Res.fault f : Res α).Keeps P := by
  simp [Res.Keeps]

@[simp] theorem Res.keeps_refused {α : Type} {P : State → Prop} {q : Refusal} : (Res.refused q : Res α).Keeps P := by
  simp [Res.Keeps]

theorem Res.Keeps.bind {α β : Type} {P : State → Prop} {r : Res α} {k : α → State → Res β} (hr : r.Keeps P)
    (hk : ∀ a u, P u → (k a u).Keeps P) : (r.bind k).Keeps P :=
  Res.bind_keeps hr.1 hr.2 fun a u _ hu => hk a u hu

theorem Res.Keeps.imp {α : Type} {P Q : State → Prop} {r : Res α} (hr : r.Keeps P) (h : ∀ u, P u → Q u) : r.Keeps Q :=
  ⟨fun a t e => h t (hr.1 a t e), fun t e => h t (hr.2 t e)⟩

theorem Res.Keeps.outcome {α : Type} {P : State → Prop} {r : Res α} {t : State} (hr : r.Keeps P) (h : r.outcome = .next t) : P t := by
  rcases Res.outcome_eq_next.mp h with ⟨a, e⟩ | e
  · exact hr.1 a t e
  · exact hr.2 t e

theorem Res.Keeps.ofOutcome {P : State → Prop} {o : Host.Outcome State Fault Refusal} (h : ∀ t, o = .next t → P t) :
    (Res.ofOutcome o).Keeps P := by
  have hn : ∀ t, (Res.ofOutcome o).outcome = .next t → P t := fun t e => h t (ofOutcome_outcome o ▸ e)
  exact ⟨fun a t e => hn t (by rw [e]; rfl), fun t e => hn t (by rw [e]; rfl)⟩

/-! ## The form of a state -/

/-- What the sizes are stated of: the parameters, the scratch arrays and the table memories. -/
def State.arrays (s : State) : Config × List (BitVec 3) × List (BitVec 4) × Table × Table × Table :=
  (s.cfg, s.precodeLens, s.lens, s.pt, s.lt, s.ot)

/-- Going from `s` to `t` keeps the parameters, memory's canonical form, and the sizes of the arrays and tables. -/
structure KeepsForm (s t : State) : Prop where
  cfg : t.cfg = s.cfg
  memory : MemoryInv s → MemoryInv t
  sizes : SizesInv s → SizesInv t

namespace KeepsForm

theorem refl (s : State) : KeepsForm s s := ⟨rfl, id, id⟩

theorem trans {s t u : State} (h : KeepsForm s t) (h' : KeepsForm t u) : KeepsForm s u :=
  ⟨h'.cfg.trans h.cfg, h'.memory ∘ h.memory, h'.sizes ∘ h.sizes⟩

/-- With the arrays left alone, only memory is in question. -/
theorem of_arrays {s t : State} (ha : t.arrays = s.arrays) (hm : MemoryInv s → MemoryInv t) : KeepsForm s t := by
  simp only [State.arrays, Prod.mk.injEq] at ha
  obtain ⟨hc, hp, hl, hpt, hlt, hot⟩ := ha
  exact ⟨hc, hm, fun h => by simpa [SizesInv, hc, hp, hl, hpt, hlt, hot] using h⟩

/-- With memory left alone too, nothing is. -/
theorem of_frame {s t : State} (ha : t.arrays = s.arrays) (hm : t.mem = s.mem) : KeepsForm s t :=
  of_arrays ha fun h => by rwa [MemoryInv, hm]

/-- The frame lemmas of Laws/ give the state after an operation as an update of the state before. -/
theorem of_eq {s t u : State} (e : t = u) (h : KeepsForm s u) : KeepsForm s t := e ▸ h

end KeepsForm

/-- A part of an operation that keeps the form, after one that does. -/
theorem Res.Keeps.after {α : Type} {s u : State} {r : Res α} (hr : r.Keeps (KeepsForm u)) (h : KeepsForm s u) :
    r.Keeps (KeepsForm s) :=
  hr.imp fun _ h' => h.trans h'

/-- Parts that each keep the form keep it together. -/
theorem Res.Keeps.andThen {α β : Type} {s : State} {r : Res α} {k : α → State → Res β} (hr : r.Keeps (KeepsForm s))
    (hk : ∀ a u, (k a u).Keeps (KeepsForm u)) : (r.bind k).Keeps (KeepsForm s) :=
  hr.bind fun a u hu => (hk a u).after hu

theorem raise_keepsForm {α : Type} (code : ErrCode) (detail : BitVec 4) (s : State) :
    (raise code detail s : Res α).Keeps (KeepsForm s) := by
  rw [raise_eq, Res.keeps_raised]
  exact .of_frame rfl rfl

/-! ## Lanes -/

theorem refill_keepsForm (c : Fin 32) (s : State) : (refill c s).Keeps (KeepsForm s) := by
  constructor
  · intro _ t h
    have e := (refill_ok h).1
    exact .of_eq e (.of_frame rfl rfl)
  · intro t h
    rw [refill_raised h]
    exact .of_frame rfl rfl

theorem advance_keepsForm (s : State) : (advance s).Keeps (KeepsForm s) := by
  constructor
  · intro _ t h
    have e := (advance_ok h).2
    exact .of_eq e (.of_frame rfl rfl)
  · intro t h
    have e := (advance_raised h).1
    exact .of_eq e (.of_frame rfl rfl)

theorem consume_keepsForm (c : Fin 32) (n : Nat) (s : State) : (consume c n s).Keeps (KeepsForm s) := by
  rcases consume_cases c n s with ⟨_, e⟩ | ⟨_, e⟩
  all_goals
    rw [e]
    simp only [Res.keeps_ok, Res.keeps_raised]
    exact .of_frame rfl rfl

theorem pop_keepsForm (c : Fin 32) (n : Nat) (s : State) : (pop c n s).Keeps (KeepsForm s) :=
  (consume_keepsForm c n s).andThen fun _ _ => Res.keeps_ok.mpr (.refl _)

theorem headerRefill_keepsForm (due : Bool) (s : State) : (headerRefill due s).Keeps (KeepsForm s) := by
  cases due
  · exact Res.keeps_ok.mpr (.refl s)
  · exact refill_keepsForm s.headerLane s

theorem hpop_keepsForm (due : Bool) (n : Nat) (s : State) : (hpop due n s).Keeps (KeepsForm s) :=
  (headerRefill_keepsForm due s).andThen fun _ u => pop_keepsForm u.headerLane n u

theorem lookup_keepsForm (c : Code) (lane : Fin 32) (s : State) : (lookup c lane s).Keeps (KeepsForm s) := by
  constructor
  · intro e t h
    have e := (lookup_ok h).1
    exact .of_eq e (.of_frame rfl rfl)
  · intro t h
    have e := lookup_raised h
    exact .of_eq e (.of_frame rfl rfl)

/-! ## Fetches -/

theorem decoded_keepsForm (d : Except Reject Instr) (s : State) : (decoded d s).Keeps (KeepsForm s) := by
  cases d with
  | ok i => exact Res.keeps_ok.mpr (.refl s)
  | error r => exact Res.keeps_fault

theorem fetchBhdr_keepsForm (s : State) : (fetchBhdr s).Keeps (KeepsForm s) :=
  (hpop_keepsForm _ 3 s).andThen fun _ u => decoded_keepsForm _ u

theorem fetchDcounts_keepsForm (s : State) : (fetchDcounts s).Keeps (KeepsForm s) := by
  refine Res.Keeps.andThen ((hpop_keepsForm _ 5 _).after (.of_frame rfl rfl)) fun _ u => ?_
  refine Res.Keeps.andThen ((hpop_keepsForm _ 5 _).after (.of_frame rfl rfl)) fun _ u => ?_
  refine Res.Keeps.andThen ((hpop_keepsForm _ 4 _).after (.of_frame rfl rfl)) fun _ u => ?_
  exact decoded_keepsForm _ u

theorem fetchPrelen_keepsForm (s : State) : (fetchPrelen s).Keeps (KeepsForm s) :=
  (hpop_keepsForm _ 3 s).andThen fun _ u => decoded_keepsForm _ u

theorem fetchPresym_keepsForm (s : State) : (fetchPresym s).Keeps (KeepsForm s) := by
  refine (headerRefill_keepsForm _ s).andThen fun _ u => (lookup_keepsForm .precode _ u).andThen fun e v => ?_
  dsimp only
  split
  · exact decoded_keepsForm _ v
  · exact (hpop_keepsForm _ _ v).andThen fun _ w => decoded_keepsForm _ w

theorem fetchLitlen_keepsForm (c : Fin 32) (s : State) : (fetchLitlen c s).Keeps (KeepsForm s) := by
  refine (lookup_keepsForm .litlen c s).andThen fun e u => ?_
  split
  · exact decoded_keepsForm _ u
  · split
    · exact Res.keeps_fault
    · exact (pop_keepsForm c _ u).andThen fun _ v => decoded_keepsForm _ v

theorem fetchOffset_keepsForm (c : Fin 32) (s : State) : (fetchOffset c s).Keeps (KeepsForm s) := by
  refine (lookup_keepsForm .offset c s).andThen fun e u => ?_
  split
  · exact Res.keeps_fault
  · exact (pop_keepsForm c _ u).andThen fun _ v => decoded_keepsForm _ v

theorem fetch_keepsForm (f : Format) (s : State) : (fetch f s).Keeps (KeepsForm s) := by
  cases f with
  | ctrl => exact Res.keeps_fault
  | bhdr => exact fetchBhdr_keepsForm s
  | dcounts => exact fetchDcounts_keepsForm s
  | prelen => exact fetchPrelen_keepsForm s
  | presym => exact fetchPresym_keepsForm s
  | llsym => exact fetchLitlen_keepsForm s.cur s
  | offsym => exact fetchOffset_keepsForm s.cur s

/-! ## BUILD writes tables in place -/

theorem doubleTable_length (t : Table) (fin : Nat) : (doubleTable t fin).length = t.length := by
  simp only [doubleTable, List.length_take, List.length_append, List.length_drop]
  omega

theorem nextLength_length (cnts : List Nat) (tb fuel : Nat) (b : Builder) :
    (nextLength cnts tb fuel b).table.length = b.table.length := by
  induction fuel generalizing b with
  | zero => rfl
  | succ fuel ih =>
    unfold nextLength
    split
    · dsimp only
      rw [ih]
      split
      · exact doubleTable_length b.table b.fin
      · rfl
    · rfl

theorem nextSymbol_length (cnts : List Nat) (tb maxLen : Nat) (b : Builder) :
    (nextSymbol cnts tb maxLen b).table.length = b.table.length :=
  nextLength_length cnts tb maxLen _

theorem fillMain_length (n : Nat) (t : Table) (fin : Nat) : (fillMain n t fin).length = t.length := by
  induction n generalizing t fin with
  | zero => rfl
  | succ n ih => rw [fillMain, ih, doubleTable_length]

theorem openSubtable_length (cnts : List Nat) (tb maxLen : Nat) (b : Builder) :
    (openSubtable cnts tb maxLen b).table.length = b.table.length := by
  unfold openSubtable
  dsimp only
  split
  · rfl
  · exact List.length_set

theorem fillStride_length (entry : Word) (stride fin fuel i : Nat) (t : Table) :
    (fillStride entry stride fin fuel i t).length = t.length := by
  induction fuel generalizing i t with
  | zero => rfl
  | succ fuel ih =>
    unfold fillStride
    split
    · rw [ih, List.length_set]
    · rfl

theorem fillSubtable_length (res : BitVec 24) (tb : Nat) (b : Builder) : (fillSubtable res tb b).table.length = b.table.length :=
  fillStride_length _ _ _ _ _ _

theorem placeSymbols_length (res : Nat → BitVec 24) (cnts : List Nat) (tb maxLen : Nat) (syms : List Nat) (b : Builder) :
    (placeSymbols res cnts tb maxLen syms b).length = b.table.length := by
  induction syms generalizing b with
  | nil => rfl
  | cons sym rest ih =>
    unfold placeSymbols
    split
    · dsimp only
      split
      · rw [fillMain_length, List.length_set]
      · rw [ih, nextSymbol_length, List.length_set]
    · dsimp only
      split
      · rw [fillSubtable_length, openSubtable_length]
      · rw [ih, nextSymbol_length, fillSubtable_length, openSubtable_length]

/-- BUILD keeps the table memory's size (10_state.md R36). -/
theorem buildTable_length (res : Nat → BitVec 24) (tb maxLen : Nat) (lens : List Nat) (t : Table) :
    (buildTable res tb maxLen lens t).length = t.length :=
  placeSymbols_length _ _ _ _ _ _

theorem setTable_keepsForm {c : Code} {t : Table} {s : State} (h : t.length = (s.table c).length) : KeepsForm s (setTable c t s) where
  cfg := setTable_cfg c t s
  memory hm := by rwa [MemoryInv, setTable_mem]
  sizes := by
    rintro ⟨hp, hl, hpt, hlt, hot⟩
    cases c with
    | precode => exact ⟨hp, hl, h.trans hpt, hlt, hot⟩
    | litlen => exact ⟨hp, hl, hpt, h.trans hlt, hot⟩
    | offset => exact ⟨hp, hl, hpt, hlt, h.trans hot⟩

theorem build_keepsForm (c : Code) (lens : List Nat) (s : State) : (build c lens s).Keeps (KeepsForm s) := by
  rcases build_cases c lens s with ⟨_, e⟩ | ⟨_, e⟩ | ⟨_, e⟩ <;> rw [e]
  · exact Res.keeps_raised.mpr (.of_frame rfl rfl)
  · exact Res.keeps_raised.mpr (.of_frame rfl rfl)
  · have hs : KeepsForm s (sortScratch lens c.maxLen s) := .of_frame rfl rfl
    have ht := setTable_keepsForm (c := c) (s := sortScratch lens c.maxLen s)
      (t := buildTable c.result (tableBits s.cfg c) c.maxLen lens (s.table c)) (by rw [buildTable_length]; cases c <;> rfl)
    exact Res.keeps_ok.mpr ((hs.trans ht).trans (.of_frame rfl rfl))

/-! ## Output bytes and code lengths -/

theorem outWrite_keepsForm (p : Nat) (b : Byte) (s : State) : KeepsForm s (outWrite p b s) :=
  .of_eq (outWrite_frame p b s) (.of_arrays rfl Mem.wf_write)

theorem copyBytes_keepsForm (dst dist n j : Nat) (s : State) : KeepsForm s (copyBytes dst dist n j s) :=
  .of_eq (copyBytes_frame dst dist n j s) (.of_arrays rfl (copyBytes_wf dst dist n j))

theorem putLengths_keepsForm (v : BitVec 4) (n : Nat) (s : State) : KeepsForm s (putLengths v n s) where
  cfg := rfl
  memory := id
  sizes := fun ⟨hp, hl, ht⟩ => ⟨hp, (setRun_length v s.li n s.lens).trans hl, ht⟩

theorem zeroFillPrecode_length (hclen : Nat) (l : List (BitVec 3)) : (zeroFillPrecode hclen l).length = l.length := by
  unfold zeroFillPrecode
  generalize permTable.drop hclen = syms
  induction syms generalizing l with
  | nil => rfl
  | cons sym syms ih => rw [List.foldl_cons, ih, List.length_set]

theorem putPrecodeLen_length (len : BitVec 3) (s : State) : (putPrecodeLen len s).precodeLens.length = s.precodeLens.length := by
  unfold putPrecodeLen
  dsimp only
  split
  · rw [zeroFillPrecode_length, List.length_set]
  · exact List.length_set

/-- One precode length writes the index, the phase and the precode lengths alone (42_block_control.md R177). -/
theorem putPrecodeLen_frame (len : BitVec 3) (s : State) :
    putPrecodeLen len s =
      { s with
        precodeLens := (putPrecodeLen len s).precodeLens, pi := (putPrecodeLen len s).pi, phase := (putPrecodeLen len s).phase } := by
  unfold putPrecodeLen
  dsimp only
  split <;> rfl

theorem putPrecodeLen_keepsForm (len : BitVec 3) (s : State) : KeepsForm s (putPrecodeLen len s) := by
  have hl := putPrecodeLen_length len s
  rw [putPrecodeLen_frame]
  exact ⟨rfl, id, fun ⟨hp, ht⟩ => ⟨hl.trans hp, ht⟩⟩

/-! ## Elements -/

theorem start_keepsForm (s : State) : (start s).Keeps (KeepsForm s) := by
  have h : KeepsForm s (startTile s) := .of_frame rfl rfl
  unfold start
  split
  · exact (raise_keepsForm _ _ _).after h
  · split
    · exact Res.keeps_refused
    · split
      · exact Res.keeps_refused
      · exact Res.keeps_ok.mpr h

theorem literal_keepsForm (byte : Byte) (s : State) : (literal byte s).Keeps (KeepsForm s) := by
  unfold literal
  split
  · exact raise_keepsForm _ _ s
  · exact (advance_keepsForm _).after ((outWrite_keepsForm s.outPos byte s).trans (.of_frame rfl rfl))

theorem matchRecord_keepsForm (len : Nat) (s : State) : (matchRecord len s).Keeps (KeepsForm s) := by
  unfold matchRecord
  split
  · exact raise_keepsForm _ _ s
  · exact (advance_keepsForm _).after (.of_frame rfl rfl)

theorem endOfBlock_keepsForm (s : State) : (endOfBlock s).Keeps (KeepsForm s) := by
  have h : KeepsForm s { emit (.eob s.cur) s with state := .drain } := .of_frame rfl rfl
  unfold endOfBlock
  dsimp only
  split
  · exact (advance_keepsForm _).after h
  · exact Res.keeps_ok.mpr h

theorem copy_keepsForm (c : Fin 32) (dist : Nat) (s : State) : (copy c dist s).Keeps (KeepsForm s) := by
  unfold copy
  dsimp only
  split
  · exact raise_keepsForm _ _ s
  · exact Res.keeps_ok.mpr ((copyBytes_keepsForm _ _ _ _ s).trans (.of_frame rfl rfl))

theorem matchCopy_keepsForm (dist : Nat) (s : State) : (matchCopy dist s).Keeps (KeepsForm s) :=
  (copy_keepsForm s.cur dist s).andThen fun _ _ => (advance_keepsForm _).after (.of_frame rfl rfl)

/-- The effects the ninety-three instructions have between them: rows that differ in a constant alone have one effect. -/
inductive Effect (s : State) : Host.Outcome State Fault Refusal → Prop where
  | ctrlStart (irqEn : Bool) : Effect s (execCtrlStart irqEn s)
  | ctrlAck (irqEn : Bool) : Effect s (execCtrlAck irqEn s)
  | ctrlIrqEn (irqEn : Bool) : Effect s (execCtrlIrqEn irqEn s)
  | bhdrStored (final : Bool) : Effect s (execBhdrStored final s)
  | bhdrStatic (final : Bool) : Effect s (execBhdrStatic final s)
  | bhdrDynamic (final : Bool) : Effect s (execBhdrDynamic final s)
  | bhdrReserved (final : Bool) : Effect s (execBhdrReserved final s)
  | dcounts (hlit hdist hclen : Nat) : Effect s (execDcounts hlit hdist hclen s)
  | prelen (len : BitVec 3) : Effect s (execPrelen len s)
  | lengths (v : BitVec 4) (n : Nat) : Effect s (.next (putLengths v n s))
  | repeatLength (extra : BitVec 2) : Effect s (execPresymRep16 extra s)
  | literal (byte : Byte) : Effect s (literal byte s).outcome
  | endOfBlock : Effect s (endOfBlock s).outcome
  | matchRecord (len : Nat) : Effect s (matchRecord len s).outcome
  | matchCopy (dist : Nat) : Effect s (matchCopy dist s).outcome

/-- Every instruction has one of these effects. -/
theorem exec_effect (i : Instr) (s : State) : Effect s (exec i s) := by
  cases i
  case ctrlStart => exact .ctrlStart _
  case ctrlAck => exact .ctrlAck _
  case ctrlIrqEn => exact .ctrlIrqEn _
  case bhdrStored => exact .bhdrStored _
  case bhdrStatic => exact .bhdrStatic _
  case bhdrDynamic => exact .bhdrDynamic _
  case bhdrReserved => exact .bhdrReserved _
  case dcounts => exact .dcounts _ _ _
  case prelen => exact .prelen _
  case presymRep16 => exact .repeatLength _
  case llLiteral => exact .literal _
  case llEob => exact .endOfBlock
  case presymLen0 | presymLen1 | presymLen2 | presymLen3 | presymLen4 | presymLen5 | presymLen6 | presymLen7 | presymLen8 | presymLen9
      | presymLen10 | presymLen11 | presymLen12 | presymLen13 | presymLen14 | presymLen15 | presymZero17 | presymZero18 =>
    exact .lengths _ _
  case llLen257 | llLen258 | llLen259 | llLen260 | llLen261 | llLen262 | llLen263 | llLen264 | llLen265 | llLen266 | llLen267 | llLen268
      | llLen269 | llLen270 | llLen271 | llLen272 | llLen273 | llLen274 | llLen275 | llLen276 | llLen277 | llLen278 | llLen279 | llLen280
      | llLen281 | llLen282 | llLen283 | llLen284 | llLen285 | llLen286 | llLen287 =>
    exact .matchRecord _
  all_goals exact .matchCopy _

theorem exec_keepsForm {i : Instr} {s t : State} (h : exec i s = .next t) : KeepsForm s t := by
  have he := exec_effect i s
  rw [h] at he
  generalize ho : Host.Outcome.next t = o at he
  cases he with
  | ctrlStart irqEn =>
    have hw : KeepsForm s (writeIrqEn irqEn s) := .of_frame rfl rfl
    unfold execCtrlStart at ho
    split at ho
    · cases ho; exact hw
    · exact ((start_keepsForm _).after hw).outcome ho.symm
  | ctrlAck irqEn =>
    unfold execCtrlAck at ho
    split at ho <;> cases ho <;> exact .of_frame rfl rfl
  | ctrlIrqEn irqEn => cases ho; exact .of_frame rfl rfl
  | bhdrStored final => cases ho; exact .of_frame rfl rfl
  | bhdrStatic final => cases ho; exact .of_frame rfl rfl
  | bhdrDynamic final => cases ho; exact .of_frame rfl rfl
  | bhdrReserved final => cases ho; exact .of_frame rfl rfl
  | dcounts hlit hdist hclen => cases ho; exact .of_frame rfl rfl
  | prelen len => cases ho; exact putPrecodeLen_keepsForm len s
  | lengths v n => cases ho; exact putLengths_keepsForm v n s
  | repeatLength extra =>
    unfold execPresymRep16 at ho
    split at ho
    · cases ho; exact .of_frame rfl rfl
    · cases ho; exact putLengths_keepsForm _ _ s
  | literal byte => exact (literal_keepsForm byte s).outcome ho.symm
  | endOfBlock => exact (endOfBlock_keepsForm s).outcome ho.symm
  | matchRecord len => exact (matchRecord_keepsForm len s).outcome ho.symm
  | matchCopy dist => exact (matchCopy_keepsForm dist s).outcome ho.symm

theorem runElement_keepsForm (f : Format) (s : State) : (runElement f s).Keeps (KeepsForm s) :=
  (fetch_keepsForm f s).andThen fun _ _ => .ofOutcome fun _ => exec_keepsForm

/-! ## The engine's operations -/

theorem advances_keepsForm (n : Nat) (s : State) : (advances n s).Keeps (KeepsForm s) := by
  induction n generalizing s with
  | zero => exact Res.keeps_ok.mpr (.refl s)
  | succ n ih => exact (advance_keepsForm s).andThen fun _ u => ih u

theorem opPrime_keepsForm (s : State) : (opPrime s).Keeps (KeepsForm s) :=
  (advances_keepsForm 32 s).andThen fun _ _ => Res.keeps_ok.mpr (.of_frame rfl rfl)

theorem opPrelens_keepsForm (n : Nat) (s : State) : (opPrelens n s).Keeps (KeepsForm s) := by
  induction n generalizing s with
  | zero => exact Res.keeps_ok.mpr (.refl s)
  | succ n ih =>
    refine (runElement_keepsForm .prelen s).andThen fun _ u => ?_
    split
    · exact ih u
    · exact Res.keeps_ok.mpr (.refl u)

theorem opPrebuild_keepsForm (s : State) : (opPrebuild s).Keeps (KeepsForm s) :=
  (build_keepsForm .precode _ s).andThen fun _ _ => Res.keeps_ok.mpr (.of_frame rfl rfl)

theorem enterDecode_keepsForm (s : State) : (enterDecode s).Keeps (KeepsForm s) :=
  (headerRefill_keepsForm _ s).andThen fun _ _ => Res.keeps_ok.mpr (.of_frame rfl rfl)

theorem opDynBuild_keepsForm (s : State) : (opDynBuild s).Keeps (KeepsForm s) :=
  (build_keepsForm .offset _ s).andThen fun _ u => (build_keepsForm .litlen _ u).andThen fun _ v => enterDecode_keepsForm v

theorem installStatic_keepsForm (s : State) : (installStatic s).Keeps (KeepsForm s) :=
  (build_keepsForm .offset _ s).andThen fun _ u =>
    (build_keepsForm .litlen _ u).andThen fun _ _ => Res.keeps_ok.mpr (.of_frame rfl rfl)

theorem opStaticTables_keepsForm (s : State) : (opStaticTables s).Keeps (KeepsForm s) := by
  unfold opStaticTables
  split
  · exact enterDecode_keepsForm s
  · exact (installStatic_keepsForm s).andThen fun _ u => enterDecode_keepsForm u

theorem finish_keepsForm (s : State) : (finish s).Keeps (KeepsForm s) := by
  unfold finish
  split
  · exact raise_keepsForm _ _ s
  · exact Res.keeps_ok.mpr (.of_frame rfl rfl)

theorem blockDone_keepsForm (s : State) : (blockDone s).Keeps (KeepsForm s) := by
  unfold blockDone
  split
  · exact finish_keepsForm s
  · exact Res.keeps_ok.mpr (.of_frame rfl rfl)

theorem drainStep_keepsForm (s : State) : (drainStep s).Keeps (KeepsForm s) := by
  unfold drainStep
  split
  · exact runElement_keepsForm .offsym s
  · exact advance_keepsForm s

theorem drainSteps_keepsForm (n : Nat) (s : State) : (drainSteps n s).Keeps (KeepsForm s) := by
  induction n generalizing s with
  | zero => exact Res.keeps_ok.mpr (.refl s)
  | succ n ih => exact (drainStep_keepsForm s).andThen fun _ u => ih u

theorem opDrain_keepsForm (s : State) : (opDrain s).Keeps (KeepsForm s) :=
  have h : KeepsForm s (drainStart s) := .of_frame rfl rfl
  ((drainSteps_keepsForm 32 (drainStart s)).after h).andThen fun _ u => blockDone_keepsForm u

theorem operation_keepsForm (s : State) : (operation s).Keeps (KeepsForm s) := by
  unfold operation
  cases s.state with
  | idle | done | error => exact Res.keeps_ok.mpr (.refl s)
  | prime => exact opPrime_keepsForm s
  | header => exact runElement_keepsForm .bhdr s
  | dynTables =>
    cases s.phase with
    | counts => exact runElement_keepsForm .dcounts s
    | prelens => exact opPrelens_keepsForm 19 s
    | prebuild => exact opPrebuild_keepsForm s
    | lens => exact runElement_keepsForm .presym s
    | build => exact opDynBuild_keepsForm s
  | staticTables => exact opStaticTables_keepsForm s
  | decode =>
    dsimp only
    split
    · exact runElement_keepsForm .offsym s
    · exact runElement_keepsForm .llsym s
  | drain => exact opDrain_keepsForm s

theorem engineStep_keepsForm {s t : State} (h : engineStep s = .next t) : KeepsForm s t := (operation_keepsForm s).outcome h

/-! ## The host and reset -/

theorem writeReg_keepsForm {off : Nat} {v : Word} {s t : State} (h : writeReg off v s = .next t) : KeepsForm s t := by
  unfold writeReg at h
  split at h
  · exact exec_keepsForm h
  · cases h
    have e := writeConfigReg_frame off v s
    exact .of_eq e (.of_frame rfl rfl)

theorem storeBytes_keepsForm (addr v : Word) (i n : Nat) (s : State) : KeepsForm s (storeBytes addr v i n s) :=
  .of_eq (storeBytes_frame addr v i n s) (.of_arrays rfl (storeBytes_wf addr v i n))

theorem loadBytes_keepsForm (addr : Word) (i n : Nat) (s : State) : KeepsForm s (loadBytes addr i n s).2 :=
  .of_eq (loadBytes_frame addr i n s) (.of_frame rfl rfl)

theorem hostStore_keepsForm {addr v : Word} {size : Size} {s t : State} (h : hostStore addr size v s = .next t) : KeepsForm s t := by
  unfold hostStore at h
  split at h
  · split at h
    · exact writeReg_keepsForm h
    · cases h
  · cases h; exact storeBytes_keepsForm addr v 0 size.bytes s

theorem hostLoad_keepsForm {addr : Word} {size : Size} {s t : State} (h : hostLoad addr size s = .next t) : KeepsForm s t := by
  unfold hostLoad at h
  split at h
  · split at h
    · cases h; exact .of_frame rfl rfl
    · cases h
  · cases h; exact (loadBytes_keepsForm addr 0 size.bytes s).trans (.of_frame rfl rfl)

/-- Reset sizes every array and table anew, from the same parameters (10_state.md R52). -/
theorem hardReset_keepsForm (s : State) : KeepsForm s (hardReset s) where
  cfg := rfl
  memory := id
  sizes _ := ⟨List.length_replicate, List.length_replicate, List.length_replicate, List.length_replicate, List.length_replicate⟩

theorem perform_keepsForm {i : Input} {s t : State} (h : perform i s = .next t) : KeepsForm s t := by
  cases i with
  | engine => exact engineStep_keepsForm h
  | store addr size v => exact hostStore_keepsForm h
  | load addr size => exact hostLoad_keepsForm h
  | reset => cases h; exact hardReset_keepsForm s

/-- Every step keeps the parameters, memory's canonical form, and the sizes of the arrays and tables. -/
theorem step_keepsForm {s t : State} (h : step s = .next t) : KeepsForm s t := by
  cases hi : s.inputs with
  | nil => exact engineStep_keepsForm (step_engine hi ▸ h)
  | cons i rest =>
    have hr : KeepsForm s { s with inputs := rest } := .of_frame rfl rfl
    exact hr.trans (perform_keepsForm (step_input hi ▸ h))

/-- Settles O51: the memory part of the form every step keeps. -/
theorem stepKeepsMemoryForm : Obligations.StepKeepsMemoryForm := by
  intro s t hs h
  exact (step_keepsForm h).memory hs

/-- Settles O58: the sizes and the parameters of the form every step keeps. -/
theorem stepKeepsSizes : Obligations.StepKeepsSizes := by
  intro s t hs h
  exact ⟨(step_keepsForm h).sizes hs, (step_keepsForm h).cfg⟩

end Sys2Proof.Machine
end

section
/-! PROOFS. Host stores and loads of memory with no tile open: little-endian, byte by byte (00_scope.md R10; 20_memory.md R60, R66). -/

namespace Sys2Proof.Machine

/-- Addresses of one base are apart where their offsets are, within the size of the address space (00_scope.md R10). -/
theorem addr_inj {s : State} {base : Word} {p q : Nat} (hp : p < 2 ^ s.cfg.addrWidth) (hq : q < 2 ^ s.cfg.addrWidth)
    (h : s.addr base p = s.addr base q) : p = q :=
  outAddr_inj (s := { s with outBase := base }) hp hq h

/-- Memory after the bytes of `v` from byte `i` on are written, byte `j` to address `loc j`. -/
def writeBytes (loc : Nat → Nat) (v : Word) : Nat → Nat → List Host.Cell → List Host.Cell
  | _, 0, m => m
  | i, n + 1, m => writeBytes loc v (i + 1) n (Mem.write (loc i) ((v >>> (8 * i)).setWidth 8) m)

/-- Writing bytes changes no byte at another address. -/
theorem read_writeBytes_other {loc : Nat → Nat} {v : Word} {i n a : Nat} {m : List Host.Cell} (hm : Mem.wf m = true)
    (ha : ∀ j, i ≤ j → j < i + n → a ≠ loc j) : Mem.read (writeBytes loc v i n m) a = Mem.read m a := by
  induction n generalizing i m with
  | zero => rfl
  | succ n ih =>
    rw [writeBytes, ih (Mem.wf_write hm) fun j hi hj => ha j (by omega) (by omega), Mem.read_write hm,
      if_neg (ha i (by omega) (by omega))]

/-- Written to addresses that are apart, each byte is there afterwards. -/
theorem read_writeBytes {loc : Nat → Nat} {v : Word} {i n j : Nat} {m : List Host.Cell} (hm : Mem.wf m = true)
    (hloc : ∀ p < i + n, ∀ q < i + n, loc p = loc q → p = q) (hi : i ≤ j) (hj : j < i + n) :
    Mem.read (writeBytes loc v i n m) (loc j) = (v >>> (8 * j)).setWidth 8 := by
  induction n generalizing i m with
  | zero => omega
  | succ n ih =>
    rw [writeBytes]
    rcases Nat.eq_or_lt_of_le hi with rfl | hlt
    · have hother : ∀ k, i + 1 ≤ k → k < i + 1 + n → loc i ≠ loc k := fun k hk hk' heq => by
        have := hloc i hj k (by omega) heq
        omega
      rw [read_writeBytes_other (Mem.wf_write hm) hother, Mem.read_write hm, if_pos rfl]
    · have hloc' : ∀ p < i + 1 + n, ∀ q < i + 1 + n, loc p = loc q → p = q := fun p hp q hq =>
        hloc p (by omega) q (by omega)
      exact ih (Mem.wf_write hm) hloc' hlt (by omega)

/-- With no tile open a store's byte goes to memory, and nothing else changes. -/
theorem storeByte_closed {s : State} (h : s.openTiles = []) (a : Nat) (b : Byte) :
    storeByte a b s = { s with mem := Mem.write a b s.mem } := by
  simp [storeByte, State.inOpenInput, State.inOpenOutput, h]

/-- With no tile open a store writes its bytes, and nothing else changes. -/
theorem storeBytes_closed {s : State} (h : s.openTiles = []) (addr v : Word) (i n : Nat) :
    storeBytes addr v i n s = { s with mem := writeBytes (s.addr addr) v i n s.mem } := by
  induction n generalizing i s with
  | zero => rfl
  | succ n ih =>
    rw [storeBytes, storeByte_closed h, ih]
    · rfl
    · exact h

/-- With no tile open a load of a byte is memory's byte. -/
theorem loadByte_closed {s : State} (h : s.openTiles = []) (a : Nat) : loadByte a s = (Mem.read s.mem a, s) := by
  simp [loadByte, State.inOpenOutput, h]

/-- Putting byte `i` of `v` below the bytes from `i + 1` on gives the bytes from `i` on. -/
theorem byte_or_shifted (v : Word) (i : Nat) :
    (((v >>> (8 * i)).setWidth 8).setWidth 32 <<< (8 * i)) ||| (v >>> (8 * (i + 1)) <<< (8 * (i + 1))) = v >>> (8 * i) <<< (8 * i) := by
  apply BitVec.eq_of_getLsbD_eq
  intro j hj
  by_cases h1 : j < 8 * i
  · have h2 : j < 8 * (i + 1) := by omega
    simp [h1, h2]
  · by_cases h2 : j < 8 * (i + 1)
    · have h3 : j - 8 * i < 8 := by omega
      have h4 : j - 8 * i < 32 := by omega
      simp [hj, h1, h2, h3, h4]
    · have h3 : ¬ j - 8 * i < 8 := by omega
      have h4 : 8 * (i + 1) + (j - 8 * (i + 1)) = 8 * i + (j - 8 * i) := by omega
      simp [hj, h1, h2, h3, h4]

/-- With no tile open, a load up to byte 4 of an address where the bytes of `v` lie gives the bytes of `v` from `i` on. -/
theorem loadBytes_closed {s : State} (h : s.openTiles = []) {addr v : Word} {i n : Nat} (hn : i + n = 4)
    (hb : ∀ k < 4, Mem.read s.mem (s.addr addr k) = (v >>> (8 * k)).setWidth 8) :
    loadBytes addr i n s = (v >>> (8 * i) <<< (8 * i), s) := by
  induction n generalizing i with
  | zero =>
    obtain rfl : i = 4 := hn
    have hv : v >>> (8 * 4) = 0#32 := BitVec.ushiftRight_eq_zero (by decide)
    rw [loadBytes, hv, BitVec.zero_shiftLeft]
  | succ n ih =>
    simp only [loadBytes, loadByte_closed h, ih (i := i + 1) (by omega), hb i (by omega), byte_or_shifted]

/-- A step that stores outside the register window with no tile open writes the bytes, and nothing else changes. -/
theorem step_store_closed {s : State} {addr v : Word} {size : Size} {rest : List Input} (ho : s.openTiles = [])
    (hr : s.touchesRegisters addr size = false) (hi : s.inputs = .store addr size v :: rest) :
    step s = .next { s with inputs := rest, mem := writeBytes (s.addr addr) v 0 size.bytes s.mem } := by
  have hr' : ({ s with inputs := rest } : State).touchesRegisters addr size = false := hr
  rw [step_input hi, perform, hostStore, hr', storeBytes_closed (s := { s with inputs := rest }) ho]
  rfl

/-- A step that loads the word whose bytes lie in memory, outside the register window with no tile open, shows it and changes nothing
else. -/
theorem step_load_closed {s : State} {addr v : Word} {rest : List Input} (ho : s.openTiles = [])
    (hr : s.touchesRegisters addr .word = false) (hi : s.inputs = .load addr .word :: rest)
    (hb : ∀ k < 4, Mem.read s.mem (s.addr addr k) = (v >>> (8 * k)).setWidth 8) :
    step s = .next { s with inputs := rest, hostData := v } := by
  have hr' : ({ s with inputs := rest } : State).touchesRegisters addr .word = false := hr
  have hload : loadBytes addr 0 Size.word.bytes { s with inputs := rest } = (v, { s with inputs := rest }) := by
    simpa using loadBytes_closed (s := { s with inputs := rest }) (i := 0) ho rfl hb
  rw [step_input hi, perform, hostLoad, hr', hload]
  rfl

/-- Settles O48: the store's bytes by `read_writeBytes`, the bytes it leaves alone by `read_writeBytes_other`, and the load by
`step_load_closed`. -/
theorem storeThenLoad : Obligations.StoreThenLoad := by
  intro s addr v rest hw ho hm hr hi
  have hsize : 4 ≤ 2 ^ s.cfg.addrWidth := Nat.pow_le_pow_right (n := 2) (by decide) hw
  have hloc : ∀ p < 0 + 4, ∀ q < 0 + 4, s.addr addr p = s.addr addr q → p = q := fun p hp q hq =>
    addr_inj (by omega) (by omega)
  have hbytes : ∀ k < 4, Mem.read (writeBytes (s.addr addr) v 0 4 s.mem) (s.addr addr k) = (v >>> (8 * k)).setWidth 8 :=
    fun k hk => read_writeBytes hm hloc (Nat.zero_le k) (by omega)
  have hother : ∀ a, (∀ k < 4, a ≠ s.addr addr k) → Mem.read (writeBytes (s.addr addr) v 0 4 s.mem) a = Mem.read s.mem a :=
    fun a ha => read_writeBytes_other hm fun k _ hk => ha k (by omega)
  refine ⟨_, _, step_store_closed ho hr hi, ?_, rfl, hbytes, hother, rfl⟩
  exact step_load_closed ho hr rfl hbytes

end Sys2Proof.Machine
end

section
/-! PROOFS. What the engine's turn can do, said once: every operation is a sequence of named updates of the state, each with the condition
under which the operation makes it (42_block_control.md R170). An invariant of the engine is then a fact about these updates. -/

namespace Sys2Proof

/-! ## The instructions a fetch reads -/

/-- A well-formed instruction of format `f`. -/
structure Instr.Reads (f : Format) (i : Instr) : Prop where
  format : i.format = f
  wellFormed : i.wellFormed = true

theorem noExtra_eq_ok {extra : Nat} {i j : Instr} : noExtra extra j = .ok i ↔ extra = 0 ∧ j = i := by
  unfold noExtra
  split <;> simp_all

theorem withExtra_eq_ok {k extra : Nat} {mk : BitVec k → Instr} {i : Instr} :
    withExtra k extra mk = .ok i ↔ extra < 2 ^ k ∧ mk (BitVec.ofNat k extra) = i := by
  unfold withExtra
  split <;> simp_all

theorem decodePresym_reads {sym extra : Nat} {i : Instr} (h : decodePresym sym extra = .ok i) : i.Reads .presym := by
  unfold decodePresym at h
  split at h <;> simp only [noExtra_eq_ok, withExtra_eq_ok, reduceCtorEq] at h
  all_goals
    obtain ⟨_, rfl⟩ := h
    exact ⟨rfl, rfl⟩

theorem decodeLitlen_reads {sym extra : Nat} {i : Instr} (h : decodeLitlen sym extra = .ok i) : i.Reads .llsym := by
  unfold decodeLitlen decodeLength at h
  split at h
  · obtain ⟨_, rfl⟩ := noExtra_eq_ok.mp h
    exact ⟨rfl, rfl⟩
  · split at h <;> simp only [noExtra_eq_ok, withExtra_eq_ok, reduceCtorEq] at h
    all_goals
      obtain ⟨_, rfl⟩ := h
      exact ⟨rfl, rfl⟩

theorem decodeOffset_reads {sym extra : Nat} {i : Instr} (h : decodeOffset sym extra = .ok i) : i.Reads .offsym := by
  unfold decodeOffset at h
  split at h <;> simp only [noExtra_eq_ok, withExtra_eq_ok, reduceCtorEq] at h
  all_goals
    obtain ⟨_, rfl⟩ := h
    exact ⟨rfl, rfl⟩

theorem decodeBhdr_reads (h : BitVec 3) : (decodeBhdr h).Reads .bhdr := by
  unfold decodeBhdr
  dsimp only
  split <;> exact ⟨rfl, rfl⟩

theorem decodeDcounts_reads (hlit hdist : BitVec 5) (hclen : BitVec 4) : (decodeDcounts hlit hdist hclen).Reads .dcounts where
  format := rfl
  wellFormed := by
    have := hlit.isLt
    have := hdist.isLt
    have := hclen.isLt
    simp only [decodeDcounts, Instr.wellFormed, Bool.and_eq_true, decide_eq_true_eq]
    omega

/-- The header fields' formats have one decoder for the whole word. -/
theorem decode_header_reads {f : Format} {w : Nat} {i : Instr} (hf : f = .bhdr ∨ f = .dcounts ∨ f = .prelen)
    (h : decode f w = .ok i) : i.Reads f := by
  rcases hf with rfl | rfl | rfl
  all_goals
    simp only [decode] at h
    split at h <;> cases h
  · exact decodeBhdr_reads _
  · exact decodeDcounts_reads _ _ _
  · exact ⟨rfl, rfl⟩

/-- The phase of DYN_TABLES an element of a header format is read in (10_state.md R22). -/
def Format.InPhase (f : Format) (p : Machine.Phase) : Prop :=
  match f with
  | .dcounts => p = .counts
  | .prelen => p = .prelens
  | .presym => p = .lens
  | .ctrl | .bhdr | .llsym | .offsym => True

namespace Machine

/-- `P` holds of the value a part of an operation gives. -/
def Res.Gives {α : Type} (P : α → Prop) (r : Res α) : Prop := ∀ a t, r = .ok a t → P a

theorem Res.Gives.bind {α β : Type} {P : β → Prop} {r : Res α} {k : α → State → Res β} (hk : ∀ a u, (k a u).Gives P) :
    (r.bind k).Gives P := by
  intro b t h
  obtain ⟨a, u, _, h⟩ := Res.bind_eq_ok.mp h
  exact hk a u b t h

theorem decoded_gives {P : Instr → Prop} {d : Except Reject Instr} {s : State} (h : ∀ i, d = .ok i → P i) :
    (decoded d s).Gives P := by
  intro i t e
  cases d with
  | ok j => cases e; exact h _ rfl
  | error r => cases e

/-- A fetch gives a well-formed instruction of the format it was asked for. -/
theorem fetch_reads {f : Format} {s t : State} {i : Instr} (h : fetch f s = .ok i t) : i.Reads f := by
  suffices hg : (fetch f s).Gives (Instr.Reads f) from hg i t h
  cases f with
  | ctrl => intro _ _ e; cases e
  | bhdr => exact .bind fun _ _ => decoded_gives fun _ => decode_header_reads (.inl rfl)
  | dcounts =>
    exact .bind fun _ _ => .bind fun _ _ => .bind fun _ _ => decoded_gives fun _ => decode_header_reads (.inr (.inl rfl))
  | prelen => exact .bind fun _ _ => decoded_gives fun _ => decode_header_reads (.inr (.inr rfl))
  | presym =>
    refine .bind fun _ _ => .bind fun e u => ?_
    dsimp only
    split
    · exact decoded_gives fun _ => decodePresym_reads
    · exact .bind fun _ _ => decoded_gives fun _ => decodePresym_reads
  | llsym =>
    refine .bind fun e u => ?_
    split
    · exact decoded_gives fun _ => decodeLitlen_reads
    · split
      · intro _ _ e; cases e
      · exact .bind fun _ _ => decoded_gives fun _ => decodeLitlen_reads
  | offsym =>
    refine .bind fun e u => ?_
    split
    · intro _ _ e; cases e
    · exact .bind fun _ _ => decoded_gives fun _ => decodeOffset_reads

/-! ## The updates -/

/-- The updates an operation of the engine is made of, each with what holds whenever an operation makes it. -/
inductive Move : State → State → Prop where
  | error (code : ErrCode) (detail : BitVec 4) (s : State) : Move s (errorEntry code detail s)
  | fetchWord (c : Fin 32) (s : State) (h : (s.lane c).left < 32) : Move s (fetchWord c s)
  | takeBits (c : Fin 32) (n : Nat) (s : State) (h : n ≤ (s.lane c).left) : Move s (setLane c ((s.lane c).drop n) s)
  | setCursor (c : Fin 32) (s : State) : Move s { s with cur := c }
  | setState (e : EngineState) (s : State) (h : e ≠ .dynTables) : Move s { s with state := e }
  | latchHeader (final : Bool) (btype : BitVec 2) (s : State) : Move s (latchHeader final btype s)
  | beginCounts (s : State) : Move s { s with state := .dynTables, phase := .counts }
  | setStatic (b : Bool) (s : State) : Move s { s with staticLoaded := b }
  | latchHlit (n : Nat) (s : State) (h : s.phase = .counts) : Move s { s with hlit := n }
  | latchHdist (n : Nat) (s : State) (h : s.phase = .counts) : Move s { s with hdist := n }
  | beginPrelens (hlit hdist hclen : Nat) (s : State) (h : (Instr.dcounts hlit hdist hclen).wellFormed = true) :
      Move s { s with staticLoaded := false, hlit := hlit, hdist := hdist, hclen := hclen, pi := 0, phase := .prelens }
  | putPrecodeLen (len : BitVec 3) (s : State) (h : s.phase = .prelens) : Move s (putPrecodeLen len s)
  | beginLens (s : State) (h : s.phase = .prebuild) : Move s { s with li := 0, phase := .lens }
  | putLengths (v : BitVec 4) (n : Nat) (s : State) (h : s.phase = .lens) (hn : n ≤ 138) : Move s (putLengths v n s)
  | sortScratch (lens : List Nat) (maxLen : Nat) (s : State) : Move s (sortScratch lens maxLen s)
  | setTable (c : Code) (t : Table) (s : State) : Move s (setTable c t s)
  | emit (e : Event) (s : State) : Move s (emit e s)
  | putLiteral (b : Byte) (s : State) (h : s.outPos < s.outBound.toNat) :
      Move s { outWrite s.outPos b s with outPos := s.outPos + 1 }
  | recordMatch (c : Fin 32) (len : Nat) (s : State) (h : s.outPos + len ≤ s.outBound.toNat) : Move s (recordMatch c len s)
  | copyBytes (dst dist n : Nat) (s : State) : Move s (copyBytes dst dist n 0 s)
  | clearPending (c : Fin 32) (s : State) : Move s (clearPending c s)

/-- A sequence of such updates. -/
abbrev Moves : State → State → Prop := Relation.ReflTransGen Move

theorem Move.moves {s t : State} (h : Move s t) : Moves s t := .single h

/-- What every update keeps, a sequence of them keeps. -/
theorem Moves.keeps {P : State → Prop} (hP : ∀ s t, Move s t → P s → P t) {s t : State} (h : Moves s t) (hs : P s) : P t := by
  induction h with
  | refl => exact hs
  | tail _ hm ih => exact hP _ _ hm ih

/-- A sequence of updates that stays in the header's phase. -/
structure Stays (s t : State) : Prop where
  moves : Moves s t
  phase : t.phase = s.phase

theorem Stays.refl (s : State) : Stays s s := ⟨.refl, rfl⟩

theorem Stays.trans {s t u : State} (h : Stays s t) (h' : Stays t u) : Stays s u := ⟨h.moves.trans h'.moves, h'.phase.trans h.phase⟩

/-- An update that leaves the phase alone. -/
theorem Move.stays {s t : State} (h : Move s t) (hp : t.phase = s.phase) : Stays s t := ⟨h.moves, hp⟩

/-- Parts that each stay in the phase do so together. -/
theorem Res.Keeps.thenStays {α β : Type} {s : State} {r : Res α} {k : α → State → Res β} (hr : r.Keeps (Stays s))
    (hk : ∀ a u, u.phase = s.phase → (k a u).Keeps (Stays u)) : (r.bind k).Keeps (Stays s) :=
  hr.bind fun a u hu => (hk a u hu.phase).imp fun _ h => hu.trans h

/-- A sequence of updates that a part makes, after one made before. -/
theorem Res.Keeps.afterMoves {α : Type} {s u : State} {r : Res α} (hr : r.Keeps (Moves u)) (h : Moves s u) : r.Keeps (Moves s) :=
  hr.imp fun _ h' => h.trans h'

/-- Parts that are each made of updates are so together. -/
theorem Res.Keeps.thenMoves {α β : Type} {s : State} {r : Res α} {k : α → State → Res β} (hr : r.Keeps (Moves s))
    (hk : ∀ a u, (k a u).Keeps (Moves u)) : (r.bind k).Keeps (Moves s) :=
  hr.bind fun a u hu => (hk a u).afterMoves hu

/-- After a part that stays in the phase, the next one may use what it gave, and the phase. -/
theorem Res.Keeps.staysThenMoves {α β : Type} {s : State} {r : Res α} {k : α → State → Res β} (hr : r.Keeps (Stays s))
    (hk : ∀ a u, r = .ok a u → u.phase = s.phase → (k a u).Keeps (Moves u)) : (r.bind k).Keeps (Moves s) :=
  Res.bind_keeps (fun a u e => (hr.1 a u e).moves) (fun u e => (hr.2 u e).moves)
    fun a u e hu => (hk a u e (hr.1 a u e).phase).afterMoves hu

theorem Res.Keeps.moves {α : Type} {s : State} {r : Res α} (hr : r.Keeps (Stays s)) : r.Keeps (Moves s) := hr.imp fun _ h => h.moves

theorem raise_moves {α : Type} (code : ErrCode) (detail : BitVec 4) (s : State) : (raise code detail s : Res α).Keeps (Moves s) := by
  rw [raise_eq, Res.keeps_raised]
  exact (Move.error code detail s).moves

/-! ## Lanes and lookups -/

theorem refill_stays (c : Fin 32) (s : State) : (refill c s).Keeps (Stays s) := by
  rcases refill_cases c s with ⟨_, e⟩ | ⟨_, _, _, e⟩ | ⟨hl, _, e⟩ <;> rw [e]
  · exact Res.keeps_ok.mpr (.refl s)
  · exact Res.keeps_raised.mpr ((Move.error _ _ s).stays rfl)
  · exact Res.keeps_ok.mpr ((Move.fetchWord c s hl).stays (by rw [fetchWord_frame]))

theorem advance_moves (s : State) : (advance s).Keeps (Moves s) := by
  unfold advance
  split
  · exact (refill_stays s.cur s).moves.thenMoves fun _ u => Res.keeps_ok.mpr (Move.setCursor _ u).moves
  · exact (refill_stays _ _).moves.afterMoves (Move.setCursor _ s).moves

theorem consume_stays (c : Fin 32) (n : Nat) (s : State) : (consume c n s).Keeps (Stays s) := by
  rcases consume_cases c n s with ⟨_, e⟩ | ⟨hn, e⟩ <;> rw [e]
  · exact Res.keeps_raised.mpr ((Move.error _ _ s).stays rfl)
  · exact Res.keeps_ok.mpr ((Move.takeBits c n s hn).stays rfl)

theorem pop_stays (c : Fin 32) (n : Nat) (s : State) : (pop c n s).Keeps (Stays s) :=
  (consume_stays c n s).thenStays fun _ u _ => Res.keeps_ok.mpr (.refl u)

theorem headerRefill_stays (due : Bool) (s : State) : (headerRefill due s).Keeps (Stays s) := by
  cases due with
  | false => exact Res.keeps_ok.mpr (.refl s)
  | true => exact refill_stays s.headerLane s

theorem hpop_stays (due : Bool) (n : Nat) (s : State) : (hpop due n s).Keeps (Stays s) :=
  (headerRefill_stays due s).thenStays fun _ u _ => pop_stays u.headerLane n u

theorem readEntry_stays (c : Code) (k : Nat) (s : State) : (readEntry c k s).Keeps (Stays s) :=
  ⟨fun _ _ h => (readEntry_ok h).1 ▸ .refl s, fun _ h => absurd h readEntry_not_raised⟩

theorem lookup_stays (c : Code) (lane : Fin 32) (s : State) : (lookup c lane s).Keeps (Stays s) := by
  refine (readEntry_stays c _ s).thenStays fun e u _ => ?_
  split
  · exact (consume_stays lane _ u).thenStays fun _ v _ => (readEntry_stays c _ v).thenStays fun _ w _ =>
      (consume_stays lane _ w).thenStays fun _ x _ => Res.keeps_ok.mpr (.refl x)
  · exact (consume_stays lane _ u).thenStays fun _ v _ => Res.keeps_ok.mpr (.refl v)

/-! ## Elements -/

theorem decoded_stays (d : Except Reject Instr) (s : State) : (decoded d s).Keeps (Stays s) := by
  cases d with
  | ok i => exact Res.keeps_ok.mpr (.refl s)
  | error r => exact Res.keeps_fault

theorem fetchDcounts_stays {s : State} (h : s.phase = .counts) : (fetchDcounts s).Keeps (Stays s) := by
  have hset := (Move.setStatic false s).stays rfl
  refine Res.Keeps.thenStays ((hpop_stays _ 5 _).imp fun _ => hset.trans) fun x u hu => ?_
  have hlit := (Move.latchHlit (x + 257) u (hu.trans h)).stays rfl
  refine Res.Keeps.thenStays ((hpop_stays _ 5 _).imp fun _ => hlit.trans) fun y v hv => ?_
  have hdist := (Move.latchHdist (y + 1) v (hv.trans (hu.trans h))).stays rfl
  exact Res.Keeps.thenStays ((hpop_stays _ 4 _).imp fun _ => hdist.trans) fun _ w _ => decoded_stays _ w

theorem fetch_stays {f : Format} {s : State} (h : f.InPhase s.phase) : (fetch f s).Keeps (Stays s) := by
  cases f with
  | ctrl => exact Res.keeps_fault
  | bhdr => exact (hpop_stays _ 3 s).thenStays fun _ u _ => decoded_stays _ u
  | dcounts => exact fetchDcounts_stays h
  | prelen => exact (hpop_stays _ 3 s).thenStays fun _ u _ => decoded_stays _ u
  | presym =>
    refine (headerRefill_stays _ s).thenStays fun _ u _ => (lookup_stays .precode _ u).thenStays fun e v _ => ?_
    dsimp only
    split
    · exact decoded_stays _ v
    · exact (hpop_stays _ _ v).thenStays fun _ w _ => decoded_stays _ w
  | llsym =>
    refine (lookup_stays .litlen s.cur s).thenStays fun e u _ => ?_
    split
    · exact decoded_stays _ u
    · split
      · exact Res.keeps_fault
      · exact (pop_stays _ _ u).thenStays fun _ v _ => decoded_stays _ v
  | offsym =>
    refine (lookup_stays .offset s.cur s).thenStays fun e u _ => ?_
    split
    · exact Res.keeps_fault
    · exact (pop_stays _ _ u).thenStays fun _ v _ => decoded_stays _ v

theorem literal_moves (b : Byte) (s : State) : (literal b s).Keeps (Moves s) := by
  unfold literal
  split
  · exact raise_moves _ _ s
  · exact (advance_moves _).afterMoves (Move.putLiteral b s (by omega)).moves

theorem matchRecord_moves (len : Nat) (s : State) : (matchRecord len s).Keeps (Moves s) := by
  unfold matchRecord
  split
  · exact raise_moves _ _ s
  · exact (advance_moves _).afterMoves (Move.recordMatch s.cur len s (by omega)).moves

theorem endOfBlock_moves (s : State) : (endOfBlock s).Keeps (Moves s) := by
  have h : Moves s { emit (.eob s.cur) s with state := .drain } :=
    (Move.emit (.eob s.cur) s).moves.tail (.setState .drain _ (by decide))
  unfold endOfBlock
  dsimp only
  split
  · exact (advance_moves _).afterMoves h
  · exact Res.keeps_ok.mpr h

theorem matchCopy_moves (dist : Nat) (s : State) : (matchCopy dist s).Keeps (Moves s) := by
  have hcopy : (copy s.cur dist s).Keeps (Moves s) := by
    unfold copy
    dsimp only
    split
    · exact raise_moves _ _ s
    · exact Res.keeps_ok.mpr ((Move.copyBytes _ _ _ s).moves.tail (.emit _ _))
  exact hcopy.thenMoves fun _ u => (advance_moves _).afterMoves (Move.clearPending u.cur u).moves

/-- A precode element writes at most 138 codeword lengths, or raises (42_block_control.md R180 to R183). -/
theorem exec_presym {i : Instr} (h : i.format = .presym) (s : State) :
    (∃ v n, n ≤ 138 ∧ exec i s = .next (putLengths v n s)) ∨ exec i s = .next (errorEntry .corruptStream 6#4 s) := by
  cases i
  case presymRep16 extra =>
    have := extra.isLt
    simp only [exec, execPresymRep16]
    split
    · exact .inr rfl
    · exact .inl ⟨_, _, by omega, rfl⟩
  case presymZero17 extra => exact .inl ⟨_, _, by have := extra.isLt; omega, rfl⟩
  case presymZero18 extra => exact .inl ⟨_, _, by have := extra.isLt; omega, rfl⟩
  case presymLen0 | presymLen1 | presymLen2 | presymLen3 | presymLen4 | presymLen5 | presymLen6 | presymLen7 | presymLen8 | presymLen9
      | presymLen10 | presymLen11 | presymLen12 | presymLen13 | presymLen14 | presymLen15 =>
    exact .inl ⟨_, 1, by omega, rfl⟩
  all_goals cases h

theorem exec_presym_moves {i : Instr} {s t : State} (hf : i.format = .presym) (hp : s.phase = .lens) (h : exec i s = .next t) :
    Moves s t := by
  rcases exec_presym hf s with ⟨v, n, hn, e⟩ | e <;> cases e.symm.trans h
  · exact (Move.putLengths v n s hp hn).moves
  · exact (Move.error _ _ s).moves

/-- The bits an element took out of a lane aside, its effect is a sequence of updates. -/
theorem exec_moves {f : Format} {i : Instr} {s t : State} (hi : i.Reads f) (hf : f ≠ .ctrl) (hp : f.InPhase s.phase)
    (h : exec i s = .next t) : Moves s t := by
  obtain ⟨rfl, hw⟩ := hi
  cases i
  case ctrlStart | ctrlAck | ctrlIrqEn => exact absurd rfl hf
  case bhdrStored final | bhdrReserved final =>
    cases h
    exact (Move.latchHeader final _ s).moves.tail (.error _ _ _)
  case bhdrStatic final =>
    cases h
    exact (Move.latchHeader final _ s).moves.tail (.setState _ _ (by decide))
  case bhdrDynamic final =>
    cases h
    exact (Move.latchHeader final _ s).moves.tail (.beginCounts _)
  case dcounts hlit hdist hclen =>
    cases h
    exact (Move.beginPrelens hlit hdist hclen s hw).moves
  case prelen len =>
    cases h
    exact (Move.putPrecodeLen len s hp).moves
  case llLiteral b => exact (literal_moves b s).outcome h
  case llEob => exact (endOfBlock_moves s).outcome h
  case presymLen0 | presymLen1 | presymLen2 | presymLen3 | presymLen4 | presymLen5 | presymLen6 | presymLen7 | presymLen8 | presymLen9
      | presymLen10 | presymLen11 | presymLen12 | presymLen13 | presymLen14 | presymLen15 | presymRep16 | presymZero17 | presymZero18 =>
    exact exec_presym_moves rfl hp h
  case llLen257 | llLen258 | llLen259 | llLen260 | llLen261 | llLen262 | llLen263 | llLen264 | llLen265 | llLen266 | llLen267 | llLen268
      | llLen269 | llLen270 | llLen271 | llLen272 | llLen273 | llLen274 | llLen275 | llLen276 | llLen277 | llLen278 | llLen279 | llLen280
      | llLen281 | llLen282 | llLen283 | llLen284 | llLen285 | llLen286 | llLen287 =>
    exact (matchRecord_moves _ s).outcome h
  all_goals exact (matchCopy_moves _ s).outcome h

theorem runElement_moves {f : Format} {s : State} (hp : f.InPhase s.phase) : (runElement f s).Keeps (Moves s) := by
  refine (fetch_stays hp).staysThenMoves fun i u e hu => .ofOutcome fun t => exec_moves (fetch_reads e) ?_ (hu ▸ hp)
  rintro rfl
  cases e

/-! ## The engine's operations -/

theorem advances_moves (n : Nat) (s : State) : (advances n s).Keeps (Moves s) := by
  induction n generalizing s with
  | zero => exact Res.keeps_ok.mpr .refl
  | succ n ih => exact (advance_moves s).thenMoves fun _ u => ih u

theorem opPrelens_moves {n : Nat} {s : State} (h : s.phase = .prelens) : (opPrelens n s).Keeps (Moves s) := by
  induction n generalizing s with
  | zero => exact Res.keeps_ok.mpr .refl
  | succ n ih =>
    refine (runElement_moves (f := .prelen) h).thenMoves fun _ u => ?_
    split
    · exact ih (by assumption)
    · exact Res.keeps_ok.mpr .refl

theorem build_stays (c : Code) (lens : List Nat) (s : State) : (build c lens s).Keeps (Stays s) := by
  have hs := (Move.sortScratch lens c.maxLen s).stays rfl
  rcases build_cases c lens s with ⟨_, e⟩ | ⟨_, e⟩ | ⟨_, e⟩ <;> rw [e]
  · exact Res.keeps_raised.mpr (hs.trans ((Move.error _ _ _).stays rfl))
  · exact Res.keeps_raised.mpr (hs.trans ((Move.error _ _ _).stays rfl))
  · exact Res.keeps_ok.mpr (hs.trans (((Move.setTable _ _ _).stays (setTable_phase _ _ _)).trans ((Move.emit _ _).stays rfl)))

theorem opPrebuild_moves {s : State} (h : s.phase = .prebuild) : (opPrebuild s).Keeps (Moves s) :=
  (build_stays .precode _ s).staysThenMoves fun _ u _ hu => Res.keeps_ok.mpr (Move.beginLens u (hu.trans h)).moves

theorem enterDecode_moves (s : State) : (enterDecode s).Keeps (Moves s) :=
  (headerRefill_stays _ s).moves.thenMoves fun _ u => Res.keeps_ok.mpr (Move.setState .decode u (by decide)).moves

theorem opDynBuild_moves (s : State) : (opDynBuild s).Keeps (Moves s) :=
  (build_stays .offset _ s).moves.thenMoves fun _ u => (build_stays .litlen _ u).moves.thenMoves fun _ v => enterDecode_moves v

theorem installStatic_moves (s : State) : (installStatic s).Keeps (Moves s) :=
  (build_stays .offset _ s).moves.thenMoves fun _ u =>
    (build_stays .litlen _ u).moves.thenMoves fun _ v => Res.keeps_ok.mpr (Move.setStatic true v).moves

theorem opStaticTables_moves (s : State) : (opStaticTables s).Keeps (Moves s) := by
  unfold opStaticTables
  split
  · exact enterDecode_moves s
  · exact (installStatic_moves s).thenMoves fun _ u => enterDecode_moves u

theorem blockDone_moves (s : State) : (blockDone s).Keeps (Moves s) := by
  unfold blockDone finish
  split
  · split
    · exact raise_moves _ _ s
    · exact Res.keeps_ok.mpr (Move.setState .done s (by decide)).moves
  · exact Res.keeps_ok.mpr ((Move.setState .header s (by decide)).moves.tail (.setCursor _ _))

theorem drainSteps_moves (n : Nat) (s : State) : (drainSteps n s).Keeps (Moves s) := by
  induction n generalizing s with
  | zero => exact Res.keeps_ok.mpr .refl
  | succ n ih =>
    refine Res.Keeps.thenMoves ?_ fun _ u => ih u
    unfold drainStep
    split
    · exact runElement_moves (f := .offsym) trivial
    · exact advance_moves s

theorem opDrain_moves (s : State) : (opDrain s).Keeps (Moves s) :=
  ((drainSteps_moves 32 (drainStart s)).afterMoves (Move.setCursor _ s).moves).thenMoves fun _ u => blockDone_moves u

/-- Every operation of the engine is a sequence of these updates. -/
theorem operation_moves (s : State) : (operation s).Keeps (Moves s) := by
  unfold operation
  cases s.state with
  | idle | done | error => exact Res.keeps_ok.mpr .refl
  | prime => exact (advances_moves 32 s).thenMoves fun _ u => Res.keeps_ok.mpr (Move.setState .header u (by decide)).moves
  | header => exact runElement_moves (f := .bhdr) trivial
  | dynTables =>
    cases hp : s.phase with
    | counts => exact runElement_moves (f := .dcounts) hp
    | prelens => exact opPrelens_moves hp
    | prebuild => exact opPrebuild_moves hp
    | lens => exact runElement_moves (f := .presym) hp
    | build => exact opDynBuild_moves s
  | staticTables => exact opStaticTables_moves s
  | decode =>
    dsimp only
    split
    · exact runElement_moves (f := .offsym) trivial
    · exact runElement_moves (f := .llsym) trivial
  | drain => exact opDrain_moves s

/-- The engine waits for the host unless it is BUSY (42_block_control.md R170; log 23). -/
theorem operation_idle {s : State} (h : s.busy = false) : operation s = .ok () s := by
  unfold State.busy at h
  unfold operation
  cases hs : s.state with
  | idle | done | error => rfl
  | prime | header | dynTables | staticTables | decode | drain => rw [hs] at h; cases h

end Machine
end Sys2Proof
end

section
/-! PROOFS. What a step can do, said once (70_reset_and_hazards.md R303, R304), and three invariants of the engine's state: the lanes
(10_state.md R24), the output cursor (R28, R45), the dynamic header's counts (R30). -/

namespace Sys2Proof.Machine

/-! ## The host's part of a step -/

/-- What the host and the platform can do to the state in one step. -/
inductive HostMove : State → State → Prop where
  | store (addr v : Word) (n : Nat) (s : State) : HostMove s (storeBytes addr v 0 n s)
  | load (addr : Word) (n : Nat) (s : State) :
      HostMove s { (loadBytes addr 0 n s).2 with hostData := (loadBytes addr 0 n s).1 }
  | readRegister (off : Nat) (s : State) : HostMove s (readRegister off s)
  | writeConfigReg (off : Nat) (v : Word) (s : State) : HostMove s (writeConfigReg off v s)
  | writeIrqEn (irqEn : Bool) (s : State) : HostMove s (writeIrqEn irqEn s)
  | acknowledge (irqEn : Bool) (s : State) (h : s.busy = false) : HostMove s (acknowledge (writeIrqEn irqEn s))
  | start (irqEn : Bool) (s : State) (h : s.busy = false) (hb : s.outBound.toNat ≤ 65536) :
      HostMove s (startTile (writeIrqEn irqEn s))
  | startError (irqEn : Bool) (s : State) (h : s.busy = false) (hb : 65536 < s.outBound.toNat) :
      HostMove s (errorEntry .configError 0#4 (startTile (writeIrqEn irqEn s)))
  | reset (s : State) : HostMove s (hardReset s)

/-- Everything START with BUSY = 0 can leave (45_host.md R241). -/
theorem start_cases {s t : State} (h : (start s).outcome = .next t) :
    (s.outBound.toNat ≤ 65536 ∧ t = startTile s) ∨
    (65536 < s.outBound.toNat ∧ t = errorEntry .configError 0#4 (startTile s)) := by
  unfold start at h
  split at h
  · cases h; exact .inr ⟨by assumption, rfl⟩
  · split at h
    · cases h
    · split at h
      · cases h
      · cases h; exact .inl ⟨by omega, rfl⟩

theorem execCtrlStart_hostMove {irqEn : Bool} {s t : State} (h : execCtrlStart irqEn s = .next t) : HostMove s t := by
  unfold execCtrlStart at h
  split at h
  · cases h; exact .writeIrqEn irqEn s
  · rename_i hb
    have hb : s.busy = false := Bool.eq_false_of_not_eq_true hb
    rcases start_cases h with ⟨ho, rfl⟩ | ⟨ho, rfl⟩
    · exact .start irqEn s hb ho
    · exact .startError irqEn s hb ho

theorem execCtrlAck_hostMove {irqEn : Bool} {s t : State} (h : execCtrlAck irqEn s = .next t) : HostMove s t := by
  unfold execCtrlAck at h
  split at h <;> cases h
  · exact .writeIrqEn irqEn s
  · rename_i hb
    exact .acknowledge irqEn s (Bool.eq_false_of_not_eq_true hb)

theorem writeReg_hostMove {off : Nat} {v : Word} {s t : State} (h : writeReg off v s = .next t) : HostMove s t := by
  unfold writeReg at h
  split at h
  · unfold decodeCtrl at h
    dsimp only at h
    split at h
    · exact execCtrlStart_hostMove h
    · split at h
      · exact execCtrlAck_hostMove h
      · cases h; exact .writeIrqEn _ s
  · cases h; exact .writeConfigReg off v s

theorem hostStore_hostMove {addr v : Word} {size : Size} {s t : State} (h : hostStore addr size v s = .next t) : HostMove s t := by
  unfold hostStore at h
  split at h
  · split at h
    · exact writeReg_hostMove h
    · cases h
  · cases h; exact .store addr v size.bytes s

theorem hostLoad_hostMove {addr : Word} {size : Size} {s t : State} (h : hostLoad addr size s = .next t) : HostMove s t := by
  unfold hostLoad at h
  split at h
  · split at h
    · cases h; exact .readRegister _ s
    · cases h
  · cases h; exact .load addr size.bytes s

/-- Everything one performed input can do. -/
theorem perform_cases {i : Input} {s t : State} (h : perform i s = .next t) : engineStep s = .next t ∨ HostMove s t := by
  cases i with
  | engine => exact .inl h
  | store addr size v => exact .inr (hostStore_hostMove h)
  | load addr size => exact .inr (hostLoad_hostMove h)
  | reset => cases h; exact .inr (.reset s)

/-- What the engine's turn keeps and what the host's moves keep, a step keeps, where taking the input off the schedule does. -/
theorem step_keeps {P : State → Prop} (hi : ∀ s rest, P s → P { s with inputs := rest })
    (he : ∀ s t, engineStep s = .next t → P s → P t) (hh : ∀ s t, HostMove s t → P s → P t) {s t : State} (hs : P s)
    (h : step s = .next t) : P t := by
  cases hin : s.inputs with
  | nil => exact he s t (step_engine hin ▸ h) hs
  | cons i rest =>
    rcases perform_cases (step_input hin ▸ h) with h | h
    · exact he _ t h (hi s rest hs)
    · exact hh _ t h (hi s rest hs)

/-- The engine's turn is a sequence of updates. -/
theorem engineStep_moves {s t : State} (h : engineStep s = .next t) : Moves s t := (operation_moves s).outcome h

/-! ## Lanes -/

/-- A lane holds at most 64 valid bits, and none is set above them (10_state.md R24). -/
def Lane.Valid (l : Lane) : Prop := l.left ≤ 64 ∧ l.buf.toNat < 2 ^ l.left

theorem laneInv_of_lanes {s t : State} (h : t.lanes = s.lanes) (hs : LaneInv s) : LaneInv t := by
  unfold LaneInv State.lane at hs ⊢
  rwa [h]

/-- Writing one lane is a matter of that lane. -/
theorem laneInv_setLane {c : Fin 32} {l : Lane} {s : State} (hl : l.Valid) (hs : LaneInv s) : LaneInv (setLane c l s) := by
  intro d
  rw [setLane_lane]
  split
  · exact hl
  · exact hs d

theorem laneInv_clear {s : State} (h : s.lanes = Vector.replicate 32 {}) : LaneInv s := by
  intro c
  have hc : s.lane c = {} := by simp [State.lane, h]
  rw [hc]
  decide

/-- Taking bits from the low end leaves the others below the new count (40_lane_demux.md R122). -/
theorem Lane.Valid.drop {l : Lane} {n : Nat} (hl : l.Valid) (hn : n ≤ l.left) : (l.drop n).Valid := by
  obtain ⟨hleft, hbuf⟩ := hl
  refine ⟨(Nat.sub_le _ _).trans hleft, ?_⟩
  rw [Lane.drop, BitVec.toNat_ushiftRight, Nat.shiftRight_eq_div_pow]
  apply Nat.div_lt_of_lt_mul
  rwa [← Nat.pow_add, Nat.add_sub_cancel' hn]

/-- A word put above the valid bits of a lane with fewer than 32 of them (40_lane_demux.md R124). -/
theorem Lane.Valid.withWord {l : Lane} (hl : l.Valid) (h : l.left < 32) (w : Word) :
    ({ l with buf := l.buf ||| (w.setWidth 64 <<< l.left), left := l.left + 32 } : Lane).Valid := by
  refine ⟨Nat.add_le_of_le_sub (by decide) (by omega), ?_⟩
  have hlow : l.buf.toNat < 2 ^ (l.left + 32) := hl.2.trans_le (Nat.pow_le_pow_right (by decide) (Nat.le_add_right _ _))
  have hword : (w.setWidth 64 <<< l.left).toNat < 2 ^ (l.left + 32) := by
    rw [BitVec.toNat_shiftLeft, BitVec.toNat_setWidth, Nat.shiftLeft_eq, Nat.pow_add, Nat.mul_comm (2 ^ l.left)]
    calc w.toNat % 2 ^ 64 * 2 ^ l.left % 2 ^ 64 ≤ w.toNat * 2 ^ l.left :=
          (Nat.mod_le _ _).trans (Nat.mul_le_mul_right _ (Nat.mod_le _ _))
      _ < 2 ^ 32 * 2 ^ l.left := Nat.mul_lt_mul_of_pos_right w.isLt (Nat.two_pow_pos _)
  rw [BitVec.toNat_or]
  exact Nat.or_lt_two_pow hlow hword

theorem move_keeps_lanes {s t : State} (h : Move s t) (hs : LaneInv s) : LaneInv t := by
  cases h with
  | fetchWord c _ hl =>
    rw [fetchWord_frame]
    exact laneInv_setLane (s := s) (Lane.Valid.withWord (hs c) hl _) hs
  | takeBits c n _ hn => exact laneInv_setLane (Lane.Valid.drop (hs c) hn) hs
  | recordMatch c len =>
    have hl : ({ s.lane c with plen := len, pdst := s.outPos } : Lane).Valid := hs c
    exact laneInv_setLane hl hs
  | putPrecodeLen len => exact laneInv_of_lanes (by rw [putPrecodeLen_frame]) hs
  | putLiteral b => exact laneInv_of_lanes (by rw [outWrite_frame]) hs
  | copyBytes dst dist n => exact laneInv_of_lanes (by rw [copyBytes_frame]) hs
  | setTable c table => exact laneInv_of_lanes (setTable_lanes c table s) hs
  | error | setCursor | setState | latchHeader | beginCounts | setStatic | latchHlit | latchHdist | beginPrelens | beginLens
      | putLengths | sortScratch | emit | clearPending => exact hs

theorem hostMove_keeps_lanes {s t : State} (h : HostMove s t) (hs : LaneInv s) : LaneInv t := by
  cases h with
  | store addr v n => exact laneInv_of_lanes (by rw [storeBytes_frame]) hs
  | load addr n => exact laneInv_of_lanes (by rw [loadBytes_frame]) hs
  | writeConfigReg off v => exact laneInv_of_lanes (by rw [writeConfigReg_frame]) hs
  | readRegister | writeIrqEn | acknowledge => exact hs
  | start | startError | reset => exact laneInv_clear rfl

/-- Settles O52: a lane changes by a fetched word, by bits taken, by a recorded match, or is cleared. -/
theorem stepKeepsLanes : Obligations.StepKeepsLanes := by
  intro s t
  exact step_keeps (fun _ _ hs => hs) (fun _ _ h => (engineStep_moves h).keeps fun _ _ => move_keeps_lanes)
    fun _ _ => hostMove_keeps_lanes

/-! ## The output cursor -/

/-- The engine's updates leave the bound alone and keep the cursor inside it. -/
theorem move_keeps_cursor {b : BitVec 17} {s t : State} (h : Move s t) (hs : s.outBound = b ∧ s.outPos ≤ b.toNat) :
    t.outBound = b ∧ t.outPos ≤ b.toNat := by
  obtain ⟨rfl, hp⟩ := hs
  cases h with
  | putLiteral byte _ hlt => rw [outWrite_frame]; exact ⟨rfl, hlt⟩
  | recordMatch c len _ hle => exact ⟨rfl, hle⟩
  | fetchWord c => rw [fetchWord_frame]; exact ⟨rfl, hp⟩
  | putPrecodeLen len => rw [putPrecodeLen_frame]; exact ⟨rfl, hp⟩
  | copyBytes dst dist n => rw [copyBytes_frame]; exact ⟨rfl, hp⟩
  | setTable c table => rw [setTable_outBound, setTable_outPos]; exact ⟨rfl, hp⟩
  | error | takeBits | setCursor | setState | latchHeader | beginCounts | setStatic | latchHlit | latchHdist | beginPrelens | beginLens
      | putLengths | sortScratch | emit | clearPending => exact ⟨rfl, hp⟩

/-- The engine's turn: with BUSY = 0 nothing, and else inside the bound it began with. -/
theorem engineStep_keeps_cursor {s t : State} (h : engineStep s = .next t) (hs : OutputInv s) : OutputInv t := by
  cases hb : s.busy with
  | false =>
    rw [engineStep, operation_idle hb] at h
    cases h
    exact hs
  | true =>
    obtain ⟨hle, hbound⟩ := hs.2 hb
    obtain ⟨ho, hp⟩ := (engineStep_moves h).keeps (P := fun u => u.outBound = s.outBound ∧ u.outPos ≤ s.outBound.toNat)
      (fun _ _ => move_keeps_cursor) ⟨rfl, hle⟩
    exact ⟨hp.trans hbound, fun _ => ho.symm ▸ ⟨hp, hbound⟩⟩

theorem hostMove_keeps_cursor {s t : State} (h : HostMove s t) (hs : OutputInv s) : OutputInv t := by
  cases h with
  | store addr v n => rw [storeBytes_frame]; exact hs
  | load addr n => rw [loadBytes_frame]; exact hs
  | readRegister | writeIrqEn => exact hs
  | writeConfigReg off v =>
    cases hb : s.busy with
    | true => rwa [writeConfigReg_busy hb]
    | false =>
      rw [writeConfigReg_frame]
      exact ⟨hs.1, fun h => Bool.noConfusion (hb.symm.trans h)⟩
  | acknowledge => exact ⟨hs.1, fun h => Bool.noConfusion h⟩
  | start irqEn _ _ hb => exact ⟨Nat.zero_le _, fun _ => ⟨Nat.zero_le _, hb⟩⟩
  | startError => exact ⟨Nat.zero_le _, fun h => Bool.noConfusion h⟩
  | reset => exact ⟨Nat.zero_le _, fun h => Bool.noConfusion h⟩

/-- Settles O53: literals and match records check the bound first, only START makes an engine BUSY, and then the bound is legal. -/
theorem stepKeepsOutputBound : Obligations.StepKeepsOutputBound := by
  intro s t
  exact step_keeps (fun _ _ hs => hs) (fun _ _ => engineStep_keeps_cursor) fun _ _ => hostMove_keeps_cursor

/-! ## The dynamic header's counts -/

/-- Outside DYN_TABLES nothing is asked of the counts. -/
theorem countsInv_of_state {s : State} (h : s.state ≠ .dynTables) : CountsInv s := fun h' => absurd h' h

/-- In the phase COUNTS nothing is asked of them either. -/
theorem countsInv_of_counts {s : State} (h : s.phase = .counts) : CountsInv s := fun _ h' => absurd h h'

/-- The fields the counts' ranges speak of. -/
def State.headerFields (s : State) : EngineState × Phase × Nat × Nat × Nat × Nat × Nat :=
  (s.state, s.phase, s.hlit, s.hdist, s.hclen, s.pi, s.li)

theorem countsInv_of_headerFields {s t : State} (h : t.headerFields = s.headerFields) (hs : CountsInv s) : CountsInv t := by
  simp only [State.headerFields, Prod.mk.injEq] at h
  obtain ⟨h1, h2, h3, h4, h5, h6, h7⟩ := h
  simpa only [CountsInv, h1, h2, h3, h4, h5, h6, h7] using hs

/-- The counts DCOUNTS latches are in range, and the first precode length is still to be read (42_block_control.md R176). -/
theorem beginPrelens_countsInv {hlit hdist hclen : Nat} {s : State} (h : (Instr.dcounts hlit hdist hclen).wellFormed = true) :
    CountsInv { s with staticLoaded := false, hlit := hlit, hdist := hdist, hclen := hclen, pi := 0, phase := .prelens } := by
  intro _ _
  simp only [Instr.wellFormed, Bool.and_eq_true, decide_eq_true_eq] at h
  simp only [reduceCtorEq, false_implies, true_implies, and_true]
  omega

/-- A precode length moves on to the next, or to PREBUILD (42_block_control.md R177). -/
theorem putPrecodeLen_countsInv {len : BitVec 3} {s : State} (hp : s.phase = .prelens) (hs : CountsInv s) :
    CountsInv (putPrecodeLen len s) := by
  intro hst _
  rw [putPrecodeLen_frame] at hst
  obtain ⟨hlit, hdist, hclen, hpi, -, -⟩ := hs hst (by simp [hp])
  have hpi := hpi hp
  unfold putPrecodeLen
  dsimp only
  split <;> simp [hp, hlit, hdist, hclen]
  omega

/-- The lengths begin at index 0 of at least one (42_block_control.md R178). -/
theorem beginLens_countsInv {s : State} (hp : s.phase = .prebuild) (hs : CountsInv s) : CountsInv { s with li := 0, phase := .lens } := by
  intro hst _
  obtain ⟨hlit, hdist, hclen, -, -, -⟩ := hs hst (by simp [hp])
  simp only [reduceCtorEq, false_implies, true_implies, true_and, and_true]
  omega

/-- A run of at most 138 lengths goes on in LENS or ends at most at index 457 (42_block_control.md R180 to R184). -/
theorem putLengths_countsInv {v : BitVec 4} {n : Nat} {s : State} (hp : s.phase = .lens) (hn : n ≤ 138) (hs : CountsInv s) :
    CountsInv (putLengths v n s) := by
  intro hst _
  obtain ⟨hlit, hdist, hclen, -, hli, -⟩ := hs hst (by simp [hp])
  have hli := hli hp
  unfold putLengths
  dsimp only
  split <;> simp [hp, hlit, hdist, hclen] <;> omega

theorem move_keeps_counts {s t : State} (h : Move s t) (hs : CountsInv s) : CountsInv t := by
  cases h with
  | error => exact countsInv_of_state (by simp)
  | setState e _ he => exact countsInv_of_state he
  | beginCounts => exact countsInv_of_counts rfl
  | latchHlit n _ hp => exact countsInv_of_counts hp
  | latchHdist n _ hp => exact countsInv_of_counts hp
  | beginPrelens hlit hdist hclen _ hw => exact beginPrelens_countsInv hw
  | putPrecodeLen len _ hp => exact putPrecodeLen_countsInv hp hs
  | beginLens _ hp => exact beginLens_countsInv hp hs
  | putLengths v n _ hp hn => exact putLengths_countsInv hp hn hs
  | fetchWord c => exact countsInv_of_headerFields (by rw [fetchWord_frame]; rfl) hs
  | putLiteral b => exact countsInv_of_headerFields (by rw [outWrite_frame]; rfl) hs
  | copyBytes dst dist n => exact countsInv_of_headerFields (by rw [copyBytes_frame]; rfl) hs
  | setTable c table => exact countsInv_of_headerFields (by cases c <;> rfl) hs
  | takeBits | setCursor | latchHeader | setStatic | sortScratch | emit | recordMatch | clearPending => exact hs

theorem hostMove_keeps_counts {s t : State} (h : HostMove s t) (hs : CountsInv s) : CountsInv t := by
  cases h with
  | store addr v n => exact countsInv_of_headerFields (by rw [storeBytes_frame]; rfl) hs
  | load addr n => exact countsInv_of_headerFields (by rw [loadBytes_frame]; rfl) hs
  | writeConfigReg off v => exact countsInv_of_headerFields (by rw [writeConfigReg_frame]; rfl) hs
  | readRegister | writeIrqEn => exact hs
  | acknowledge | start | startError | reset => exact countsInv_of_state fun h => EngineState.noConfusion h

/-- Settles O57: each update of the header's latches is made in the phase that its range needs. -/
theorem stepKeepsCounts : Obligations.StepKeepsCounts := by
  intro s t
  exact step_keeps (fun _ _ hs => hs) (fun _ _ h => (engineStep_moves h).keeps fun _ _ => move_keeps_counts)
    fun _ _ => hostMove_keeps_counts

end Sys2Proof.Machine
end

section
/-! PROOFS. The register window (10_state.md R39 to R50): the offset of an access that starts in it, and what a step that stores to a
register or loads one does. -/

namespace Sys2Proof.Machine

/-! ## The offset of an access -/

/-- The distance of an address from the start of its window, in an address space of size `m` that may wrap. -/
theorem window_offset {b off m : Nat} (h : off < m) : ((b + off) % m + (m - b % m)) % m = off := by
  have hb : b % m < m := Nat.mod_lt _ (by omega)
  rw [Nat.mod_add_mod, ← Nat.add_sub_assoc hb.le, ← Nat.mod_add_div b m]
  have hsum : b % m + m * (b / m) + off + m - (b % m + m * (b / m)) % m = off + m * (b / m + 1) := by
    rw [Nat.add_mul_mod_self_left, Nat.mod_mod, Nat.mul_add]
    omega
  rw [hsum, Nat.add_mul_mod_self_left, Nat.mod_eq_of_lt h]

/-- The address of a register, where the address space is not larger than the host's (10_state.md R39; 00_scope.md R10). -/
theorem registerAddr_eq {s : State} {off : Nat} (hw : s.cfg.addrWidth ≤ 32) :
    s.addr (s.cfg.engineBase + BitVec.ofNat 32 off) 0 = (s.cfg.engineBase.toNat + off) % 2 ^ s.cfg.addrWidth := by
  rw [State.addr, Nat.add_zero, BitVec.toNat_add, BitVec.toNat_ofNat, Nat.add_mod_mod,
    Nat.mod_mod_of_dvd _ (Nat.pow_dvd_pow 2 hw)]

section
variable {s : State} {off : Nat} (hlo : 8 ≤ s.cfg.addrWidth) (hhi : s.cfg.addrWidth ≤ 32) (hoff : off < 256)
include hlo hhi hoff

/-- An access that starts in the window is one of the window. -/
theorem touchesRegisters_window (size : Size) : s.touchesRegisters (s.cfg.engineBase + BitVec.ofNat 32 off) size = true := by
  have hm : 2 ^ 8 ≤ 2 ^ s.cfg.addrWidth := Nat.pow_le_pow_right (by decide) hlo
  refine List.any_eq_true.mpr ⟨0, List.mem_range.mpr (by cases size <;> decide), ?_⟩
  rw [State.inRegisters, State.inWindow, decide_eq_true_eq, registerAddr_eq hhi, window_offset (by omega)]
  exact hoff

/-- The register an access that starts in the window is of, if it is an aligned 32-bit one. -/
theorem registerOffset_window (size : Size) :
    s.registerOffset (s.cfg.engineBase + BitVec.ofNat 32 off) size = if size = .word ∧ off % 4 = 0 then some off else none := by
  have hm : 2 ^ 8 ≤ 2 ^ s.cfg.addrWidth := Nat.pow_le_pow_right (by decide) hlo
  have hbase : s.addr s.cfg.engineBase 0 = s.cfg.engineBase.toNat % 2 ^ s.cfg.addrWidth := rfl
  rw [State.registerOffset, registerAddr_eq hhi, hbase, window_offset (by omega)]
  simp only [hoff, and_true]

/-! ## Accesses of the window -/

/-- A store that starts in the window writes a register, or is refused (10_state.md R39). -/
theorem hostStore_window (size : Size) (v : Word) :
    hostStore (s.cfg.engineBase + BitVec.ofNat 32 off) size v s =
      if size = .word ∧ off % 4 = 0 then writeReg off v s else .refused .registerAccess := by
  rw [hostStore, if_pos (touchesRegisters_window hlo hhi hoff size), registerOffset_window hlo hhi hoff size]
  by_cases h : size = .word ∧ off % 4 = 0
  · simp only [if_pos h]
  · simp only [if_neg h]

/-- A load that starts in the window shows a register, or is refused (10_state.md R39). -/
theorem hostLoad_window (size : Size) :
    hostLoad (s.cfg.engineBase + BitVec.ofNat 32 off) size s =
      if size = .word ∧ off % 4 = 0 then .next (readRegister off s) else .refused .registerAccess := by
  rw [hostLoad, if_pos (touchesRegisters_window hlo hhi hoff size), registerOffset_window hlo hhi hoff size]
  by_cases h : size = .word ∧ off % 4 = 0
  · simp only [if_pos h]
  · simp only [if_neg h]

/-- A step that stores from an offset of the window on. -/
theorem step_store_window {size : Size} {v : Word} {rest : List Input}
    (hi : s.inputs = .store (s.cfg.engineBase + BitVec.ofNat 32 off) size v :: rest) :
    step s = if size = .word ∧ off % 4 = 0 then writeReg off v { s with inputs := rest } else .refused .registerAccess :=
  (step_input hi).trans (hostStore_window (s := { s with inputs := rest }) hlo hhi hoff size v)

/-- A step that loads from an offset of the window on. -/
theorem step_load_window {size : Size} {rest : List Input}
    (hi : s.inputs = .load (s.cfg.engineBase + BitVec.ofNat 32 off) size :: rest) :
    step s = if size = .word ∧ off % 4 = 0 then .next (readRegister off { s with inputs := rest }) else .refused .registerAccess :=
  (step_input hi).trans (hostLoad_window (s := { s with inputs := rest }) hlo hhi hoff size)

end

/-! ## What a register write and a register read are -/

/-- A write of a register other than CTRL, as one update of the four configuration registers (10_state.md R42 to R45, R50). -/
theorem writeConfigReg_eq (off : Nat) (v : Word) (s : State) :
    writeConfigReg off v s =
      { s with
        inBase := if s.busy = false ∧ off = 0x08 then v else s.inBase
        inLen := if s.busy = false ∧ off = 0x0C then v else s.inLen
        outBase := if s.busy = false ∧ off = 0x10 then v else s.outBase
        outBound := if s.busy = false ∧ off = 0x14 then v.extractLsb' 0 17 else s.outBound } := by
  cases hb : s.busy with
  | true => simp [writeConfigReg_busy hb]
  | false =>
    unfold writeConfigReg
    rw [hb, if_neg (by decide)]
    split <;> simp_all [BitVec.setWidth_eq_extractLsb']

/-- The value a register reads as, register by register (10_state.md R40 to R50). -/
theorem readReg_eq (off : Nat) (s : State) :
    s.readReg off =
      if off = 0x00 then (if s.irqEn then 4#32 else 0#32)
      else if off = 0x04 then s.statusReg
      else if off = 0x08 then s.inBase
      else if off = 0x0C then s.inLen
      else if off = 0x10 then s.outBase
      else if off = 0x14 then s.outBound.setWidth 32
      else if off = 0x18 then BitVec.ofNat 32 (s.outPos % 2 ^ 17)
      else if off = 0x1C then BitVec.ofNat 32 s.inPos
      else if off = 0x20 then BitVec.ofNat 32 s.cur.val
      else if off = 0x24 then s.pend
      else 0#32 := by
  unfold State.readReg State.ctrlReg
  split <;> simp_all

/-- Settles O42: the offset is the access's, and the write is one of the configuration registers. -/
theorem registerWrites : Obligations.RegisterWrites := by
  intro s off v rest hlo hhi hpos hoff ha hi
  rw [step_store_window hlo hhi hoff hi, if_pos ⟨rfl, ha⟩, writeReg, if_neg (by omega), writeConfigReg_eq]
  rfl

/-- Settles O43: the offset is the access's, and the value is the register's. -/
theorem registerReads : Obligations.RegisterReads := by
  intro s off rest hlo hhi hoff ha hi
  rw [step_load_window hlo hhi hoff hi, if_pos ⟨rfl, ha⟩, readRegister, readReg_eq]
  rfl

/-- Settles O45: no register has the offset of such an access. -/
theorem badRegisterAccess : Obligations.BadRegisterAccess := by
  intro s off size v rest hlo hhi hoff hbad
  have hbad : ¬ (size = .word ∧ off % 4 = 0) := fun ⟨hs, ha⟩ => hbad.elim (· hs) (· ha)
  exact ⟨fun hi => (step_store_window hlo hhi hoff hi).trans (if_neg hbad),
    fun hi => (step_load_window hlo hhi hoff hi).trans (if_neg hbad)⟩

end Sys2Proof.Machine
end

section
/-! PROOFS. What is computed from the state and what reset leaves: STATUS (10_state.md R41), the interrupt line (R51), the values and the
invariants right after reset (R52). -/

namespace Sys2Proof.Machine

/-! ## STATUS -/

/-- A bit of a word, from its place in the word's value. -/
theorem getLsbD_of_toNat {w k : Nat} {x : BitVec w} {b : Bool} (h : x.toNat / 2 ^ k % 2 = b.toNat) : x.getLsbD k = b := by
  rw [← BitVec.testBit_toNat, Nat.testBit_eq_decide_div_mod_eq, h]
  cases b <;> rfl

/-- A field of a word, from its place in the word's value. -/
theorem extractLsb'_of_toNat {w k n : Nat} {x : BitVec w} {v : BitVec n} (h : x.toNat / 2 ^ k % 2 ^ n = v.toNat) :
    x.extractLsb' k n = v := by
  apply BitVec.eq_of_toNat_eq
  rw [BitVec.extractLsb'_toNat, Nat.shiftRight_eq_div_pow, h]

theorem EngineState.code_lt (e : EngineState) : e.code < 16 := by cases e <;> decide

theorem ErrCode.code_lt (e : ErrCode) : e.code < 16 := by cases e <;> decide

/-- Where the fields of STATUS lie (10_state.md R41). -/
theorem statusReg_layout (s : State) :
    s.statusReg.toNat / 2 ^ 0 % 2 = s.busy.toNat ∧ s.statusReg.toNat / 2 ^ 1 % 2 = s.isDone.toNat ∧
    s.statusReg.toNat / 2 ^ 2 % 2 = s.isError.toNat ∧ s.statusReg.toNat / 2 ^ 3 % 2 = s.overread.toNat ∧
    s.statusReg.toNat / 2 ^ 4 % 2 ^ 4 = s.errCode.code ∧ s.statusReg.toNat / 2 ^ 8 % 2 ^ 4 = s.errDetail.toNat ∧
    s.statusReg.toNat / 2 ^ 12 % 2 ^ 4 = s.state.code ∧ s.statusReg.toNat / 2 ^ 16 % 2 = s.staticLoaded.toNat ∧
    s.statusReg.toNat / 2 ^ 17 % 2 = s.isFinal.toNat ∧ s.statusReg.toNat / 2 ^ 18 % 2 ^ 14 = 0 := by
  have hbusy := s.busy.toNat_lt
  have hdone := s.isDone.toNat_lt
  have herror := s.isError.toNat_lt
  have hover := s.overread.toNat_lt
  have hcode := s.errCode.code_lt
  have hdetail := s.errDetail.isLt
  have hstate := s.state.code_lt
  have hstatic := s.staticLoaded.toNat_lt
  have hfinal := s.isFinal.toNat_lt
  rw [State.statusReg, BitVec.toNat_ofNat]
  refine ⟨?_, ?_, ?_, ?_, ?_, ?_, ?_, ?_, ?_, ?_⟩ <;> omega

theorem busy_iff (s : State) :
    s.busy = true ↔
      s.state = .prime ∨ s.state = .header ∨ s.state = .dynTables ∨ s.state = .staticTables ∨ s.state = .decode ∨
        s.state = .drain := by
  unfold State.busy
  cases s.state <;> decide

theorem isDone_iff (s : State) : s.isDone = true ↔ s.state = .done := beq_iff_eq

theorem isError_iff (s : State) : s.isError = true ↔ s.state = .error := beq_iff_eq

/-- The numbers of the error codes tell them apart (60_exceptions.md R261). -/
theorem errCode_number (e : ErrCode) :
    ∀ p ∈ ([(.none, 0#4), (.corruptHuffmanCode, 1#4), (.unsupportedFeature, 2#4), (.outputOverrun, 3#4), (.corruptStream, 4#4),
      (.laneUnderflow, 5#4), (.configError, 6#4), (.inputOverread, 7#4)] : List (ErrCode × BitVec 4)),
      BitVec.ofNat 4 e.code = p.2 ↔ e = p.1 := by
  cases e <;> decide

/-- The numbers of the control states tell them apart (10_state.md R21). -/
theorem engineState_number (e : EngineState) :
    ∀ p ∈ ([(.idle, 0#4), (.prime, 1#4), (.header, 2#4), (.dynTables, 3#4), (.staticTables, 4#4), (.decode, 5#4), (.drain, 6#4),
      (.done, 7#4), (.error, 8#4)] : List (EngineState × BitVec 4)),
      BitVec.ofNat 4 e.code = p.2 ↔ e = p.1 := by
  cases e <;> decide

/-- Settles O44: the layout of STATUS gives each field, and the numbers tell the states and the codes apart. -/
theorem statusFields : Obligations.StatusFields := by
  refine ⟨by decide, fun s => ?_⟩
  obtain ⟨hbusy, hdone, herror, hover, hcode, hdetail, hstate, hstatic, hfinal, hzero⟩ := statusReg_layout s
  have hcode : s.statusReg.extractLsb' 4 4 = BitVec.ofNat 4 s.errCode.code :=
    extractLsb'_of_toNat (by rw [hcode, BitVec.toNat_ofNat, Nat.mod_eq_of_lt s.errCode.code_lt])
  have hstate : s.statusReg.extractLsb' 12 4 = BitVec.ofNat 4 s.state.code :=
    extractLsb'_of_toNat (by rw [hstate, BitVec.toNat_ofNat, Nat.mod_eq_of_lt s.state.code_lt])
  rw [getLsbD_of_toNat hbusy, getLsbD_of_toNat hdone, getLsbD_of_toNat herror, hcode, hstate]
  exact ⟨busy_iff s, isDone_iff s, isError_iff s, getLsbD_of_toNat hover, errCode_number s.errCode, extractLsb'_of_toNat hdetail,
    engineState_number s.state, getLsbD_of_toNat hstatic, getLsbD_of_toNat hfinal, extractLsb'_of_toNat hzero⟩

/-! ## The interrupt line -/

/-- The line is high exactly when enabled in DONE or ERROR (10_state.md R51). -/
theorem irq_iff (s : State) : s.irq = true ↔ s.irqEn = true ∧ (s.state = .done ∨ s.state = .error) := by
  rw [State.irq, Bool.and_eq_true, Bool.or_eq_true, isDone_iff, isError_iff]

/-- In any other state it is low. -/
theorem irq_low {s : State} (hd : s.state ≠ .done) (he : s.state ≠ .error) : s.irq = false :=
  Bool.eq_false_of_not_eq_true fun h => ((irq_iff s).mp h).2.elim hd he

/-- Settles O19: ACK leaves IDLE, an accepted START leaves PRIME, and IRQ_EN written 0 disables the line. -/
theorem irqLine : Obligations.IrqLine := by
  refine ⟨rfl, fun s => ⟨irq_iff s, ?_, ?_, ?_⟩⟩
  · intro irqEn rsv hb
    refine ⟨acknowledge (writeIrqEn irqEn s), ?_, irq_low (by simp) (by simp)⟩
    rw [exec, execCtrlAck, hb]
    rfl
  · intro ack irqEn rsv t hb ho h
    rw [exec, execCtrlStart, hb] at h
    rcases start_cases h with ⟨_, rfl⟩ | ⟨hover, _⟩
    · exact irq_low (fun h => EngineState.noConfusion h) (fun h => EngineState.noConfusion h)
    · exact absurd hover (Nat.not_lt.mpr ho)
  · exact fun rsv => ⟨writeIrqEn false s, rfl, rfl⟩

/-! ## Right after reset -/

/-- After reset no table entry holds a value (10_state.md R36). -/
theorem reset_tables (c : Code) : ∀ e ∈ State.reset.table c, e = none := by
  cases c <;> exact fun _ h => List.eq_of_mem_replicate h

/-- After reset every register reads 0 (10_state.md R52). -/
theorem reset_readReg (off : Nat) : State.reset.readReg off = 0#32 := by
  unfold State.readReg
  split <;> decide

/-- Settles O47: the values `State.reset` gives, the tables' by `reset_tables`, the registers' by `reset_readReg`. -/
theorem resetValues : Obligations.ResetValues :=
  ⟨rfl, rfl, rfl, rfl, rfl, rfl, rfl, rfl, rfl, rfl, by decide, rfl, rfl, rfl, rfl, rfl, rfl, rfl,
    reset_tables .precode, reset_tables .litlen, reset_tables .offset, fun k _ => reset_readReg (4 * k)⟩

/-- Settles O60: after reset the lanes are clear, the arrays have their sizes, and the engine is idle with no error, no pending copy and no
static table loaded. -/
theorem invariantsAtReset : Obligations.InvariantsAtReset := by
  refine ⟨reset_mem_wf, laneInv_clear rfl, ?output, ?error, fun _ => rfl, fun h => Bool.noConfusion h, countsInv_of_state (by decide),
    ?sizes, ?static⟩
  case output => exact ⟨Nat.zero_le _, fun h => Bool.noConfusion h⟩
  case error => exact ⟨by decide, by decide⟩
  case sizes =>
    exact ⟨List.length_replicate, List.length_replicate, List.length_replicate, List.length_replicate, List.length_replicate⟩
  case static => exact ⟨fun h => Bool.noConfusion h, fun h => EngineState.noConfusion h⟩

end Sys2Proof.Machine
end

section
/-! PROOFS. The output of a running tile (20_memory.md R60, R64, R65): literals and copies alone write memory, literals below the bound and
copies into their recorded slot; every other part of an operation leaves the output, and what it depends on, alone. -/

namespace Sys2Proof.Machine

/-! ## What the output depends on -/

/-- Memory, the output window, the output cursor, and the recorded slots. -/
def State.output (s : State) : Config × Word × BitVec 17 × List Host.Cell × Nat × BitVec 32 × (Fin 32 → Nat × Nat) :=
  (s.cfg, s.outBase, s.outBound, s.mem, s.outPos, s.pend, fun c => ((s.lane c).plen, (s.lane c).pdst))

theorem setLane_output {c : Fin 32} {l : Lane} {s : State} (hlen : l.plen = (s.lane c).plen) (hdst : l.pdst = (s.lane c).pdst) :
    (setLane c l s).output = s.output := by
  have hslot : ∀ d, (((setLane c l s).lane d).plen, ((setLane c l s).lane d).pdst) = ((s.lane d).plen, (s.lane d).pdst) := by
    intro d
    rw [setLane_lane]
    split
    · subst d; rw [hlen, hdst]
    · rfl
  simp only [State.output, funext hslot, setLane_cfg, setLane_outBase, setLane_outBound, setLane_mem, setLane_outPos, setLane_pend]

/-- Setting one lane's pending bit leaves the others'. -/
theorem setPending_other {c d : Fin 32} (h : c ≠ d) (s : State) : (setPending c s).pending d = s.pending d := by
  have hne : d.val ≠ c.val := fun e => h (Fin.ext e.symm)
  have hbit : (1#32 <<< c.val).getLsbD d.val = false := by
    rcases Nat.lt_or_gt_of_ne hne with hlt | hgt
    · simp [hlt]
    · simp [Nat.sub_ne_zero_of_lt hgt]
  rw [State.pending, setPending_pend, BitVec.getLsbD_or, hbit, Bool.or_false]
  rfl

theorem pending_of_clearPending {c d : Fin 32} {s : State} (h : (clearPending c s).pending d = true) : s.pending d = true := by
  rw [State.pending, clearPending_pend, BitVec.getLsbD_and, Bool.and_eq_true] at h
  exact h.1

/-- A part of an operation that begins in `s` and leaves the output alone, whether it succeeds or raises. -/
def Res.Quiet {α : Type} (s : State) (r : Res α) : Prop := r.Keeps fun t => t.output = s.output

namespace Res.Quiet
variable {α β : Type} {s u : State}

theorem ok {a : α} (h : u.output = s.output) : (Res.ok a u).Quiet s := Res.keeps_ok.mpr h

theorem raise (code : ErrCode) (detail : BitVec 4) (s : State) : (Machine.raise code detail s : Res α).Quiet s := by
  rw [raise_eq]
  exact Res.keeps_raised.mpr rfl

/-- A quiet part, after an update that is quiet. -/
theorem after {r : Res α} (hr : r.Quiet u) (h : u.output = s.output) : r.Quiet s := hr.imp fun _ e => e.trans h

/-- Parts that are each quiet are so together. -/
theorem bind {r : Res α} {k : α → State → Res β} (hr : r.Quiet s) (hk : ∀ a u, (k a u).Quiet u) : (r.bind k).Quiet s :=
  Res.Keeps.bind hr fun a u hu => (hk a u).after hu

end Res.Quiet

/-! ## Lanes and lookups -/

theorem fetchWord_output (c : Fin 32) (s : State) : (fetchWord c s).output = s.output := by
  rw [fetchWord_frame]
  exact setLane_output (s := s) rfl rfl

theorem refill_quiet (c : Fin 32) (s : State) : (refill c s).Quiet s := by
  rcases refill_cases c s with ⟨_, e⟩ | ⟨_, _, _, e⟩ | ⟨_, _, e⟩ <;> rw [e]
  · exact .ok rfl
  · exact .raise _ _ s
  · exact .ok (fetchWord_output c s)

theorem advance_quiet (s : State) : (advance s).Quiet s := by
  unfold advance
  split
  · exact (refill_quiet s.cur s).bind fun _ _ => .ok rfl
  · exact (refill_quiet _ (moveCursor s)).after rfl

theorem consume_quiet (c : Fin 32) (n : Nat) (s : State) : (consume c n s).Quiet s := by
  rcases consume_cases c n s with ⟨_, e⟩ | ⟨_, e⟩ <;> rw [e]
  · exact .raise _ _ s
  · exact .ok (setLane_output rfl rfl)

theorem pop_quiet (c : Fin 32) (n : Nat) (s : State) : (pop c n s).Quiet s := (consume_quiet c n s).bind fun _ _ => .ok rfl

theorem headerRefill_quiet (due : Bool) (s : State) : (headerRefill due s).Quiet s := by
  cases due with
  | false => exact .ok rfl
  | true => exact refill_quiet s.headerLane s

theorem hpop_quiet (due : Bool) (n : Nat) (s : State) : (hpop due n s).Quiet s :=
  (headerRefill_quiet due s).bind fun _ u => pop_quiet u.headerLane n u

theorem readEntry_quiet (c : Code) (i : Nat) (s : State) : (readEntry c i s).Quiet s :=
  ⟨fun _ _ h => (readEntry_ok h).1 ▸ rfl, fun _ h => absurd h readEntry_not_raised⟩

theorem lookup_quiet (c : Code) (lane : Fin 32) (s : State) : (lookup c lane s).Quiet s := by
  refine (readEntry_quiet c _ s).bind fun e u => ?_
  split
  · exact (consume_quiet lane _ u).bind fun _ v => (readEntry_quiet c _ v).bind fun _ w =>
      (consume_quiet lane _ w).bind fun _ _ => .ok rfl
  · exact (consume_quiet lane _ u).bind fun _ _ => .ok rfl

theorem build_quiet (c : Code) (lens : List Nat) (s : State) : (build c lens s).Quiet s := by
  rcases build_cases c lens s with ⟨_, e⟩ | ⟨_, e⟩ | ⟨_, e⟩ <;> rw [e]
  · exact (Res.Quiet.raise _ _ (sortScratch lens c.maxLen s)).after rfl
  · exact (Res.Quiet.raise _ _ (sortScratch lens c.maxLen s)).after rfl
  · exact .ok (by cases c <;> rfl)

/-! ## Fetches -/

theorem decoded_quiet (d : Except Reject Instr) (s : State) : (decoded d s).Quiet s := by
  cases d with
  | ok i => exact .ok rfl
  | error r => exact Res.keeps_fault

theorem fetchDcounts_quiet (s : State) : (fetchDcounts s).Quiet s :=
  ((hpop_quiet _ 5 { s with staticLoaded := false }).after rfl).bind fun h u =>
    ((hpop_quiet _ 5 { u with hlit := h + 257 }).after rfl).bind fun d v =>
      ((hpop_quiet _ 4 { v with hdist := d + 1 }).after rfl).bind fun _ w => decoded_quiet _ w

theorem fetchPresym_quiet (s : State) : (fetchPresym s).Quiet s := by
  refine (headerRefill_quiet _ s).bind fun _ u => (lookup_quiet .precode _ u).bind fun e v => ?_
  dsimp only
  split
  · exact decoded_quiet _ v
  · exact (hpop_quiet _ _ v).bind fun _ w => decoded_quiet _ w

theorem fetchLitlen_quiet (c : Fin 32) (s : State) : (fetchLitlen c s).Quiet s := by
  refine (lookup_quiet .litlen c s).bind fun e u => ?_
  split
  · exact decoded_quiet _ u
  · split
    · exact Res.keeps_fault
    · exact (pop_quiet c _ u).bind fun _ v => decoded_quiet _ v

theorem fetchOffset_quiet (c : Fin 32) (s : State) : (fetchOffset c s).Quiet s := by
  refine (lookup_quiet .offset c s).bind fun e u => ?_
  split
  · exact Res.keeps_fault
  · exact (pop_quiet c _ u).bind fun _ v => decoded_quiet _ v

/-- Fetching an element leaves the output alone. -/
theorem fetch_quiet (f : Format) (s : State) : (fetch f s).Quiet s := by
  cases f with
  | ctrl => exact Res.keeps_fault
  | bhdr => exact (hpop_quiet _ 3 s).bind fun _ u => decoded_quiet _ u
  | dcounts => exact fetchDcounts_quiet s
  | prelen => exact (hpop_quiet _ 3 s).bind fun _ u => decoded_quiet _ u
  | presym => exact fetchPresym_quiet s
  | llsym => exact fetchLitlen_quiet s.cur s
  | offsym => exact fetchOffset_quiet s.cur s

/-! ## Operations that leave the output alone -/

/-- The element of a block header or a dynamic header leaves the output alone. -/
theorem exec_header_output {i : Instr} {s t : State}
    (hi : i.format = .bhdr ∨ i.format = .dcounts ∨ i.format = .prelen ∨ i.format = .presym) (h : exec i s = .next t) :
    t.output = s.output := by
  rcases hi with hi | hi | hi | hi
  · cases i <;> cases hi
    all_goals cases h; rfl
  · cases i <;> cases hi
    cases h; rfl
  · cases i <;> cases hi
    cases h; rw [putPrecodeLen_frame]; rfl
  · rcases exec_presym hi s with ⟨v, n, _, e⟩ | e <;> cases e.symm.trans h <;> rfl

/-- Reading and running such an element leaves the output alone. -/
theorem runElement_header_quiet {f : Format} (hf : f = .bhdr ∨ f = .dcounts ∨ f = .prelen ∨ f = .presym) (s : State) :
    (runElement f s).Quiet s := by
  refine Res.bind_keeps (fetch_quiet f s).1 (fetch_quiet f s).2 fun i u e hu => Res.Keeps.ofOutcome fun t h => ?_
  have hi := (fetch_reads e).format
  exact (exec_header_output (by rwa [hi]) h).trans hu

theorem opPrelens_quiet (n : Nat) (s : State) : (opPrelens n s).Quiet s := by
  induction n generalizing s with
  | zero => exact .ok rfl
  | succ n ih =>
    refine (runElement_header_quiet (by decide) s).bind fun _ u => ?_
    split
    · exact ih u
    · exact .ok rfl

theorem enterDecode_quiet (s : State) : (enterDecode s).Quiet s := (headerRefill_quiet _ s).bind fun _ _ => .ok rfl

theorem opDynBuild_quiet (s : State) : (opDynBuild s).Quiet s :=
  (build_quiet .offset _ s).bind fun _ u => (build_quiet .litlen _ u).bind fun _ v => enterDecode_quiet v

theorem opStaticTables_quiet (s : State) : (opStaticTables s).Quiet s := by
  have hinstall : (installStatic s).Quiet s :=
    (build_quiet .offset _ s).bind fun _ u => (build_quiet .litlen _ u).bind fun _ _ => .ok rfl
  unfold opStaticTables
  split
  · exact enterDecode_quiet s
  · exact hinstall.bind fun _ u => enterDecode_quiet u

theorem advances_quiet (n : Nat) (s : State) : (advances n s).Quiet s := by
  induction n generalizing s with
  | zero => exact .ok rfl
  | succ n ih => exact (advance_quiet s).bind fun _ u => ih u

theorem endOfBlock_quiet (s : State) : (endOfBlock s).Quiet s := by
  unfold endOfBlock
  dsimp only
  split
  · exact (advance_quiet _).after rfl
  · exact .ok rfl

theorem blockDone_quiet (s : State) : (blockDone s).Quiet s := by
  unfold blockDone finish
  split
  · split
    · exact .raise _ _ s
    · exact .ok rfl
  · exact .ok rfl

/-- Outside DECODE and DRAIN an operation leaves the output alone (42_block_control.md R170). -/
theorem operation_quiet {s : State} (hdecode : s.state ≠ .decode) (hdrain : s.state ≠ .drain) : (operation s).Quiet s := by
  unfold operation
  cases hs : s.state with
  | idle | done | error => exact .ok rfl
  | prime => exact (advances_quiet 32 s).bind fun _ _ => .ok rfl
  | header => exact runElement_header_quiet (by decide) s
  | dynTables =>
    cases s.phase with
    | counts => exact runElement_header_quiet (by decide) s
    | prelens => exact opPrelens_quiet 19 s
    | prebuild => exact (build_quiet .precode _ s).bind fun _ _ => .ok rfl
    | lens => exact runElement_header_quiet (by decide) s
    | build => exact opDynBuild_quiet s
  | staticTables => exact opStaticTables_quiet s
  | decode => exact absurd hs hdecode
  | drain => exact absurd hs hdrain

/-! ## What DECODE and DRAIN write -/

/-- `u` follows from `s` with only bytes of the output window written, and its recorded slots lie inside the bound. -/
structure InOutput (s u : State) : Prop where
  cfg : u.cfg = s.cfg
  base : u.outBase = s.outBase
  bound : u.outBound = s.outBound
  memory : MemoryInv u
  slots : ∀ c, u.pending c = true → (u.lane c).pdst + (u.lane c).plen ≤ s.outBound.toNat
  outside : ∀ a, (∀ p < s.outBound.toNat, a ≠ s.outAddr p) → Mem.read u.mem a = Mem.read s.mem a

namespace InOutput
variable {s u v : State}

/-- The invariants of a running tile put every slot inside the bound (10_state.md R28; 43_symbol_decode.md R206). -/
theorem begin (hm : MemoryInv s) (ho : OutputInv s) (hs : SlotInv s) (hb : s.busy = true) : InOutput s s :=
  ⟨rfl, rfl, rfl, hm, fun c hc => (hs hb c hc).1.trans (ho.2 hb).1, fun _ _ => rfl⟩

/-- It speaks of the output alone. -/
theorem of_output (h : InOutput s u) (e : v.output = u.output) : InOutput s v := by
  simp only [State.output, Prod.mk.injEq, funext_iff] at e
  obtain ⟨hc, hb, hn, hm, -, hp, hl⟩ := e
  refine ⟨hc.trans h.cfg, hb.trans h.base, hn.trans h.bound, ?_, ?_, ?_⟩
  · rw [MemoryInv, hm]; exact h.memory
  · intro c hpend
    rw [(hl c).1, (hl c).2]
    exact h.slots c (by rwa [State.pending, hp] at hpend)
  · rw [hm]; exact h.outside

/-- A quiet part keeps it. -/
theorem quiet {α : Type} {r : Res α} (h : InOutput s u) (hr : r.Quiet u) : r.Keeps (InOutput s) := hr.imp fun _ => h.of_output

theorem outAddr (h : InOutput s u) (p : Nat) : u.outAddr p = s.outAddr p := by
  rw [State.outAddr, State.addr, h.cfg, h.base]; rfl

/-- A change of memory, the output cursor, the trace and the draws that writes only bytes of the window. -/
theorem withMemory (h : InOutput s u)
    (hv : v = { u with mem := v.mem, outPos := v.outPos, trace := v.trace, draws := v.draws }) (hmem : MemoryInv v)
    (hother : ∀ a, (∀ p < s.outBound.toNat, a ≠ u.outAddr p) → Mem.read v.mem a = Mem.read u.mem a) : InOutput s v := by
  have houtside : ∀ a, (∀ p < s.outBound.toNat, a ≠ s.outAddr p) → Mem.read v.mem a = Mem.read s.mem a := fun a ha =>
    (hother a fun p hp => h.outAddr p ▸ ha p hp).trans (h.outside a ha)
  rw [hv] at hmem houtside ⊢
  exact ⟨h.cfg, h.base, h.bound, hmem, h.slots, houtside⟩

/-- The literal's byte is below the bound (43_symbol_decode.md R202). -/
theorem putLiteral (h : InOutput s u) (b : Byte) (hp : u.outPos < u.outBound.toNat) :
    InOutput s { outWrite u.outPos b u with outPos := u.outPos + 1 } :=
  h.withMemory (by rw [outWrite_frame]) (outWrite_wf _ b h.memory) fun _ ha => outWrite_other h.memory (ha _ (h.bound ▸ hp))

/-- A copy into a range below the bound (44_match_copy.md R223). -/
theorem copyBytes (h : InOutput s u) {dst dist n : Nat} (hn : dst + n ≤ s.outBound.toNat) :
    InOutput s (copyBytes dst dist n 0 u) :=
  h.withMemory (by rw [copyBytes_frame]) (copyBytes_wf dst dist n 0 h.memory) fun _ ha =>
    copyBytes_other h.memory fun _ _ => ha _ (by omega)

/-- A recorded slot is inside the bound (43_symbol_decode.md R205). -/
theorem recordMatch (h : InOutput s u) (c : Fin 32) {len : Nat} (hl : u.outPos + len ≤ u.outBound.toNat) :
    InOutput s (recordMatch c len u) := by
  refine ⟨h.cfg, h.base, h.bound, h.memory, ?_, h.outside⟩
  intro d hd
  have hlane : (Machine.recordMatch c len u).lane d = if c = d then { u.lane c with plen := len, pdst := u.outPos } else u.lane d :=
    setLane_lane c d _ u
  rw [hlane]
  split
  · rw [← h.bound]; exact hl
  · rename_i hne
    exact h.slots d ((setPending_other hne _).symm.trans hd)

theorem clearPending (h : InOutput s u) (c : Fin 32) : InOutput s (clearPending c u) :=
  ⟨h.cfg, h.base, h.bound, h.memory, fun d hd => h.slots d (pending_of_clearPending hd), h.outside⟩

end InOutput

theorem literal_inOutput {s u : State} (h : InOutput s u) (b : Byte) : (literal b u).Keeps (InOutput s) := by
  unfold literal
  split
  · exact h.quiet (.raise _ _ u)
  · exact (h.putLiteral b (by omega)).quiet (advance_quiet _)

theorem matchRecord_inOutput {s u : State} (h : InOutput s u) (len : Nat) : (matchRecord len u).Keeps (InOutput s) := by
  unfold matchRecord
  split
  · exact h.quiet (.raise _ _ u)
  · exact (h.recordMatch u.cur (by omega)).quiet (advance_quiet _)

/-- A pending lane's copy writes its slot (44_match_copy.md R220, R223). -/
theorem matchCopy_inOutput {s u : State} (h : InOutput s u) (hp : u.pending u.cur = true) (dist : Nat) :
    (matchCopy dist u).Keeps (InOutput s) := by
  have hcopy : (copy u.cur dist u).Keeps (InOutput s) := by
    unfold copy
    dsimp only
    split
    · exact h.quiet (.raise _ _ u)
    · exact Res.keeps_ok.mpr ((h.copyBytes (h.slots u.cur hp)).of_output rfl)
  exact hcopy.bind fun _ v hv => (hv.clearPending v.cur).quiet (advance_quiet _)

/-- A litlen element's effect (43_symbol_decode.md R202, R204, R205). -/
theorem exec_llsym_inOutput {i : Instr} {s u t : State} (h : InOutput s u) (hi : i.format = .llsym) (he : exec i u = .next t) :
    InOutput s t := by
  cases i <;> cases hi
  case llLiteral b => exact (literal_inOutput h b).outcome he
  case llEob => exact (h.quiet (endOfBlock_quiet u)).outcome he
  all_goals exact (matchRecord_inOutput h _).outcome he

/-- An offset element's effect is a copy on the active lane (44_match_copy.md R220). -/
theorem exec_offsym {i : Instr} (hi : i.format = .offsym) (s : State) : ∃ dist, exec i s = (matchCopy dist s).outcome := by
  cases i <;> cases hi
  all_goals exact ⟨_, rfl⟩

/-- Fetching an offset element touches only its lane (44_match_copy.md R220, R221). -/
theorem fetchOffset_ok {c : Fin 32} {s t : State} {i : Instr} (h : fetchOffset c s = .ok i t) : t = { s with lanes := t.lanes } := by
  obtain ⟨e, u, hl, h⟩ := Res.bind_eq_ok.mp h
  have hu := (lookup_ok hl).1
  split at h
  · cases h
  · obtain ⟨x, v, hp, h⟩ := Res.bind_eq_ok.mp h
    obtain ⟨_, w, hc, hx⟩ := Res.bind_eq_ok.mp hp
    obtain ⟨_, rfl⟩ := consume_ok hc
    cases hx
    unfold decoded at h
    split at h <;> cases h
    rw [hu]
    rfl

/-- A litlen turn. -/
theorem litlenTurn_inOutput {s u : State} (h : InOutput s u) : (runElement .llsym u).Keeps (InOutput s) := by
  have hf := h.quiet (fetch_quiet .llsym u)
  exact Res.bind_keeps hf.1 hf.2 fun i v e hv => Res.Keeps.ofOutcome fun t he => exec_llsym_inOutput hv (fetch_reads e).format he

/-- An offset turn of a pending lane. -/
theorem offsetTurn_inOutput {s u : State} (h : InOutput s u) (hp : u.pending u.cur = true) :
    (runElement .offsym u).Keeps (InOutput s) := by
  have hf := h.quiet (fetch_quiet .offsym u)
  refine Res.bind_keeps hf.1 hf.2 fun i v e hv => Res.Keeps.ofOutcome fun t he => ?_
  have hpv : v.pending v.cur = true := by rw [fetchOffset_ok e]; exact hp
  obtain ⟨dist, hd⟩ := exec_offsym (fetch_reads e).format v
  exact (matchCopy_inOutput hv hpv dist).outcome (hd ▸ he)

theorem drainSteps_inOutput {n : Nat} {s u : State} (h : InOutput s u) : (drainSteps n u).Keeps (InOutput s) := by
  induction n generalizing u with
  | zero => exact Res.keeps_ok.mpr h
  | succ n ih =>
    refine Res.Keeps.bind ?_ fun _ v hv => ih hv
    unfold drainStep
    split
    · exact offsetTurn_inOutput h (by assumption)
    · exact h.quiet (advance_quiet u)

/-- DRAIN performs the pending copies, each inside its slot (44_match_copy.md R225). -/
theorem opDrain_inOutput {s : State} (h : InOutput s s) : (opDrain s).Keeps (InOutput s) :=
  (drainSteps_inOutput (h.of_output (v := drainStart s) rfl)).bind fun _ u hu => hu.quiet (blockDone_quiet u)

/-- An operation writes only bytes of the output window. -/
theorem operation_inOutput {s : State} (h : InOutput s s) : (operation s).Keeps (InOutput s) := by
  by_cases hdecode : s.state = .decode
  · unfold operation
    rw [hdecode]
    dsimp only
    split
    · exact offsetTurn_inOutput h (by assumption)
    · exact litlenTurn_inOutput h
  · by_cases hdrain : s.state = .drain
    · unfold operation
      rw [hdrain]
      exact opDrain_inOutput h
    · exact h.quiet (operation_quiet hdecode hdrain)

/-- Settles O41: a BUSY engine's recorded slots lie inside the bound, so that its literals and copies do; any other engine waits. -/
theorem engineWritesOnlyOutput : Obligations.EngineWritesOnlyOutput := by
  intro s t hin hm ho hs h a ha
  rw [step_engine hin] at h
  cases hb : s.busy with
  | false =>
    rw [engineStep, operation_idle hb] at h
    cases h
    rfl
  | true => exact ((operation_inOutput (.begin hm ho hs hb)).outcome h).outside a ha

end Sys2Proof.Machine
end

section
/-! PROOFS. Input bytes and words, and the sticky flag (20_memory.md R62, R63). -/

namespace Sys2Proof.Machine

/-- `u` is `s` after input bytes were read: draws were taken and the sticky flag set, nothing else. -/
def AfterReads (s u : State) : Prop := u = { s with draws := u.draws, overread := u.overread }

theorem AfterReads.inputByte {s u : State} (h : AfterReads s u) (off : Nat) : AfterReads s (inputByte u off).2 := by
  rw [AfterReads, inputByte_frame]
  generalize (Machine.inputByte u off).2 = v
  rw [h]

/-- A byte of the tile's input that does not race is memory's, whatever bytes were read before it. -/
theorem AfterReads.inputByte_defined {s u : State} (h : AfterReads s u) {off : Nat} (hl : off < s.inLen.toNat)
    (hr : s.raced (s.inAddr off) = false) : (Machine.inputByte u off).1 = Mem.read s.mem (s.inAddr off) := by
  rw [h]
  exact congrArg Prod.fst
    (Machine.inputByte_defined (s := { s with draws := u.draws, overread := u.overread }) hl hr)

@[simp] theorem inputByte_inLen (s : State) (off : Nat) : (inputByte s off).2.inLen = s.inLen := by rw [inputByte_frame]

/-- Reading an input byte sets the sticky flag exactly where the byte lies past the tile (20_memory.md R63). -/
theorem inputByte_overread (s : State) (off : Nat) :
    (inputByte s off).2.overread = (s.overread || decide (s.inLen.toNat ≤ off)) := by
  unfold inputByte
  split
  · rename_i h
    rw [decide_eq_false (Nat.not_le.mpr h), Bool.or_false]
    split <;> rfl
  · rename_i h
    rw [decide_eq_true (Nat.le_of_not_lt h), Bool.or_true]

/-- Reading an input word sets it exactly where the word's last byte lies past the tile. -/
theorem inputWord_overread (s : State) :
    (inputWord s).2.overread = (s.overread || decide (s.inLen.toNat < 4 * s.inPos + 4)) := by
  simp only [inputWord, inputByte_overread, inputByte_inLen, Bool.or_assoc, ← Bool.decide_or]
  congr 2
  apply propext
  omega

/-- Byte `j` of the next input word is the input byte `j` places on (20_memory.md R62). -/
theorem inputWord_byte (s : State) {j : Nat} (hj : j < 4) :
    ∃ u, AfterReads s u ∧ (inputWord s).1.extractLsb' (8 * j) 8 = (inputByte u (4 * s.inPos + j)).1 := by
  have h0 : AfterReads s s := rfl
  have h1 := h0.inputByte (4 * s.inPos)
  have h2 := h1.inputByte (4 * s.inPos + 1)
  have h3 := h2.inputByte (4 * s.inPos + 2)
  simp only [inputWord]
  interval_cases j
  · exact ⟨_, h0, BitVec.extractLsb'_append_eq_right⟩
  · exact ⟨_, h1, (BitVec.extractLsb'_append_eq_of_le (by decide)).trans BitVec.extractLsb'_append_eq_right⟩
  · exact ⟨_, h2, (BitVec.extractLsb'_append_eq_of_le (by decide)).trans <|
      (BitVec.extractLsb'_append_eq_of_le (by decide)).trans BitVec.extractLsb'_append_eq_right⟩
  · exact ⟨_, h3, (BitVec.extractLsb'_append_eq_of_le (by decide)).trans <|
      (BitVec.extractLsb'_append_eq_of_le (by decide)).trans BitVec.extractLsb'_append_eq_left⟩

/-- Settles O34: the four bytes by `inputWord_byte`, the sticky flag by `inputWord_overread`. -/
theorem inputWordBytes : Obligations.InputWordBytes := by
  intro s
  refine ⟨?_, ?_, inputWord_defined⟩
  · rw [← inputWord_overread]
    exact inputWord_frame s
  · intro j hj hl hr
    obtain ⟨u, hu, hbyte⟩ := inputWord_byte s hj
    rw [hbyte, hu.inputByte_defined hl hr]

end Sys2Proof.Machine
end

section
/-! PROOFS. The host's accesses to an open tile's windows (20_memory.md R71), and the STARTs that are refused (R68;
41_huffman_tables.md R152). -/

namespace Sys2Proof.Machine

/-! ## Host accesses while a tile is open -/

/-- The contested addresses with one more (20_memory.md R71). -/
def State.contestedWith (s : State) (a : Nat) : List Nat := if s.contested.contains a then s.contested else a :: s.contested

theorem contestedWith_contains (s : State) (a : Nat) : (s.contestedWith a).contains a = true := by
  unfold State.contestedWith
  split
  · assumption
  · exact List.contains_iff_mem.mpr List.mem_cons_self

/-- The engine's accesses to a contested byte race. -/
theorem raced_of_contested {s : State} {a : Nat} (h : s.contested.contains a = true) : s.raced a = true := by
  rw [State.raced, h, Bool.true_or]

/-- A host's byte into a window of an open tile is contested, and a draw where the window is an output window. -/
theorem storeByte_window {a : Nat} {s : State} (h : s.inOpenInput a = true ∨ s.inOpenOutput a = true) (b : Byte) :
    storeByte a b s =
      { s with
        contested := s.contestedWith a, mem := Mem.write a (if s.inOpenOutput a then Config.draw s.draws else b) s.mem
        draws := if s.inOpenOutput a then s.draws + 1 else s.draws } := by
  rw [storeByte, if_pos (Bool.or_eq_true_iff.mpr h)]
  cases ho : s.inOpenOutput a <;> rfl

/-- A host's byte outside every window of an open tile goes to memory. -/
theorem storeByte_outside {a : Nat} {s : State} (hi : s.inOpenInput a = false) (ho : s.inOpenOutput a = false) (b : Byte) :
    storeByte a b s = { s with mem := Mem.write a b s.mem } := by
  rw [storeByte, hi, ho]
  rfl

/-- An input byte that races is a draw (20_memory.md R71, R73). -/
theorem inputByte_raced {s : State} {off : Nat} (h : off < s.inLen.toNat) (hr : s.raced (s.inAddr off) = true) :
    inputByte s off = (Config.draw s.draws, { s with draws := s.draws + 1 }) := by
  rw [inputByte, if_pos h, if_pos hr, takeDraw]

/-- A load of one byte shows it. -/
theorem loadBytes_one {s t : State} {addr : Word} {b : Byte} (h : loadByte (s.addr addr 0) s = (b, t)) :
    loadBytes addr 0 1 s = (b.setWidth 32, t) := by
  simp [loadBytes, h]

section
variable {s : State} {addr v : Word} {rest : List Input} (hr : s.touchesRegisters addr .byte = false)
include hr

/-- A step that stores one byte outside the register window. -/
theorem step_store_byte (hin : s.inputs = .store addr .byte v :: rest) :
    step s = .next (storeByte (s.addr addr 0) (v.setWidth 8) { s with inputs := rest }) := by
  have hr' : ({ s with inputs := rest } : State).touchesRegisters addr .byte = false := hr
  have hv : v >>> (8 * 0) = v := BitVec.ushiftRight_zero v
  rw [step_input hin, perform, hostStore, hr', Size.bytes, storeBytes, storeBytes, hv]
  rfl

/-- A step that loads one byte outside the register window shows it. -/
theorem step_load_byte (hin : s.inputs = .load addr .byte :: rest) {b : Byte} {t : State}
    (hb : loadByte (s.addr addr 0) { s with inputs := rest } = (b, t)) : step s = .next { t with hostData := b.setWidth 32 } := by
  have hr' : ({ s with inputs := rest } : State).touchesRegisters addr .byte = false := hr
  rw [step_input hin, perform, hostLoad, hr', Size.bytes, loadBytes_one (s := { s with inputs := rest }) hb]
  rfl

/-- A step that stores one byte into a window of an open tile. -/
theorem step_store_racing (hw : s.inOpenInput (s.addr addr 0) = true ∨ s.inOpenOutput (s.addr addr 0) = true)
    (hin : s.inputs = .store addr .byte v :: rest) :
    step s =
      .next { s with
        inputs := rest, contested := s.contestedWith (s.addr addr 0)
        mem := Mem.write (s.addr addr 0) (if s.inOpenOutput (s.addr addr 0) then Config.draw s.draws else v.setWidth 8) s.mem
        draws := if s.inOpenOutput (s.addr addr 0) then s.draws + 1 else s.draws } := by
  rw [step_store_byte hr hin, storeByte_window (s := { s with inputs := rest }) hw]
  rfl

end

/-- Settles O49: a load is one byte's load, and a store one byte's store, which contests a byte of a window and no other. -/
theorem hostRaces : Obligations.HostRaces := by
  intro s addr v rest hr
  dsimp only
  refine ⟨?_, ?_, ?_, ?_, ?_⟩
  · intro ho hin
    exact step_load_byte hr hin (if_pos ho)
  · intro ho hin
    exact step_load_byte hr hin (if_neg (ne_true_of_eq_false ho))
  · intro ho hin
    refine ⟨_, step_store_racing hr (.inr ho) hin, ?_, raced_of_contested (contestedWith_contains s _)⟩
    rw [ho]
    rfl
  · intro hi hin
    refine ⟨_, step_store_racing hr (.inl hi) hin, rfl, ?_⟩
    intro off hl ha
    have hc : (s.contestedWith (s.addr addr 0)).contains (s.inAddr off) = true := by
      rw [ha]
      exact contestedWith_contains s _
    exact inputByte_raced hl (raced_of_contested hc)
  · intro hi ho hin
    rw [step_store_byte hr hin, storeByte_outside (s := { s with inputs := rest }) hi ho]

/-! ## Refused STARTs -/

/-- Settles O17: START checks the tables, then the windows. -/
theorem startRefusals : Obligations.StartRefusals := by
  intro s ack irqEn rsv hb hbound
  have hlegal : ¬ 65536 < s.outBound.toNat := Nat.not_lt.mpr hbound
  have hstart : exec (.ctrlStart ack irqEn rsv) s = (start (writeIrqEn irqEn s)).outcome := by
    rw [exec, execCtrlStart, hb]
    rfl
  rw [hstart, start, writeIrqEn_outBound, if_neg hlegal, writeIrqEn_cfg]
  constructor
  · intro hc
    rw [if_pos hc]
    rfl
  · intro hc hd
    rw [hc, if_neg (by decide), if_pos (show (writeIrqEn irqEn s).windowOnDevice = true from hd)]
    rfl

end Sys2Proof.Machine
end

section
/-! PROOFS. The element encodings: the decoder and the encoder invert each other, and what is no instruction is refused
(30_encoding.md R89 to R98; 45_host.md R240). -/

namespace Sys2Proof

/-! ## A symbol and its extra bits -/

/-- A symbol of an element word, whose extra bits stand above it (log 18). -/
theorem symWord_mod {width sym : Nat} (h : sym < 2 ^ width) (extra : Nat) : symWord width sym extra % 2 ^ width = sym := by
  rw [symWord, Nat.add_mul_mod_self_right, Nat.mod_eq_of_lt h]

theorem symWord_div {width sym : Nat} (h : sym < 2 ^ width) (extra : Nat) : symWord width sym extra / 2 ^ width = extra := by
  rw [symWord, Nat.add_mul_div_right _ _ (Nat.two_pow_pos width), Nat.div_eq_of_lt h, Nat.zero_add]

/-- Every element word is its symbol with its extra bits. -/
theorem symWord_mod_div (width w : Nat) : symWord width (w % 2 ^ width) (w / 2 ^ width) = w :=
  Nat.mod_add_div' w (2 ^ width)

theorem decode_presym_symWord {sym : Nat} (h : sym < 2 ^ 5) (extra : Nat) : decode .presym (symWord 5 sym extra) = decodePresym sym extra := by
  rw [decode, symWord_mod h, symWord_div h]

theorem decode_llsym_symWord {sym : Nat} (h : sym < 2 ^ 9) (extra : Nat) : decode .llsym (symWord 9 sym extra) = decodeLitlen sym extra := by
  rw [decode, symWord_mod h, symWord_div h]

theorem decode_offsym_symWord {sym : Nat} (h : sym < 2 ^ 5) (extra : Nat) : decode .offsym (symWord 5 sym extra) = decodeOffset sym extra := by
  rw [decode, symWord_mod h, symWord_div h]

@[simp] theorem noExtra_zero (i : Instr) : noExtra 0 i = .ok i := rfl

@[simp] theorem withExtra_toNat {k : Nat} (x : BitVec k) (mk : BitVec k → Instr) : withExtra k x.toNat mk = .ok (mk x) := by
  rw [withExtra, if_pos x.isLt, BitVec.ofNat_toNat, BitVec.setWidth_eq]

/-- No extra bits are extra bits of width 0. -/
theorem noExtra_eq_withExtra (extra : Nat) (i : Instr) : noExtra extra i = withExtra 0 extra fun _ => i := by
  simp only [noExtra, withExtra, Nat.pow_zero, Nat.lt_one_iff]

/-! ## CTRL values -/

theorem ctrlWord_toNat (start ack irqEn : Bool) (rsv : BitVec 29) :
    (BitVec.ofNat 32 (ctrlWord start ack irqEn rsv)).toNat = ctrlWord start ack irqEn rsv := by
  rw [BitVec.toNat_ofNat, Nat.mod_eq_of_lt (Laws.EncodeFits.ctrlWord_lt start ack irqEn rsv)]

/-- The fields of a CTRL value (45_host.md R240). -/
theorem ctrlWord_fields (start ack irqEn : Bool) (rsv : BitVec 29) :
    let v := BitVec.ofNat 32 (ctrlWord start ack irqEn rsv)
    v.getLsbD 0 = start ∧ v.getLsbD 1 = ack ∧ v.getLsbD 2 = irqEn ∧ v.extractLsb' 3 29 = rsv := by
  have hv := ctrlWord_toNat start ack irqEn rsv
  have hs := Bool.toNat_lt start
  have ha := Bool.toNat_lt ack
  have hi := Bool.toNat_lt irqEn
  have hr := rsv.isLt
  refine ⟨Machine.getLsbD_of_toNat ?_, Machine.getLsbD_of_toNat ?_, Machine.getLsbD_of_toNat ?_, Machine.extractLsb'_of_toNat ?_⟩
  all_goals
    rw [hv, ctrlWord]
    omega

/-- The command of a CTRL value, from its fields (45_host.md R240). -/
theorem decodeCtrl_ctrlWord (start ack irqEn : Bool) (rsv : BitVec 29) :
    decodeCtrl (BitVec.ofNat 32 (ctrlWord start ack irqEn rsv)) =
      if start then .ctrlStart ack irqEn rsv else if ack then .ctrlAck irqEn rsv else .ctrlIrqEn irqEn rsv := by
  obtain ⟨hs, ha, hi, hr⟩ := ctrlWord_fields start ack irqEn rsv
  rw [decodeCtrl, hs, ha, hi, hr]

theorem decode_ctrl_ctrlWord (start ack irqEn : Bool) (rsv : BitVec 29) :
    decode .ctrl (ctrlWord start ack irqEn rsv) =
      .ok (if start then .ctrlStart ack irqEn rsv else if ack then .ctrlAck irqEn rsv else .ctrlIrqEn irqEn rsv) := by
  rw [decode, if_pos (Laws.EncodeFits.ctrlWord_lt start ack irqEn rsv), decodeCtrl_ctrlWord]

/-- Every CTRL value is made of its fields. -/
theorem ctrlWord_of_fields (v : Word) : ctrlWord (v.getLsbD 0) (v.getLsbD 1) (v.getLsbD 2) (v.extractLsb' 3 29) = v.toNat := by
  have hv := v.isLt
  simp only [ctrlWord, BitVec.getLsbD, Nat.toNat_testBit, BitVec.extractLsb'_toNat, Nat.shiftRight_eq_div_pow]
  omega

theorem encode_decodeCtrl (v : Word) : encode (decodeCtrl v) = v.toNat := by
  rw [← ctrlWord_of_fields v, decodeCtrl]
  cases hs : v.getLsbD 0
  · cases ha : v.getLsbD 1 <;> rfl
  · rfl

/-! ## Decoding what was encoded -/

theorem decode_encode_ctrl {i : Instr} (h : i.format = .ctrl) : decode .ctrl (encode i) = .ok i := by
  cases i <;> cases h
  all_goals exact decode_ctrl_ctrlWord _ _ _ _

theorem decode_encode_bhdr {i : Instr} (h : i.format = .bhdr) : decode .bhdr (encode i) = .ok i := by
  cases i <;> cases h
  case bhdrStored final => cases final <;> rfl
  case bhdrStatic final => cases final <;> rfl
  case bhdrDynamic final => cases final <;> rfl
  case bhdrReserved final => cases final <;> rfl

/-- The counts' three fields stand side by side (30_encoding.md R90). -/
theorem decode_encode_dcounts {hlit hdist hclen : Nat} (h : (Instr.dcounts hlit hdist hclen).wellFormed = true) :
    decode .dcounts (encode (.dcounts hlit hdist hclen)) = .ok (.dcounts hlit hdist hclen) := by
  have hfits : encode (.dcounts hlit hdist hclen) < 2 ^ 14 := Laws.EncodeFits.dcounts hlit hdist hclen h
  simp only [Instr.wellFormed, Bool.and_eq_true, decide_eq_true_eq] at h
  rw [decode, if_pos hfits]
  simp only [encode, decodeDcounts, BitVec.toNat_ofNat, Except.ok.injEq, Instr.dcounts.injEq]
  omega

theorem decode_encode_prelen (len : BitVec 3) : decode .prelen (encode (.prelen len)) = .ok (.prelen len) := by
  rw [encode, decode, if_pos len.isLt, BitVec.ofNat_toNat, BitVec.setWidth_eq]

theorem decode_encode_presym {i : Instr} (h : i.format = .presym) : decode .presym (encode i) = .ok i := by
  cases i <;> cases h
  all_goals
    rw [encode, decode_presym_symWord (by decide)]
    simp only [decodePresym, noExtra_zero, withExtra_toNat]

/-- The literals are the litlen symbols below 256 (30_encoding.md R98). -/
theorem decodeLitlen_literal (byte : Byte) : decodeLitlen byte.toNat 0 = .ok (.llLiteral byte) := by
  rw [decodeLitlen, if_pos byte.isLt, BitVec.ofNat_toNat, BitVec.setWidth_eq, noExtra_zero]

theorem decodeLitlen_length {sym : Nat} (h : 256 ≤ sym) (extra : Nat) : decodeLitlen sym extra = decodeLength sym extra :=
  if_neg (Nat.not_lt.mpr h)

theorem decode_encode_llsym {i : Instr} (h : i.format = .llsym) : decode .llsym (encode i) = .ok i := by
  cases i <;> cases h
  case llLiteral byte =>
    rw [encode, decode_llsym_symWord (byte.isLt.trans (by decide)), decodeLitlen_literal]
  all_goals
    rw [encode, decode_llsym_symWord (by decide), decodeLitlen_length (by decide)]
    simp only [decodeLength, noExtra_zero, withExtra_toNat]

theorem decode_encode_offsym {i : Instr} (h : i.format = .offsym) : decode .offsym (encode i) = .ok i := by
  cases i <;> cases h
  all_goals
    rw [encode, decode_offsym_symWord (by decide)]
    simp only [decodeOffset, noExtra_zero, withExtra_toNat]

/-- Settles O1, format by format. -/
theorem decodeEncodeRoundTrip : Obligations.DecodeEncodeRoundTrip := by
  intro i hwf
  cases hf : i.format with
  | ctrl => exact decode_encode_ctrl hf
  | bhdr => exact decode_encode_bhdr hf
  | dcounts =>
    cases i <;> cases hf
    exact decode_encode_dcounts hwf
  | prelen =>
    cases i <;> cases hf
    exact decode_encode_prelen _
  | presym => exact decode_encode_presym hf
  | llsym => exact decode_encode_llsym hf
  | offsym => exact decode_encode_offsym hf

/-! ## Encoding what was decoded -/

theorem encode_decodeBhdr (h : BitVec 3) : encode (decodeBhdr h) = h.toNat := by
  have hall : ∀ h : BitVec 3, encode (decodeBhdr h) = h.toNat := by decide
  exact hall h

theorem encode_decodeDcounts (hlit hdist : BitVec 5) (hclen : BitVec 4) :
    encode (decodeDcounts hlit hdist hclen) = hlit.toNat + hdist.toNat * 2 ^ 5 + hclen.toNat * 2 ^ 10 := by
  simp only [encode, decodeDcounts, Nat.add_sub_cancel]

/-- A precode symbol that decodes has at most seven extra bits, and its word is the symbol below them (30_encoding.md R92). -/
theorem encode_decodePresym {sym extra : Nat} {i : Instr} (h : decodePresym sym extra = .ok i) :
    encode i = symWord 5 sym extra ∧ extra < 2 ^ 7 := by
  unfold decodePresym at h
  split at h <;> simp only [noExtra_eq_ok, withExtra_eq_ok, reduceCtorEq] at h
  all_goals
    obtain ⟨hextra, rfl⟩ := h
    refine ⟨?_, by omega⟩
    simp only [encode, BitVec.toNat_ofNat, Nat.mod_eq_of_lt, hextra]

/-- A litlen symbol that decodes has at most five extra bits, and its word is the symbol below them (30_encoding.md R95, R98). -/
theorem encode_decodeLitlen {sym extra : Nat} {i : Instr} (h : decodeLitlen sym extra = .ok i) :
    encode i = symWord 9 sym extra ∧ extra < 2 ^ 5 := by
  unfold decodeLitlen decodeLength at h
  split at h
  · next hsym =>
    obtain ⟨rfl, rfl⟩ := noExtra_eq_ok.mp h
    simp only [encode, BitVec.toNat_ofNat, Nat.mod_eq_of_lt hsym]
    decide
  · split at h <;> simp only [noExtra_eq_ok, withExtra_eq_ok, reduceCtorEq] at h
    all_goals
      obtain ⟨hextra, rfl⟩ := h
      refine ⟨?_, by omega⟩
      simp only [encode, BitVec.toNat_ofNat, Nat.mod_eq_of_lt, hextra]

/-- An offset symbol that decodes has at most fourteen extra bits, and its word is the symbol below them (30_encoding.md R97). -/
theorem encode_decodeOffset {sym extra : Nat} {i : Instr} (h : decodeOffset sym extra = .ok i) :
    encode i = symWord 5 sym extra ∧ extra < 2 ^ 14 := by
  unfold decodeOffset at h
  split at h <;> simp only [noExtra_eq_ok, withExtra_eq_ok, reduceCtorEq] at h
  all_goals
    obtain ⟨hextra, rfl⟩ := h
    refine ⟨?_, by omega⟩
    simp only [encode, BitVec.toNat_ofNat, Nat.mod_eq_of_lt, hextra]

/-- A word that decodes has no bit above its format's last, and is the word of what it decodes to. -/
theorem encode_of_decode {f : Format} {w : Nat} {i : Instr} (h : decode f w = .ok i) :
    encode i = w ∧ w < 2 ^ Machine.elementBits f := by
  cases f <;> simp only [decode, Machine.elementBits] at h ⊢
  case ctrl =>
    split at h <;> cases h
    next hw => exact ⟨by rw [encode_decodeCtrl, BitVec.toNat_ofNat, Nat.mod_eq_of_lt hw], hw⟩
  case bhdr =>
    split at h <;> cases h
    next hw => exact ⟨by rw [encode_decodeBhdr, BitVec.toNat_ofNat, Nat.mod_eq_of_lt hw], hw⟩
  case dcounts =>
    split at h <;> cases h
    next hw =>
      rw [encode_decodeDcounts]
      simp only [BitVec.toNat_ofNat]
      omega
  case prelen =>
    split at h <;> cases h
    next hw => exact ⟨by rw [encode, BitVec.toNat_ofNat, Nat.mod_eq_of_lt hw], hw⟩
  case presym =>
    obtain ⟨he, hextra⟩ := encode_decodePresym h
    exact ⟨he.trans (symWord_mod_div 5 w), by omega⟩
  case llsym =>
    obtain ⟨he, hextra⟩ := encode_decodeLitlen h
    exact ⟨he.trans (symWord_mod_div 9 w), by omega⟩
  case offsym =>
    obtain ⟨he, hextra⟩ := encode_decodeOffset h
    exact ⟨he.trans (symWord_mod_div 5 w), by omega⟩

theorem decodeCtrl_reads (v : Word) : (decodeCtrl v).Reads .ctrl := by
  unfold decodeCtrl
  dsimp only
  split
  · exact ⟨rfl, rfl⟩
  · split <;> exact ⟨rfl, rfl⟩

/-- What decodes is a well-formed instruction of the format asked for. -/
theorem decode_reads {f : Format} {w : Nat} {i : Instr} (h : decode f w = .ok i) : i.Reads f := by
  cases f with
  | ctrl =>
    simp only [decode] at h
    split at h <;> cases h
    exact decodeCtrl_reads _
  | bhdr => exact decode_header_reads (.inl rfl) h
  | dcounts => exact decode_header_reads (.inr (.inl rfl)) h
  | prelen => exact decode_header_reads (.inr (.inr rfl)) h
  | presym => exact decodePresym_reads h
  | llsym => exact decodeLitlen_reads h
  | offsym => exact decodeOffset_reads h

/-- Settles O2. -/
theorem decodeSound : Obligations.DecodeSound := fun _ _ _ h =>
  ⟨(decode_reads h).wellFormed, (decode_reads h).format, (encode_of_decode h).1⟩

/-! ## What is refused -/

theorem decodePresym_above {sym : Nat} (h : 19 ≤ sym) (extra : Nat) : decodePresym sym extra = .error .presymAbove18 := by
  obtain ⟨n, rfl⟩ := Nat.exists_eq_add_of_le' h
  rfl

theorem decodeLitlen_above {sym : Nat} (h : 288 ≤ sym) (extra : Nat) : decodeLitlen sym extra = .error .llsymAbove287 := by
  rw [decodeLitlen_length (by omega)]
  obtain ⟨n, rfl⟩ := Nat.exists_eq_add_of_le' h
  rfl

/-- Only a word that is too wide is refused by an element's extra bits. -/
theorem withExtra_eq_error {k extra : Nat} {mk : BitVec k → Instr} {r : Reject} (h : withExtra k extra mk = .error r) : r = .tooWide := by
  unfold withExtra at h
  split at h <;> cases h
  rfl

/-- Every offset symbol has a meaning (30_encoding.md R97). -/
theorem decodeOffset_eq_error {sym extra : Nat} {r : Reject} (hsym : sym < 32) (h : decodeOffset sym extra = .error r) : r = .tooWide := by
  interval_cases sym <;> simp only [decodeOffset, noExtra_eq_withExtra] at h <;> exact withExtra_eq_error h

/-- Settles O4: what decodes has no bit above its format's last. -/
theorem decodeRejects : Obligations.DecodeRejects := by
  refine ⟨fun w h => decodePresym_above h _, fun w h => decodeLitlen_above h _, ?_, ?_⟩
  · intro w h
    cases decodeOffset_eq_error (Nat.mod_lt w (by decide)) h
  · intro f w hw
    cases h : decode f w with
    | error r => exact ⟨r, rfl⟩
    | ok i => exact absurd (encode_of_decode h).2 (Nat.not_lt.mpr hw)

end Sys2Proof
end

section
/-! PROOFS. Codewords held bit-reversed (30_encoding.md R82), as BUILD indexes its tables with them (41_huffman_tables.md R146, R147). -/

namespace Sys2Proof.Machine

/-! ## The reversed bits of a number -/

theorem revBits_succ (n v : Nat) : revBits (n + 1) v = v % 2 * 2 ^ n + revBits n (v / 2) := rfl

/-- The low bits of a reversed number are the reverse of its high bits. -/
theorem revBits_mod {m n : Nat} (h : m ≤ n) (v : Nat) : revBits n v % 2 ^ m = revBits m (v / 2 ^ (n - m)) := by
  induction n generalizing v with
  | zero =>
    obtain rfl := Nat.le_zero.mp h
    rfl
  | succ n ih =>
    rcases Nat.lt_or_eq_of_le h with hlt | rfl
    · have hm : m ≤ n := Nat.le_of_lt_succ hlt
      obtain ⟨k, rfl⟩ := Nat.exists_eq_add_of_le hm
      rw [revBits_succ, Nat.pow_add, Nat.mul_left_comm, Nat.mul_add_mod, ih hm, Nat.div_div_eq_div_mul, Nat.add_assoc]
      simp only [Nat.add_sub_cancel_left, Nat.pow_succ, Nat.mul_comm]
    · rw [Nat.mod_eq_of_lt (revBits_lt _ _), Nat.sub_self, Nat.pow_zero, Nat.div_one]

/-- The high bits of a reversed number are the reverse of its low bits. -/
theorem revBits_div {m n : Nat} (h : m ≤ n) (v : Nat) : revBits n v / 2 ^ m = revBits (n - m) v := by
  induction n generalizing v with
  | zero =>
    obtain rfl := Nat.le_zero.mp h
    exact Nat.div_one _
  | succ n ih =>
    rcases Nat.lt_or_eq_of_le h with hlt | rfl
    · have hm : m ≤ n := Nat.le_of_lt_succ hlt
      have hsplit : v % 2 * 2 ^ n = 2 ^ m * (v % 2 * 2 ^ (n - m)) := by
        rw [Nat.mul_left_comm, ← Nat.pow_add, Nat.add_sub_cancel' hm]
      rw [revBits_succ, hsplit, Nat.mul_add_div (Nat.two_pow_pos m), ih hm, Nat.sub_add_comm hm, revBits_succ]
    · rw [Nat.div_eq_of_lt (revBits_lt _ _), Nat.sub_self]
      rfl

/-- A codeword with zeros appended is the same number reversed. -/
theorem revBits_mul_two_pow (n k v : Nat) : revBits (n + k) (v * 2 ^ k) = revBits n v := by
  induction k with
  | zero => rw [Nat.add_zero, Nat.pow_zero, Nat.mul_one]
  | succ k ih =>
    have hdiv : v * 2 ^ (k + 1) / 2 = v * 2 ^ k := by
      rw [Nat.pow_succ, ← Nat.mul_assoc, Nat.mul_div_cancel _ (by decide)]
    have hmod : v * 2 ^ (k + 1) % 2 = 0 := by
      rw [Nat.pow_succ, ← Nat.mul_assoc, Nat.mul_mod_left]
    rw [← Nat.add_assoc, revBits_succ, hmod, hdiv, ih, Nat.zero_mul, Nat.zero_add]

theorem revBits_injective {n a b : Nat} (ha : a < 2 ^ n) (hb : b < 2 ^ n) (h : revBits n a = revBits n b) : a = b := by
  induction n generalizing a b with
  | zero =>
    rw [Nat.pow_zero] at ha hb
    omega
  | succ n ih =>
    rw [revBits_succ, revBits_succ] at h
    rw [Nat.pow_succ] at ha hb
    have hla := revBits_lt n (a / 2)
    have hlb := revBits_lt n (b / 2)
    have hlow : a % 2 = b % 2 ∧ revBits n (a / 2) = revBits n (b / 2) := by
      rcases Nat.mod_two_eq_zero_or_one a with ea | ea <;> rcases Nat.mod_two_eq_zero_or_one b with eb | eb <;>
        rw [ea, eb] at h <;> omega
    have hhigh := ih (by omega) (by omega) hlow.2
    omega

theorem revBits_allOnes (n : Nat) : revBits n (2 ^ n - 1) = 2 ^ n - 1 := by
  induction n with
  | zero => rfl
  | succ n ih =>
    have hpos := Nat.two_pow_pos n
    have hmod : (2 ^ (n + 1) - 1) % 2 = 1 := by omega
    have hdiv : (2 ^ (n + 1) - 1) / 2 = 2 ^ n - 1 := by omega
    rw [revBits_succ, hmod, hdiv, ih]
    omega

/-- The last codeword is all ones in either order of its bits. -/
theorem revBits_eq_allOnes_iff {n v : Nat} (h : v < 2 ^ n) : revBits n v = 2 ^ n - 1 ↔ v + 1 = 2 ^ n := by
  have hpos := Nat.two_pow_pos n
  constructor
  · intro he
    have hv := revBits_injective h (Nat.sub_one_lt_of_lt hpos) (he.trans (revBits_allOnes n).symm)
    omega
  · intro he
    obtain rfl : v = 2 ^ n - 1 := by omega
    exact revBits_allOnes n

/-! ## The next codeword -/

/-- Where the top bit is clear, the next codeword sets it. -/
theorem nextCodeword_topClear {cw n : Nat} (h : cw < 2 ^ n) : nextCodeword cw (n + 1) = 2 ^ n + cw := by
  have hlog : Nat.log2 (cw ^^^ (2 ^ (n + 1) - 1)) = n := by
    have htop : (cw ^^^ (2 ^ (n + 1) - 1)).testBit n = true := by
      rw [Nat.testBit_xor, Nat.testBit_lt_two_pow h, Nat.testBit_two_pow_sub_one]
      simp
    have hlt : cw ^^^ (2 ^ (n + 1) - 1) < 2 ^ (n + 1) :=
      Nat.xor_lt_two_pow (h.trans (Nat.pow_lt_pow_right (by decide) n.lt_succ_self)) (Nat.sub_one_lt_of_lt (Nat.two_pow_pos _))
    have hge := Nat.ge_two_pow_of_testBit htop
    exact (Nat.log2_eq_iff (by have := Nat.two_pow_pos n; omega)).mpr ⟨hge, hlt⟩
  rw [nextCodeword, hlog, Nat.and_two_pow_sub_one_eq_mod, Nat.mod_eq_of_lt h, Nat.lor_comm]
  simpa using (Nat.two_pow_add_eq_or_of_lt h 1).symm

/-- Where the top bit is set, it is cleared and the bits below it take the next codeword. -/
theorem nextCodeword_topSet {cw n : Nat} (h : cw < 2 ^ n - 1) : nextCodeword (2 ^ n + cw) (n + 1) = nextCodeword cw n := by
  have hcw : cw < 2 ^ n := by omega
  have hxor : (2 ^ n + cw) ^^^ (2 ^ (n + 1) - 1) = cw ^^^ (2 ^ n - 1) := by
    apply Nat.eq_of_testBit_eq
    intro i
    rw [Nat.testBit_xor, Nat.testBit_xor, Nat.testBit_two_pow_sub_one, Nat.testBit_two_pow_sub_one]
    rcases Nat.lt_trichotomy i n with hi | rfl | hi
    · rw [Nat.testBit_two_pow_add_gt hi]
      simp [hi, Nat.lt_succ_of_lt hi]
    · rw [Nat.testBit_two_pow_add_eq, Nat.testBit_lt_two_pow hcw]
      simp
    · have hbig : 2 ^ n + cw < 2 ^ i := by
        have := Nat.pow_le_pow_right (show 2 > 0 by decide) hi
        rw [Nat.succ_eq_add_one, Nat.pow_succ] at this
        omega
      rw [Nat.testBit_lt_two_pow hbig, Nat.testBit_lt_two_pow (by omega)]
      simp [show ¬ i < n by omega, show ¬ i < n + 1 by omega]
  have hlt : cw ^^^ (2 ^ n - 1) < 2 ^ n := Nat.xor_lt_two_pow hcw (by omega)
  have hne : cw ^^^ (2 ^ n - 1) ≠ 0 := by
    rw [ne_eq, Nat.xor_eq_zero_iff]
    omega
  have hlog : Nat.log2 (cw ^^^ (2 ^ n - 1)) ≤ n := ((Nat.log2_lt hne).mpr hlt).le
  have hmod : (2 ^ n + cw) % 2 ^ Nat.log2 (cw ^^^ (2 ^ n - 1)) = cw % 2 ^ Nat.log2 (cw ^^^ (2 ^ n - 1)) := by
    rw [Nat.add_mod, Nat.mod_eq_zero_of_dvd (Nat.pow_dvd_pow 2 hlog), Nat.zero_add, Nat.mod_mod]
  simp only [nextCodeword, hxor, Nat.and_two_pow_sub_one_eq_mod, hmod]

/-- BUILD's bit-reversed increment is the next codeword, reversed (41_huffman_tables.md R147, R151). -/
theorem nextCodeword_revBits {n c : Nat} (h : c + 1 < 2 ^ n) : nextCodeword (revBits n c) n = revBits n (c + 1) := by
  induction n generalizing c with
  | zero =>
    rw [Nat.pow_zero] at h
    omega
  | succ n ih =>
    rw [Nat.pow_succ] at h
    rw [revBits_succ, revBits_succ]
    rcases Nat.mod_two_eq_zero_or_one c with hc | hc
    · have hdiv : (c + 1) / 2 = c / 2 := by omega
      have hmod : (c + 1) % 2 = 1 := by omega
      rw [hc, hdiv, hmod, Nat.zero_mul, Nat.zero_add, Nat.one_mul, nextCodeword_topClear (revBits_lt n _)]
    · have hdiv : (c + 1) / 2 = c / 2 + 1 := by omega
      have hmod : (c + 1) % 2 = 0 := by omega
      have hlt := revBits_lt n (c / 2)
      have hones : revBits n (c / 2) ≠ 2 ^ n - 1 := by
        rw [ne_eq, revBits_eq_allOnes_iff (by omega)]
        omega
      rw [hc, hdiv, hmod, Nat.zero_mul, Nat.zero_add, Nat.one_mul, nextCodeword_topSet (by omega), ih (by omega)]

end Sys2Proof.Machine
end

section
/-! PROOFS. Canonical codes (30_encoding.md R85, R86): the order BUILD sorts the symbols into, and the codeword of each from the
codespace the symbols before it take. -/

namespace Sys2Proof.Machine

/-! ## The symbols in the order of their codewords -/

/-- The symbols with a codeword, by length and then by number (41_huffman_tables.md R143). -/
def usedSyms (lens : List Nat) (maxLen : Nat) : List Nat := (List.range' 1 maxLen).flatMap (symsOfLen lens)

/-- The order of the codewords: by length, then by symbol (30_encoding.md R86). -/
def CodeBefore (lens : List Nat) (s t : Nat) : Prop :=
  lens.getD s 0 < lens.getD t 0 ∨ (lens.getD s 0 = lens.getD t 0 ∧ s < t)

variable {lens : List Nat} {maxLen : Nat}

theorem lt_length_of_getD {s : Nat} (h : lens.getD s 0 ≠ 0) : s < lens.length := by
  by_contra hs
  exact h (List.getD_eq_default _ _ (Nat.not_lt.mp hs))

theorem getD_le (h : ∀ l ∈ lens, l ≤ maxLen) (s : Nat) : lens.getD s 0 ≤ maxLen := by
  by_cases hs : s < lens.length
  · rw [List.getD_eq_getElem _ _ hs]
    exact h _ (List.getElem_mem hs)
  · rw [List.getD_eq_default _ _ (Nat.not_lt.mp hs)]
    exact Nat.zero_le _

/-- A list of lengths, read off its symbols. -/
theorem map_getD_range (lens : List Nat) : (List.range lens.length).map (fun s => lens.getD s 0) = lens := by
  apply List.ext_getElem
  · simp
  · intro i _ h
    simp only [List.getElem_map, List.getElem_range, List.getD_eq_getElem _ _ h]

/-- The symbols of one length are those whose length it is, in increasing order. -/
theorem symsOfLen_eq_filter (lens : List Nat) (l : Nat) :
    symsOfLen lens l = (List.range lens.length).filter fun s => lens.getD s 0 == l := by
  have hzip : lens.zipIdx = (List.range lens.length).map fun s => (lens.getD s 0, s) := by
    apply List.ext_getElem
    · simp
    · intro i h _
      have hi : i < lens.length := by simpa using h
      simp only [List.getElem_zipIdx, List.getElem_map, List.getElem_range, Nat.zero_add, List.getD_eq_getElem _ _ hi]
  rw [symsOfLen, hzip, List.filter_map, List.map_map]
  exact List.map_id _

theorem mem_symsOfLen {s l : Nat} : s ∈ symsOfLen lens l ↔ s < lens.length ∧ lens.getD s 0 = l := by
  rw [symsOfLen_eq_filter, List.mem_filter, List.mem_range, beq_iff_eq]

theorem symsOfLen_sorted (lens : List Nat) (l : Nat) : (symsOfLen lens l).Pairwise (· < ·) := by
  rw [symsOfLen_eq_filter]
  exact List.pairwise_lt_range.filter _

theorem length_symsOfLen (lens : List Nat) (l : Nat) : (symsOfLen lens l).length = lens.count l := by
  conv_rhs => rw [← map_getD_range lens]
  rw [symsOfLen_eq_filter, ← List.countP_eq_length_filter, List.count, List.countP_map]
  rfl

theorem lengthCounts_getD {l : Nat} (h : l ≤ maxLen) : (lengthCounts lens maxLen).getD l 0 = lens.count l := by
  have hl : l < maxLen + 1 := Nat.lt_succ_of_le h
  simp [lengthCounts, List.getD, List.getElem?_range hl]

/-- BUILD passes over the symbols without a codeword (41_huffman_tables.md R147). -/
theorem sortSyms_drop_unused (lens : List Nat) (maxLen : Nat) :
    (sortSyms lens maxLen).drop ((lengthCounts lens maxLen).getD 0 0) = usedSyms lens maxLen := by
  rw [lengthCounts_getD (Nat.zero_le _), ← length_symsOfLen, sortSyms, List.range_eq_range', List.range'_succ, List.flatMap_cons,
    List.drop_left, usedSyms]

theorem mem_usedSyms (h : ∀ l ∈ lens, l ≤ maxLen) {s : Nat} : s ∈ usedSyms lens maxLen ↔ lens.getD s 0 ≠ 0 := by
  have hle := getD_le h s
  simp only [usedSyms, List.mem_flatMap, List.mem_range'_1, mem_symsOfLen]
  constructor
  · rintro ⟨l, hl, _, rfl⟩
    omega
  · intro hs
    exact ⟨_, by omega, lt_length_of_getD hs, rfl⟩

theorem usedSyms_sorted (lens : List Nat) (maxLen : Nat) : (usedSyms lens maxLen).Pairwise (CodeBefore lens) := by
  rw [usedSyms, List.pairwise_flatMap]
  constructor
  · intro l _
    refine (symsOfLen_sorted lens l).imp_of_mem fun hs ht hlt => .inr ⟨?_, hlt⟩
    rw [(mem_symsOfLen.mp hs).2, (mem_symsOfLen.mp ht).2]
  · refine (List.pairwise_lt_range' (step := 1)).imp fun hlt s hs t ht => .inl ?_
    rwa [(mem_symsOfLen.mp hs).2, (mem_symsOfLen.mp ht).2]

theorem CodeBefore.irrefl (s : Nat) : ¬ CodeBefore lens s s := by
  unfold CodeBefore
  omega

theorem CodeBefore.asymm {s t : Nat} (h : CodeBefore lens s t) : ¬ CodeBefore lens t s := by
  unfold CodeBefore at *
  omega

theorem CodeBefore.len_le {s t : Nat} (h : CodeBefore lens s t) : lens.getD s 0 ≤ lens.getD t 0 := by
  unfold CodeBefore at h
  omega

theorem usedSyms_nodup (lens : List Nat) (maxLen : Nat) : (usedSyms lens maxLen).Nodup :=
  (usedSyms_sorted lens maxLen).imp fun {s t} (h : CodeBefore lens s t) (e : s = t) => CodeBefore.irrefl t (e ▸ h)

theorem usedSyms_perm (h : ∀ l ∈ lens, l ≤ maxLen) :
    (usedSyms lens maxLen).Perm ((List.range lens.length).filter fun s => lens.getD s 0 != 0) := by
  rw [List.perm_ext_iff_of_nodup (usedSyms_nodup _ _) (List.nodup_range.filter _)]
  intro s
  rw [mem_usedSyms h, List.mem_filter, List.mem_range, bne_iff_ne]
  exact ⟨fun hs => ⟨lt_length_of_getD hs, hs⟩, fun hs => hs.2⟩

theorem countP_usedSyms (h : ∀ l ∈ lens, l ≤ maxLen) {l : Nat} (hl : l ≠ 0) :
    (usedSyms lens maxLen).countP (fun s => lens.getD s 0 == l) = lens.count l := by
  rw [(usedSyms_perm h).countP_eq, List.countP_filter, ← length_symsOfLen, symsOfLen_eq_filter, ← List.countP_eq_length_filter]
  apply List.countP_congr
  intro s _
  simp only [Bool.and_eq_true, beq_iff_eq, bne_iff_ne]
  omega

/-! ## Codespace -/

/-- The codespace a list of symbols takes, in units of the longest codeword's. -/
def space (lens : List Nat) (maxLen : Nat) (xs : List Nat) : Nat := (xs.map fun s => 2 ^ (maxLen - lens.getD s 0)).sum

@[simp] theorem space_nil : space lens maxLen [] = 0 := rfl

@[simp] theorem space_cons (x : Nat) (xs : List Nat) : space lens maxLen (x :: xs) = 2 ^ (maxLen - lens.getD x 0) + space lens maxLen xs := by
  simp [space]

@[simp] theorem space_append (xs ys : List Nat) : space lens maxLen (xs ++ ys) = space lens maxLen xs + space lens maxLen ys := by
  simp [space]

theorem sum_map_filter (xs : List Nat) (p : Nat → Bool) (f : Nat → Nat) :
    ((xs.filter p).map f).sum = (xs.map fun s => if p s then f s else 0).sum := by
  induction xs with
  | nil => rfl
  | cons x xs ih =>
    rw [List.filter_cons, List.map_cons, List.sum_cons, ← ih]
    cases p x <;> simp

theorem space_usedSyms (h : ∀ l ∈ lens, l ≤ maxLen) : space lens maxLen (usedSyms lens maxLen) = kraftSum lens maxLen := by
  rw [space, ((usedSyms_perm h).map _).sum_eq, sum_map_filter, kraftSum]
  conv_rhs => rw [← map_getD_range lens, List.map_map]
  congr 1
  apply List.map_congr_left
  intro s _
  simp [ite_not]

/-- All codewords of a list are at least as long as its first: its codespace is a multiple of that one's. -/
theorem dvd_space {xs : List Nat} {l : Nat} (h : ∀ x ∈ xs, lens.getD x 0 ≤ l) : 2 ^ (maxLen - l) ∣ space lens maxLen xs := by
  apply List.dvd_sum
  intro n hn
  obtain ⟨x, hx, rfl⟩ := List.mem_map.mp hn
  exact Nat.pow_dvd_pow 2 (Nat.sub_le_sub_left (h x hx) _)

/-- The symbols whose codewords come before a symbol's. -/
def codesBefore (lens : List Nat) (x : Nat) : List Nat :=
  (List.range lens.length).filter fun s =>
    decide (lens.getD s 0 ≠ 0 ∧ (lens.getD s 0 < lens.getD x 0 ∨ (lens.getD s 0 = lens.getD x 0 ∧ s < x)))

theorem mem_codesBefore {s x : Nat} : s ∈ codesBefore lens x ↔ lens.getD s 0 ≠ 0 ∧ CodeBefore lens s x := by
  rw [codesBefore, List.mem_filter, List.mem_range, decide_eq_true_eq]
  exact ⟨fun hs => hs.2, fun hs => ⟨lt_length_of_getD hs.1, hs⟩⟩

/-- The canonical codeword of a symbol counts the codewords before it at the symbol's own length (30_encoding.md R86). -/
theorem canonicalCode_eq_sum (lens : List Nat) (x : Nat) :
    canonicalCode lens x = ((codesBefore lens x).map fun s => 2 ^ (lens.getD x 0 - lens.getD s 0)).sum := by
  simp only [codesBefore, sum_map_filter, canonicalCode, decide_eq_true_eq]

/-- In the order of the codewords, the symbols before one are those whose codewords come before its own. -/
theorem codesBefore_perm (h : ∀ l ∈ lens, l ≤ maxLen) {done rest : List Nat} {x : Nat}
    (hs : usedSyms lens maxLen = done ++ x :: rest) : done.Perm (codesBefore lens x) := by
  have hsorted := usedSyms_sorted lens maxLen
  have hnodup := usedSyms_nodup lens maxLen
  rw [hs] at hsorted hnodup
  obtain ⟨_, hrest, hdone⟩ := List.pairwise_append.mp hsorted
  have hafter := (List.pairwise_cons.mp hrest).1
  rw [List.perm_ext_iff_of_nodup (List.nodup_append.mp hnodup).1
    (show (codesBefore lens x).Nodup from List.nodup_range.filter _)]
  intro s
  rw [mem_codesBefore, ← mem_usedSyms h, hs, List.mem_append, List.mem_cons]
  constructor
  · intro hmem
    exact ⟨.inl hmem, hdone s hmem x List.mem_cons_self⟩
  · rintro ⟨hmem | rfl | hmem, hlt⟩
    · exact hmem
    · exact absurd hlt (CodeBefore.irrefl s)
    · exact absurd hlt (hafter s hmem).asymm

/-- The place of a symbol's codeword among all codewords is the codespace the symbols before it take. -/
theorem canonicalCode_mul (h : ∀ l ∈ lens, l ≤ maxLen) {done rest : List Nat} {x : Nat}
    (hs : usedSyms lens maxLen = done ++ x :: rest) :
    canonicalCode lens x * 2 ^ (maxLen - lens.getD x 0) = space lens maxLen done := by
  rw [canonicalCode_eq_sum, ((codesBefore_perm h hs).symm.map _).sum_eq, ← List.sum_map_mul_right, space]
  congr 1
  apply List.map_congr_left
  intro s hmem
  have hlt := (mem_codesBefore.mp ((codesBefore_perm h hs).mem_iff.mp hmem)).2.len_le
  have hle := getD_le h x
  rw [← Nat.pow_add]
  congr 1
  omega

end Sys2Proof.Machine
end

section
/-! PROOFS. Complete canonical codes (30_encoding.md R82, R85, R86): how the codewords follow each other, and that none begins with
another. -/

namespace Sys2Proof.Machine

/-- A complete code of lengths up to `maxLen` (30_encoding.md R85). -/
structure CompleteCode (lens : List Nat) (maxLen : Nat) : Prop where
  le : ∀ l ∈ lens, l ≤ maxLen
  full : kraftSum lens maxLen = 2 ^ maxLen

/-- A symbol's codeword as a lane delivers it, the first bit lowest (30_encoding.md R82). -/
def revCode (lens : List Nat) (s : Nat) : Nat := revBits (lens.getD s 0) (canonicalCode lens s)

/-- The first `tb` bits of a symbol's codeword. -/
def codeCell (lens : List Nat) (tb s : Nat) : Nat := canonicalCode lens s / 2 ^ (lens.getD s 0 - tb)

theorem revCode_lt (lens : List Nat) (s : Nat) : revCode lens s < 2 ^ lens.getD s 0 := revBits_lt _ _

theorem revCode_mod {lens : List Nat} {tb s : Nat} (h : tb ≤ lens.getD s 0) :
    revCode lens s % 2 ^ tb = revBits tb (codeCell lens tb s) :=
  revBits_mod h _

theorem revCode_div_lt {lens : List Nat} {tb s : Nat} (h : tb ≤ lens.getD s 0) :
    revCode lens s / 2 ^ tb < 2 ^ (lens.getD s 0 - tb) := by
  rw [revCode, revBits_div h]
  exact revBits_lt _ _

section
variable {lens : List Nat} {maxLen tb : Nat} {done rest : List Nat} {x y : Nat}

theorem two_pow_sub_mul {l m n : Nat} (hlm : l ≤ m) (hmn : m ≤ n) : 2 ^ (n - l) = 2 ^ (m - l) * 2 ^ (n - m) := by
  rw [← Nat.pow_add]
  congr 1
  omega

namespace CompleteCode

theorem space_usedSyms (hc : CompleteCode lens maxLen) : space lens maxLen (usedSyms lens maxLen) = 2 ^ maxLen :=
  (Machine.space_usedSyms hc.le).trans hc.full

theorem len_le (hc : CompleteCode lens maxLen) (s : Nat) : lens.getD s 0 ≤ maxLen := getD_le hc.le s

/-- The codespace up to and with a symbol ends where the codeword after its own begins. -/
theorem succ_mul (hc : CompleteCode lens maxLen) (hs : usedSyms lens maxLen = done ++ x :: rest) :
    (canonicalCode lens x + 1) * 2 ^ (maxLen - lens.getD x 0) = space lens maxLen (done ++ [x]) := by
  rw [Nat.add_mul, canonicalCode_mul hc.le hs, Nat.one_mul]
  simp

/-- The codespace still to be taken. -/
theorem space_remaining (hc : CompleteCode lens maxLen) (hs : usedSyms lens maxLen = done ++ rest) :
    space lens maxLen done + space lens maxLen rest = 2 ^ maxLen := by
  rw [← space_append, ← hs, hc.space_usedSyms]

theorem space_pos (hx : y ∈ done) : 0 < space lens maxLen done := by
  obtain ⟨d, e, rfl⟩ := List.append_of_mem hx
  have := Nat.two_pow_pos (maxLen - lens.getD y 0)
  rw [space_append, space_cons]
  omega

/-- The symbol placed last has the last codeword of its length, and no other symbol has. -/
theorem succ_eq_iff (hc : CompleteCode lens maxLen) (hs : usedSyms lens maxLen = done ++ x :: rest) :
    canonicalCode lens x + 1 = 2 ^ lens.getD x 0 ↔ rest = [] := by
  have hrem := hc.space_remaining (done := done ++ [x]) (rest := rest) (by simpa using hs)
  rw [← hc.succ_mul hs, ← pow_mul_pow_sub 2 (hc.len_le x)] at hrem
  have hpos := Nat.two_pow_pos (maxLen - lens.getD x 0)
  constructor
  · intro he
    rw [he] at hrem
    rcases rest with _ | ⟨y, rest⟩
    · rfl
    · have := space_pos (lens := lens) (maxLen := maxLen) (done := y :: rest) List.mem_cons_self
      omega
  · rintro rfl
    exact Nat.eq_of_mul_eq_mul_right hpos hrem

theorem code_lt (hc : CompleteCode lens maxLen) (hs : usedSyms lens maxLen = done ++ x :: rest) :
    canonicalCode lens x < 2 ^ lens.getD x 0 := by
  have hrem := hc.space_remaining (done := done ++ [x]) (rest := rest) (by simpa using hs)
  rw [← hc.succ_mul hs, ← pow_mul_pow_sub 2 (hc.len_le x)] at hrem
  exact Nat.le_of_mul_le_mul_right (Nat.le.intro hrem) (Nat.two_pow_pos _)

theorem len_le_of_mem_done (hs : usedSyms lens maxLen = done ++ x :: rest) (hy : y ∈ done) : lens.getD y 0 ≤ lens.getD x 0 := by
  have hsorted := usedSyms_sorted lens maxLen
  rw [hs] at hsorted
  exact ((List.pairwise_append.mp hsorted).2.2 y hy x List.mem_cons_self).len_le

theorem len_le_of_mem_placed (hs : usedSyms lens maxLen = done ++ x :: rest) (hy : y ∈ done ++ [x]) : lens.getD y 0 ≤ lens.getD x 0 := by
  rcases List.mem_append.mp hy with hy | hy
  · exact len_le_of_mem_done hs hy
  · rw [List.mem_singleton.mp hy]

theorem len_le_of_mem_rest (hs : usedSyms lens maxLen = done ++ x :: rest) (hy : y ∈ rest) : lens.getD x 0 ≤ lens.getD y 0 := by
  have hsorted := usedSyms_sorted lens maxLen
  rw [hs] at hsorted
  exact ((List.pairwise_cons.mp (List.pairwise_append.mp hsorted).2.1).1 y hy).len_le

/-- The codeword after a symbol's, with zeros appended up to its length, is the next symbol's (30_encoding.md R86). -/
theorem canonicalCode_next (hc : CompleteCode lens maxLen) (hs : usedSyms lens maxLen = done ++ x :: y :: rest) :
    canonicalCode lens y = (canonicalCode lens x + 1) * 2 ^ (lens.getD y 0 - lens.getD x 0) := by
  have hle := len_le_of_mem_rest hs (y := y) List.mem_cons_self
  have hy := canonicalCode_mul hc.le (done := done ++ [x]) (rest := rest) (x := y) (by simpa using hs)
  rw [← hc.succ_mul hs, two_pow_sub_mul hle (hc.len_le y), ← Nat.mul_assoc] at hy
  exact Nat.eq_of_mul_eq_mul_right (Nat.two_pow_pos _) hy

/-- The first bits of a symbol's codeword say how much codespace of that size lies before it. -/
theorem codeCell_eq (hc : CompleteCode lens maxLen) (hs : usedSyms lens maxLen = done ++ x :: rest) (htb : tb ≤ lens.getD x 0) :
    codeCell lens tb x = space lens maxLen done / 2 ^ (maxLen - tb) := by
  rw [← canonicalCode_mul hc.le hs, two_pow_sub_mul htb (hc.len_le x), Nat.mul_div_mul_right _ _ (Nat.two_pow_pos _), codeCell]

theorem codeCell_lt (hc : CompleteCode lens maxLen) (hs : usedSyms lens maxLen = done ++ x :: rest) (htb : tb ≤ lens.getD x 0) :
    codeCell lens tb x < 2 ^ tb := by
  apply Nat.div_lt_of_lt_mul
  rw [Nat.mul_comm, pow_mul_pow_sub 2 htb]
  exact hc.code_lt hs

/-- No codeword begins with another (30_encoding.md R85). -/
theorem revCode_mod_ne (hc : CompleteCode lens maxLen) (hs : usedSyms lens maxLen = done ++ x :: rest) (hy : y ∈ done) :
    revCode lens x % 2 ^ lens.getD y 0 ≠ revCode lens y := by
  have hle := len_le_of_mem_done hs hy
  obtain ⟨d, e, rfl⟩ := List.append_of_mem hy
  have hsy : usedSyms lens maxLen = d ++ y :: (e ++ x :: rest) := by simpa using hs
  have hbefore : canonicalCode lens y + 1 ≤ codeCell lens (lens.getD y 0) x := by
    rw [hc.codeCell_eq hs hle, Nat.le_div_iff_mul_le (Nat.two_pow_pos _), hc.succ_mul hsy]
    simp
  intro he
  rw [revCode_mod hle] at he
  have := revBits_injective (hc.codeCell_lt hs hle) (hc.code_lt hsy) he
  omega

end CompleteCode
end

end Sys2Proof.Machine
end

section
/-! PROOFS. The subtables of a complete code (41_huffman_tables.md R149 to R152): how wide each is and where it starts. -/

namespace Sys2Proof.Machine

/-! ## The width of a subtable, and where it starts -/

/-- How many entries the subtable of a cell takes. -/
def cellSize (lens : List Nat) (tb q : Nat) : Nat := if subtableBits lens tb q = 0 then 0 else 2 ^ subtableBits lens tb q

/-- Where the subtable of a cell starts: after the main table and the subtables of the cells before it. -/
def cellStart (lens : List Nat) (tb q : Nat) : Nat := 2 ^ tb + ((List.range q).map (cellSize lens tb)).sum

section
variable {lens : List Nat} {maxLen tb : Nat} {done rest : List Nat} {x y q w : Nat}

theorem foldl_max_zero (xs : List Nat) : xs.foldl max 0 = xs.foldr max ⊥ := List.foldl_eq_foldr

theorem le_subtableBits (h : tb < lens.getD y 0) (hq : codeCell lens tb y = q) : lens.getD y 0 - tb ≤ subtableBits lens tb q := by
  rw [subtableBits, foldl_max_zero]
  refine List.le_max_of_le (List.mem_map.mpr ⟨y, List.mem_range.mpr (lt_length_of_getD (Nat.ne_zero_of_lt h)), rfl⟩) ?_
  rw [if_pos ⟨h, hq⟩]

theorem subtableBits_le (h : ∀ y, tb < lens.getD y 0 → codeCell lens tb y = q → lens.getD y 0 - tb ≤ w) :
    subtableBits lens tb q ≤ w := by
  rw [subtableBits, foldl_max_zero]
  apply List.max_le_of_forall_le
  intro n hn
  obtain ⟨y, _, rfl⟩ := List.mem_map.mp hn
  dsimp only
  split
  · next hy => exact h y hy.1 hy.2
  · exact Nat.zero_le _

theorem subtableBits_le_maxLen (h : ∀ l ∈ lens, l ≤ maxLen) : subtableBits lens tb q ≤ maxLen - tb :=
  subtableBits_le fun y _ _ => Nat.sub_le_sub_right (getD_le h y) tb

theorem codeExtent_eq (lens : List Nat) (tb : Nat) : codeExtent lens tb = cellStart lens tb (2 ^ tb) := rfl

theorem cellStart_succ (lens : List Nat) (tb q : Nat) : cellStart lens tb (q + 1) = cellStart lens tb q + cellSize lens tb q := by
  simp [cellStart, List.range_succ, Nat.add_assoc]

theorem cellStart_mono {p q : Nat} (h : p ≤ q) : cellStart lens tb p ≤ cellStart lens tb q := by
  induction h with
  | refl => exact Nat.le_refl _
  | step _ ih =>
    rw [cellStart_succ]
    exact Nat.le_add_right_of_le ih

theorem two_pow_le_cellStart (lens : List Nat) (tb q : Nat) : 2 ^ tb ≤ cellStart lens tb q := Nat.le_add_right _ _

/-- Where no codeword is longer than the main table's index, there is no subtable yet. -/
theorem cellStart_eq_two_pow (h : ∀ p < q, subtableBits lens tb p = 0) : cellStart lens tb q = 2 ^ tb := by
  have hzero : ((List.range q).map (cellSize lens tb)).sum = 0 := by
    apply List.sum_eq_zero
    intro n hn
    obtain ⟨p, hp, rfl⟩ := List.mem_map.mp hn
    rw [cellSize, if_pos (h p (List.mem_range.mp hp))]
  rw [cellStart, hzero, Nat.add_zero]

theorem codeExtent_of_short (h : ∀ l ∈ lens, l ≤ tb) : codeExtent lens tb = 2 ^ tb := by
  rw [codeExtent_eq]
  apply cellStart_eq_two_pow
  intro p _
  exact Nat.le_zero.mp ((subtableBits_le_maxLen h).trans_eq (Nat.sub_self tb))

/-- A cell with a codeword longer than the main table's index has a subtable. -/
theorem cellStart_succ_of_long (h : tb < lens.getD x 0) :
    cellStart lens tb (codeCell lens tb x + 1) = cellStart lens tb (codeCell lens tb x) + 2 ^ subtableBits lens tb (codeCell lens tb x) := by
  have := le_subtableBits h rfl
  rw [cellStart_succ, cellSize, if_neg (by omega)]

/-- The table of a complete code with subtables has few enough entries for a pointer's start (41_huffman_tables.md R155). -/
theorem cellStart_le (h : ∀ l ∈ lens, l ≤ maxLen) (q : Nat) : cellStart lens tb q ≤ 2 ^ tb + q * 2 ^ (maxLen - tb) := by
  induction q with
  | zero => simp [cellStart]
  | succ q ih =>
    have hsize : cellSize lens tb q ≤ 2 ^ (maxLen - tb) := by
      unfold cellSize
      split
      · exact Nat.zero_le _
      · exact Nat.pow_le_pow_right (by decide) (subtableBits_le_maxLen h)
    rw [cellStart_succ, Nat.succ_mul]
    omega

/-! ## How the builder finds the width -/

/-- The symbols of a list with a codeword of at most `m` bits. -/
def upTo (lens : List Nat) (m : Nat) (xs : List Nat) : List Nat := xs.filter fun s => decide (lens.getD s 0 ≤ m)

/-- The number of symbols of a list whose codeword has `l` bits. -/
def lenCount (lens : List Nat) (l : Nat) (xs : List Nat) : Nat := xs.countP fun s => lens.getD s 0 == l

@[simp] theorem lenCount_append (l : Nat) (xs ys : List Nat) :
    lenCount lens l (xs ++ ys) = lenCount lens l xs + lenCount lens l ys := List.countP_append

theorem lenCount_cons (l z : Nat) (xs : List Nat) :
    lenCount lens l (z :: xs) = lenCount lens l xs + if lens.getD z 0 = l then 1 else 0 := by
  simp [lenCount, List.countP_cons]

theorem lenCount_eq_zero {l : Nat} {xs : List Nat} (h : ∀ z ∈ xs, lens.getD z 0 ≠ l) : lenCount lens l xs = 0 := by
  rw [lenCount, List.countP_eq_zero]
  simpa using h

theorem space_upTo_succ (m : Nat) (xs : List Nat) :
    space lens maxLen (upTo lens (m + 1) xs) = space lens maxLen (upTo lens m xs) + lenCount lens (m + 1) xs * 2 ^ (maxLen - (m + 1)) := by
  induction xs with
  | nil => simp [upTo, lenCount]
  | cons z xs ih =>
    unfold upTo at ih ⊢
    rw [lenCount_cons, List.filter_cons, List.filter_cons, Nat.add_mul]
    rcases Nat.lt_trichotomy (lens.getD z 0) (m + 1) with hz | hz | hz
    · rw [if_pos (decide_eq_true (by omega)), if_pos (decide_eq_true (by omega)), if_neg (by omega), space_cons, space_cons, ih]
      omega
    · rw [if_pos (decide_eq_true (by omega)), if_neg (by rw [decide_eq_true_eq]; omega), if_pos hz, space_cons, ih, hz]
      omega
    · rw [if_neg (by rw [decide_eq_true_eq]; omega), if_neg (by rw [decide_eq_true_eq]; omega), if_neg (by omega), ih]
      omega

theorem upTo_eq_nil {m : Nat} {xs : List Nat} (h : ∀ z ∈ xs, m < lens.getD z 0) : upTo lens m xs = [] := by
  rw [upTo, List.filter_eq_nil_iff]
  intro z hz
  have := h z hz
  simp only [decide_eq_true_eq]
  omega

theorem upTo_eq_self {m : Nat} {xs : List Nat} (h : ∀ z ∈ xs, lens.getD z 0 ≤ m) : upTo lens m xs = xs := by
  rw [upTo, List.filter_eq_self]
  simpa using h

theorem space_upTo_le (m : Nat) (xs : List Nat) : space lens maxLen (upTo lens m xs) ≤ space lens maxLen xs :=
  (List.filter_sublist.map _).sum_le_sum (by simp)

/-- The lengths that BUILD counted are those of the symbols still to be placed, above the length it is at. -/
theorem lengthCounts_remaining (h : ∀ l ∈ lens, l ≤ maxLen) (hs : usedSyms lens maxLen = done ++ rest) {l : Nat}
    (hdone : ∀ z ∈ done, lens.getD z 0 < l) (hl : l ≠ 0) (hmax : l ≤ maxLen) :
    (lengthCounts lens maxLen).getD l 0 = lenCount lens l rest := by
  have hcount := countP_usedSyms h hl
  rw [← lenCount, hs, lenCount_append, lenCount_eq_zero fun z hz => (hdone z hz).ne, Nat.zero_add] at hcount
  rw [lengthCounts_getD hmax, hcount]

/-- The search for a subtable's width stops at the first length whose codewords fill the cell (41_huffman_tables.md R149). -/
theorem subtableWidth_spec (h : ∀ l ∈ lens, l ≤ maxLen) (hs : usedSyms lens maxLen = done ++ x :: rest)
    (hroom : 2 ^ (maxLen - tb) ≤ space lens maxLen (x :: rest)) {fuel sbits cs : Nat} (hlen : lens.getD x 0 ≤ tb + sbits)
    (hmax : tb + sbits ≤ maxLen) (hfuel : maxLen ≤ tb + sbits + fuel)
    (hcs : cs * 2 ^ (maxLen - (tb + sbits)) = space lens maxLen (upTo lens (tb + sbits) (x :: rest))) :
    ∃ r, subtableWidth (lengthCounts lens maxLen) tb fuel sbits cs = r ∧ sbits ≤ r ∧
      2 ^ (maxLen - tb) ≤ space lens maxLen (upTo lens (tb + r) (x :: rest)) ∧
      (r = sbits ∨ space lens maxLen (upTo lens (tb + r - 1) (x :: rest)) < 2 ^ (maxLen - tb)) := by
  induction fuel generalizing sbits cs with
  | zero =>
    refine ⟨sbits, rfl, Nat.le_refl _, ?_, .inl rfl⟩
    rwa [upTo_eq_self fun z _ => (getD_le h z).trans (by omega)]
  | succ fuel ih =>
    have hcell : 2 ^ (maxLen - tb) = 2 ^ sbits * 2 ^ (maxLen - (tb + sbits)) := by
      rw [two_pow_sub_mul (Nat.le_add_right tb sbits) hmax, Nat.add_sub_cancel_left]
    unfold subtableWidth
    split
    · next hlt =>
      have hshort : space lens maxLen (upTo lens (tb + sbits) (x :: rest)) < 2 ^ (maxLen - tb) := by
        rw [← hcs, hcell]
        exact Nat.mul_lt_mul_of_pos_right hlt (Nat.two_pow_pos _)
      have hnotall : tb + sbits ≠ maxLen := by
        intro e
        rw [upTo_eq_self fun z _ => (getD_le h z).trans e.ge] at hshort
        omega
      have hcount : (lengthCounts lens maxLen).getD (tb + sbits + 1) 0 = lenCount lens (tb + sbits + 1) (x :: rest) :=
        lengthCounts_remaining h hs (fun z hz => by have := CompleteCode.len_le_of_mem_done hs hz; omega) (by omega) (by omega)
      have hstep : (2 * cs + (lengthCounts lens maxLen).getD (tb + (sbits + 1)) 0) * 2 ^ (maxLen - (tb + (sbits + 1))) =
          space lens maxLen (upTo lens (tb + (sbits + 1)) (x :: rest)) := by
        have hhalf : 2 ^ (maxLen - (tb + sbits)) = 2 * 2 ^ (maxLen - (tb + sbits + 1)) := by
          rw [← Nat.pow_succ']
          congr 1
          omega
        rw [← Nat.add_assoc, space_upTo_succ, ← hcs, hcount, hhalf, Nat.add_mul, Nat.mul_left_comm, Nat.mul_assoc]
      obtain ⟨r, hr, hle, hfull, hfirst⟩ := ih (by omega) (by omega) (by omega) hstep
      refine ⟨r, hr, by omega, hfull, .inr ?_⟩
      rcases hfirst with rfl | hfirst
      · exact hshort
      · exact hfirst
    · next hge =>
      refine ⟨sbits, rfl, Nat.le_refl _, ?_, .inl rfl⟩
      rw [← hcs, hcell]
      exact Nat.mul_le_mul_right _ (Nat.not_lt.mp hge)

theorem upTo_append (m : Nat) (xs ys : List Nat) : upTo lens m (xs ++ ys) = upTo lens m xs ++ upTo lens m ys := List.filter_append ..

/-- In symbols sorted by length, those of at most `m` bits come first. -/
theorem exists_first_longer {m : Nat} {xs : List Nat} (hsorted : xs.Pairwise fun s t => lens.getD s 0 ≤ lens.getD t 0)
    (hlong : upTo lens m xs ≠ xs) : ∃ d z e, xs = d ++ z :: e ∧ m < lens.getD z 0 ∧ upTo lens m xs = d := by
  induction xs with
  | nil => exact absurd rfl hlong
  | cons z xs ih =>
    obtain ⟨hz, hxs⟩ := List.pairwise_cons.mp hsorted
    by_cases hm : lens.getD z 0 ≤ m
    · have hcons : upTo lens m (z :: xs) = z :: upTo lens m xs := List.filter_cons_of_pos (decide_eq_true hm)
      obtain ⟨d, z', e, rfl, hz', hd⟩ := ih hxs fun he => hlong (by rw [hcons, he])
      exact ⟨z :: d, z', e, rfl, hz', by rw [hcons, hd]⟩
    · refine ⟨[], z, xs, rfl, Nat.not_le.mp hm, upTo_eq_nil fun t ht => ?_⟩
      rcases List.mem_cons.mp ht with rfl | ht
      · exact Nat.not_le.mp hm
      · exact (Nat.not_le.mp hm).trans_le (hz t ht)

namespace CompleteCode

theorem rest_sorted (hs : usedSyms lens maxLen = done ++ rest) : rest.Pairwise fun s t => lens.getD s 0 ≤ lens.getD t 0 := by
  have hsorted := usedSyms_sorted lens maxLen
  rw [hs] at hsorted
  exact (List.pairwise_append.mp hsorted).2.1.imp CodeBefore.len_le

/-- Where a symbol longer than the main table's index begins a cell, as many whole cells lie before it as its cell's number says. -/
theorem space_eq_codeCell_mul (hc : CompleteCode lens maxLen) (hs : usedSyms lens maxLen = done ++ x :: rest) (htb : tb ≤ lens.getD x 0)
    (hcell : 2 ^ (maxLen - tb) ∣ space lens maxLen done) : space lens maxLen done = codeCell lens tb x * 2 ^ (maxLen - tb) := by
  rw [hc.codeCell_eq hs htb, Nat.div_mul_cancel hcell]

/-- From the beginning of a cell there is a whole cell of codespace to be taken. -/
theorem cell_le_space (hc : CompleteCode lens maxLen) (hs : usedSyms lens maxLen = done ++ x :: rest)
    (hcell : 2 ^ (maxLen - tb) ∣ space lens maxLen done) : 2 ^ (maxLen - tb) ≤ space lens maxLen (x :: rest) := by
  apply Nat.le_of_dvd (space_pos List.mem_cons_self)
  rw [← Nat.dvd_add_right hcell, hc.space_remaining hs]
  exact Nat.pow_dvd_pow 2 (Nat.sub_le _ _)

/-- The codewords of a cell whose subtable is opened are at most as long as the ones that fill it. -/
theorem len_le_of_filled (hc : CompleteCode lens maxLen) (hs : usedSyms lens maxLen = done ++ x :: rest) (htb : tb < lens.getD x 0)
    (hcell : 2 ^ (maxLen - tb) ∣ space lens maxLen done) {m : Nat}
    (hfull : 2 ^ (maxLen - tb) ≤ space lens maxLen (upTo lens m (x :: rest)))
    (hy : tb < lens.getD y 0) (hq : codeCell lens tb y = codeCell lens tb x) : lens.getD y 0 ≤ m := by
  have hspace := hc.space_eq_codeCell_mul hs htb.le hcell
  have hmem : y ∈ done ++ x :: rest := hs ▸ (mem_usedSyms hc.le).mpr (Nat.ne_zero_of_lt hy)
  rcases List.mem_append.mp hmem with hmem | hmem
  · obtain ⟨d, e, rfl⟩ := List.append_of_mem hmem
    have hless : codeCell lens tb y < codeCell lens tb x := by
      rw [hc.codeCell_eq (done := d) (rest := e ++ x :: rest) (by simpa using hs) hy.le, Nat.div_lt_iff_lt_mul (Nat.two_pow_pos _), ← hspace]
      have := Nat.two_pow_pos (maxLen - lens.getD y 0)
      rw [space_append, space_cons]
      omega
    omega
  · obtain ⟨d, e, he⟩ := List.append_of_mem hmem
    rw [he] at hs hfull
    have hsy : usedSyms lens maxLen = (done ++ d) ++ y :: e := by simpa using hs
    by_contra hlong
    have hnil : upTo lens m (y :: e) = [] := upTo_eq_nil fun z hz => by
      rcases List.mem_cons.mp hz with rfl | hz
      · exact Nat.not_le.mp hlong
      · exact (Nat.not_le.mp hlong).trans_le (len_le_of_mem_rest hsy hz)
    rw [upTo_append, hnil, List.append_nil] at hfull
    have hnext : codeCell lens tb x + 1 ≤ codeCell lens tb y := by
      rw [hc.codeCell_eq hsy hy.le, Nat.le_div_iff_mul_le (Nat.two_pow_pos _), space_append, hspace, Nat.succ_mul]
      exact Nat.add_le_add_left (hfull.trans (space_upTo_le _ _)) _
    omega

/-- Where the codewords of at most `m` bits leave a cell open, it has a longer one. -/
theorem exists_longer_in_cell (hc : CompleteCode lens maxLen) (hs : usedSyms lens maxLen = done ++ x :: rest) (htb : tb < lens.getD x 0)
    (hcell : 2 ^ (maxLen - tb) ∣ space lens maxLen done) {m : Nat} (hm : tb ≤ m)
    (hopen : space lens maxLen (upTo lens m (x :: rest)) < 2 ^ (maxLen - tb)) :
    ∃ z, m < lens.getD z 0 ∧ codeCell lens tb z = codeCell lens tb x := by
  have hroom := hc.cell_le_space hs hcell
  obtain ⟨d, z, e, he, hz, hd⟩ := exists_first_longer (rest_sorted hs) fun h => by rw [h] at hopen; omega
  have hsz : usedSyms lens maxLen = (done ++ d) ++ z :: e := by rw [hs, he, List.append_assoc]
  refine ⟨z, hz, ?_⟩
  rw [hd] at hopen
  rw [hc.codeCell_eq hsz (hm.trans hz.le), space_append, hc.space_eq_codeCell_mul hs htb.le hcell,
    Nat.mul_comm, Nat.mul_add_div (Nat.two_pow_pos _), Nat.div_eq_of_lt hopen, Nat.add_zero]

/-- A subtable opened at the beginning of its cell has the width of the cell's longest codeword (41_huffman_tables.md R149). -/
theorem subtableWidth_eq (hc : CompleteCode lens maxLen) (hs : usedSyms lens maxLen = done ++ x :: rest) (htb : tb < lens.getD x 0)
    (hcell : 2 ^ (maxLen - tb) ∣ space lens maxLen done) :
    subtableWidth (lengthCounts lens maxLen) tb maxLen (lens.getD x 0 - tb) (lenCount lens (lens.getD x 0) (x :: rest)) =
      subtableBits lens tb (codeCell lens tb x) := by
  have hlen : tb + (lens.getD x 0 - tb) = lens.getD x 0 := Nat.add_sub_cancel' htb.le
  have hmax := hc.len_le x
  have hstart : lenCount lens (lens.getD x 0) (x :: rest) * 2 ^ (maxLen - lens.getD x 0) =
      space lens maxLen (upTo lens (lens.getD x 0) (x :: rest)) := by
    obtain ⟨l, hl⟩ := Nat.exists_eq_succ_of_ne_zero (Nat.ne_zero_of_lt htb)
    have hnil : upTo lens l (x :: rest) = [] := upTo_eq_nil fun z hz => by
      rcases List.mem_cons.mp hz with rfl | hz
      · omega
      · have := len_le_of_mem_rest hs hz
        omega
    rw [hl, space_upTo_succ, hnil, space_nil, Nat.zero_add]
  obtain ⟨r, hr, hle, hfull, hfirst⟩ := subtableWidth_spec (fuel := maxLen) (sbits := lens.getD x 0 - tb) hc.le hs
    (hc.cell_le_space hs hcell) hlen.ge (by omega) (by omega) (by rw [hlen]; exact hstart)
  rw [hr]
  apply Nat.le_antisymm
  · rcases hfirst with rfl | hfirst
    · exact le_subtableBits htb rfl
    · obtain ⟨z, hz, hq⟩ := hc.exists_longer_in_cell hs htb hcell (by omega) hfirst
      have := le_subtableBits (lens := lens) (tb := tb) (by omega) hq
      omega
  · refine subtableBits_le fun y hy hq => ?_
    have := hc.len_le_of_filled hs htb hcell hfull hy hq
    omega

end CompleteCode
end

end Sys2Proof.Machine
end

section
/-! PROOFS. BUILD's table (41_huffman_tables.md R146 to R151): the loop places the symbols in the order of their codewords, and the
table answers every symbol placed. -/

namespace Sys2Proof.Machine

/-! ## Writes to a table -/

theorem getD_set_same {t : Table} {i : Nat} (h : i < t.length) (e : Option Word) : (t.set i e).getD i none = e := by
  simp [List.getD, h]

theorem getD_set_other {t : Table} {i k : Nat} (h : i ≠ k) (e : Option Word) : (t.set i e).getD k none = t.getD k none := by
  simp [List.getD, h]

/-- Doubling repeats the filled part of a table (41_huffman_tables.md R147). -/
theorem doubleTable_getD {t : Table} {fin i : Nat} (hfit : 2 * fin ≤ t.length) (hi : i < 2 * fin) :
    (doubleTable t fin).getD i none = t.getD (i % fin) none := by
  have hlen : (t.take fin).length = fin := by
    rw [List.length_take]
    omega
  simp only [doubleTable, List.getD, List.getElem?_take, List.append_assoc, List.getElem?_append, hlen]
  rw [if_pos (by omega)]
  split
  · next h => rw [Nat.mod_eq_of_lt h]
  · next h =>
    have hmod : i % fin = i - fin := by
      rw [Nat.mod_eq_sub_mod (Nat.not_lt.mp h), Nat.mod_eq_of_lt (by omega)]
    rw [if_pos (by omega), if_pos (by omega), hmod]

theorem fillMain_getD {n : Nat} {t : Table} {fin i : Nat} (hfit : 2 ^ n * fin ≤ t.length) (hi : i < 2 ^ n * fin) :
    (fillMain n t fin).getD i none = t.getD (i % fin) none := by
  induction n generalizing t fin with
  | zero =>
    rw [Nat.pow_zero, Nat.one_mul] at hi
    rw [fillMain, Nat.mod_eq_of_lt hi]
  | succ n ih =>
    rw [Nat.pow_succ, Nat.mul_assoc] at hfit hi
    have hpos : 0 < fin := by
      by_contra h
      rw [Nat.eq_zero_of_not_pos h] at hi
      omega
    have hone : 2 * fin ≤ t.length := (Nat.le_mul_of_pos_left _ (Nat.two_pow_pos n)).trans hfit
    rw [fillMain, ih (by rwa [doubleTable_length]) hi, doubleTable_getD hone (Nat.mod_lt _ (by omega)),
      Nat.mod_mod_of_dvd _ (Nat.dvd_mul_left _ _)]

/-- The fill of one symbol writes its entry at every place of its own in the subtable, and nowhere else (41_huffman_tables.md R150). -/
theorem fillStride_getD {entry : Word} {stride fin fuel i k : Nat} {t : Table} (hstride : 0 < stride) (hfuel : fin ≤ i + fuel)
    (hfit : fin ≤ t.length) :
    (fillStride entry stride fin fuel i t).getD k none =
      if i ≤ k ∧ k < fin ∧ (k - i) % stride = 0 then some entry else t.getD k none := by
  induction fuel generalizing i t with
  | zero => rw [fillStride, if_neg (by omega)]
  | succ fuel ih =>
    unfold fillStride
    split
    · next hi =>
      rw [ih (by omega) (by rwa [List.length_set])]
      rcases Nat.lt_trichotomy k i with hk | rfl | hk
      · rw [if_neg (by omega), if_neg (by omega), getD_set_other hk.ne']
      · rw [if_neg (by omega), if_pos ⟨Nat.le_refl _, hi, by rw [Nat.sub_self, Nat.zero_mod]⟩, getD_set_same (by omega)]
      · rw [getD_set_other hk.ne]
        have hiff : (i + stride ≤ k ∧ k < fin ∧ (k - (i + stride)) % stride = 0) ↔ (i ≤ k ∧ k < fin ∧ (k - i) % stride = 0) := by
          by_cases hs : i + stride ≤ k
          · rw [show k - i = k - (i + stride) + stride by omega, Nat.add_mod_right]
            simp only [hs, hk.le, true_and]
          · have hmod : (k - i) % stride ≠ 0 := by
              rw [Nat.mod_eq_of_lt (by omega)]
              omega
            simp only [hs, hmod, false_and, and_false]
        simp only [hiff]
    · next hi => rw [if_neg (by omega)]

/-- The step to the next used length, where every length between has no codeword (41_huffman_tables.md R147, R151). -/
theorem nextLength_eq {cnts : List Nat} {tb fuel l count : Nat} {b : Builder} (hle : b.len ≤ l) (hfuel : l ≤ b.len + fuel)
    (hcount : count ≠ 0) (hcur : b.count = if b.len = l then count else 0)
    (hcnts : ∀ m, b.len < m → m ≤ l → cnts.getD m 0 = if m = l then count else 0) :
    nextLength cnts tb fuel b =
      { b with
        len := l, count := count
        table := fillMain (min l tb - min b.len tb) b.table b.fin, fin := 2 ^ (min l tb - min b.len tb) * b.fin } := by
  induction fuel generalizing b with
  | zero =>
    obtain rfl : b.len = l := by omega
    rw [if_pos rfl] at hcur
    rw [nextLength, Nat.sub_self, fillMain, Nat.pow_zero, Nat.one_mul, ← hcur]
  | succ fuel ih =>
    unfold nextLength
    split
    · next hzero =>
      have hlt : b.len < l := by
        rcases Nat.lt_or_eq_of_le hle with h | h
        · exact h
        · rw [if_pos h] at hcur
          omega
      have hstep : ∀ (t : Table) (fin : Nat),
          nextLength cnts tb fuel { b with table := t, fin := fin, len := b.len + 1, count := cnts.getD (b.len + 1) 0 } =
            { b with
              len := l, count := count
              table := fillMain (min l tb - min (b.len + 1) tb) t fin, fin := 2 ^ (min l tb - min (b.len + 1) tb) * fin } :=
        fun t fin => ih hlt (by dsimp only; omega) (hcnts _ (Nat.lt_succ_self _) hlt) fun m hm => hcnts m (by dsimp only at hm; omega)
      dsimp only
      by_cases htb : b.len + 1 ≤ tb
      · have hn : min l tb - min b.len tb = min l tb - min (b.len + 1) tb + 1 := by omega
        rw [if_pos htb, hstep, hn, fillMain, Nat.pow_succ, Nat.mul_assoc]
      · have hn : min l tb - min b.len tb = 0 := by omega
        have hn' : min l tb - min (b.len + 1) tb = 0 := by omega
        rw [if_neg htb, hstep, hn, hn']
    · next hne =>
      obtain rfl : b.len = l := by
        by_contra h
        rw [if_neg h] at hcur
        exact hne hcur
      rw [if_pos rfl] at hcur
      rw [Nat.sub_self, fillMain, Nat.pow_zero, Nat.one_mul, ← hcur]

/-! ## What a table answers -/

/-- A table whose main part is filled up to 2^m answers a symbol: every index that ends in its codeword holds its direct entry, or, for a
codeword longer than the main index, its cell's pointer leads to a subtable where every index that ends in the rest of it does. -/
structure Answers (lens : List Nat) (tb : Nat) (res : Nat → BitVec 24) (T : Table) (m x : Nat) : Prop where
  direct : lens.getD x 0 ≤ tb → ∀ i < 2 ^ m, i % 2 ^ lens.getD x 0 = revCode lens x →
    T.getD i none = some (directEntry (res x) (lens.getD x 0))
  pointer : tb < lens.getD x 0 →
    T.getD (revCode lens x % 2 ^ tb) none =
      some (pointerEntry (cellStart lens tb (codeCell lens tb x)) (subtableBits lens tb (codeCell lens tb x)))
  subtable : tb < lens.getD x 0 → ∀ j < 2 ^ subtableBits lens tb (codeCell lens tb x),
    j % 2 ^ (lens.getD x 0 - tb) = revCode lens x / 2 ^ tb →
    T.getD (cellStart lens tb (codeCell lens tb x) + j) none = some (directEntry (res x) (lens.getD x 0 - tb))

/-- The subtable of cell `q` is the open one. -/
structure CellOpen (lens : List Nat) (tb q : Nat) (b : Builder) : Prop where
  pfx : b.pfx = some (revBits tb q)
  start : b.start = cellStart lens tb q
  fin : b.fin = cellStart lens tb (q + 1)
  pointer : b.table.getD (revBits tb q) none = some (pointerEntry (cellStart lens tb q) (subtableBits lens tb q))

/-- Cell `q` comes next, after the subtables of the cells before it. -/
structure CellNext (lens : List Nat) (tb q : Nat) (b : Builder) : Prop where
  pfx : b.pfx ≠ some (revBits tb q)
  fin : b.fin = cellStart lens tb q

section
variable {lens : List Nat} {maxLen tb : Nat} {res : Nat → BitVec 24} {done rest : List Nat} {x y : Nat} {b : Builder}

/-- The builder's part that does not depend on whether `x` has been placed: it is at `x`, and the table answers the symbols `placed`. -/
structure AtSymbol (lens : List Nat) (tb : Nat) (res : Nat → BitVec 24) (placed : List Nat) (x : Nat) (rest : List Nat) (b : Builder) :
    Prop where
  len : b.len = lens.getD x 0
  cw : b.cw = revCode lens x
  count : b.count = lenCount lens (lens.getD x 0) (x :: rest)
  room : codeExtent lens tb ≤ b.table.length
  direct : lens.getD x 0 ≤ tb → b.fin = 2 ^ lens.getD x 0 ∧ b.pfx = none
  answers : ∀ y ∈ placed, Answers lens tb res b.table (min (lens.getD x 0) tb) y

/-- Before `x` is placed, after the symbols of `done`. -/
structure Ready (lens : List Nat) (maxLen tb : Nat) (res : Nat → BitVec 24) (done : List Nat) (x : Nat) (rest : List Nat) (b : Builder) :
    Prop extends AtSymbol lens tb res done x rest b where
  next : tb < lens.getD x 0 → 2 ^ (maxLen - tb) ∣ space lens maxLen done → CellNext lens tb (codeCell lens tb x) b
  same : tb < lens.getD x 0 → ¬ 2 ^ (maxLen - tb) ∣ space lens maxLen done → CellOpen lens tb (codeCell lens tb x) b

/-- After `x` was placed. -/
structure Placed (lens : List Nat) (tb : Nat) (res : Nat → BitVec 24) (done : List Nat) (x : Nat) (rest : List Nat) (b : Builder) :
    Prop extends AtSymbol lens tb res (done ++ [x]) x rest b where
  cell : tb < lens.getD x 0 → CellOpen lens tb (codeCell lens tb x) b

theorem two_pow_le_room (h : codeExtent lens tb ≤ b.table.length) : 2 ^ tb ≤ b.table.length :=
  (two_pow_le_cellStart lens tb _).trans h

/-! ## Placing a symbol in the main table -/

/-- A symbol's entry in the main table overwrites no other symbol's. -/
theorem Ready.placeDirect (hc : CompleteCode lens maxLen) (hs : usedSyms lens maxLen = done ++ x :: rest)
    (h : Ready lens maxLen tb res done x rest b) (htb : lens.getD x 0 ≤ tb) :
    Placed lens tb res done x rest { b with table := b.table.set b.cw (some (directEntry (res x) b.len)) } := by
  obtain ⟨⟨hlen, hcw, hcount, hroom, hdirect, hanswers⟩, -, -⟩ := h
  refine ⟨⟨hlen, hcw, hcount, by rwa [List.length_set], hdirect, ?_⟩, fun hlong => absurd htb (Nat.not_le.mpr hlong)⟩
  intro y hy
  have hshort := (CompleteCode.len_le_of_mem_placed hs hy).trans htb
  refine ⟨fun _ i hi he => ?_, fun hlong => absurd hshort (Nat.not_le.mpr hlong), fun hlong => absurd hshort (Nat.not_le.mpr hlong)⟩
  rw [hcw, hlen]
  rcases List.mem_append.mp hy with hy | hy
  · have hne : revCode lens x ≠ i := fun e => hc.revCode_mod_ne hs hy (e ▸ he)
    rw [getD_set_other hne]
    exact (hanswers y hy).direct hshort i hi he
  · obtain rfl := List.mem_singleton.mp hy
    rw [Nat.min_eq_left htb] at hi
    rw [Nat.mod_eq_of_lt hi] at he
    subst he
    exact getD_set_same (hi.trans_le ((Nat.pow_le_pow_right (by decide) htb).trans (two_pow_le_room hroom))) _

/-! ## Placing a symbol in a subtable -/

/-- A cell's subtable is written at its place and no other cell's (41_huffman_tables.md R149). -/
theorem cell_unique {p q k : Nat} (hp : cellStart lens tb p ≤ k ∧ k < cellStart lens tb (p + 1))
    (hq : cellStart lens tb q ≤ k ∧ k < cellStart lens tb (q + 1)) : p = q := by
  have hmono : ∀ {i j}, i < j → cellStart lens tb (i + 1) ≤ cellStart lens tb j := fun h => cellStart_mono h
  rcases Nat.lt_trichotomy p q with h | h | h
  · have := hmono h
    omega
  · exact h
  · have := hmono h
    omega

/-- At the beginning of a cell its subtable is opened, with the place and the width of the code's extent (41_huffman_tables.md R149). -/
theorem AtSymbol.openSubtable_eq (hc : CompleteCode lens maxLen) (hs : usedSyms lens maxLen = done ++ x :: rest)
    (h : AtSymbol lens tb res done x rest b) (htb : tb < lens.getD x 0) (hcell : 2 ^ (maxLen - tb) ∣ space lens maxLen done)
    (hnext : CellNext lens tb (codeCell lens tb x) b) :
    openSubtable (lengthCounts lens maxLen) tb maxLen b =
      { b with
        pfx := some (revBits tb (codeCell lens tb x)), start := cellStart lens tb (codeCell lens tb x)
        fin := cellStart lens tb (codeCell lens tb x + 1)
        table := b.table.set (revBits tb (codeCell lens tb x))
          (some (pointerEntry (cellStart lens tb (codeCell lens tb x)) (subtableBits lens tb (codeCell lens tb x)))) } := by
  have hpfx : b.cw % 2 ^ tb = revBits tb (codeCell lens tb x) := by rw [h.cw, revCode_mod htb.le]
  simp only [openSubtable, hpfx, if_neg hnext.pfx, h.len, h.count, hc.subtableWidth_eq hs htb hcell, hnext.fin, cellStart_succ_of_long htb]

/-- A cell's pointer in the main table changes no answer. -/
theorem Answers.setPointer (hc : CompleteCode lens maxLen) (hs : usedSyms lens maxLen = done ++ x :: rest) (htb : tb < lens.getD x 0)
    (hy : y ∈ done) {T : Table} {m : Nat} (hroom : 2 ^ tb ≤ T.length) (h : Answers lens tb res T m y) :
    Answers lens tb res
      (T.set (revBits tb (codeCell lens tb x))
        (some (pointerEntry (cellStart lens tb (codeCell lens tb x)) (subtableBits lens tb (codeCell lens tb x))))) m y := by
  have hindex : revBits tb (codeCell lens tb x) < 2 ^ tb := revBits_lt _ _
  refine ⟨fun hshort i hi he => ?_, fun hlong => ?_, fun hlong j hj he => ?_⟩
  · have hne : revBits tb (codeCell lens tb x) ≠ i := by
      rintro rfl
      rw [← revCode_mod htb.le, Nat.mod_mod_of_dvd _ (Nat.pow_dvd_pow 2 hshort)] at he
      exact hc.revCode_mod_ne hs hy he
    rw [getD_set_other hne]
    exact h.direct hshort i hi he
  · by_cases he : revBits tb (codeCell lens tb x) = revCode lens y % 2 ^ tb
    · obtain ⟨d, e, rfl⟩ := List.append_of_mem hy
      have hsy : usedSyms lens maxLen = d ++ y :: (e ++ x :: rest) := by simpa using hs
      have hq : codeCell lens tb x = codeCell lens tb y :=
        revBits_injective (hc.codeCell_lt hs htb.le) (hc.codeCell_lt hsy hlong.le) (he.trans (revCode_mod hlong.le))
      rw [← he, ← hq]
      exact getD_set_same (hindex.trans_le hroom) _
    · rw [getD_set_other he]
      exact h.pointer hlong
  · have hne : revBits tb (codeCell lens tb x) ≠ cellStart lens tb (codeCell lens tb y) + j := by
      have := two_pow_le_cellStart lens tb (codeCell lens tb y)
      omega
    rw [getD_set_other hne]
    exact h.subtable hlong j hj he

/-- When a symbol's entries are about to be written, its cell's subtable is open (41_huffman_tables.md R149). -/
theorem Ready.openSubtable (hc : CompleteCode lens maxLen) (hs : usedSyms lens maxLen = done ++ x :: rest)
    (h : Ready lens maxLen tb res done x rest b) (htb : tb < lens.getD x 0) :
    AtSymbol lens tb res done x rest (openSubtable (lengthCounts lens maxLen) tb maxLen b) ∧
      CellOpen lens tb (codeCell lens tb x) (openSubtable (lengthCounts lens maxLen) tb maxLen b) := by
  have hat := h.toAtSymbol
  by_cases hcell : 2 ^ (maxLen - tb) ∣ space lens maxLen done
  · have hroom := two_pow_le_room hat.room
    rw [hat.openSubtable_eq hc hs htb hcell (h.next htb hcell)]
    exact ⟨⟨hat.len, hat.cw, hat.count, by rw [List.length_set]; exact hat.room, fun hshort => absurd htb (Nat.not_lt.mpr hshort),
      fun y hy => (hat.answers y hy).setPointer hc hs htb hy hroom⟩,
      ⟨rfl, rfl, rfl, getD_set_same ((revBits_lt _ _).trans_le hroom) _⟩⟩
  · have hopen := h.same htb hcell
    have hself : Machine.openSubtable (lengthCounts lens maxLen) tb maxLen b = b := by
      simp only [Machine.openSubtable, hat.cw, revCode_mod htb.le, hopen.pfx, if_true]
    rw [hself]
    exact ⟨hat, hopen⟩

/-- Two codewords of one cell, the later one at least as long, have no subtable index in common. -/
theorem CompleteCode.subtable_index_ne (hc : CompleteCode lens maxLen) (hs : usedSyms lens maxLen = done ++ x :: rest) (hy : y ∈ done)
    (htb : tb < lens.getD y 0) (hq : codeCell lens tb y = codeCell lens tb x) {j : Nat}
    (hj : j % 2 ^ (lens.getD y 0 - tb) = revCode lens y / 2 ^ tb) : j % 2 ^ (lens.getD x 0 - tb) ≠ revCode lens x / 2 ^ tb := by
  intro hx
  have hle := len_le_of_mem_done hs hy
  apply hc.revCode_mod_ne hs hy
  rw [← pow_mul_pow_sub 2 htb.le, Nat.mod_mul, revCode_mod (htb.le.trans hle), ← hx,
    Nat.mod_mod_of_dvd _ (Nat.pow_dvd_pow 2 (Nat.sub_le_sub_right hle tb)), hj, ← hq, ← revCode_mod htb.le]
  exact Nat.mod_add_div _ _

/-- An index of a cell's subtable is a symbol's if it ends in the rest of the symbol's codeword: the fill writes exactly these
(41_huffman_tables.md R150). -/
theorem AtSymbol.fillSubtable_getD (hc : CompleteCode lens maxLen) (hs : usedSyms lens maxLen = done ++ x :: rest)
    (h : AtSymbol lens tb res done x rest b) (htb : tb < lens.getD x 0) (hopen : CellOpen lens tb (codeCell lens tb x) b) (k : Nat) :
    (fillSubtable (res x) tb b).table.getD k none =
      if (cellStart lens tb (codeCell lens tb x) ≤ k ∧ k < cellStart lens tb (codeCell lens tb x + 1)) ∧
          (k - cellStart lens tb (codeCell lens tb x)) % 2 ^ (lens.getD x 0 - tb) = revCode lens x / 2 ^ tb
      then some (directEntry (res x) (lens.getD x 0 - tb)) else b.table.getD k none := by
  have hend : cellStart lens tb (codeCell lens tb x + 1) ≤ b.table.length :=
    (cellStart_mono (hc.codeCell_lt hs htb.le)).trans h.room
  have hoff := revCode_div_lt (lens := lens) htb.le
  rw [fillSubtable, h.len, h.cw, hopen.start, hopen.fin]
  generalize revCode lens x / 2 ^ tb = off at hoff ⊢
  rw [fillStride_getD (Nat.two_pow_pos _) (by omega) hend]
  congr 1
  rw [eq_iff_iff]
  constructor
  · rintro ⟨hge, hlt, hmod⟩
    refine ⟨⟨by omega, hlt⟩, ?_⟩
    rw [show k - cellStart lens tb (codeCell lens tb x) = off + (k - (cellStart lens tb (codeCell lens tb x) + off)) by omega,
      Nat.add_mod, hmod, Nat.add_zero, Nat.mod_mod, Nat.mod_eq_of_lt hoff]
  · rintro ⟨⟨hge, hlt⟩, rfl⟩
    have hle := Nat.mod_le (k - cellStart lens tb (codeCell lens tb x)) (2 ^ (lens.getD x 0 - tb))
    refine ⟨by omega, hlt, ?_⟩
    rw [← Nat.sub_sub]
    exact Nat.mod_eq_zero_of_dvd (Nat.dvd_sub_mod _)

/-- A symbol's entries in its subtable overwrite no other symbol's (41_huffman_tables.md R150). -/
theorem Answers.fillSubtable (hc : CompleteCode lens maxLen) (hs : usedSyms lens maxLen = done ++ x :: rest)
    (hat : AtSymbol lens tb res done x rest b) (htb : tb < lens.getD x 0) (hopen : CellOpen lens tb (codeCell lens tb x) b)
    (hy : y ∈ done) (h : Answers lens tb res b.table (min (lens.getD x 0) tb) y) :
    Answers lens tb res (fillSubtable (res x) tb b).table (min (lens.getD x 0) tb) y := by
  have hlow := two_pow_le_cellStart lens tb (codeCell lens tb x)
  refine ⟨fun hshort i hi he => ?_, fun hlong => ?_, fun hlong j hj he => ?_⟩ <;> rw [hat.fillSubtable_getD hc hs htb hopen, if_neg]
  · exact h.direct hshort i hi he
  · rw [Nat.min_eq_right htb.le] at hi
    omega
  · exact h.pointer hlong
  · have := Nat.mod_lt (revCode lens y) (Nat.two_pow_pos tb)
    omega
  · exact h.subtable hlong j hj he
  · rintro ⟨hplace, hmod⟩
    have hq : codeCell lens tb y = codeCell lens tb x :=
      cell_unique ⟨Nat.le_add_right _ _, by rw [cellStart_succ_of_long hlong]; omega⟩ hplace
    rw [hq, Nat.add_sub_cancel_left] at hmod
    exact hc.subtable_index_ne hs hy hlong hq he hmod

/-- A symbol longer than the main table's index is placed in its cell's subtable (41_huffman_tables.md R149, R150). -/
theorem Ready.placeSubtable (hc : CompleteCode lens maxLen) (hs : usedSyms lens maxLen = done ++ x :: rest)
    (h : Ready lens maxLen tb res done x rest b) (htb : tb < lens.getD x 0) :
    Placed lens tb res done x rest (fillSubtable (res x) tb (Machine.openSubtable (lengthCounts lens maxLen) tb maxLen b)) := by
  obtain ⟨hat, hopen⟩ := h.openSubtable hc hs htb
  generalize Machine.openSubtable (lengthCounts lens maxLen) tb maxLen b = c at hat hopen
  have hlow := two_pow_le_cellStart lens tb (codeCell lens tb x)
  have hindex := revBits_lt tb (codeCell lens tb x)
  have hpointer : (Machine.fillSubtable (res x) tb c).table.getD (revBits tb (codeCell lens tb x)) none =
      some (pointerEntry (cellStart lens tb (codeCell lens tb x)) (subtableBits lens tb (codeCell lens tb x))) := by
    rw [hat.fillSubtable_getD hc hs htb hopen, if_neg (by omega), hopen.pointer]
  refine ⟨⟨hat.len, hat.cw, hat.count, by rw [fillSubtable_length]; exact hat.room, fun hshort => absurd htb (Nat.not_lt.mpr hshort), ?_⟩,
    fun _ => ⟨hopen.pfx, hopen.start, hopen.fin, hpointer⟩⟩
  intro y hy
  rcases List.mem_append.mp hy with hy | hy
  · exact (hat.answers y hy).fillSubtable hc hs hat htb hopen hy
  · obtain rfl := List.mem_singleton.mp hy
    refine ⟨fun hshort => absurd htb (Nat.not_lt.mpr hshort), fun _ => by rw [revCode_mod htb.le, hpointer], fun _ j hj he => ?_⟩
    rw [hat.fillSubtable_getD hc hs htb hopen, if_pos]
    exact ⟨⟨Nat.le_add_right _ _, by rw [cellStart_succ_of_long htb]; omega⟩, by rw [Nat.add_sub_cancel_left, he]⟩

/-! ## The step to the next symbol -/

/-- Doubling the main table keeps its answers (41_huffman_tables.md R147, R148). -/
theorem Answers.fillMain {T : Table} {l fin n : Nat} (h : Answers lens tb res T (min l tb) y) (hy : lens.getD y 0 ≤ l)
    (hfin : l ≤ tb → fin = 2 ^ l) (hn : l ≤ n) (hroom : 2 ^ tb ≤ T.length) :
    Answers lens tb res (fillMain (min n tb - min l tb) T fin) (min n tb) y := by
  by_cases htb : l ≤ tb
  · have hshort := hy.trans htb
    have hpow : 2 ^ (min n tb - min l tb) * fin = 2 ^ min n tb := by
      rw [hfin htb, ← Nat.pow_add]
      congr 1
      omega
    have hfit : 2 ^ min n tb ≤ T.length := (Nat.pow_le_pow_right (by decide) (Nat.min_le_right _ _)).trans hroom
    refine ⟨fun _ i hi he => ?_, fun hlong => absurd hshort (Nat.not_le.mpr hlong), fun hlong => absurd hshort (Nat.not_le.mpr hlong)⟩
    rw [fillMain_getD (by rwa [hpow]) (by rwa [hpow]), hfin htb]
    apply h.direct hshort
    · rw [Nat.min_eq_left htb]
      exact Nat.mod_lt _ (Nat.two_pow_pos l)
    · rw [Nat.mod_mod_of_dvd _ (Nat.pow_dvd_pow 2 hy), he]
  · have hl : min l tb = tb := by omega
    have hn' : min n tb = tb := by omega
    rw [hl] at h
    rw [hl, hn', Nat.sub_self, Machine.fillMain]
    exact h

/-- The first bits of the next codeword are those of this one, or the next cell's where a cell ends. -/
theorem CompleteCode.codeCell_next (hc : CompleteCode lens maxLen) (hs : usedSyms lens maxLen = done ++ x :: y :: rest)
    (htb : tb < lens.getD x 0) :
    codeCell lens tb y = codeCell lens tb x + if 2 ^ (maxLen - tb) ∣ space lens maxLen (done ++ [x]) then 1 else 0 := by
  have hsy : usedSyms lens maxLen = (done ++ [x]) ++ y :: rest := by simpa using hs
  have hle := len_le_of_mem_rest hs (y := y) List.mem_cons_self
  have hpos := Nat.two_pow_pos (maxLen - lens.getD x 0)
  rw [hc.codeCell_eq hsy (htb.le.trans hle), ← hc.succ_mul hs, two_pow_sub_mul htb.le (hc.len_le x), Nat.mul_div_mul_right _ _ hpos,
    Nat.succ_div, codeCell]
  simp only [Nat.mul_dvd_mul_iff_right hpos]

/-- Where the codewords longer than the main table's index begin, there is no subtable yet. -/
theorem CompleteCode.cellStart_first_long (hc : CompleteCode lens maxLen) (hs : usedSyms lens maxLen = done ++ x :: rest)
    (htb : tb < lens.getD x 0) (hdone : ∀ y ∈ done, lens.getD y 0 ≤ tb) : cellStart lens tb (codeCell lens tb x) = 2 ^ tb := by
  apply cellStart_eq_two_pow
  intro p hp
  apply Nat.le_zero.mp
  apply subtableBits_le
  intro z hz hq
  have hmem : z ∈ done ++ x :: rest := hs ▸ (mem_usedSyms hc.le).mpr (Nat.ne_zero_of_lt hz)
  rcases List.mem_append.mp hmem with hmem | hmem
  · exact absurd (hdone z hmem) (Nat.not_le.mpr hz)
  · obtain ⟨d, e, he⟩ := List.append_of_mem hmem
    have hsz : usedSyms lens maxLen = (done ++ d) ++ z :: e := by rw [hs, he, List.append_assoc]
    have hbefore : codeCell lens tb x ≤ codeCell lens tb z := by
      rw [hc.codeCell_eq hs htb.le, hc.codeCell_eq hsz hz.le, space_append]
      exact Nat.div_le_div_right (Nat.le_add_right _ _)
    omega

/-- What the builder steps to after a symbol: the next symbol's codeword and length, the main table doubled up to that length. -/
theorem AtSymbol.nextSymbol_eq (hc : CompleteCode lens maxLen) (hs : usedSyms lens maxLen = done ++ x :: y :: rest)
    (h : AtSymbol lens tb res (done ++ [x]) x (y :: rest) b) :
    nextSymbol (lengthCounts lens maxLen) tb maxLen b =
      { b with
        cw := revCode lens y, len := lens.getD y 0, count := lenCount lens (lens.getD y 0) (y :: rest)
        table := fillMain (min (lens.getD y 0) tb - min (lens.getD x 0) tb) b.table b.fin
        fin := 2 ^ (min (lens.getD y 0) tb - min (lens.getD x 0) tb) * b.fin } := by
  have hsy : usedSyms lens maxLen = (done ++ [x]) ++ y :: rest := by simpa using hs
  have hle := CompleteCode.len_le_of_mem_rest hs (y := y) List.mem_cons_self
  have hcw : nextCodeword b.cw b.len = revCode lens y := by
    have hlast : canonicalCode lens x + 1 ≠ 2 ^ lens.getD x 0 := fun he => List.cons_ne_nil y rest ((hc.succ_eq_iff hs).mp he)
    have hlt := hc.code_lt hs
    have hshift := revBits_mul_two_pow (lens.getD x 0) (lens.getD y 0 - lens.getD x 0) (canonicalCode lens x + 1)
    rw [Nat.add_sub_cancel' hle, ← hc.canonicalCode_next hs] at hshift
    rw [h.cw, h.len, revCode, nextCodeword_revBits (by omega), ← hshift, revCode]
  have hcount : b.count - 1 = lenCount lens (lens.getD x 0) (y :: rest) := by
    rw [h.count, lenCount_cons, if_pos rfl, Nat.add_sub_cancel]
  have hsome : lenCount lens (lens.getD y 0) (y :: rest) ≠ 0 := by
    rw [lenCount_cons, if_pos rfl]
    exact Nat.succ_ne_zero _
  have hnone : ∀ m < lens.getD y 0, lenCount lens m (y :: rest) = 0 := fun m hm => lenCount_eq_zero fun z hz => by
    rcases List.mem_cons.mp hz with rfl | hz
    · exact hm.ne'
    · exact (hm.trans_le (CompleteCode.len_le_of_mem_rest hsy hz)).ne'
  rw [nextSymbol, hcw, hcount, nextLength_eq (l := lens.getD y 0) (count := lenCount lens (lens.getD y 0) (y :: rest))]
  · dsimp only
    rw [h.len]
  · dsimp only
    rwa [h.len]
  · dsimp only
    exact (hc.len_le y).trans (Nat.le_add_left _ _)
  · exact hsome
  · dsimp only
    rw [h.len]
    split
    · next he => rw [he]
    · next he => exact hnone _ (by omega)
  · intro m hm hmy
    dsimp only at hm
    rw [h.len] at hm
    rw [lengthCounts_remaining hc.le hsy (fun _ hz => (CompleteCode.len_le_of_mem_placed hs hz).trans_lt hm)
      (Nat.ne_zero_of_lt hm) (hmy.trans (hc.len_le y))]
    split
    · next he => rw [he]
    · next he => exact hnone m (by omega)

/-- Where a cell ends with a symbol, the next symbol's cell comes next. -/
theorem Placed.nextSymbol_cellNext (hc : CompleteCode lens maxLen) (hs : usedSyms lens maxLen = done ++ x :: y :: rest)
    (h : Placed lens tb res done x (y :: rest) b) (htb : tb < lens.getD y 0) (hcell : 2 ^ (maxLen - tb) ∣ space lens maxLen (done ++ [x])) :
    CellNext lens tb (codeCell lens tb y) (nextSymbol (lengthCounts lens maxLen) tb maxLen b) := by
  have hsy : usedSyms lens maxLen = (done ++ [x]) ++ y :: rest := by simpa using hs
  rw [h.toAtSymbol.nextSymbol_eq hc hs]
  by_cases hx : lens.getD x 0 ≤ tb
  · obtain ⟨hfin, hpfx⟩ := h.direct hx
    refine ⟨by rw [hpfx]; exact (Option.some_ne_none _).symm, ?_⟩
    dsimp only
    rw [hc.cellStart_first_long hsy htb fun z hz => (CompleteCode.len_le_of_mem_placed hs hz).trans hx, hfin, Nat.min_eq_right htb.le,
      Nat.min_eq_left hx, Nat.mul_comm, pow_mul_pow_sub 2 hx]
  · have hlong := Nat.not_le.mp hx
    have hopen := h.cell hlong
    have hnext : codeCell lens tb y = codeCell lens tb x + 1 := by rw [hc.codeCell_next hs hlong, if_pos hcell]
    refine ⟨?_, ?_⟩
    · rw [hopen.pfx, ne_eq, Option.some_inj]
      intro he
      have := revBits_injective (hc.codeCell_lt hs hlong.le) (hc.codeCell_lt hsy htb.le) he
      omega
    · dsimp only
      rw [hopen.fin, hnext, Nat.min_eq_right htb.le, Nat.min_eq_right hlong.le, Nat.sub_self, Nat.pow_zero, Nat.one_mul]

/-- Where a symbol does not end its cell, the next symbol's subtable is the open one. -/
theorem Placed.nextSymbol_cellOpen (hc : CompleteCode lens maxLen) (hs : usedSyms lens maxLen = done ++ x :: y :: rest)
    (h : Placed lens tb res done x (y :: rest) b) (htb : tb < lens.getD y 0)
    (hcell : ¬ 2 ^ (maxLen - tb) ∣ space lens maxLen (done ++ [x])) :
    CellOpen lens tb (codeCell lens tb y) (nextSymbol (lengthCounts lens maxLen) tb maxLen b) := by
  have hlong : tb < lens.getD x 0 := by
    by_contra hx
    exact hcell ((Nat.pow_dvd_pow 2 (by omega)).trans (dvd_space fun _ => CompleteCode.len_le_of_mem_placed hs))
  have hopen := h.cell hlong
  have hsame : codeCell lens tb y = codeCell lens tb x := by rw [hc.codeCell_next hs hlong, if_neg hcell, Nat.add_zero]
  rw [h.toAtSymbol.nextSymbol_eq hc hs, Nat.min_eq_right htb.le, Nat.min_eq_right hlong.le, Nat.sub_self, hsame]
  exact ⟨hopen.pfx, hopen.start, by dsimp only; rw [hopen.fin, Nat.pow_zero, Nat.one_mul], hopen.pointer⟩

/-- After a symbol is placed, the builder is ready for the next one. -/
theorem Placed.nextSymbol (hc : CompleteCode lens maxLen) (hs : usedSyms lens maxLen = done ++ x :: y :: rest)
    (h : Placed lens tb res done x (y :: rest) b) :
    Ready lens maxLen tb res (done ++ [x]) y rest (nextSymbol (lengthCounts lens maxLen) tb maxLen b) := by
  have hle := CompleteCode.len_le_of_mem_rest hs (y := y) List.mem_cons_self
  have hat := h.toAtSymbol
  refine ⟨?_, h.nextSymbol_cellNext hc hs, h.nextSymbol_cellOpen hc hs⟩
  rw [hat.nextSymbol_eq hc hs]
  refine ⟨rfl, rfl, rfl, by rw [fillMain_length]; exact hat.room, fun htb => ?_, fun z hz => ?_⟩
  · obtain ⟨hfin, hpfx⟩ := hat.direct (hle.trans htb)
    refine ⟨?_, hpfx⟩
    dsimp only
    rw [hfin, Nat.min_eq_left htb, Nat.min_eq_left (hle.trans htb), Nat.mul_comm, pow_mul_pow_sub 2 hle]
  · exact (hat.answers z hz).fillMain (CompleteCode.len_le_of_mem_placed hs hz) (fun hx => (hat.direct hx).1) hle
      (two_pow_le_room hat.room)

/-! ## The whole table -/

/-- BUILD starts at the symbol with the first codeword (41_huffman_tables.md R146). -/
theorem startDirect_ready (hc : CompleteCode lens maxLen) (hs : usedSyms lens maxLen = x :: rest) {t : Table}
    (hroom : codeExtent lens tb ≤ t.length) :
    Ready lens maxLen tb res [] x rest (startDirect (lengthCounts lens maxLen) tb maxLen t) := by
  have hs' : usedSyms lens maxLen = [] ++ x :: rest := hs
  have hmax := hc.len_le x
  have hpos : lens.getD x 0 ≠ 0 := (mem_usedSyms hc.le).mp (hs ▸ List.mem_cons_self)
  have hcount : ∀ l, l ≠ 0 → l ≤ maxLen → (lengthCounts lens maxLen).getD l 0 = lenCount lens l (x :: rest) :=
    fun l hl hle => lengthCounts_remaining hc.le hs' (fun _ hz => absurd hz List.not_mem_nil) hl hle
  have hcode : canonicalCode lens x = 0 := by
    have := canonicalCode_mul hc.le hs'
    rw [space_nil] at this
    exact (Nat.mul_eq_zero.mp this).resolve_right (Nat.two_pow_pos _).ne'
  have hfind : ((List.range' 1 maxLen).find? fun l => (lengthCounts lens maxLen).getD l 0 != 0) = some (lens.getD x 0) := by
    rw [List.find?_range'_eq_some]
    refine ⟨?_, List.mem_range'_1.mpr (by omega), fun l hl hlt => ?_⟩
    · rw [hcount _ hpos hmax, lenCount_cons, if_pos rfl]
      simp
    · rw [hcount l (by omega) (by omega), lenCount_eq_zero]
      · rfl
      · intro z hz
        rcases List.mem_cons.mp hz with rfl | hz
        · exact hlt.ne'
        · exact (hlt.trans_le (CompleteCode.len_le_of_mem_rest hs' hz)).ne'
  simp only [startDirect, hfind, Option.getD_some]
  refine ⟨⟨rfl, ?_, hcount _ hpos hmax, hroom, fun htb => ⟨by rw [Nat.min_eq_left htb], rfl⟩, fun _ hy => absurd hy List.not_mem_nil⟩,
    fun htb _ => ⟨(Option.some_ne_none _).symm, ?_⟩, fun _ h => absurd (Nat.dvd_zero _) h⟩
  · rw [revCode, hcode]
    have := revBits_mul_two_pow 0 (lens.getD x 0) 0
    rw [Nat.zero_mul, Nat.zero_add] at this
    exact this.symm
  · dsimp only
    rw [hc.cellStart_first_long hs' htb fun _ hz => absurd hz List.not_mem_nil, Nat.min_eq_right htb.le]

/-- The loop places every symbol, and stops at the one with the last codeword (41_huffman_tables.md R147 to R151). -/
theorem Ready.placeSymbols (hc : CompleteCode lens maxLen) (hs : usedSyms lens maxLen = done ++ x :: rest)
    (h : Ready lens maxLen tb res done x rest b) :
    ∀ y ∈ usedSyms lens maxLen, Answers lens tb res (placeSymbols res (lengthCounts lens maxLen) tb maxLen (x :: rest) b) tb y := by
  induction rest generalizing done x b with
  | nil =>
    have hones : revCode lens x = 2 ^ lens.getD x 0 - 1 := (revBits_eq_allOnes_iff (hc.code_lt hs)).mpr ((hc.succ_eq_iff hs).mpr rfl)
    intro y hy
    rw [hs] at hy
    by_cases htb : lens.getD x 0 ≤ tb
    · have hplaced := (h.placeDirect hc hs htb).toAtSymbol
      have hfin := (hplaced.direct htb).1
      have hfull := (hplaced.answers y hy).fillMain (n := tb) (CompleteCode.len_le_of_mem_placed hs hy) (fun _ => hfin) htb
        (two_pow_le_room hplaced.room)
      rw [Nat.min_self, Nat.min_eq_left htb] at hfull
      rw [Machine.placeSymbols, if_pos (by rwa [h.len]), if_pos (by rw [h.cw, hones, ← hfin]), h.len]
      rw [h.len] at hfull
      exact hfull
    · have hplaced := (h.placeSubtable hc hs (Nat.not_le.mp htb)).answers y hy
      rw [Nat.min_eq_right (Nat.not_le.mp htb).le] at hplaced
      rw [Machine.placeSymbols, if_neg (by rwa [h.len]), if_pos (by rw [h.cw, hones, h.len])]
      exact hplaced
  | cons z rest ih =>
    have hones : revCode lens x ≠ 2 ^ lens.getD x 0 - 1 := fun he =>
      List.cons_ne_nil z rest ((hc.succ_eq_iff hs).mp ((revBits_eq_allOnes_iff (hc.code_lt hs)).mp he))
    have hsz : usedSyms lens maxLen = (done ++ [x]) ++ z :: rest := by simpa using hs
    by_cases htb : lens.getD x 0 ≤ tb
    · have hplaced := h.placeDirect hc hs htb
      rw [Machine.placeSymbols, if_pos (by rwa [h.len]), if_neg (by rwa [h.cw, (h.direct htb).1])]
      exact ih hsz (hplaced.nextSymbol hc hs)
    · have hplaced := h.placeSubtable hc hs (Nat.not_le.mp htb)
      rw [Machine.placeSymbols, if_neg (by rwa [h.len]), if_neg (by rwa [h.cw, h.len])]
      exact ih hsz (hplaced.nextSymbol hc hs)

/-- BUILD's table answers every symbol of a complete code whose extent the table memory holds (41_huffman_tables.md R152, R157). -/
theorem buildTable_answers (hc : CompleteCode lens maxLen) {t : Table} (hroom : codeExtent lens tb ≤ t.length) (hx : lens.getD x 0 ≠ 0) :
    Answers lens tb res (buildTable res tb maxLen lens t) tb x := by
  have hmem := (mem_usedSyms hc.le).mpr hx
  rw [buildTable, sortSyms_drop_unused]
  cases hs : usedSyms lens maxLen with
  | nil =>
    rw [hs] at hmem
    exact absurd hmem List.not_mem_nil
  | cons y rest => exact (startDirect_ready hc hs hroom).placeSymbols hc (done := []) hs x hmem

end

end Sys2Proof.Machine
end

section
/-! PROOFS. Decode-table entries and the lookup law (41_huffman_tables.md R155 to R157): in the table BUILD left, the canonical codeword
of a symbol finds the symbol's entry and leaves the lane by exactly its bits. -/

namespace Sys2Proof.Machine

/-! ## Entry fields -/

/-- A direct entry as a number (41_huffman_tables.md R155). -/
theorem directEntry_toNat (res : BitVec 24) {len : Nat} (h : len < 256) : (directEntry res len).toNat = res.toNat * 2 ^ 8 + len := by
  have hres := res.isLt
  rw [directEntry, BitVec.toNat_or, BitVec.toNat_shiftLeft, BitVec.toNat_setWidth, BitVec.toNat_ofNat, Nat.shiftLeft_eq,
    Nat.mod_eq_of_lt (a := res.toNat) (by omega), Nat.mod_eq_of_lt (a := len) (by omega), Nat.mod_eq_of_lt (by omega), Nat.mul_comm,
    Nat.two_pow_add_eq_or_of_lt h]

theorem entryLen_directEntry (res : BitVec 24) {len : Nat} (h : len < 256) : entryLen (directEntry res len) = len := by
  rw [entryLen, BitVec.extractLsb'_toNat, directEntry_toNat res h, Nat.shiftRight_zero]
  omega

@[simp] theorem entryResult_directEntry (res : BitVec 24) {len : Nat} (h : len < 256) : entryResult (directEntry res len) = res := by
  apply BitVec.eq_of_toNat_eq
  have hres := res.isLt
  rw [entryResult, BitVec.extractLsb'_toNat, directEntry_toNat res h, Nat.shiftRight_eq_div_pow]
  omega

/-- A bit of a direct entry above its length is a bit of its result. -/
theorem getLsbD_directEntry (res : BitVec 24) {len k : Nat} (h : len < 256) : (directEntry res len).getLsbD (k + 8) = res.getLsbD k := by
  rw [BitVec.getLsbD, BitVec.getLsbD, directEntry_toNat res h, Nat.mul_comm, Nat.testBit_two_pow_mul_add _ h]
  simp

theorem entrySub_directEntry {res : BitVec 24} {len : Nat} (h : len < 256) (hres : res.toNat < 2 ^ 23) :
    entrySub (directEntry res len) = false :=
  (getLsbD_directEntry res h).trans (Nat.testBit_lt_two_pow hres)

theorem entryLit_directEntry (res : BitVec 24) {len : Nat} (h : len < 256) : entryLit (directEntry res len) = res.getLsbD 22 :=
  getLsbD_directEntry res h

theorem entryByte_directEntry (res : BitVec 24) {len : Nat} (h : len < 256) :
    (entryByte (directEntry res len)).toNat = res.toNat % 2 ^ 8 := by
  have hres := res.isLt
  rw [entryByte, BitVec.extractLsb'_toNat, directEntry_toNat res h, Nat.shiftRight_eq_div_pow]
  omega

theorem entryDextra_directEntry (res : BitVec 24) {len : Nat} (h : len < 256) :
    entryDextra (directEntry res len) = res.toNat / 2 ^ 16 := by
  have hres := res.isLt
  rw [entryDextra, BitVec.extractLsb'_toNat, directEntry_toNat res h, Nat.shiftRight_eq_div_pow]
  omega

/-- A pointer entry as a number (41_huffman_tables.md R155). -/
theorem pointerEntry_toNat {start sbits : Nat} (hstart : start < 2 ^ 23) (hbits : sbits < 256) :
    (pointerEntry start sbits).toNat = 2 ^ 31 + start * 2 ^ 8 + sbits := by
  have hlow : start * 2 ^ 8 < 2 ^ 31 := by omega
  have hstart' : (BitVec.ofNat 32 start <<< 8).toNat = start * 2 ^ 8 := by
    rw [BitVec.toNat_shiftLeft, BitVec.toNat_ofNat, Nat.shiftLeft_eq, Nat.mod_eq_of_lt (a := start) (by omega), Nat.mod_eq_of_lt (by omega)]
  have hbits' : (BitVec.ofNat 32 sbits).toNat = sbits := by
    rw [BitVec.toNat_ofNat, Nat.mod_eq_of_lt (by omega)]
  have hsub : (2147483648#32).toNat ||| start * 2 ^ 8 = 2 ^ 8 * (2 ^ 23 + start) := by
    have hor := Nat.two_pow_add_eq_or_of_lt hlow 1
    rw [Nat.mul_one] at hor
    change 2 ^ 31 ||| start * 2 ^ 8 = _
    rw [← hor]
    omega
  rw [pointerEntry, BitVec.toNat_or, BitVec.toNat_or, hstart', hbits', hsub, ← Nat.two_pow_add_eq_or_of_lt hbits]
  omega

theorem entrySub_pointerEntry {start sbits : Nat} (hstart : start < 2 ^ 23) (hbits : sbits < 256) :
    entrySub (pointerEntry start sbits) = true := by
  apply getLsbD_of_toNat
  rw [pointerEntry_toNat hstart hbits, Bool.toNat_true]
  omega

theorem entryStart_pointerEntry {start sbits : Nat} (hstart : start < 2 ^ 23) (hbits : sbits < 256) :
    entryStart (pointerEntry start sbits) = start := by
  rw [entryStart, BitVec.extractLsb'_toNat, pointerEntry_toNat hstart hbits, Nat.shiftRight_eq_div_pow]
  omega

theorem entryLen_pointerEntry {start sbits : Nat} (hstart : start < 2 ^ 23) (hbits : sbits < 256) :
    entryLen (pointerEntry start sbits) = sbits := by
  rw [entryLen, BitVec.extractLsb'_toNat, pointerEntry_toNat hstart hbits, Nat.shiftRight_zero]
  omega

/-! ## Decode results -/

theorem preRes_toNat {sym : Nat} (h : sym < 2 ^ 24) : (preRes sym).toNat = sym := by
  rw [preRes, BitVec.toNat_ofNat, Nat.mod_eq_of_lt h]

/-- A literal's result: the literal flag above the byte (30_encoding.md R95). -/
theorem llRes_toNat_literal {sym : Nat} (h : sym < 256) : (llRes sym).toNat = 2 ^ 22 + sym := by
  have hor := Nat.two_pow_add_eq_or_of_lt (i := 22) (b := sym) (by omega) 1
  rw [Nat.mul_one] at hor
  have hsym : (BitVec.ofNat 24 sym).toNat = sym := by
    rw [BitVec.toNat_ofNat, Nat.mod_eq_of_lt (by omega)]
  rw [llRes, if_pos h, BitVec.toNat_or, hsym, hor]
  rfl

/-- A length's result: the base above the number of extra bits (30_encoding.md R95). -/
theorem llRes_toNat_length {sym : Nat} (hlow : 256 ≤ sym) (h : sym < 288) : (llRes sym).toNat = lenBase sym * 2 ^ 8 + lenExtra sym := by
  have hsmall : ∀ n < 32, lenBase (n + 256) * 2 ^ 8 + lenExtra (n + 256) < 2 ^ 24 := by decide
  obtain ⟨n, rfl⟩ := Nat.exists_eq_add_of_le' hlow
  rw [llRes, if_neg (by omega), BitVec.toNat_ofNat, Nat.mod_eq_of_lt (hsmall n (by omega))]

/-- An offset symbol's result: the number of extra bits above the base (30_encoding.md R97). -/
theorem offRes_toNat {sym : Nat} (h : sym < 32) : (offRes sym).toNat = offExtra sym * 2 ^ 16 + offBase sym ∧ offBase sym < 2 ^ 16 := by
  have hsmall : ∀ n < 32, offExtra n * 2 ^ 16 + offBase n < 2 ^ 24 ∧ offBase n < 2 ^ 16 := by decide
  obtain ⟨hsum, hbase⟩ := hsmall sym h
  exact ⟨by rw [offRes, BitVec.toNat_ofNat, Nat.mod_eq_of_lt hsum], hbase⟩

/-- No symbol's result sets the bit that marks a pointer (41_huffman_tables.md R155). -/
theorem result_toNat_lt {c : Code} {sym : Nat} (h : sym < c.maxSyms) : (c.result sym).toNat < 2 ^ 23 := by
  cases c with
  | precode =>
    change sym < 19 at h
    rw [Code.result, preRes_toNat (by omega)]
    omega
  | litlen =>
    by_cases hlit : sym < 256
    · rw [Code.result, llRes_toNat_literal hlit]
      omega
    · have hall : ∀ n < 32, (llRes (n + 256)).toNat < 2 ^ 23 := by decide
      obtain ⟨n, rfl⟩ := Nat.exists_eq_add_of_le' (Nat.not_lt.mp hlit)
      exact hall n (by change n + 256 < 288 at h; omega)
  | offset =>
    have hall : ∀ n < 32, (offRes n).toNat < 2 ^ 23 := by decide
    exact hall sym h

/-- No code has codewords longer than 15 bits (00_scope.md R6). -/
theorem Code.maxLen_le (c : Code) : c.maxLen ≤ 15 := by cases c <;> decide

/-! ## Taking bits from a lane -/

theorem consume_drop {c : Fin 32} {n : Nat} {s : State} (h : n ≤ (s.lane c).left) :
    consume c n s = .ok () (setLane c ((s.lane c).drop n) s) := by
  rcases consume_cases c n s with ⟨hlt, _⟩ | ⟨_, e⟩
  · omega
  · exact e

theorem Lane.drop_drop (l : Lane) (m n : Nat) : (l.drop m).drop n = l.drop (m + n) := by
  simp only [Lane.drop, BitVec.shiftRight_add, Nat.sub_sub]

@[simp] theorem Lane.drop_left (l : Lane) (n : Nat) : (l.drop n).left = l.left - n := rfl

theorem Lane.drop_buf (l : Lane) (n : Nat) : (l.drop n).buf.toNat = l.buf.toNat / 2 ^ n := by
  rw [Lane.drop, BitVec.toNat_ushiftRight, Nat.shiftRight_eq_div_pow]

theorem setLane_setLane (c : Fin 32) (l m : Lane) (s : State) : setLane c l (setLane c m s) = setLane c l s := by
  simp [setLane]

theorem setLane_self (c : Fin 32) (s : State) : setLane c (s.lane c) s = s := by
  simp [setLane, State.lane]

theorem Lane.drop_zero (l : Lane) : l.drop 0 = l := by
  simp [Lane.drop]

theorem setLane_table (lane : Fin 32) (l : Lane) (s : State) (c : Code) : (setLane lane l s).table c = s.table c := by
  cases c <;> rfl

theorem readEntry_of_getD {c : Code} {k : Nat} {s : State} {e : Word} (h : (s.table c).getD k none = some e) :
    readEntry c k s = .ok e s := by
  rw [readEntry, h]

/-! ## LOOKUP -/

section
variable {lens : List Nat} {c : Code} {lane : Fin 32} {s : State} {sym : Nat}

/-- A codeword no longer than the main table's index is looked up there. -/
theorem lookup_direct (h : Answers lens (tableBits s.cfg c) c.result (s.table c) (tableBits s.cfg c) sym)
    (hlens : lens.getD sym 0 < 256) (hsym : sym < c.maxSyms) (htb : lens.getD sym 0 ≤ tableBits s.cfg c)
    (hd : s.delivers lane (lens.getD sym 0) (revCode lens sym)) :
    lookup c lane s =
      .ok (directEntry (c.result sym) (lens.getD sym 0)) (setLane lane ((s.lane lane).drop (lens.getD sym 0)) s) := by
  obtain ⟨hleft, hbits⟩ := hd
  have hindex : peek s lane (tableBits s.cfg c) % 2 ^ lens.getD sym 0 = revCode lens sym := by
    rw [peek, Nat.mod_mod_of_dvd _ (Nat.pow_dvd_pow 2 htb), hbits]
  have hentry := h.direct htb (peek s lane (tableBits s.cfg c)) (Nat.mod_lt _ (Nat.two_pow_pos _)) hindex
  rw [lookup, readEntry_of_getD hentry, Res.bind_ok, entrySub_directEntry hlens (result_toNat_lt hsym), if_neg Bool.false_ne_true,
    entryLen_directEntry _ hlens, consume_drop hleft, Res.bind_ok]

/-- The place and the width of a subtable fit in the fields of its pointer (41_huffman_tables.md R155). -/
theorem CompleteCode.pointer_fits {maxLen tb : Nat} (hc : CompleteCode lens maxLen) (hmax : maxLen ≤ 15) (htb : tb < lens.getD sym 0) :
    cellStart lens tb (codeCell lens tb sym) < 2 ^ 23 ∧ subtableBits lens tb (codeCell lens tb sym) < 256 := by
  have hlen := hc.len_le sym
  constructor
  · obtain ⟨d, e, hs⟩ := List.append_of_mem ((mem_usedSyms hc.le).mpr (Nat.ne_zero_of_lt htb))
    have hlt := hc.codeCell_lt hs htb.le
    have hle := (cellStart_le (tb := tb) hc.le _).trans (Nat.add_le_add_left (Nat.mul_le_mul_right _ hlt.le) _)
    rw [pow_mul_pow_sub 2 (htb.le.trans hlen)] at hle
    have hmain := Nat.pow_le_pow_right (show 2 > 0 by decide) (show tb ≤ 15 by omega)
    have hall := Nat.pow_le_pow_right (show 2 > 0 by decide) hmax
    omega
  · have := subtableBits_le_maxLen (tb := tb) (q := codeCell lens tb sym) hc.le
    omega

/-- A longer codeword is looked up in its cell's subtable. -/
theorem lookup_subtable (hc : CompleteCode lens c.maxLen)
    (h : Answers lens (tableBits s.cfg c) c.result (s.table c) (tableBits s.cfg c) sym)
    (htb : tableBits s.cfg c < lens.getD sym 0)
    (hd : s.delivers lane (lens.getD sym 0) (revCode lens sym)) :
    lookup c lane s =
      .ok (directEntry (c.result sym) (lens.getD sym 0 - tableBits s.cfg c))
        (setLane lane ((s.lane lane).drop (lens.getD sym 0)) s) := by
  obtain ⟨hleft, hbits⟩ := hd
  generalize htbeq : tableBits s.cfg c = tb at h htb ⊢
  obtain ⟨hstart, hwidth⟩ := hc.pointer_fits c.maxLen_le htb
  generalize hq : codeCell lens tb sym = q at h hstart hwidth
  have hindex : peek s lane tb = revCode lens sym % 2 ^ tb := by
    rw [peek, ← hbits, Nat.mod_mod_of_dvd _ (Nat.pow_dvd_pow 2 htb.le)]
  have hpointer := h.pointer htb
  rw [hq, ← hindex] at hpointer
  rw [lookup, htbeq, readEntry_of_getD hpointer, Res.bind_ok, entrySub_pointerEntry hstart hwidth, if_pos rfl, htbeq,
    consume_drop (htb.le.trans hleft), Res.bind_ok, entryStart_pointerEntry hstart hwidth, entryLen_pointerEntry hstart hwidth]
  have hrest : peek (setLane lane ((s.lane lane).drop tb) s) lane (subtableBits lens tb q) % 2 ^ (lens.getD sym 0 - tb) =
      revCode lens sym / 2 ^ tb := by
    have hle := le_subtableBits htb hq
    rw [peek, setLane_lane_same, Lane.drop_buf, Nat.mod_mod_of_dvd _ (Nat.pow_dvd_pow 2 hle), ← hbits, ← pow_mul_pow_sub 2 htb.le,
      Nat.mod_mul_right_div_self]
  have hentry := h.subtable htb (peek (setLane lane ((s.lane lane).drop tb) s) lane (subtableBits lens tb q))
    (by rw [hq]; exact Nat.mod_lt _ (Nat.two_pow_pos _)) hrest
  rw [hq] at hentry
  have hbits256 : lens.getD sym 0 - tb < 256 := by
    have := hc.len_le sym
    have := c.maxLen_le
    omega
  rw [readEntry_of_getD (s := setLane lane ((s.lane lane).drop tb) s) (by rw [setLane_table]; exact hentry), Res.bind_ok,
    entryLen_directEntry _ hbits256, consume_drop (by rw [setLane_lane_same, Lane.drop_left]; omega), Res.bind_ok, setLane_lane_same,
    Lane.drop_drop, Nat.add_sub_cancel' htb.le, setLane_setLane]

/-- A build that succeeds leaves its table, and the parameters as they were. -/
theorem build_ok_table {t : State} (h : build c lens s = .ok () t) :
    t.table c = buildTable c.result (tableBits s.cfg c) c.maxLen lens (s.table c) ∧ t.cfg = s.cfg := by
  rcases build_cases c lens s with ⟨_, e⟩ | ⟨_, e⟩ | ⟨_, e⟩ <;> rw [e] at h
  · cases h
  · cases h
  · injection h with _ h
    subst h
    cases c <;> exact ⟨rfl, rfl⟩

end

/-- Settles O10: the built table answers every symbol, and LOOKUP reads the answer, from the main table or from a subtable. -/
theorem lookupLaw : Obligations.LookupLaw := by
  intro c lens s t lane sym
  dsimp only
  intro _ hroom hsyms hle hfull hbuild hsym hused hd
  have hc : CompleteCode lens c.maxLen := ⟨hle, hfull⟩
  have hsym' : sym < c.maxSyms := hsym.trans_le hsyms
  obtain ⟨htable, hcfg⟩ := build_ok_table hbuild
  have hanswers := buildTable_answers (res := c.result) hc hroom hused
  rw [← htable, ← hcfg] at hanswers
  rw [← hcfg]
  split
  · next htb =>
    have hlen : lens.getD sym 0 < 256 := by
      have hmax := c.maxLen_le
      have := hc.len_le sym
      omega
    exact lookup_direct hanswers hlen hsym' htb hd
  · next htb => exact lookup_subtable hc hanswers (Nat.not_le.mp htb) hd

/-- Settles O9: without subtables the table's extent is its main part, and the law is LookupLaw's. -/
theorem directLookupLaw : Obligations.DirectLookupLaw := by
  intro c lens s t lane sym htb hroom hsyms hle hfull hbuild hsym hused
  dsimp only
  intro hd
  have htb32 : tableBits s.cfg c ≤ 32 := htb.trans (c.maxLen_le.trans (by decide))
  have hlaw := lookupLaw c lens s t lane sym htb32 (by rwa [codeExtent_of_short hle]) hsyms (fun l hl => (hle l hl).trans htb) hfull
    hbuild hsym hused hd
  rwa [if_pos (getD_le hle sym)] at hlaw

end Sys2Proof.Machine
end

section
/-! PROOFS. The static codes (30_encoding.md R87, R88) and the bits of litlen and offset elements: the extra bits after a lookup, and
the static codewords (43_symbol_decode.md R201, R203; 44_match_copy.md R220, R221). -/

namespace Sys2Proof.Machine

/-! ## The static codes -/

theorem staticLitlenLens_getD {sym : Nat} (h : sym < 288) : staticLitlenLens.getD sym 0 = staticLitlenLen sym := by
  simp only [staticLitlenLens, staticLitlenLen, List.getD, List.getElem?_append, List.getElem?_replicate, List.length_append,
    List.length_replicate]
  split_ifs <;> first | rfl | omega

theorem staticOffsetLens_getD {sym : Nat} (h : sym < 32) : staticOffsetLens.getD sym 0 = 5 := by
  simp only [staticOffsetLens, List.getD, List.getElem?_replicate, if_pos h, Option.getD_some]

theorem kraftSum_append (xs ys : List Nat) (maxLen : Nat) : kraftSum (xs ++ ys) maxLen = kraftSum xs maxLen + kraftSum ys maxLen := by
  simp [kraftSum]

theorem kraftSum_replicate (n l maxLen : Nat) : kraftSum (List.replicate n l) maxLen = n * if l = 0 then 0 else 2 ^ (maxLen - l) := by
  simp [kraftSum]

theorem staticLitlen_complete : CompleteCode staticLitlenLens 15 where
  le := by
    simp only [staticLitlenLens, List.mem_append, List.mem_replicate]
    omega
  full := by simp only [staticLitlenLens, kraftSum_append, kraftSum_replicate]; rfl

theorem staticOffset_complete : CompleteCode staticOffsetLens 15 where
  le := by
    simp only [staticOffsetLens, List.mem_replicate]
    omega
  full := by rw [staticOffsetLens, kraftSum_replicate]; rfl

/-- Settles O6. -/
theorem staticCodes : Obligations.StaticCodes :=
  ⟨by simp only [staticLitlenLens, List.length_append, List.length_replicate], fun _ => staticLitlenLens_getD, List.length_replicate,
    fun _ => staticOffsetLens_getD,
    staticLitlen_complete.full, staticOffset_complete.full⟩

/-- Neighbouring symbols of one length have neighbouring codewords (30_encoding.md R86). -/
theorem canonicalCode_succ {lens : List Nat} {s : Nat} (hlen : lens.getD (s + 1) 0 = lens.getD s 0) (hs : lens.getD s 0 ≠ 0) :
    canonicalCode lens (s + 1) = canonicalCode lens s + 1 := by
  have hnodup : ∀ x, (codesBefore lens x).Nodup := fun _ => List.nodup_range.filter _
  have hnot : s ∉ codesBefore lens s := fun h => CodeBefore.irrefl s (mem_codesBefore.mp h).2
  have hperm : (codesBefore lens (s + 1)).Perm (s :: codesBefore lens s) := by
    rw [List.perm_ext_iff_of_nodup (hnodup _) (List.nodup_cons.mpr ⟨hnot, hnodup s⟩)]
    intro t
    rw [List.mem_cons, mem_codesBefore, mem_codesBefore, CodeBefore, CodeBefore, hlen]
    constructor
    · rintro ⟨hused, hlt | ⟨heq, hlt⟩⟩
      · exact .inr ⟨hused, .inl hlt⟩
      · rcases Nat.lt_succ_iff_lt_or_eq.mp hlt with hlt | rfl
        · exact .inr ⟨hused, .inr ⟨heq, hlt⟩⟩
        · exact .inl rfl
    · rintro (rfl | ⟨hused, hlt | ⟨heq, hlt⟩⟩)
      · exact ⟨hs, .inr ⟨rfl, Nat.lt_succ_self _⟩⟩
      · exact ⟨hused, .inl hlt⟩
      · exact ⟨hused, .inr ⟨heq, Nat.lt_succ_of_lt hlt⟩⟩
  rw [canonicalCode_eq_sum, canonicalCode_eq_sum, (hperm.map _).sum_eq, List.map_cons, List.sum_cons, hlen, Nat.sub_self, Nat.add_comm]
  rfl

theorem canonicalCode_add {lens : List Nat} {s k l : Nat} (hl : l ≠ 0) (h : ∀ j ≤ k, lens.getD (s + j) 0 = l) :
    canonicalCode lens (s + k) = canonicalCode lens s + k := by
  induction k with
  | zero => rfl
  | succ k ih =>
    have hk : lens.getD (s + k) 0 = l := h k (Nat.le_succ k)
    have hnext : lens.getD (s + k + 1) 0 = l := h (k + 1) (Nat.le_refl _)
    rw [← Nat.add_assoc, canonicalCode_succ (hnext.trans hk.symm) (hk ▸ hl), ih fun j hj => h j (Nat.le_succ_of_le hj)]
    rfl

/-- The first codeword of each of the four runs of static litlen symbols (30_encoding.md R88). -/
theorem staticLitlen_firstCodes :
    canonicalCode staticLitlenLens 0 = 0x30 ∧ canonicalCode staticLitlenLens 144 = 0x190 ∧
    canonicalCode staticLitlenLens 256 = 0 ∧ canonicalCode staticLitlenLens 280 = 0xC0 := by
  decide +kernel

/-- The static litlen codewords are the canonical ones (30_encoding.md R88). -/
theorem canonicalCode_staticLitlen {sym : Nat} (h : sym < 288) : canonicalCode staticLitlenLens sym = staticLitlenCode sym := by
  obtain ⟨h0, h144, h256, h280⟩ := staticLitlen_firstCodes
  have hrun : ∀ {first k l : Nat}, l ≠ 0 → first + k < 288 → (∀ j ≤ k, staticLitlenLen (first + j) = l) →
      canonicalCode staticLitlenLens (first + k) = canonicalCode staticLitlenLens first + k := fun hl hlt hlen =>
    canonicalCode_add hl fun j hj => (staticLitlenLens_getD (by omega)).trans (hlen j hj)
  unfold staticLitlenCode
  unfold staticLitlenLen at hrun
  split
  · have := hrun (first := 0) (k := sym) (l := 8) (by decide) (by omega) fun j hj => by rw [if_pos (by omega)]
    rw [Nat.zero_add, h0] at this
    exact this
  split
  · obtain ⟨k, rfl⟩ := Nat.exists_eq_add_of_le (show 144 ≤ sym by omega)
    rw [hrun (l := 9) (by decide) (by omega) fun j hj => by rw [if_neg (by omega), if_pos (by omega)], h144]
    omega
  split
  · obtain ⟨k, rfl⟩ := Nat.exists_eq_add_of_le (show 256 ≤ sym by omega)
    rw [hrun (l := 7) (by decide) (by omega) fun j hj => by rw [if_neg (by omega), if_neg (by omega), if_pos (by omega)], h256]
    omega
  · obtain ⟨k, rfl⟩ := Nat.exists_eq_add_of_le (show 280 ≤ sym by omega)
    rw [hrun (l := 8) (by decide) (by omega) fun j hj => by rw [if_neg (by omega), if_neg (by omega), if_neg (by omega)], h280]
    omega

/-- The static offset codewords are the symbols themselves (30_encoding.md R88). -/
theorem canonicalCode_staticOffset {sym : Nat} (h : sym < 32) : canonicalCode staticOffsetLens sym = sym := by
  have h0 : canonicalCode staticOffsetLens 0 = 0 := by decide +kernel
  have hrun := canonicalCode_add (lens := staticOffsetLens) (s := 0) (k := sym) (l := 5) (by decide) fun j hj => by
    rw [Nat.zero_add, staticOffsetLens_getD (by omega)]
  rw [Nat.zero_add, h0, Nat.zero_add] at hrun
  exact hrun

/-! ## Extra bits -/

/-- Bits a lane delivers in two parts. -/
theorem delivers_parts {s : State} {c : Fin 32} {m n a b : Nat} (ha : a < 2 ^ m) (h : s.delivers c (m + n) (a + b * 2 ^ m)) :
    s.delivers c m a ∧ n ≤ ((s.lane c).drop m).left ∧ ((s.lane c).drop m).buf.toNat % 2 ^ n = b := by
  obtain ⟨hleft, hbits⟩ := h
  refine ⟨⟨by omega, ?_⟩, by rw [Lane.drop_left]; omega, ?_⟩
  · rw [← Nat.mod_mod_of_dvd _ (Nat.pow_dvd_pow 2 (Nat.le_add_right m n)), hbits, Nat.add_mul_mod_self_right, Nat.mod_eq_of_lt ha]
  · rw [Lane.drop_buf, ← Nat.mod_mul_right_div_self, ← Nat.pow_add, hbits, Nat.add_mul_div_right _ _ (Nat.two_pow_pos m),
      Nat.div_eq_of_lt ha, Nat.zero_add]

/-- The extra bits of an element, taken from its lane and decoded. -/
def takeExtra (c : Fin 32) (n : Nat) (d : Nat → Except Reject Instr) (s : State) : Res Instr :=
  (pop c n s).bind fun x s => decoded (d x) s

theorem takeExtra_ok {c : Fin 32} {n : Nat} {d : Nat → Except Reject Instr} {s : State} {i : Instr}
    (horder : s.cfg.reading.fieldBits = .lsbFirst) (hleft : n ≤ (s.lane c).left) (hd : d ((s.lane c).buf.toNat % 2 ^ n) = .ok i) :
    takeExtra c n d s = .ok i (setLane c ((s.lane c).drop n) s) := by
  rw [takeExtra, pop_ok hleft, Res.bind_ok, horder, fieldValue_lsbFirst, peek, hd]
  rfl

/-- The same after the codeword before them was taken. -/
theorem takeExtra_setLane {c : Fin 32} {n x : Nat} {d : Nat → Except Reject Instr} {s : State} {l : Lane} {i : Instr}
    (horder : s.cfg.reading.fieldBits = .lsbFirst) (hleft : n ≤ l.left) (hbits : l.buf.toNat % 2 ^ n = x) (hd : d x = .ok i) :
    takeExtra c n d (setLane c l s) = .ok i (setLane c (l.drop n) s) := by
  have h := takeExtra_ok (c := c) (n := n) (d := d) (s := setLane c l s) (i := i) horder
  rw [setLane_lane_same, setLane_setLane, hbits] at h
  exact h hleft hd

theorem takeExtra_zero {c : Fin 32} {d : Nat → Except Reject Instr} {s : State} (horder : s.cfg.reading.fieldBits = .lsbFirst) :
    takeExtra c 0 d s = decoded (d 0) s := by
  have hlane := setLane_self c s
  rw [← Lane.drop_zero (s.lane c)] at hlane
  rw [takeExtra, pop_ok (Nat.zero_le _), Res.bind_ok, horder, fieldValue_lsbFirst, peek, Nat.pow_zero, Nat.mod_one]
  exact congrArg (decoded (d 0)) hlane

theorem takeExtra_raised {c : Fin 32} {n : Nat} {d : Nat → Except Reject Instr} {s : State} (hleft : (s.lane c).left < n) :
    takeExtra c n d s = .raised (errorEntry .laneUnderflow 0#4 s) := by
  rw [takeExtra, pop_raised hleft, Res.bind_raised]

/-- A lookup keeps the order in which extra bits are read. -/
theorem lookup_fieldBits {k : Code} {c : Fin 32} {s v : State} {e : Word} (h : lookup k c s = .ok e v) :
    v.cfg.reading.fieldBits = s.cfg.reading.fieldBits := by
  rw [(lookup_ok h).1]

/-! ## Litlen elements -/

/-- The symbol a fetch gives: 285 for the three with one decode result (log 16). -/
def fetchedSym (sym : Nat) : Nat := if 286 ≤ sym then 285 else sym

theorem lengthSymbol_llRes {sym : Nat} (hlow : 256 ≤ sym) (h : sym < 288) : lengthSymbol (llRes sym) = some (fetchedSym sym) := by
  have hall : ∀ n < 32, lengthSymbol (llRes (n + 256)) = some (fetchedSym (n + 256)) := by decide
  obtain ⟨n, rfl⟩ := Nat.exists_eq_add_of_le' hlow
  exact hall n (by omega)

theorem lenExtra_literal {sym : Nat} (h : sym < 256) : lenExtra sym = 0 := by
  rw [lenExtra, Nat.sub_eq_zero_of_le h.le]
  rfl

theorem lenExtra_lt {sym : Nat} (hlow : 256 ≤ sym) (h : sym < 288) : lenExtra sym < 2 ^ 8 := by
  have hall : ∀ n < 32, lenExtra (n + 256) < 2 ^ 8 := by decide
  obtain ⟨n, rfl⟩ := Nat.exists_eq_add_of_le' hlow
  exact hall n (by omega)

/-- A litlen symbol below 286 decodes with every value of its extra bits (30_encoding.md R96). -/
theorem decodeLitlen_total {sym x : Nat} (h : sym < 286) (hx : x < 2 ^ lenExtra sym) : ∃ i, decodeLitlen sym x = .ok i := by
  by_cases hlit : sym < 256
  · rw [lenExtra_literal hlit] at hx
    exact ⟨_, by rw [decodeLitlen, if_pos hlit, Nat.lt_one_iff.mp hx, noExtra_zero]⟩
  · rw [decodeLitlen_length (Nat.not_lt.mp hlit)]
    have hlow := Nat.not_lt.mp hlit
    interval_cases sym <;> simp only [decodeLength, noExtra_eq_withExtra] <;> exact ⟨_, if_pos hx⟩

theorem fetchedSym_lt {sym : Nat} : fetchedSym sym < 286 := by
  unfold fetchedSym
  split <;> omega

theorem lenExtra_fetchedSym {sym : Nat} (h : sym < 288) : lenExtra (fetchedSym sym) = lenExtra sym := by
  unfold fetchedSym
  split
  · obtain rfl | rfl : sym = 286 ∨ sym = 287 := by omega
    all_goals rfl
  · rfl

/-- After the lookup of its entry, a litlen symbol's extra bits are taken, none for a literal (43_symbol_decode.md R201, R203). -/
theorem fetchLitlen_of_lookup {s v : State} {c : Fin 32} {sym len : Nat} (horder : s.cfg.reading.fieldBits = .lsbFirst) (hsym : sym < 288)
    (hlen : len < 256) (hl : lookup .litlen c s = .ok (directEntry (llRes sym) len) v) :
    fetchLitlen c s = takeExtra c (lenExtra sym) (decodeLitlen (fetchedSym sym)) v := by
  rw [fetchLitlen, hl, Res.bind_ok, entryLit_directEntry _ hlen, entryByte_directEntry _ hlen, entryResult_directEntry _ hlen]
  by_cases hlit : sym < 256
  · have hflag : (llRes sym).getLsbD 22 = true := by
      apply getLsbD_of_toNat
      rw [llRes_toNat_literal hlit, Bool.toNat_true]
      omega
    have hbyte : (llRes sym).toNat % 2 ^ 8 = sym := by
      rw [llRes_toNat_literal hlit]
      omega
    have hfetched : fetchedSym sym = sym := if_neg (by omega)
    rw [if_pos hflag, hbyte, hfetched, lenExtra_literal hlit, takeExtra_zero ((lookup_fieldBits hl).trans horder)]
  · have hlow := Nat.not_lt.mp hlit
    have hflag : (llRes sym).getLsbD 22 = false := by
      have hall : ∀ n < 32, (llRes (n + 256)).getLsbD 22 = false := by decide
      obtain ⟨n, rfl⟩ := Nat.exists_eq_add_of_le' hlow
      exact hall n (by omega)
    have hbyte : (llRes sym).toNat % 2 ^ 8 = lenExtra sym := by
      have := lenExtra_lt hlow hsym
      rw [llRes_toNat_length hlow hsym]
      omega
    rw [hflag, if_neg Bool.false_ne_true, lengthSymbol_llRes hlow hsym, hbyte]
    rfl

/-- What a litlen element's fetch gives: the element itself, 285 for the three with one decode result (log 16). -/
theorem decodeLitlen_fetchedSym {sym x : Nat} {i : Instr} (h : decodeLitlen sym x = .ok i) :
    decodeLitlen (fetchedSym sym) x = .ok (if i = .llLen286 ∨ i = .llLen287 then .llLen285 else i) := by
  have hword := (encode_decodeLitlen h).1
  by_cases hsym : 286 ≤ sym
  · have hlt : sym < 288 := by
      by_contra habove
      rw [decodeLitlen_above (Nat.not_lt.mp habove)] at h
      cases h
    have hx : x = 0 ∧ (i = .llLen286 ∨ i = .llLen287) := by
      obtain rfl | rfl : sym = 286 ∨ sym = 287 := by omega
      · obtain ⟨hx, hi⟩ := noExtra_eq_ok.mp h
        exact ⟨hx, .inl hi.symm⟩
      · obtain ⟨hx, hi⟩ := noExtra_eq_ok.mp h
        exact ⟨hx, .inr hi.symm⟩
    rw [if_pos hx.2, hx.1, fetchedSym, if_pos hsym]
    rfl
  · have hother : ¬ (i = .llLen286 ∨ i = .llLen287) := by
      rintro (rfl | rfl) <;> simp only [encode, symWord] at hword <;> omega
    rw [if_neg hother, fetchedSym, if_neg hsym, h]

/-- The symbol and the extra bits of a litlen element's word. -/
theorem decodeLitlen_of_format {i : Instr} (h : i.format = .llsym) :
    decodeLitlen (encode i % 2 ^ 9) (encode i / 2 ^ 9) = .ok i ∧ encode i % 2 ^ 9 < 288 := by
  have hdec : decodeLitlen (encode i % 2 ^ 9) (encode i / 2 ^ 9) = .ok i := decode_encode_llsym h
  refine ⟨hdec, ?_⟩
  by_contra habove
  rw [decodeLitlen_above (Nat.not_lt.mp habove)] at hdec
  cases hdec

/-! ## Offset elements -/

theorem offsetSymbol_offRes {sym : Nat} (h : sym < 32) : offsetSymbol (offRes sym) = some sym := by
  have hall : ∀ n < 32, offsetSymbol (offRes n) = some n := by decide
  exact hall sym h

/-- An offset symbol decodes with every value of its extra bits (30_encoding.md R97). -/
theorem decodeOffset_total {sym x : Nat} (h : sym < 32) (hx : x < 2 ^ offExtra sym) : ∃ i, decodeOffset sym x = .ok i := by
  interval_cases sym <;> simp only [decodeOffset, noExtra_eq_withExtra] <;> exact ⟨_, if_pos hx⟩

/-- After the lookup of its entry, an offset symbol's extra bits are taken (44_match_copy.md R220, R221). -/
theorem fetchOffset_of_lookup {s v : State} {c : Fin 32} {sym len : Nat} (hsym : sym < 32) (hlen : len < 256)
    (hl : lookup .offset c s = .ok (directEntry (offRes sym) len) v) :
    fetchOffset c s = takeExtra c (offExtra sym) (decodeOffset sym) v := by
  have hextra : (offRes sym).toNat / 2 ^ 16 = offExtra sym := by
    obtain ⟨hres, hbase⟩ := offRes_toNat hsym
    rw [hres]
    omega
  rw [fetchOffset, hl, Res.bind_ok, entryResult_directEntry _ hlen, offsetSymbol_offRes hsym, entryDextra_directEntry _ hlen, hextra]
  rfl

/-! ## The static tables -/

/-- In a table BUILD wrote for a complete code without subtables, a codeword finds its symbol's entry (41_huffman_tables.md R157). -/
theorem lookup_built {lens : List Nat} {k : Code} {c : Fin 32} {s : State} {t : Table} {sym : Nat} (hc : CompleteCode lens k.maxLen)
    (htable : s.table k = buildTable k.result (tableBits s.cfg k) k.maxLen lens t) (hshort : ∀ l ∈ lens, l ≤ tableBits s.cfg k)
    (hroom : 2 ^ tableBits s.cfg k ≤ t.length) (hsym : sym < k.maxSyms) (hused : lens.getD sym 0 ≠ 0) (hlen : lens.getD sym 0 < 256)
    (hd : s.delivers c (lens.getD sym 0) (revCode lens sym)) :
    lookup k c s = .ok (directEntry (k.result sym) (lens.getD sym 0)) (setLane c ((s.lane c).drop (lens.getD sym 0)) s) := by
  have hanswers := buildTable_answers (res := k.result) hc (by rwa [codeExtent_of_short hshort]) hused
  rw [← htable] at hanswers
  exact lookup_direct hanswers hlen hsym (getD_le hshort sym) hd

theorem staticLitlenLen_bounds (sym : Nat) : 7 ≤ staticLitlenLen sym ∧ staticLitlenLen sym ≤ 9 := by
  unfold staticLitlenLen
  split_ifs <;> omega

/-- A static litlen codeword finds its symbol's entry (30_encoding.md R88; 41_huffman_tables.md R157). -/
theorem lookup_staticLitlen {s : State} {c : Fin 32} {sym : Nat} (htb : s.cfg.litlenTableBits = 10)
    (htable : s.lt = buildTable llRes 10 15 staticLitlenLens (List.replicate 1334 none)) (hsym : sym < 288)
    (hd : s.delivers c (staticLitlenLen sym) (revBits (staticLitlenLen sym) (staticLitlenCode sym))) :
    lookup .litlen c s =
      .ok (directEntry (llRes sym) (staticLitlenLen sym)) (setLane c ((s.lane c).drop (staticLitlenLen sym)) s) := by
  have htb' : tableBits s.cfg .litlen = 10 := htb
  have hbounds := staticLitlenLen_bounds sym
  have hshort : ∀ l ∈ staticLitlenLens, l ≤ 10 := by
    simp only [staticLitlenLens, List.mem_append, List.mem_replicate]
    omega
  rw [← staticLitlenLens_getD hsym] at hbounds hd ⊢
  rw [← canonicalCode_staticLitlen hsym] at hd
  refine lookup_built (k := .litlen) (t := List.replicate 1334 none) staticLitlen_complete ?_ ?_ ?_ hsym (by omega) (by omega) hd
  · rw [htb']
    exact htable
  · rwa [htb']
  · rw [htb', List.length_replicate]
    decide

/-- A static offset codeword finds its symbol's entry (30_encoding.md R88; 41_huffman_tables.md R157). -/
theorem lookup_staticOffset {s : State} {c : Fin 32} {sym : Nat} (htb : s.cfg.offsetTableBits = 8)
    (htable : s.ot = buildTable offRes 8 15 staticOffsetLens (List.replicate 402 none)) (hsym : sym < 32)
    (hd : s.delivers c 5 (revBits 5 sym)) :
    lookup .offset c s = .ok (directEntry (offRes sym) 5) (setLane c ((s.lane c).drop 5) s) := by
  have htb' : tableBits s.cfg .offset = 8 := htb
  have hlen := staticOffsetLens_getD hsym
  have hshort : ∀ l ∈ staticOffsetLens, l ≤ 8 := by
    simp only [staticOffsetLens, List.mem_replicate]
    omega
  have hrev : revBits 5 sym = revCode staticOffsetLens sym := by rw [revCode, hlen, canonicalCode_staticOffset hsym]
  have hlookup := lookup_built (k := .offset) (c := c) (s := s) (sym := sym) (t := List.replicate 402 none) staticOffset_complete
    (by rw [htb']; exact htable) (by rwa [htb']) (by rw [htb', List.length_replicate]; decide) hsym (by omega) (by omega)
    (by rwa [hlen, ← hrev])
  rwa [hlen] at hlookup

/-- Settles O7: the extra bits after any lookup, and with the static table the lookup that a static codeword makes. -/
theorem staticLitlenFetch : Obligations.StaticLitlenFetch := by
  refine ⟨fun s v c sym len horder hsym hlen hl => ?_, fun s c i hi horder htb htable => ?_⟩
  · dsimp only
    rw [fetchLitlen_of_lookup horder hsym hlen hl]
    refine ⟨fun hleft => ?_, takeExtra_raised⟩
    obtain ⟨i, hdec⟩ := decodeLitlen_total (x := (v.lane c).buf.toNat % 2 ^ lenExtra sym) (fetchedSym_lt (sym := sym))
      (by rw [lenExtra_fetchedSym hsym]; exact Nat.mod_lt _ (Nat.two_pow_pos _))
    refine ⟨i, ?_, takeExtra_ok ((lookup_fieldBits hl).trans horder) hleft hdec⟩
    rw [Nat.mul_comm]
    exact (decode_llsym_symWord (fetchedSym_lt.trans (by decide)) _).trans hdec
  · dsimp only
    intro hd
    obtain ⟨hdec, hsym⟩ := decodeLitlen_of_format hi
    obtain ⟨hcode, hleft, hextra⟩ := delivers_parts (revBits_lt _ _) hd
    have hl := lookup_staticLitlen htb htable hsym hcode
    have hbounds := staticLitlenLen_bounds (encode i % 2 ^ 9)
    rw [fetchLitlen_of_lookup horder hsym (by omega) hl,
      takeExtra_setLane horder hleft hextra (decodeLitlen_fetchedSym hdec), Lane.drop_drop]

/-- Settles O8: the extra bits after any lookup, and with the static table the lookup that a static codeword makes. -/
theorem staticOffsetFetch : Obligations.StaticOffsetFetch := by
  refine ⟨fun s v c sym len horder hsym hlen hl => ?_, fun s c i hi horder htb htable => ?_⟩
  · dsimp only
    rw [fetchOffset_of_lookup hsym hlen hl]
    refine ⟨fun hleft => ?_, takeExtra_raised⟩
    obtain ⟨i, hdec⟩ := decodeOffset_total (x := (v.lane c).buf.toNat % 2 ^ offExtra sym) hsym (Nat.mod_lt _ (Nat.two_pow_pos _))
    refine ⟨i, ?_, takeExtra_ok ((lookup_fieldBits hl).trans horder) hleft hdec⟩
    rw [Nat.mul_comm]
    exact (decode_offsym_symWord hsym _).trans hdec
  · dsimp only
    intro hd
    have hsym : encode i % 2 ^ 5 < 32 := Nat.mod_lt _ (by decide)
    have hdec : decodeOffset (encode i % 2 ^ 5) (encode i / 2 ^ 5) = .ok i := decode_encode_offsym hi
    obtain ⟨hcode, hleft, hextra⟩ := delivers_parts (revBits_lt _ _) hd
    have hl := lookup_staticOffset htb htable hsym hcode
    rw [fetchOffset_of_lookup hsym (by decide) hl, takeExtra_setLane horder hleft hextra hdec, Lane.drop_drop]

end Sys2Proof.Machine
end

section
/-! PROOFS. REFILL (40_lane_demux.md R124), and PRIME, which deals the first 32 words (R126). -/

namespace Sys2Proof.Machine

/-! ## The lanes after a word was fetched -/

/-- A fetched word goes to its lane alone. -/
theorem withNextWord_lane (c d : Fin 32) (s : State) :
    (s.withNextWord c).lane d =
      if c = d then
        { s.lane c with
          buf := (s.lane c).buf ||| ((s.asDelivered (inputWord s).1).setWidth 64 <<< (s.lane c).left), left := (s.lane c).left + 32 }
      else s.lane d :=
  setLane_lane c d _ s

/-- A fetch adds 32 bits to its lane. -/
theorem withNextWord_left (c : Fin 32) (s : State) : ((s.withNextWord c).lane c).left = (s.lane c).left + 32 := by
  rw [withNextWord_lane, if_pos rfl]

/-- An empty lane holds the fetched word alone. -/
theorem withNextWord_lane_empty {c : Fin 32} {s : State} (h : s.lane c = {}) :
    (s.withNextWord c).lane c = { buf := (s.asDelivered (inputWord s).1).setWidth 64, left := 32 } := by
  rw [withNextWord_lane, if_pos rfl, h]
  simp

/-- Settles O33: with 32 bits nothing, past the tile the error, and else the word of `inputWord` above the lane's bits. -/
theorem refillFetches : Obligations.RefillFetches := by
  intro s c
  refine ⟨fun hfull => if_pos hfull, fun hlow hpolicy hpast => ?_, fun hlow hr => ?_, fun horder => asDelivered_lsbFirst horder⟩
  · refine refill_overread ?_
    rintro (hfull | hdraw | hin)
    · omega
    · rw [hdraw] at hpolicy; cases hpolicy
    · omega
  · have hleft := withNextWord_left c s
    refine ⟨s.withNextWord c, (refill_fetches hr hlow).trans (by rw [fetchWord_eq]), rfl, by omega, by omega, inputWord_overread s,
      fun hdef => ?_⟩
    simp only [State.withNextWord, inputWord_defined hdef, and_self]

/-! ## Dealing words to empty lanes -/

/-- The lane that ADVANCE refills with the cursor at `k`, which PRIME deals word `k` to (40_lane_demux.md R125, R126). -/
def State.dealtLane (s : State) (k : Fin 32) : Fin 32 := { s with cur := k }.refillLane

/-- Different words are dealt to different lanes. -/
theorem dealtLane_inj {s : State} {j k : Fin 32} : s.dealtLane j = s.dealtLane k ↔ j = k := by
  unfold State.dealtLane State.refillLane
  cases s.cfg.advanceOrder with
  | refillThenMove => exact Iff.rfl
  | moveThenRefill => exact add_left_inj 1

/-- Lane `l` holds word `k` of the input of `s`, as it delivers it, and no deferred copy. -/
def HoldsWord (s : State) (k : Nat) (l : Lane) : Prop :=
  l.left = 32 ∧ l.plen = 0 ∧ l.pdst = 0 ∧ (WordDefined s k → l.buf = (s.asDelivered (s.wordAt k)).setWidth 64)

/-- `t` is `s` after its first `n` words were dealt: each lane they went to holds its word, and the other lanes are empty. -/
structure Dealt (s : State) (n : Nat) (t : State) : Prop where
  frame : t = { s with
    lanes := t.lanes, cur := Fin.ofNat 32 n, inPos := n, trace := t.trace, draws := t.draws, overread := t.overread }
  holds : ∀ k : Fin 32, k.val < n → HoldsWord s k.val (t.lane (s.dealtLane k))
  empty : ∀ k : Fin 32, n ≤ k.val → t.lane (s.dealtLane k) = {}
  trace : t.trace = (((List.finRange 32).take n).map fun k => Event.fetch k.val (s.dealtLane k)).reverse ++ s.trace

/-- Before PRIME no word is dealt (40_lane_demux.md R126). -/
theorem Dealt.start {s : State} (hlanes : s.lanes = Vector.replicate 32 {}) (hcur : s.cur = 0) (hpos : s.inPos = 0) : Dealt s 0 s where
  frame := by rw [show Fin.ofNat 32 0 = s.cur from hcur.symm, ← hpos]
  holds k hk := absurd hk (Nat.not_lt_zero _)
  empty k _ := by simp [State.lane, hlanes]
  trace := rfl

/-- The next word's lane is empty. -/
theorem Dealt.next_empty {s t : State} {n : Nat} (h : Dealt s n t) (hn : n < 32) : t.lane (s.dealtLane ⟨n, hn⟩) = {} :=
  h.empty ⟨n, hn⟩ le_rfl

/-- The next ADVANCE refills the next word's lane. -/
theorem Dealt.refillLane {s t : State} {n : Nat} (h : Dealt s n t) (hn : n < 32) : t.refillLane = s.dealtLane ⟨n, hn⟩ := by
  have hcur : Fin.ofNat 32 n = ⟨n, hn⟩ := Fin.ext (Nat.mod_eq_of_lt hn)
  rw [h.frame, hcur]
  rfl

/-- The next ADVANCE can be done exactly where the next word can be fetched. -/
theorem Dealt.canAdvance_iff {s t : State} {n : Nat} (h : Dealt s n t) (hn : n < 32) :
    CanAdvance t ↔ s.cfg.overreadPolicy = .draw ∨ 4 * n + 4 ≤ s.inLen.toNat := by
  have hfetch : Refillable t ↔ s.cfg.overreadPolicy = .draw ∨ 4 * n + 4 ≤ s.inLen.toNat := by
    rw [h.frame]
    rfl
  rw [CanAdvance, CanRefill, h.refillLane hn, h.next_empty hn, hfetch]
  simp

/-- The word the next ADVANCE fetches is the next word of the input. -/
theorem Dealt.next_holds {s t : State} {n : Nat} (h : Dealt s n t) :
    HoldsWord s n { buf := (t.asDelivered (inputWord t).1).setWidth 64, left := 32 } := by
  refine ⟨rfl, rfl, rfl, fun hdef => ?_⟩
  have hdef' : WordDefined t t.inPos := by
    rw [h.frame]
    exact hdef
  rw [inputWord_defined hdef', h.frame]
  rfl

/-- An ADVANCE fetches a word for the next word's lane and moves the cursor. -/
theorem Dealt.advanced_eq {s t u : State} {n : Nat} (h : Dealt s n t) (hn : n < 32) (ha : Advanced t u) :
    u = { t.withNextWord (s.dealtLane ⟨n, hn⟩) with cur := t.cur + 1 } := by
  rw [Advanced, h.refillLane hn, h.next_empty hn, if_neg (by decide)] at ha
  exact ha

/-- An ADVANCE deals the next word. -/
theorem Dealt.advanced {s t u : State} {n : Nat} (h : Dealt s n t) (hn : n < 32) (ha : Advanced t u) : Dealt s (n + 1) u := by
  have hu := h.advanced_eq hn ha
  have hlanes : ∀ d, u.lane d = (t.withNextWord (s.dealtLane ⟨n, hn⟩)).lane d := fun d => by rw [hu]; rfl
  refine ⟨?_, fun k hk => ?_, fun k hk => ?_, ?_⟩
  · have hcur : Fin.ofNat 32 n + 1 = Fin.ofNat 32 (n + 1) := Fin.ext (by simp [Fin.val_add])
    rw [hu, ← hcur, h.frame]
    rfl
  · rw [hlanes]
    by_cases hkn : k = ⟨n, hn⟩
    · rw [hkn, withNextWord_lane_empty (h.next_empty hn)]
      exact h.next_holds
    · rw [withNextWord_lane, if_neg fun e => hkn (dealtLane_inj.mp e).symm]
      exact h.holds k (by simp only [Fin.ext_iff] at hkn; omega)
  · have hkn : (⟨n, hn⟩ : Fin 32) ≠ k := by simp only [ne_eq, Fin.ext_iff]; omega
    rw [hlanes, withNextWord_lane, if_neg fun e => hkn (dealtLane_inj.mp e)]
    exact h.empty k (by omega)
  · have htrace : u.trace = Event.fetch n (s.dealtLane ⟨n, hn⟩) :: t.trace := by
      rw [hu, h.frame]
      rfl
    rw [htrace, h.trace, List.take_succ_eq_append_getElem (by simpa using hn)]
    simp

/-! ## PRIME -/

/-- With every word to come fetchable, the ADVANCEs deal them all. -/
theorem Dealt.advances_ok {s t : State} {n m : Nat} (h : Dealt s n t) (hm : n + m ≤ 32)
    (hfetch : s.cfg.overreadPolicy = .draw ∨ 4 * (n + m) ≤ s.inLen.toNat) : ∃ u, advances m t = .ok () u ∧ Dealt s (n + m) u := by
  induction m generalizing n t with
  | zero => exact ⟨t, rfl, h⟩
  | succ m ih =>
    obtain ⟨v, hv, ha⟩ := advance_advanced ((h.canAdvance_iff (by omega)).mpr (hfetch.imp_right fun _ => by omega))
    have hnext := ih (h.advanced (by omega) ha) (by omega)
    rw [Nat.succ_add_eq_add_succ] at hnext
    rw [advances, hv]
    exact hnext hfetch

/-- Under the FAULT policy, with the input's end among the words to come, one of the ADVANCEs raises INPUT_OVERREAD. -/
theorem Dealt.advances_raised {s t : State} {n m : Nat} (h : Dealt s n t) (hm : n + m ≤ 32) (hpolicy : s.cfg.overreadPolicy = .fault)
    (hin : 4 * n ≤ s.inLen.toNat) (hpast : s.inLen.toNat < 4 * (n + m)) :
    ∃ u, advances m t = .raised (errorEntry .inputOverread 0#4 u) ∧ u.mem = s.mem := by
  induction m generalizing n t with
  | zero => omega
  | succ m ih =>
    have hcan : CanAdvance t ↔ 4 * n + 4 ≤ s.inLen.toNat := by simpa [hpolicy] using h.canAdvance_iff (by omega)
    by_cases hword : 4 * n + 4 ≤ s.inLen.toNat
    · obtain ⟨v, hv, ha⟩ := advance_advanced (hcan.mpr hword)
      rw [advances, hv]
      exact ih (h.advanced (by omega) ha) (by omega) (by omega) (by omega)
    · refine ⟨{ t with cur := t.refillLane }, ?_, by rw [h.frame]⟩
      rw [advances, advance_overread (mt hcan.mp hword)]
      rfl

/-- The engine's step in PRIME. -/
theorem step_prime {s : State} (hin : s.inputs = []) (hs : s.state = .prime) : step s = (opPrime s).outcome := by
  rw [step_engine hin, engineStep, operation, hs]

/-- Settles O35: 32 ADVANCEs deal a word each (`Dealt.advances_ok`), or one raises (`Dealt.advances_raised`). -/
theorem primeDealsWords : Obligations.PrimeDealsWords := by
  intro s hin hs hlanes hcur hpos
  have hstart := Dealt.start hlanes hcur hpos
  rw [step_prime hin hs, opPrime]
  refine ⟨fun hfetch => ?_, fun hpolicy hshort => ?_⟩
  · obtain ⟨u, hu, hdealt⟩ := hstart.advances_ok (m := 32) le_rfl hfetch
    refine ⟨{ u with state := .header }, by rw [hu]; rfl, ?_, fun k => hdealt.holds k (by omega), hdealt.trace⟩
    have hzero : Fin.ofNat 32 (0 + 32) = s.cur := hcur.symm
    rw [hdealt.frame, hzero]
  · obtain ⟨u, hu, hmem⟩ := hstart.advances_raised (m := 32) le_rfl hpolicy (Nat.zero_le _) hshort
    exact ⟨errorEntry .inputOverread 0#4 u, by rw [hu]; rfl, rfl, rfl, rfl, hmem⟩

end Sys2Proof.Machine
end

section
/-! PROOFS. The fields of table entries (30_encoding.md R94, R95, R97; 41_huffman_tables.md R155): what a direct entry gives back of a
symbol's decode result, code by code. -/

namespace Sys2Proof.Machine

/-! ## The base fields of a direct entry -/

theorem entryLbase_directEntry (res : BitVec 24) {len : Nat} (h : len < 256) :
    entryLbase (directEntry res len) = res.toNat / 2 ^ 8 % 2 ^ 9 := by
  rw [entryLbase, BitVec.extractLsb'_toNat, directEntry_toNat res h, Nat.shiftRight_eq_div_pow]
  omega

theorem entryDbase_directEntry (res : BitVec 24) {len : Nat} (h : len < 256) :
    entryDbase (directEntry res len) = res.toNat % 2 ^ 16 := by
  rw [entryDbase, BitVec.extractLsb'_toNat, directEntry_toNat res h, Nat.shiftRight_eq_div_pow]
  omega

/-- An entry of a symbol of any code is no pointer. -/
theorem entrySub_result {c : Code} {sym len : Nat} (hsym : sym < c.maxSyms) (hlen : len < 256) :
    entrySub (directEntry (c.result sym) len) = false :=
  entrySub_directEntry hlen (result_toNat_lt hsym)

/-! ## Precode and litlen symbols -/

theorem entryByte_preRes {sym len : Nat} (hsym : sym < 256) (hlen : len < 256) :
    (entryByte (directEntry (preRes sym) len)).toNat = sym := by
  rw [entryByte_directEntry _ hlen, preRes_toNat (by omega)]
  exact Nat.mod_eq_of_lt hsym

theorem entryLit_literal {sym len : Nat} (hsym : sym < 256) (hlen : len < 256) : entryLit (directEntry (llRes sym) len) = true := by
  rw [entryLit_directEntry _ hlen]
  apply getLsbD_of_toNat
  rw [llRes_toNat_literal hsym, Bool.toNat_true]
  omega

theorem entryByte_literal {sym len : Nat} (hsym : sym < 256) (hlen : len < 256) :
    (entryByte (directEntry (llRes sym) len)).toNat = sym := by
  rw [entryByte_directEntry _ hlen, llRes_toNat_literal hsym]
  omega

/-- Base lengths fit the nine bits of LBASE (30_encoding.md R96). -/
theorem lenBase_lt {sym : Nat} (hlow : 256 ≤ sym) (h : sym < 288) : lenBase sym < 2 ^ 9 := by
  have hall : ∀ n < 32, lenBase (n + 256) < 2 ^ 9 := by decide
  obtain ⟨n, rfl⟩ := Nat.exists_eq_add_of_le' hlow
  exact hall n (by omega)

section
variable {sym len : Nat} (hlow : 256 ≤ sym) (hsym : sym < 288) (hlen : len < 256)
include hlow hsym hlen

/-- A length's result ends below the literal flag: its base has nine bits and stands at bit 8. -/
theorem entryLit_length : entryLit (directEntry (llRes sym) len) = false := by
  have hbase := lenBase_lt hlow hsym
  have hextra := lenExtra_lt hlow hsym
  rw [entryLit_directEntry _ hlen]
  apply Nat.testBit_lt_two_pow
  rw [llRes_toNat_length hlow hsym]
  omega

theorem entryLbase_length : entryLbase (directEntry (llRes sym) len) = lenBase sym := by
  have hbase := lenBase_lt hlow hsym
  have hextra := lenExtra_lt hlow hsym
  rw [entryLbase_directEntry _ hlen, llRes_toNat_length hlow hsym]
  omega

theorem entryByte_length : (entryByte (directEntry (llRes sym) len)).toNat = lenExtra sym := by
  have hextra := lenExtra_lt hlow hsym
  rw [entryByte_directEntry _ hlen, llRes_toNat_length hlow hsym]
  omega

end

/-! ## Offset symbols -/

theorem entryDbase_offRes {sym len : Nat} (hsym : sym < 32) (hlen : len < 256) :
    entryDbase (directEntry (offRes sym) len) = offBase sym := by
  obtain ⟨hres, hbase⟩ := offRes_toNat hsym
  rw [entryDbase_directEntry _ hlen, hres]
  omega

theorem entryDextra_offRes {sym len : Nat} (hsym : sym < 32) (hlen : len < 256) :
    entryDextra (directEntry (offRes sym) len) = offExtra sym := by
  obtain ⟨hres, hbase⟩ := offRes_toNat hsym
  rw [entryDextra_directEntry _ hlen, hres]
  omega

/-- Settles O5: a direct entry is 2^8 times its result plus its length, and the parts of each result are narrower than their fields. -/
theorem entryFields : Obligations.EntryFields := by
  intro len hlen
  refine ⟨fun sym hsym => ?precode, fun sym hsym => ?literal, fun sym hsym hlow => ?length, fun sym hsym => ?offset,
    fun start hstart => ?pointer⟩
  case precode =>
    exact ⟨entrySub_result (c := .precode) hsym hlen, entryByte_preRes (by omega) hlen, entryLen_directEntry _ hlen⟩
  case literal =>
    exact ⟨entrySub_result (c := .litlen) (Nat.lt_of_lt_of_le hsym (by decide)) hlen, entryLit_literal hsym hlen,
      entryByte_literal hsym hlen, entryLen_directEntry _ hlen⟩
  case length =>
    exact ⟨entrySub_result (c := .litlen) hsym hlen, entryLit_length hlow hsym hlen, entryLbase_length hlow hsym hlen,
      entryByte_length hlow hsym hlen, entryLen_directEntry _ hlen⟩
  case offset =>
    exact ⟨entrySub_result (c := .offset) hsym hlen, entryDbase_offRes hsym hlen, entryDextra_offRes hsym hlen,
      entryLen_directEntry _ hlen⟩
  case pointer =>
    exact ⟨entrySub_pointerEntry hstart hlen, entryStart_pointerEntry hstart hlen, entryLen_pointerEntry hstart hlen⟩

end Sys2Proof.Machine
end

section
/-! PROOFS. The engine's turns (42_block_control.md R170): the element a turn reads, and how a header read takes its bits from lane 0 under
the rulings and PER_ELEMENT (40_lane_demux.md R127 to R129); the block header (R172 to R175) and the dynamic counts (R176). -/

namespace Sys2Proof.Machine

/-! ## The engine's turn -/

/-- An operation that reads one element runs it; PRELENS runs several (42_block_control.md R170). -/
theorem operation_eq_runElement {s : State} {f : Format} (h : nextFormat s = some f) (hf : f ≠ .prelen) :
    operation s = runElement f s := by
  unfold nextFormat at h
  unfold operation
  cases hs : s.state <;> simp only [hs] at h ⊢
  case header => cases h; rfl
  case dynTables =>
    cases hp : s.phase <;> simp only [hp] at h ⊢
    case counts | lens => cases h; rfl
    case prelens => cases h; exact absurd rfl hf
    case prebuild | build => cases h
  case decode =>
    cases hp : s.pending s.cur
    all_goals
      rw [hp] at h
      cases h
      rfl
  all_goals cases h

/-- A step with no input waiting that reads one element. -/
theorem step_eq_runElement {s : State} {f : Format} (hin : s.inputs = []) (h : nextFormat s = some f) (hf : f ≠ .prelen) :
    step s = (runElement f s).outcome := by
  rw [step_engine hin, engineStep, operation_eq_runElement h hf]

/-- An element that is fetched is the step's, on the state the fetch leaves. -/
theorem step_of_fetch {s s' : State} {f : Format} {i : Instr} (hin : s.inputs = []) (h : nextFormat s = some f) (hf : f ≠ .prelen)
    (hfetch : fetch f s = .ok i s') : step s = exec i s' := by
  rw [step_eq_runElement hin h hf, runElement_outcome hfetch]

/-- A fetch that raises ends the step. -/
theorem step_of_fetch_raised {s t : State} {f : Format} (hin : s.inputs = []) (h : nextFormat s = some f) (hf : f ≠ .prelen)
    (hfetch : fetch f s = .raised t) : step s = .next t := by
  rw [step_eq_runElement hin h hf, runElement, hfetch]
  rfl

/-- Settles O11: the turn runs the element of `nextFormat`. -/
theorem stepRunsFetchedElement : Obligations.StepRunsFetchedElement := fun _ _ _ _ => step_of_fetch

/-- Settles O14: these are the states with BUSY = 0. -/
theorem idleWaits : Obligations.IdleWaits := by
  intro s hin hs
  have hb : s.busy = false := by rcases hs with hs | hs | hs <;> rw [State.busy, hs]
  rw [step_engine hin, engineStep, operation_idle hb]
  rfl

/-! ## START -/

/-- START with BUSY = 0 (45_host.md R241). -/
theorem exec_ctrlStart_idle {s : State} (hb : s.busy = false) (ack irqEn : Bool) (rsv : BitVec 29) :
    exec (.ctrlStart ack irqEn rsv) s = (start (writeIrqEn irqEn s)).outcome := by
  rw [exec, execCtrlStart, hb]
  rfl

/-- A bound of at most one tile, with tables and windows the spec defines, starts the tile. -/
theorem start_accepted {s : State} (hbound : s.outBound.toNat ≤ 65536) (hc : configAdmissible s.cfg = true)
    (hw : s.windowOnDevice = false) : start s = .ok () (startTile s) := by
  rw [start, if_neg (Nat.not_lt.mpr hbound), hc, if_neg (by decide), hw, if_neg (by decide)]

/-- A bound above one tile is CONFIG_ERROR, whatever the tables and the windows are. -/
theorem start_configError {s : State} (hbound : 65536 < s.outBound.toNat) :
    start s = .raised (errorEntry .configError 0#4 (startTile s)) :=
  if_pos hbound

/-- Settles O16. -/
theorem startBeginsTile : Obligations.StartBeginsTile := by
  intro s ack irqEn rsv hb
  rw [exec_ctrlStart_idle hb]
  refine ⟨fun hbound hc hw => ?_, fun hbound => ?_⟩
  · rw [start_accepted (s := writeIrqEn irqEn s) hbound hc hw]
    rfl
  · rw [start_configError (s := writeIrqEn irqEn s) hbound]
    rfl

/-! ## Header reads -/

/-- A refill leaves the parameters and the latches of a dynamic header alone (40_lane_demux.md R124). -/
theorem refill_latches {c : Fin 32} {s u : State} (h : refill c s = .ok () u) :
    u.cfg = s.cfg ∧ u.staticLoaded = s.staticLoaded ∧ u.hlit = s.hlit ∧ u.hdist = s.hdist := by
  rw [(refill_ok h).1]
  exact ⟨rfl, rfl, rfl, rfl⟩

/-- A refilled lane holds at least 32 bits (40_lane_demux.md R124). -/
theorem refill_left {c : Fin 32} {s u : State} (h : refill c s = .ok () u) : 32 ≤ (u.lane c).left := by
  rcases refill_cases c s with ⟨hl, e⟩ | ⟨_, _, _, e⟩ | ⟨_, _, e⟩ <;> cases e.symm.trans h
  · exact hl
  · rw [fetchWord_eq, withNextWord_left]
    exact Nat.le_add_left _ _

theorem headerRefill_ruled {s : State} (hr : s.cfg.reading = .ruled) : headerRefill true s = refill 0 s := by
  rw [headerRefill_true, headerLane_ruled hr]

/-- A header read whose refill cannot be done raises INPUT_OVERREAD before any write. -/
theorem hpop_overread {s : State} (h : ¬ CanRefill 0 s) (hr : s.cfg.reading = .ruled) (n : Nat) :
    hpop true n s = .raised (errorEntry .inputOverread 0#4 s) := by
  rw [hpop, headerRefill_ruled hr, refill_overread h, Res.bind_raised]

/-- A read of header bits that are there. -/
theorem pop_ruled {n : Nat} {s : State} (hn : n ≤ (s.lane 0).left) (hr : s.cfg.reading = .ruled) :
    pop 0 n s = .ok ((s.lane 0).buf.toNat % 2 ^ n) (setLane 0 ((s.lane 0).drop n) s) := by
  rw [pop_ok hn, hr]
  rfl

/-- A header read takes the low bits of lane 0 after its refill. -/
theorem hpop_refilled {s u : State} (h : refill 0 s = .ok () u) (hr : s.cfg.reading = .ruled) {n : Nat} (hn : n ≤ 32) :
    hpop true n s = .ok ((u.lane 0).buf.toNat % 2 ^ n) (setLane 0 ((u.lane 0).drop n) u) := by
  have hu : u.cfg.reading = .ruled := by rw [(refill_ok h).1, hr]
  rw [hpop, headerRefill_ruled hr, h, Res.bind_ok, headerLane_ruled hu, pop_ruled (hn.trans (refill_left h)) hu]

/-- With the bits of a refill in lane 0, a header read takes its low bits under every schedule. -/
theorem hpop_buffered {s : State} (h : 32 ≤ (s.lane 0).left) (hr : s.cfg.reading = .ruled) (due : Bool) {n : Nat} (hn : n ≤ 32) :
    hpop due n s = .ok ((s.lane 0).buf.toNat % 2 ^ n) (setLane 0 ((s.lane 0).drop n) s) := by
  have hlane := headerLane_ruled hr
  rw [hpop_ok (by rwa [hlane]) hn, hlane, hr]
  rfl

/-- `r` begins with a read of `n` header bits in `s` and goes on as `k` says (40_lane_demux.md R128, R129): a refill of lane 0 that cannot
be done ends it with INPUT_OVERREAD, and else the bits are lane 0's low ones after the refill. -/
structure ReadsField (s : State) (n : Nat) (k : Nat → State → Res Instr) (r : Res Instr) : Prop where
  overread : ¬ CanRefill 0 s → r = .raised (errorEntry .inputOverread 0#4 s)
  refilled : ∀ u, refill 0 s = .ok () u → r = k ((u.lane 0).buf.toNat % 2 ^ n) (setLane 0 ((u.lane 0).drop n) u)

/-- A header read is one, under the rulings and with the schedule's refill. -/
theorem hpop_readsField {s : State} {due : Bool} {n : Nat} {k : Nat → State → Res Instr} (hr : s.cfg.reading = .ruled)
    (hdue : due = true) (hn : n ≤ 32) : ReadsField s n k ((hpop due n s).bind k) := by
  subst hdue
  exact ⟨fun h => by rw [hpop_overread h hr, Res.bind_raised], fun u hu => by rw [hpop_refilled hu hr hn, Res.bind_ok]⟩

/-- With the bits of a refill in lane 0 the schedule does not matter. -/
theorem hpop_bind_buffered {s : State} {l : Lane} (hleft : 32 ≤ l.left) (hr : s.cfg.reading = .ruled) (due : Bool) {n : Nat}
    (hn : n ≤ 32) (k : Nat → State → Res Instr) :
    (hpop due n (setLane 0 l s)).bind k = k (l.buf.toNat % 2 ^ n) (setLane 0 (l.drop n) s) := by
  have h := hpop_buffered (s := setLane 0 l s) (by rwa [setLane_lane_same]) hr due hn
  rw [setLane_lane_same, setLane_setLane] at h
  rw [h, Res.bind_ok]

/-! ## The block header -/

/-- Settles O20. -/
theorem bhdrElements : Obligations.BhdrElements := fun _ _ => ⟨rfl, rfl, rfl, rfl⟩

/-- A 3-bit header is its final bit below its block type (30_encoding.md R89). -/
theorem bhdrWord_div_mod (h : Nat) : bhdrWord (h / 2) (decide (h % 2 = 1)) = h := by
  unfold bhdrWord
  rcases Nat.mod_two_eq_zero_or_one h with e | e <;> rw [e] <;> simp <;> omega

/-- The block header's element is one field of three bits (42_block_control.md R172). -/
theorem fetchBhdr_readsField {s : State} (hr : s.cfg.reading = .ruled) (hs : s.cfg.headerRefills = .perElement) :
    ReadsField s 3 (fun h => decoded (decode .bhdr h)) (fetchBhdr s) :=
  hpop_readsField hr (by rw [hs]; rfl) (by decide)

/-- Settles O21: the header is read after the refill, and its element is the one of its block type (`bhdrElements`). -/
theorem blockHeaderStep : Obligations.BlockHeaderStep := by
  intro s hin hstate hr hs
  have hnext : nextFormat s = some .bhdr := by rw [nextFormat, hstate]
  obtain ⟨hover, hread⟩ := fetchBhdr_readsField hr hs
  refine ⟨fun hcan => step_of_fetch_raised hin hnext (by decide) (hover hcan), fun hcan => ?_⟩
  obtain ⟨u, hu⟩ := hcan.refill_ok
  obtain ⟨hstored, hstatic, hdynamic, hreserved⟩ :=
    bhdrElements (setLane 0 ((u.lane 0).drop 3) u) (decide ((u.lane 0).buf.toNat % 8 % 2 = 1))
  have hstep : ∀ {btype : Nat} {i : Instr}, (u.lane 0).buf.toNat % 8 / 2 = btype →
      decode .bhdr (bhdrWord btype (decide ((u.lane 0).buf.toNat % 8 % 2 = 1))) = .ok i →
      step s = exec i (setLane 0 ((u.lane 0).drop 3) u) := by
    intro btype i htype hdec
    rw [← htype, bhdrWord_div_mod] at hdec
    refine step_of_fetch hin hnext (by decide) ((hread u hu).trans ?_)
    exact congrArg (fun d => decoded d (setLane 0 ((u.lane 0).drop 3) u)) hdec
  refine ⟨u, hu, ?_⟩
  dsimp only
  refine ⟨by rw [(refill_ok hu).1], fun htype => ?stored, fun htype => ?static, fun htype => ?dynamic, fun htype => ?reserved⟩
  case stored => rw [hstep htype (decode_encode_bhdr (i := .bhdrStored _) rfl), hstored, htype]; rfl
  case static => rw [hstep htype (decode_encode_bhdr (i := .bhdrStatic _) rfl), hstatic, htype]; rfl
  case dynamic => rw [hstep htype (decode_encode_bhdr (i := .bhdrDynamic _) rfl), hdynamic, htype]; rfl
  case reserved => rw [hstep htype (decode_encode_bhdr (i := .bhdrReserved _) rfl), hreserved, htype]; rfl

/-! ## The dynamic counts -/

/-- The counts' element word, from its three fields (30_encoding.md R90). -/
theorem decode_dcounts (h d c : Nat) :
    decode .dcounts (h % 2 ^ 5 + d % 2 ^ 5 * 2 ^ 5 + c % 2 ^ 4 * 2 ^ 10) =
      .ok (.dcounts (h % 2 ^ 5 + 257) (d % 2 ^ 5 + 1) (c % 2 ^ 4 + 4)) := by
  have hw : (Instr.dcounts (h % 2 ^ 5 + 257) (d % 2 ^ 5 + 1) (c % 2 ^ 4 + 4)).wellFormed = true := by
    simp only [Instr.wellFormed, Bool.and_eq_true, decide_eq_true_eq]
    omega
  simpa only [encode, Nat.add_sub_cancel] using decode_encode_dcounts hw

/-- DYN_COUNTS once HLIT and HDIST are read (42_block_control.md R176). -/
def fetchHclen (h d : Nat) (s : State) : Res Instr :=
  (hpop s.cfg.headerRefills.hclen 4 { s with hdist := d + 1 }).bind fun c s =>
    decoded (decode .dcounts (h + d * 2 ^ 5 + c * 2 ^ 10)) s

/-- DYN_COUNTS once HLIT is read (42_block_control.md R176). -/
def fetchHdist (h : Nat) (s : State) : Res Instr :=
  (hpop s.cfg.headerRefills.hdist 5 { s with hlit := h + 257 }).bind (fetchHclen h)

section
variable {s : State} (hr : s.cfg.reading = .ruled) (hs : s.cfg.headerRefills = .perElement)
include hr hs

theorem fetchDcounts_readsField : ReadsField { s with staticLoaded := false } 5 fetchHdist (fetchDcounts s) :=
  hpop_readsField hr (by rw [hs]; rfl) (by decide)

theorem fetchHdist_readsField (h : Nat) : ReadsField { s with hlit := h + 257 } 5 (fetchHclen h) (fetchHdist h s) :=
  hpop_readsField hr (by rw [hs]; rfl) (by decide)

theorem fetchHclen_readsField (h d : Nat) :
    ReadsField { s with hdist := d + 1 } 4 (fun c => decoded (decode .dcounts (h + d * 2 ^ 5 + c * 2 ^ 10))) (fetchHclen h d s) :=
  hpop_readsField hr (by rw [hs]; rfl) (by decide)

end

section
variable {s : State} {l : Lane} (hleft : 32 ≤ l.left) (hr : s.cfg.reading = .ruled)
include hleft hr

theorem fetchDcounts_buffered :
    fetchDcounts (setLane 0 l s) = fetchHdist (l.buf.toNat % 2 ^ 5) (setLane 0 (l.drop 5) { s with staticLoaded := false }) :=
  hpop_bind_buffered (s := { s with staticLoaded := false }) hleft hr _ (by decide) _

theorem fetchHdist_buffered (h : Nat) :
    fetchHdist h (setLane 0 l s) = fetchHclen h (l.buf.toNat % 2 ^ 5) (setLane 0 (l.drop 5) { s with hlit := h + 257 }) :=
  hpop_bind_buffered (s := { s with hlit := h + 257 }) hleft hr _ (by decide) _

theorem fetchHclen_buffered (h d : Nat) :
    fetchHclen h d (setLane 0 l s) =
      decoded (decode .dcounts (h + d * 2 ^ 5 + l.buf.toNat % 2 ^ 4 * 2 ^ 10)) (setLane 0 (l.drop 4) { s with hdist := d + 1 }) :=
  hpop_bind_buffered (s := { s with hdist := d + 1 }) hleft hr _ (by decide) _

end

/-- With the bits of all three fields and of a refill after each in lane 0 (42_block_control.md R176; 40_lane_demux.md R128). -/
theorem fetchDcounts_allBuffered {s : State} {l : Lane} (hl : s.lane 0 = l) (hleft : 42 ≤ l.left) (hr : s.cfg.reading = .ruled) :
    fetchDcounts s =
      .ok (.dcounts (l.buf.toNat % 32 + 257) (l.buf.toNat / 32 % 32 + 1) (l.buf.toNat / 1024 % 16 + 4))
        (setLane 0 (l.drop 14)
          { s with staticLoaded := false, hlit := l.buf.toNat % 32 + 257, hdist := l.buf.toNat / 32 % 32 + 1 }) := by
  have hself : setLane 0 l s = s := hl ▸ setLane_self 0 s
  have hfetch := fetchDcounts_buffered (s := s) (l := l) (by omega) hr
  rw [fetchHdist_buffered (s := { s with staticLoaded := false }) (by rw [Lane.drop_left]; omega) hr, Lane.drop_drop,
    fetchHclen_buffered (s := { s with staticLoaded := false, hlit := l.buf.toNat % 2 ^ 5 + 257 }) (by rw [Lane.drop_left]; omega) hr,
    Lane.drop_drop, decode_dcounts, hself, Lane.drop_buf, Lane.drop_buf] at hfetch
  exact hfetch

/-- Settles O22: three fields one after another, or three reads of buffered bits. -/
theorem dynCounts : Obligations.DynCounts := by
  intro s
  have hnext : s.state = .dynTables → s.phase = .counts → nextFormat s = some .dcounts := fun hstate hphase => by
    rw [nextFormat, hstate, hphase]
  refine ⟨fun _ _ _ => rfl, fun hin hstate hphase hr hs => ?fields, fun hin hstate hphase hr hleft => ?buffered⟩
  all_goals have hnext := hnext hstate hphase
  case fields =>
    obtain ⟨hover1, hread1⟩ := fetchDcounts_readsField hr hs
    refine ⟨fun hcan => step_of_fetch_raised hin hnext (by decide) (hover1 hcan), fun u1 hu1 => ?_⟩
    obtain ⟨hcfg1, hstatic1, -, -⟩ := refill_latches hu1
    have hfetch1 := hread1 u1 hu1
    obtain ⟨hover2, hread2⟩ := fetchHdist_readsField (s := setLane 0 ((u1.lane 0).drop 5) u1) (hcfg1 ▸ hr) (hcfg1 ▸ hs)
      ((u1.lane 0).buf.toNat % 2 ^ 5)
    refine ⟨fun hcan => step_of_fetch_raised hin hnext (by decide) (hfetch1.trans (hover2 hcan)), fun u2 hu2 => ?_⟩
    obtain ⟨hcfg2, hstatic2, hhlit2, -⟩ := refill_latches hu2
    have hcfg2 := hcfg2.trans hcfg1
    have hfetch2 := hfetch1.trans (hread2 u2 hu2)
    obtain ⟨hover3, hread3⟩ := fetchHclen_readsField (s := setLane 0 ((u2.lane 0).drop 5) u2) (hcfg2 ▸ hr) (hcfg2 ▸ hs)
      ((u1.lane 0).buf.toNat % 2 ^ 5) ((u2.lane 0).buf.toNat % 2 ^ 5)
    refine ⟨fun hcan => step_of_fetch_raised hin hnext (by decide) (hfetch2.trans (hover3 hcan)), fun u3 hu3 => ?_⟩
    obtain ⟨-, hstatic3, hhlit3, hhdist3⟩ := refill_latches hu3
    have hfetch3 := hfetch2.trans (hread3 u3 hu3)
    rw [decode_dcounts] at hfetch3
    have hstatic : u3.staticLoaded = false := hstatic3.trans (hstatic2.trans hstatic1)
    have hhlit : u3.hlit = (u1.lane 0).buf.toNat % 2 ^ 5 + 257 := hhlit3.trans hhlit2
    have hhdist : u3.hdist = (u2.lane 0).buf.toNat % 2 ^ 5 + 1 := hhdist3
    rw [step_of_fetch hin hnext (by decide) hfetch3, exec, execDcounts, ← hhlit, ← hhdist, ← hstatic]
    rfl
  case buffered =>
    rw [step_of_fetch hin hnext (by decide) (fetchDcounts_allBuffered rfl hleft hr)]
    rfl

end Sys2Proof.Machine
end

section
/-! PROOFS. The dynamic header's precode (42_block_control.md R177 to R184): the bits of a precode length and of a precode element, the
precode lengths that PRELENS stores, and the codeword lengths that the precode elements write. -/

namespace Sys2Proof.Machine

/-! ## One precode length -/

/-- What a header read changes, under every schedule (40_lane_demux.md R129). -/
theorem hpop_frame {due : Bool} {n x : Nat} {s t : State} (h : hpop due n s = .ok x t) :
    t = { s with lanes := t.lanes, inPos := t.inPos, trace := t.trace, draws := t.draws, overread := t.overread } := by
  obtain ⟨_, u, hrefill, hpop⟩ := Res.bind_eq_ok.mp h
  obtain ⟨_, v, hconsume, hx⟩ := Res.bind_eq_ok.mp hpop
  obtain ⟨_, rfl⟩ := consume_ok hconsume
  cases hx
  cases due with
  | false => cases hrefill; rfl
  | true => rw [(refill_ok hrefill).1]; rfl

theorem decoded_eq_ok {d : Except Reject Instr} {s t : State} {i : Instr} : decoded d s = .ok i t ↔ d = .ok i ∧ s = t := by
  cases d with
  | ok j => simp [decoded]
  | error r => simp [decoded]

theorem decode_prelen (x : Nat) : decode .prelen (x % 2 ^ 3) = .ok (.prelen (BitVec.ofNat 3 (x % 2 ^ 3))) :=
  if_pos (Nat.mod_lt _ (Nat.two_pow_pos 3))

/-- Fetching a precode length takes bits and nothing else (42_block_control.md R177). -/
theorem fetchPrelen_ok {s t : State} {i : Instr} (h : fetchPrelen s = .ok i t) :
    (∃ len, i = .prelen len) ∧
      t = { s with lanes := t.lanes, inPos := t.inPos, trace := t.trace, draws := t.draws, overread := t.overread } := by
  have hformat := (fetch_reads (f := .prelen) h).format
  obtain ⟨x, u, hpop, hdecoded⟩ := Res.bind_eq_ok.mp h
  obtain ⟨-, rfl⟩ := decoded_eq_ok.mp hdecoded
  refine ⟨?_, hpop_frame hpop⟩
  cases i <;> cases hformat
  exact ⟨_, rfl⟩

/-- More precode lengths follow one that is not the last (42_block_control.md R177). -/
theorem putPrecodeLen_more {s : State} (h : s.pi + 1 < s.hclen) (len : BitVec 3) :
    putPrecodeLen len s = { s with precodeLens := s.precodeLens.set (permTable.getD s.pi 19) len, pi := s.pi + 1 } :=
  if_neg (Nat.not_le.mpr h)

/-- The last one zeroes the rest and moves to PREBUILD (42_block_control.md R177). -/
theorem putPrecodeLen_last {s : State} (h : s.hclen ≤ s.pi + 1) (len : BitVec 3) :
    putPrecodeLen len s =
      { s with
        precodeLens := zeroFillPrecode s.hclen (s.precodeLens.set (permTable.getD s.pi 19) len), pi := 19, phase := .prebuild } :=
  if_pos h

/-- A precode length that was fetched and run, and the index where the phase stays. -/
theorem prelen_run {s s' t : State} {i : Instr} (hf : fetch .prelen s = .ok i s') (he : exec i s' = .next t) :
    t.state = s.state ∧ t.inputs = s.inputs ∧ t.hclen = s.hclen ∧ (t.phase = .prelens → t.pi = s.pi + 1 ∧ t.pi < t.hclen) := by
  obtain ⟨⟨len, rfl⟩, hs'⟩ := fetchPrelen_ok hf
  have hpi : s'.pi = s.pi := by rw [hs']
  cases he
  by_cases hmore : s'.pi + 1 < s'.hclen
  · rw [putPrecodeLen_more hmore]
    exact ⟨by rw [hs'], by rw [hs'], by rw [hs'], fun _ => ⟨congrArg (· + 1) hpi, hmore⟩⟩
  · rw [putPrecodeLen_last (Nat.not_lt.mp hmore)]
    exact ⟨by rw [hs'], by rw [hs'], by rw [hs'], fun h => Phase.noConfusion h⟩

/-! ## PRELENS -/

/-- PRELENS needs no more turns than lengths are left: the last one leaves the phase (42_block_control.md R177). -/
theorem opPrelens_succ {n : Nat} {s : State} (h : s.hclen ≤ s.pi + (n + 1)) : opPrelens (n + 2) s = opPrelens (n + 1) s := by
  induction n generalizing s with
  | zero =>
    simp only [opPrelens]
    cases hrun : runElement .prelen s with
    | ok a u =>
      obtain ⟨i, s', hf, he, -⟩ := runElement_ok hrun
      obtain ⟨-, -, hclen, hstay⟩ := prelen_run hf he
      have hleft : u.phase ≠ .prelens := fun hp => by have := hstay hp; omega
      simp only [Res.bind_ok, if_neg hleft]
    | raised | fault | refused => rfl
  | succ n ih =>
    rw [opPrelens, opPrelens]
    cases hrun : runElement .prelen s with
    | ok a u =>
      obtain ⟨i, s', hf, he, -⟩ := runElement_ok hrun
      obtain ⟨-, -, hclen, hstay⟩ := prelen_run hf he
      rw [Res.bind_ok, Res.bind_ok]
      split
      · have := hstay (by assumption)
        exact ih (by omega)
      · rfl
    | raised | fault | refused => rfl

theorem step_prelens {s : State} (hin : s.inputs = []) (hs : s.state = .dynTables) (hp : s.phase = .prelens) :
    step s = (opPrelens 19 s).outcome := by
  rw [step_engine hin, engineStep, operation, hs, hp]

/-- Settles O13: the next step's turns, of which it needs one fewer (`opPrelens_succ`). -/
theorem prelensStep : Obligations.PrelensStep := by
  intro s s' t i hin hstate hphase hhclen hf he
  obtain ⟨htstate, htin, hclen, hstay⟩ := prelen_run hf he
  have hrun : runElement .prelen s = .ok () t := by
    rw [runElement, hf, Res.bind_ok, he, ofOutcome_next (by rw [htstate, hstate]; decide)]
  rw [step_prelens hin hstate hphase, opPrelens, hrun, Res.bind_ok]
  split
  · have := hstay (by assumption)
    rw [step_prelens (htin.trans hin) (htstate.trans hstate) (by assumption), opPrelens_succ (n := 17) (by omega)]
  · rfl

/-! ## The precode lengths stored -/

theorem permTable_lt {k : Nat} (h : k < 19) : permTable.getD k 19 < 19 := by
  have hall : ∀ k < 19, permTable.getD k 19 < 19 := by decide
  exact hall k h

theorem permTable_inj {j k : Nat} (hj : j < 19) (hk : k < 19) : permTable.getD j 19 = permTable.getD k 19 ↔ j = k := by
  have hall : ∀ j < 19, ∀ k < 19, permTable.getD j 19 = permTable.getD k 19 ↔ j = k := by decide
  exact hall j hj k hk

theorem mem_permTable_drop {n k : Nat} (hn : n ≤ 19) (hk : k < 19) : permTable.getD k 19 ∈ permTable.drop n ↔ n ≤ k := by
  have hall : ∀ n ≤ 19, ∀ k < 19, permTable.getD k 19 ∈ permTable.drop n ↔ n ≤ k := by decide
  exact hall n hn k hk

theorem getD_set_lt {α : Type} {l : List α} {k : Nat} (h : k < l.length) (j : Nat) (v d : α) :
    (l.set j v).getD k d = if j = k then v else l.getD k d := by
  rw [List.getD_eq_getElem?_getD, List.getElem?_set, List.getD_eq_getElem?_getD]
  split
  · subst j; simp [h]
  · rfl

/-- Zeroing the listed symbols. -/
theorem getD_foldl_set {syms : List Nat} {k : Nat} (l : List (BitVec 3)) (h : k < l.length) :
    (syms.foldl (fun l sym => l.set sym 0#3) l).getD k 0#3 = if k ∈ syms then 0#3 else l.getD k 0#3 := by
  induction syms generalizing l with
  | nil => rfl
  | cons sym syms ih =>
    rw [List.foldl_cons, ih _ (by rwa [List.length_set]), getD_set_lt h]
    by_cases hsym : sym = k
    · simp [hsym]
    · simp [hsym, Ne.symm hsym]

theorem getD_set_permTable {l : List (BitVec 3)} {j k : Nat} (hl : l.length = 19) (hj : j < 19) (hk : k < 19) (v : BitVec 3) :
    (l.set (permTable.getD j 19) v).getD (permTable.getD k 19) 0#3 = if j = k then v else l.getD (permTable.getD k 19) 0#3 := by
  rw [getD_set_lt (hl ▸ permTable_lt hk)]
  simp only [permTable_inj hj hk]

/-- The zero-fill zeroes the symbols PERM names from `n` on (42_block_control.md R177). -/
theorem zeroFillPrecode_getD {l : List (BitVec 3)} {n k : Nat} (hl : l.length = 19) (hn : n ≤ 19) (hk : k < 19) :
    (zeroFillPrecode n l).getD (permTable.getD k 19) 0#3 = if n ≤ k then 0#3 else l.getD (permTable.getD k 19) 0#3 := by
  rw [zeroFillPrecode, getD_foldl_set l (hl ▸ permTable_lt hk)]
  simp only [mem_permTable_drop hn hk]

/-- The lengths still to come, stored from index `pi` on in PERM's order, with the rest zeroed (42_block_control.md R177). -/
theorem execAll_prelens {len : BitVec 3} {lens : List (BitVec 3)} {s : State} (hsize : s.precodeLens.length = 19)
    (hclen : s.hclen = s.pi + (len :: lens).length) (hle : s.hclen ≤ 19) :
    ∃ t, execAll ((len :: lens).map fun l => .prelen l) s = .next t ∧
      t = { s with precodeLens := t.precodeLens, pi := 19, phase := .prebuild } ∧ t.precodeLens.length = 19 ∧
      ∀ k < 19, t.precodeLens.getD (permTable.getD k 19) 0#3 =
        if k < s.pi then s.precodeLens.getD (permTable.getD k 19) 0#3 else (len :: lens).getD (k - s.pi) 0#3 := by
  induction lens generalizing len s with
  | nil =>
    have hlast := putPrecodeLen_last (s := s) (Nat.le_of_eq hclen) len
    refine ⟨putPrecodeLen len s, rfl, by rw [hlast], by rw [putPrecodeLen_length, hsize], fun k hk => ?_⟩
    rw [List.length_singleton] at hclen
    rw [hlast, zeroFillPrecode_getD (by rw [List.length_set, hsize]) hle hk, getD_set_permTable hsize (by omega) hk, hclen]
    rcases Nat.lt_trichotomy k s.pi with hlt | rfl | hgt
    · rw [if_neg (by omega), if_neg (by omega), if_pos hlt]
    · simp
    · obtain ⟨m, rfl⟩ := Nat.exists_eq_add_of_lt hgt
      rw [if_pos (by omega), if_neg (by omega), Nat.add_assoc, Nat.add_sub_cancel_left]
      rfl
  | cons next lens ih =>
    rw [List.length_cons, List.length_cons] at hclen
    have hmore := putPrecodeLen_more (s := s) (by omega) len
    obtain ⟨t, hrun, hframe, hlen, hget⟩ := ih (len := next) (s := putPrecodeLen len s) (by rw [putPrecodeLen_length, hsize])
      (by rw [hmore, List.length_cons]; simp only; omega) (by rw [hmore]; exact hle)
    rw [hmore] at hframe hget
    refine ⟨t, hrun, hframe, hlen, fun k hk => ?_⟩
    rw [hget k hk, getD_set_permTable hsize (by omega) hk]
    rcases Nat.lt_trichotomy k s.pi with hlt | rfl | hgt
    · rw [if_pos (Nat.lt_succ_of_lt hlt), if_neg (by omega), if_pos hlt]
    · simp
    · obtain ⟨m, rfl⟩ := Nat.exists_eq_add_of_lt hgt
      rw [if_neg (by dsimp only; omega), if_neg (by omega), Nat.add_sub_add_right, Nat.add_assoc, Nat.add_sub_cancel_left,
        Nat.add_sub_cancel_left]
      rfl

/-- Settles O24. -/
theorem prelensFill : Obligations.PrelensFill := by
  intro s hsize
  refine ⟨fun len hmore => ?more, fun len hlast => ?last, fun lens hlow hhigh hclen hpi => ?all⟩
  case more => exact congrArg Host.Outcome.next (putPrecodeLen_more hmore len)
  case last => exact ⟨putPrecodeLen len s, rfl, by rw [putPrecodeLen_last hlast]⟩
  case all =>
    cases lens with
    | nil => exact absurd hlow (by decide)
    | cons len lens =>
      obtain ⟨t, hrun, hframe, hlen, hget⟩ := execAll_prelens hsize (by rw [hclen, hpi, Nat.zero_add]) (hclen ▸ hhigh)
      have hall : ∀ k < 19, t.precodeLens.getD (permTable.getD k 19) 0#3 = (len :: lens).getD k 0#3 := fun k hk => by
        rw [hget k hk, hpi, if_neg (Nat.not_lt_zero k), Nat.sub_zero]
      refine ⟨t, hrun, hframe, hlen, fun k hk => hall k (by omega), fun k hk hbeyond => ?_⟩
      rw [hall k hk, List.getD_eq_default _ _ hbeyond]

/-! ## The bits of the precode family -/

/-- Every precode symbol decodes with every value of its extra bits (30_encoding.md R92). -/
theorem decodePresym_total {sym x : Nat} (h : sym < 19) (hx : x < 2 ^ presymExtra sym) : ∃ i, decodePresym sym x = .ok i := by
  interval_cases sym <;> simp only [decodePresym, noExtra_eq_withExtra] <;> exact ⟨_, if_pos hx⟩

section
variable {s u v : State} (hr : s.cfg.reading = .ruled) (hs : s.cfg.headerRefills = .perElement)
include hr hs

/-- A precode length is one field of three bits (42_block_control.md R177). -/
theorem fetchPrelen_readsField : ReadsField s 3 (fun l => decoded (decode .prelen l)) (fetchPrelen s) :=
  hpop_readsField hr (by rw [hs]; rfl) (by decide)

theorem fetchPresym_overread (h : ¬ CanRefill 0 s) : fetchPresym s = .raised (errorEntry .inputOverread 0#4 s) := by
  rw [fetchPresym, hs, RefillSchedule.perElement, headerRefill_ruled hr, refill_overread h]
  rfl

/-- After the refill and the lookup of its entry, a precode symbol's extra bits are taken, but for a first 16 (42_block_control.md R179,
R181). -/
theorem fetchPresym_of_lookup {sym len : Nat} (hu : refill 0 s = .ok () u) (hsym : sym < 19) (hlen : len < 256)
    (hl : lookup .precode 0 u = .ok (directEntry (preRes sym) len) v) :
    fetchPresym s =
      if sym = 16 ∧ s.li = 0 then decoded (decodePresym sym 0) v else takeExtra 0 (presymExtra sym) (decodePresym sym) v := by
  have hcfg : u.cfg = s.cfg := (refill_latches hu).1
  have hli : v.li = s.li := by rw [(lookup_ok hl).1, (refill_ok hu).1]
  have hvcfg : v.cfg = s.cfg := by rw [(lookup_ok hl).1, hcfg]
  rw [fetchPresym, hs, RefillSchedule.perElement, headerRefill_ruled hr, hu, Res.bind_ok, headerLane_ruled (hcfg ▸ hr), hl, Res.bind_ok,
    entryByte_preRes (by omega) hlen, hli, hvcfg, hs]
  dsimp only
  have hextra : hpop (RefillSchedule.perElement.precodeExtra && presymExtra sym != 0) (presymExtra sym) v =
      pop 0 (presymExtra sym) v := by
    rw [hpop, RefillSchedule.perElement, Bool.false_and, headerRefill_false, Res.bind_ok, headerLane_ruled (hvcfg ▸ hr)]
  rw [hextra]
  rfl

end

/-- Settles O23. -/
theorem precodeFetches : Obligations.PrecodeFetches := by
  intro s hr hs
  obtain ⟨hover, hread⟩ := fetchPrelen_readsField hr hs
  refine ⟨fun hcan => ⟨hover hcan, fetchPresym_overread hr hs hcan⟩, fun u hu => ⟨?prelen, fun sym len v hsym hlen hl => ?presym⟩⟩
  case prelen =>
    have hbits : BitVec.ofNat 3 ((u.lane 0).buf.toNat % 2 ^ 3) = (u.lane 0).buf.extractLsb' 0 3 := by
      apply BitVec.eq_of_toNat_eq
      rw [BitVec.toNat_ofNat, BitVec.extractLsb'_toNat, Nat.mod_mod, Nat.shiftRight_zero]
    rw [hread u hu, decode_prelen, hbits]
    rfl
  case presym =>
    rw [fetchPresym_of_lookup hr hs hu hsym hlen hl]
    refine ⟨fun hsym hli => ?_, fun hfirst hleft => ?_⟩
    · rw [if_pos ⟨hsym, hli⟩, hsym]
      rfl
    · rw [if_neg hfirst]
      obtain ⟨i, hdec⟩ := decodePresym_total (x := (v.lane 0).buf.toNat % 2 ^ presymExtra sym) hsym (Nat.mod_lt _ (Nat.two_pow_pos _))
      have hv : v.cfg.reading.fieldBits = .lsbFirst := by rw [(lookup_ok hl).1, (refill_latches hu).1, hr]; rfl
      refine ⟨i, ?_, takeExtra_ok hv hleft hdec⟩
      rw [Nat.mul_comm]
      exact (decode_presym_symWord (by omega) _).trans hdec

/-! ## Runs of codeword lengths -/

/-- Settles O25: each of the sixteen writes one length. -/
theorem presymExplicit : Obligations.PresymExplicit := by
  intro s i v hv
  cases i
  case presymLen0 | presymLen1 | presymLen2 | presymLen3 | presymLen4 | presymLen5 | presymLen6 | presymLen7 | presymLen8 | presymLen9
      | presymLen10 | presymLen11 | presymLen12 | presymLen13 | presymLen14 | presymLen15 =>
    cases hv; rfl
  all_goals cases hv

/-- A run writes its value at `n` places from `li` on and ends the lengths at `hlit + hdist` (42_block_control.md R184). -/
theorem putLengths_run (v : BitVec 4) (n : Nat) (s : State) :
    putLengths v n s =
      { s with
        lens := (putLengths v n s).lens, li := s.li + n, phase := if s.hlit + s.hdist ≤ s.li + n then .build else s.phase } ∧
    (putLengths v n s).lens.length = s.lens.length ∧
    ∀ k, (putLengths v n s).lens.getD k 0#4 = if s.li ≤ k ∧ k < s.li + n ∧ k < s.lens.length then v else s.lens.getD k 0#4 :=
  ⟨rfl, setRun_length v s.li n s.lens, fun k => setRun_getD v 0#4 s.li n k s.lens⟩

/-- Past the array's end a length reads as zero, so a run of zeros needs no bound. -/
theorem putLengths_zeros (n : Nat) (s : State) (k : Nat) :
    (putLengths 0#4 n s).lens.getD k 0#4 = if s.li ≤ k ∧ k < s.li + n then 0#4 else s.lens.getD k 0#4 := by
  rw [(putLengths_run 0#4 n s).2.2 k]
  by_cases hk : k < s.lens.length
  · simp only [hk, and_true]
  · rw [if_neg (fun h => hk h.2.2), List.getD_eq_default _ _ (Nat.not_lt.mp hk), ite_self]

/-- Settles O26: the runs by `putLengths_run`, the zeros by `putLengths_zeros`. -/
theorem presymRepeats : Obligations.PresymRepeats := by
  refine ⟨fun s extra => ⟨fun hli => ?first, fun hli => ?copies⟩, fun s i n hi => ?zeros⟩
  case first => rw [exec, execPresymRep16, if_pos hli]; rfl
  case copies =>
    have hexec : exec (.presymRep16 extra) s = .next (putLengths (s.lens.getD (s.li - 1) 0#4) (3 + extra.toNat) s) := if_neg hli
    exact ⟨_, hexec, putLengths_run _ _ s⟩
  case zeros =>
    have hexec : exec i s = .next (putLengths 0#4 n s) := by
      rcases hi with ⟨extra, rfl, rfl⟩ | ⟨extra, rfl, rfl⟩ <;> rfl
    obtain ⟨hframe, hlen, -⟩ := putLengths_run 0#4 n s
    exact ⟨_, hexec, hframe, hlen, putLengths_zeros n s⟩

end Sys2Proof.Machine
end

section
/-! PROOFS. The operations that read no element of their own (42_block_control.md R178, R185 to R191): PREBUILD, DYN_BUILD, STATIC_TABLES
and the end of a block's drain; and that no element stops the machine (R170). -/

namespace Sys2Proof.Machine

/-! ## BUILD by the codespace of its lengths -/

section
variable {c : Code} {lens : List Nat} {s : State} (hle : ∀ l ∈ lens, l ≤ c.maxLen)
include hle

/-- Overfull lengths (41_huffman_tables.md R144). -/
theorem build_overfull (h : 2 ^ c.maxLen < kraftSum lens c.maxLen) :
    build c lens s = .raised (errorEntry .corruptHuffmanCode c.detail (sortScratch lens c.maxLen s)) := by
  rw [← codespaceUsed_eq_kraftSum hle] at h
  rcases build_cases c lens s with ⟨_, e⟩ | ⟨h', _⟩ | ⟨h', _⟩
  · exact e
  · omega
  · omega

/-- Incomplete lengths (41_huffman_tables.md R145). -/
theorem build_incomplete (h : kraftSum lens c.maxLen < 2 ^ c.maxLen) :
    build c lens s = .raised (errorEntry .unsupportedFeature c.detail (sortScratch lens c.maxLen s)) := by
  rw [← codespaceUsed_eq_kraftSum hle] at h
  rcases build_cases c lens s with ⟨h', _⟩ | ⟨_, e⟩ | ⟨h', _⟩
  · omega
  · exact e
  · omega

end

/-- A complete precode's build, field by field. -/
theorem build_precode_complete {lens : List Nat} {s : State} (h : codespaceUsed lens 7 = 2 ^ 7) :
    build .precode lens s =
      .ok () { s with
        sortedSyms := (sortScratch lens 7 s).sortedSyms
        pt := buildTable preRes s.cfg.precodeTableBits 7 lens s.pt, trace := .build .precode :: s.trace } :=
  build_complete (c := .precode) h

theorem map_toNat_le {w m : Nat} (h : 2 ^ w = m + 1) (l : List (BitVec w)) : ∀ n ∈ l.map fun x => x.toNat, n ≤ m := by
  intro n hn
  obtain ⟨x, -, rfl⟩ := List.mem_map.mp hn
  have := x.isLt
  omega

theorem litlenLens_le (s : State) : ∀ l ∈ s.litlenLens, l ≤ 15 := map_toNat_le (by decide) _

theorem offsetLens_le (s : State) : ∀ l ∈ s.offsetLens, l ≤ 15 := map_toNat_le (by decide) _

/-! ## PREBUILD -/

/-- Settles O36. -/
theorem prebuildStep : Obligations.PrebuildStep := by
  intro s hin hstate hphase lens
  have hle : ∀ l ∈ lens, l ≤ 7 := map_toNat_le (by decide) _
  have hstep : step s = (opPrebuild s).outcome := by rw [step_engine hin, engineStep, operation, hstate, hphase]
  rw [hstep, opPrebuild]
  rcases Nat.lt_trichotomy (kraftSum lens 7) 128 with h | h | h
  · rw [build_incomplete (c := .precode) hle h]
    exact ⟨_, rfl, fun h' => absurd h' (by omega), fun _ => rfl, fun h' => absurd h' (by omega)⟩
  · rw [build_precode_complete ((codespaceUsed_eq_kraftSum hle).trans h)]
    exact ⟨_, rfl, fun h' => absurd h' (by omega), fun h' => absurd h' (by omega), fun _ => rfl⟩
  · rw [build_overfull (c := .precode) hle h]
    exact ⟨_, rfl, fun _ => rfl, fun h' => absurd h' (by omega), fun h' => absurd h' (by omega)⟩

/-! ## ENTER_DECODE -/

/-- ENTER_DECODE refills lane 0 and moves to DECODE, or ends in the refill's INPUT_OVERREAD (42_block_control.md R189). -/
theorem enterDecode_outcome {s : State} (hr : s.cfg.reading = .ruled) (hs : s.cfg.headerRefills = .perElement) :
    ∃ t, (enterDecode s).outcome = .next t ∧ t.sortedSyms = s.sortedSyms ∧
      (CanRefill 0 s → ∃ u, refill 0 s = .ok () u ∧ t = { u with state := .decode }) ∧
      (¬ CanRefill 0 s → t = errorEntry .inputOverread 0#4 s) := by
  rw [enterDecode, hs, RefillSchedule.perElement, headerRefill_ruled hr]
  by_cases hcan : CanRefill 0 s
  · obtain ⟨u, hu⟩ := hcan.refill_ok
    rw [hu]
    exact ⟨_, rfl, by rw [(refill_ok hu).1], fun _ => ⟨u, rfl, rfl⟩, fun h => absurd hcan h⟩
  · rw [refill_overread hcan]
    exact ⟨_, rfl, rfl, fun h => absurd h hcan, fun _ => rfl⟩

/-! ## DYN_BUILD -/

/-- The state a litlen build leaves, with the sort scratch `sorted` (41_huffman_tables.md R154). -/
def litlenBuilt (sorted : List (BitVec 9)) (s : State) : State :=
  { s with
    sortedSyms := sorted, lt := buildTable llRes s.cfg.litlenTableBits 15 s.litlenLens s.lt, trace := .build .litlen :: s.trace }

/-- DYN_BUILD from the litlen code on (42_block_control.md R185, R188, R189). -/
theorem buildLitlen_outcome {s : State} (hr : s.cfg.reading = .ruled) (hs : s.cfg.headerRefills = .perElement) :
    ∃ t, ((build .litlen s.litlenLens s).bind fun _ s => enterDecode s).outcome = .next t ∧
      (2 ^ 15 < kraftSum s.litlenLens 15 →
        t = { s with sortedSyms := t.sortedSyms, errCode := .corruptHuffmanCode, errDetail := 2#4, state := .error }) ∧
      (kraftSum s.litlenLens 15 < 2 ^ 15 →
        t = { s with sortedSyms := t.sortedSyms, errCode := .unsupportedFeature, errDetail := 2#4, state := .error }) ∧
      (kraftSum s.litlenLens 15 = 2 ^ 15 →
        (CanRefill 0 s → ∃ u, refill 0 (litlenBuilt t.sortedSyms s) = .ok () u ∧ t = { u with state := .decode }) ∧
        (¬ CanRefill 0 s → t = errorEntry .inputOverread 0#4 (litlenBuilt t.sortedSyms s))) := by
  have hle := litlenLens_le s
  rcases Nat.lt_trichotomy (kraftSum s.litlenLens 15) (2 ^ 15) with h | h | h
  · rw [build_incomplete (c := .litlen) hle h]
    exact ⟨_, rfl, fun h' => absurd h' (by omega), fun _ => rfl, fun h' => absurd h' (by omega)⟩
  · rw [build_litlen_complete ((codespaceUsed_eq_kraftSum hle).trans h), Res.bind_ok]
    obtain ⟨t, hrun, hsorted, henter⟩ := enterDecode_outcome (s := litlenBuilt (sortScratch s.litlenLens 15 s).sortedSyms s) hr hs
    have hsorted : t.sortedSyms = (sortScratch s.litlenLens 15 s).sortedSyms := hsorted
    refine ⟨t, hrun, fun h' => absurd h' (by omega), fun h' => absurd h' (by omega), fun _ => ?_⟩
    rw [hsorted]
    exact henter
  · rw [build_overfull (c := .litlen) hle h]
    exact ⟨_, rfl, fun _ => rfl, fun h' => absurd h' (by omega), fun h' => absurd h' (by omega)⟩

/-- Settles O37: the offset code's three cases, the last of which goes on with the litlen code (`buildLitlen_outcome`). -/
theorem dynBuildStep : Obligations.DynBuildStep := by
  intro s hin hstate hphase hr hs
  have hle := offsetLens_le s
  have hstep : step s = (opDynBuild s).outcome := by rw [step_engine hin, engineStep, operation, hstate, hphase]
  rw [hstep, opDynBuild]
  dsimp only
  rcases Nat.lt_trichotomy (kraftSum s.offsetLens 15) (2 ^ 15) with h | h | h
  · rw [build_incomplete (c := .offset) hle h]
    exact ⟨_, rfl, fun h' => absurd h' (by omega), fun _ => rfl, fun h' => absurd h' (by omega), fun h' => absurd h' (by omega),
      fun h' => absurd h' (by omega)⟩
  · rw [build_offset_complete ((codespaceUsed_eq_kraftSum hle).trans h), Res.bind_ok]
    obtain ⟨t, hrun, hover, hshort, hfull⟩ := buildLitlen_outcome (s := { s with
      sortedSyms := (sortScratch s.offsetLens 15 s).sortedSyms, ot := buildTable offRes s.cfg.offsetTableBits 15 s.offsetLens s.ot
      trace := .build .offset :: s.trace }) hr hs
    exact ⟨t, hrun, fun h' => absurd h' (by omega), fun h' => absurd h' (by omega), fun _ => hover, fun _ => hshort, fun _ => hfull⟩
  · rw [build_overfull (c := .offset) hle h]
    exact ⟨_, rfl, fun _ => rfl, fun h' => absurd h' (by omega), fun h' => absurd h' (by omega), fun h' => absurd h' (by omega),
      fun h' => absurd h' (by omega)⟩

/-! ## STATIC_TABLES -/

/-- The state the static install leaves, with the sort scratch `sorted` (42_block_control.md R186, R187). -/
def staticBuilt (sorted : List (BitVec 9)) (s : State) : State :=
  { s with
    sortedSyms := sorted, staticLoaded := true
    ot := buildTable offRes s.cfg.offsetTableBits 15 staticOffsetLens s.ot
    lt := buildTable llRes s.cfg.litlenTableBits 15 staticLitlenLens s.lt
    trace := .build .litlen :: .build .offset :: s.trace }

/-- The static codes are complete, so the install builds both tables (42_block_control.md R186, R187). -/
theorem installStatic_ok (s : State) : ∃ sorted, installStatic s = .ok () (staticBuilt sorted s) := by
  have hoffset := (codespaceUsed_eq_kraftSum staticOffset_complete.le).trans staticOffset_complete.full
  have hlitlen := (codespaceUsed_eq_kraftSum staticLitlen_complete.le).trans staticLitlen_complete.full
  rw [installStatic, build_offset_complete hoffset, Res.bind_ok, build_litlen_complete hlitlen, Res.bind_ok]
  unfold staticBuilt
  generalize staticOffsetLens = offset, staticLitlenLens = litlen
  exact ⟨_, rfl⟩

/-- Settles O38: ENTER_DECODE on the state as it is, or after the install. -/
theorem staticTablesStep : Obligations.StaticTablesStep := by
  intro s hin hstate hr hs
  have hstep : step s = (opStaticTables s).outcome := by rw [step_engine hin, engineStep, operation, hstate]
  rw [hstep, opStaticTables]
  cases hloaded : s.staticLoaded with
  | true =>
    obtain ⟨t, hrun, -, henter⟩ := enterDecode_outcome hr hs
    exact ⟨t, hrun, henter⟩
  | false =>
    obtain ⟨sorted, hinstall⟩ := installStatic_ok s
    obtain ⟨t, hrun, hsorted, henter⟩ := enterDecode_outcome (s := staticBuilt sorted s) hr hs
    have hsorted : t.sortedSyms = sorted := hsorted
    rw [hinstall, Res.bind_ok]
    refine ⟨t, hrun, ?_⟩
    rw [hsorted]
    exact henter

/-! ## A drain with nothing pending -/

/-- ADVANCE fetches at most one word (40_lane_demux.md R124, R125). -/
theorem Advanced.inPos_le {s t : State} (h : Advanced s t) : t.inPos ≤ s.inPos + 1 := by
  rw [h]
  dsimp only
  split
  · exact Nat.le_succ _
  · exact Nat.le_refl _

/-- With nothing pending and every word to come fetchable, the lane steps only advance (44_match_copy.md R225). -/
theorem drainSteps_idle {n : Nat} {s : State} (hp : s.pend = 0#32)
    (hfetch : s.cfg.overreadPolicy = .draw ∨ 4 * (s.inPos + n) ≤ s.inLen.toNat) :
    ∃ u, drainSteps n s = .ok () u ∧
      u = { s with
        cur := s.cur + Fin.ofNat 32 n
        lanes := u.lanes, inPos := u.inPos, trace := u.trace, draws := u.draws, overread := u.overread } := by
  induction n generalizing s with
  | zero => exact ⟨s, rfl, by rw [show Fin.ofNat 32 0 = 0 from rfl, add_zero]⟩
  | succ n ih =>
    have hcan : CanAdvance s := .inr (hfetch.imp_right fun _ => by omega)
    have hidle : s.pending s.cur = false := by rw [State.pending, hp]; exact BitVec.getLsbD_zero
    obtain ⟨v, hv, hadv⟩ := advance_advanced hcan
    have hpos := hadv.inPos_le
    obtain ⟨hcur, hframe⟩ := advance_ok hv
    obtain ⟨u, hu, huframe⟩ := ih (s := v) (by rw [hframe]; exact hp)
      (by rw [show v.cfg = s.cfg by rw [hframe], show v.inLen = s.inLen by rw [hframe]]; exact hfetch.imp_right fun _ => by omega)
    refine ⟨u, by rw [drainSteps, drainStep, hidle, if_neg Bool.false_ne_true, hv, Res.bind_ok, hu], ?_⟩
    have hnext : s.cur + 1 + Fin.ofNat 32 n = s.cur + Fin.ofNat 32 (n + 1) := Fin.ext (by simp [Fin.val_add]; omega)
    rw [hcur, hnext, hframe] at huframe
    exact huframe

/-- FINISH fails the strict length check, or moves to DONE (42_block_control.md R191). -/
theorem finish_cases (s : State) :
    (s.cfg.strictTileLength = true ∧ s.outPos ≠ s.outBound.toNat ∧ finish s = .raised (errorEntry .corruptStream 10#4 s)) ∨
    (¬ (s.cfg.strictTileLength = true ∧ s.outPos ≠ s.outBound.toNat) ∧ finish s = .ok () { s with state := .done }) := by
  by_cases h : s.cfg.strictTileLength = true ∧ s.outPos ≠ s.outBound.toNat
  · exact .inl ⟨h.1, h.2, if_pos h⟩
  · exact .inr ⟨h, if_neg h⟩

/-- Settles O40: the lane steps bring the cursor round to where it was, and BLOCK_DONE ends the block. -/
theorem drainFinishes : Obligations.DrainFinishes := by
  intro s hin hstate hr hp hfetch
  obtain ⟨u, hrun, hframe⟩ := drainSteps_idle hp hfetch
  have hround : s.cur + Fin.ofNat 32 32 = s.cur := add_zero s.cur
  rw [hround] at hframe
  have hcfg : u.cfg = s.cfg := by rw [hframe]
  have hfinal : u.isFinal = s.isFinal := by rw [hframe]
  have hpos : u.outPos = s.outPos := by rw [hframe]
  have hbound : u.outBound = s.outBound := by rw [hframe]
  have hstep : step s = (blockDone u).outcome := by
    rw [step_engine hin, engineStep, operation, hstate]
    dsimp only
    rw [opDrain, drainStart_ruled hr, hrun, Res.bind_ok]
  rw [hstep, blockDone_ruled (hcfg ▸ hr), hfinal]
  by_cases hlast : s.isFinal = true
  · rw [if_pos hlast, if_pos hlast]
    have hcases := finish_cases u
    rw [hcfg, hpos, hbound] at hcases
    rcases hcases with ⟨hstrict, hne, e⟩ | ⟨hok, e⟩ <;> rw [e]
    · refine ⟨_, rfl, ?_, fun _ => ⟨rfl, rfl, rfl⟩, fun hshort => absurd ⟨hlast, hstrict, hne⟩ hshort⟩
      rw [hframe]
      rfl
    · refine ⟨_, rfl, ?_, fun hshort => absurd hshort.2 hok, fun _ => ⟨rfl, ?_, ?_⟩⟩ <;> rw [hframe]
  · rw [if_neg hlast, if_neg hlast]
    refine ⟨_, rfl, ?_, fun hshort => absurd hshort.1 hlast, fun _ => ⟨rfl, ?_, ?_⟩⟩ <;> rw [hframe]

/-! ## No element stops the machine -/

/-- ADVANCE gives a next state, also where its refill raises (40_lane_demux.md R125). -/
theorem advance_next (s : State) : ∃ t, (advance s).outcome = .next t := by
  rcases advance_runs s with ⟨t, e⟩ | ⟨t, e⟩ <;> exact ⟨t, by rw [e]; rfl⟩

theorem literal_next (b : Byte) (s : State) : ∃ t, (literal b s).outcome = .next t := by
  unfold literal
  split
  · exact ⟨_, rfl⟩
  · exact advance_next _

theorem endOfBlock_next (s : State) : ∃ t, (endOfBlock s).outcome = .next t := by
  unfold endOfBlock
  dsimp only
  split
  · exact advance_next _
  · exact ⟨_, rfl⟩

theorem matchRecord_next (len : Nat) (s : State) : ∃ t, (matchRecord len s).outcome = .next t := by
  unfold matchRecord
  split
  · exact ⟨_, rfl⟩
  · exact advance_next _

theorem matchCopy_next (dist : Nat) (s : State) : ∃ t, (matchCopy dist s).outcome = .next t := by
  unfold matchCopy copy
  dsimp only
  split
  · exact ⟨_, rfl⟩
  · exact advance_next _

/-- START where the spec defines it (45_host.md R240, R241). -/
theorem execCtrlStart_next {s : State} (h : s.busy = true ∨ 65536 < s.outBound.toNat ∨
    (configAdmissible s.cfg = true ∧ s.windowOnDevice = false)) (irqEn : Bool) : ∃ t, execCtrlStart irqEn s = .next t := by
  unfold execCtrlStart
  split
  · exact ⟨_, rfl⟩
  · rename_i hidle
    by_cases hbound : 65536 < s.outBound.toNat
    · exact ⟨_, by rw [start_configError (s := writeIrqEn irqEn s) hbound]; rfl⟩
    · obtain ⟨hc, hw⟩ := (h.resolve_left hidle).resolve_left hbound
      exact ⟨_, by rw [start_accepted (s := writeIrqEn irqEn s) (Nat.not_lt.mp hbound) hc hw]; rfl⟩

theorem execCtrlAck_next (irqEn : Bool) (s : State) : ∃ t, execCtrlAck irqEn s = .next t := by
  unfold execCtrlAck
  split <;> exact ⟨_, rfl⟩

/-- Every CTRL command but START does, and START where the spec defines it (45_host.md R240). -/
theorem exec_ctrl_next {i : Instr} (hi : i.format = .ctrl) {s : State}
    (h : (∀ ack irqEn rsv, i ≠ .ctrlStart ack irqEn rsv) ∨ s.busy = true ∨ 65536 < s.outBound.toNat ∨
      (configAdmissible s.cfg = true ∧ s.windowOnDevice = false)) : ∃ t, exec i s = .next t := by
  cases i <;> cases hi
  case ctrlStart ack irqEn rsv => exact execCtrlStart_next (h.resolve_left fun hne => hne _ _ _ rfl) irqEn
  case ctrlAck irqEn _ => exact execCtrlAck_next irqEn s
  case ctrlIrqEn irqEn _ => exact ⟨_, rfl⟩

/-- A litlen element is a literal, the end of a block, or a match record (43_symbol_decode.md R202, R204, R205). -/
theorem exec_llsym_next {i : Instr} (hi : i.format = .llsym) (s : State) : ∃ t, exec i s = .next t := by
  cases i <;> cases hi
  case llLiteral b => exact literal_next b s
  case llEob => exact endOfBlock_next s
  all_goals exact matchRecord_next _ s

/-- Settles O31, format by format. -/
theorem everyElementRuns : Obligations.EveryElementRuns := by
  intro i s h
  cases hi : i.format with
  | ctrl => exact exec_ctrl_next hi h
  | bhdr | dcounts | prelen =>
    cases i <;> cases hi
    all_goals exact ⟨_, rfl⟩
  | presym => rcases exec_presym hi s with ⟨v, n, -, e⟩ | e <;> exact ⟨_, e⟩
  | llsym => exact exec_llsym_next hi s
  | offsym =>
    obtain ⟨dist, e⟩ := exec_offsym hi s
    exact e ▸ matchCopy_next dist s

end Sys2Proof.Machine
end

section
/-! PROOFS. The litlen elements (43_symbol_decode.md R202 to R206): what a literal, an end of block and a match record do, and that the
recorded slots of a running tile stay reserved and disjoint. -/

namespace Sys2Proof.Machine

/-! ## The recorded slots -/

/-- Every pending lane's slot ends at or below the output cursor, and no two overlap: `SlotInv` without its condition BUSY. -/
def SlotsReserved (s : State) : Prop :=
  ∀ c : Fin 32, s.pending c = true →
    (s.lane c).pdst + (s.lane c).plen ≤ s.outPos ∧
    ∀ d : Fin 32, d ≠ c → s.pending d = true →
      (s.lane c).pdst + (s.lane c).plen ≤ (s.lane d).pdst ∨ (s.lane d).pdst + (s.lane d).plen ≤ (s.lane c).pdst

theorem slotInv_iff {s : State} : SlotInv s ↔ (s.busy = true → SlotsReserved s) := Iff.rfl

theorem slotInv_of_idle {s : State} (h : s.busy = false) : SlotInv s := fun hb => Bool.noConfusion (h.symm.trans hb)

namespace SlotsReserved
variable {s t : State}

theorem of_pend (h : s.pend = 0#32) : SlotsReserved s := by
  intro c hc
  rw [State.pending, h, BitVec.getLsbD_zero] at hc
  cases hc

/-- It speaks of the output alone. -/
theorem of_output (h : SlotsReserved s) (e : t.output = s.output) : SlotsReserved t := by
  simp only [State.output, Prod.mk.injEq, funext_iff] at e
  obtain ⟨-, -, -, -, hpos, hpend, hslot⟩ := e
  simpa only [SlotsReserved, State.pending, hpos, hpend, (hslot _).1, (hslot _).2] using h

/-- With the same lanes, fewer of them pending and a cursor further on. -/
theorem weaken (h : SlotsReserved s) (hlanes : t.lanes = s.lanes) (hpend : ∀ c, t.pending c = true → s.pending c = true)
    (hpos : s.outPos ≤ t.outPos) : SlotsReserved t := by
  intro c hc
  obtain ⟨hle, hdisj⟩ := h c (hpend c hc)
  simp only [State.lane, hlanes]
  exact ⟨hle.trans hpos, fun d hd hdp => hdisj d hd (hpend d hdp)⟩

/-- A match record reserves the bytes from the cursor on, and every other slot ends before them (43_symbol_decode.md R205). -/
theorem recordMatch (h : SlotsReserved s) (c : Fin 32) (len : Nat) : SlotsReserved (recordMatch c len s) := by
  have hnew : (Machine.recordMatch c len s).lane c = { s.lane c with plen := len, pdst := s.outPos } := setLane_lane_same c _ s
  have hold : ∀ d, d ≠ c → (Machine.recordMatch c len s).lane d = s.lane d := fun d hd => setLane_lane_other hd.symm _ s
  have hpend : ∀ d, d ≠ c → (Machine.recordMatch c len s).pending d = true → s.pending d = true := fun d hd hp =>
    (setPending_other hd.symm _).symm.trans hp
  have hpos : (Machine.recordMatch c len s).outPos = s.outPos + len := rfl
  intro d hd
  by_cases hdc : d = c
  · subst d
    rw [hnew, hpos]
    refine ⟨Nat.le_refl _, fun e hec he => .inr ?_⟩
    rw [hold e hec]
    exact (h e (hpend e hec he)).1
  · obtain ⟨hle, hdisj⟩ := h d (hpend d hdc hd)
    rw [hold d hdc, hpos]
    refine ⟨hle.trans (Nat.le_add_right _ _), fun e hed he => ?_⟩
    by_cases hec : e = c
    · subst e
      rw [hnew]
      exact .inl hle
    · rw [hold e hec]
      exact hdisj e hed (hpend e hec he)

end SlotsReserved

theorem move_keeps_slots {s t : State} (h : Move s t) (hs : SlotsReserved s) : SlotsReserved t := by
  cases h with
  | recordMatch c len => exact hs.recordMatch c len
  | clearPending c => exact hs.weaken rfl (fun _ => pending_of_clearPending) (Nat.le_refl _)
  | putLiteral b => exact hs.weaken (by rw [outWrite_frame]) (by rw [outWrite_frame]; exact fun _ hc => hc) (Nat.le_succ _)
  | fetchWord c => exact hs.of_output (fetchWord_output c s)
  | takeBits c n => exact hs.of_output (setLane_output rfl rfl)
  | setTable c table => exact hs.of_output (by cases c <;> rfl)
  | putPrecodeLen len => rw [putPrecodeLen_frame]; exact hs
  | copyBytes dst dist n => rw [copyBytes_frame]; exact hs
  | error | setCursor | setState | latchHeader | beginCounts | setStatic | latchHlit | latchHdist | beginPrelens | beginLens
      | putLengths | sortScratch | emit => exact hs

/-- The engine's turn: with BUSY = 0 nothing, and else updates that keep the slots reserved. -/
theorem engineStep_keeps_slots {s t : State} (h : engineStep s = .next t) (hs : SlotInv s) : SlotInv t := by
  cases hb : s.busy with
  | false =>
    rw [engineStep, operation_idle hb] at h
    cases h
    exact hs
  | true => exact slotInv_iff.mpr fun _ => (engineStep_moves h).keeps (fun _ _ => move_keeps_slots) (slotInv_iff.mp hs hb)

/-- An accepted START clears every pending bit, and no other host action touches a slot or makes an engine BUSY (45_host.md R241). -/
theorem hostMove_keeps_slots {s t : State} (h : HostMove s t) (hs : SlotInv s) : SlotInv t := by
  cases h with
  | store addr v n => rw [storeBytes_frame]; exact hs
  | load addr n => rw [loadBytes_frame]; exact hs
  | writeConfigReg off v => rw [writeConfigReg_frame]; exact hs
  | readRegister | writeIrqEn => exact hs
  | start irqEn => exact slotInv_iff.mpr fun _ => .of_pend (tileInit_pend _)
  | acknowledge | startError | reset => exact slotInv_of_idle rfl

/-- Settles O56: a match record reserves the bytes at the cursor, which never moves back, and only START makes an engine BUSY. -/
theorem stepKeepsSlots : Obligations.StepKeepsSlots := by
  intro s t
  exact step_keeps (fun _ _ hs => hs) (fun _ _ => engineStep_keeps_slots) fun _ _ => hostMove_keeps_slots

/-! ## Literals -/

/-- A literal at the bound is OUTPUT_OVERRUN (43_symbol_decode.md R202). -/
theorem literal_overrun {s : State} (h : s.outBound.toNat ≤ s.outPos) (b : Byte) :
    literal b s = .raised (errorEntry .outputOverrun 8#4 s) := if_pos h

/-- A literal below the bound writes its byte, and advances (43_symbol_decode.md R202). -/
theorem literal_fits {s : State} (h : s.outPos < s.outBound.toNat) (b : Byte) :
    literal b s = advance { outWrite s.outPos b s with outPos := s.outPos + 1 } := if_neg (Nat.not_le.mpr h)

/-- Writing a literal leaves what ADVANCE can do as it was. -/
theorem putLiteral_canAdvance (b : Byte) (s : State) :
    CanAdvance { outWrite s.outPos b s with outPos := s.outPos + 1 } ↔ CanAdvance s := by
  rw [outWrite_frame]
  exact Iff.rfl

/-- The byte OUT_WRITE leaves, where it does not race (20_memory.md R65). -/
theorem outWrite_same {p : Nat} {b : Byte} {s : State} (h : Mem.wf s.mem = true) (hr : s.raced (s.outAddr p) = false) :
    Mem.read (outWrite p b s).mem (s.outAddr p) = b := by
  rw [outWrite_frame]
  simp [Mem.read_write h, hr]

/-- Settles O27: the bound is checked first; the byte written is `outWrite`'s, which leaves what ADVANCE needs. -/
theorem literalElement : Obligations.LiteralElement := by
  intro s b
  refine ⟨fun hfull => congrArg Res.outcome (literal_overrun hfull b), fun hfits hcan hmem => ?_⟩
  obtain ⟨t, ht, hadv⟩ := advance_advanced ((putLiteral_canAdvance b s).mpr hcan)
  refine ⟨t, (outWrite s.outPos b s).mem, congrArg Res.outcome ((literal_fits hfits b).trans ht), ?_, outWrite_same hmem,
    fun _ => outWrite_other hmem⟩
  rw [outWrite_frame] at hadv ⊢
  exact hadv

/-! ## End of block -/

/-- Settles O28: under the rulings an end of block does not advance. -/
theorem eobElement : Obligations.EobElement := fun _ hr => congrArg Res.outcome (endOfBlock_ruled hr)

/-! ## Match records -/

/-- A length symbol records a match of the length the spec's table gives it (30_encoding.md R96). -/
theorem exec_matchLength {i : Instr} {len : Nat} (h : matchLength i = some len) (s : State) :
    exec i s = (matchRecord len s).outcome := by
  cases i <;> cases h
  all_goals rfl

/-- A match past the bound is OUTPUT_OVERRUN (43_symbol_decode.md R205). -/
theorem matchRecord_overrun {s : State} {len : Nat} (h : s.outBound.toNat < s.outPos + len) :
    matchRecord len s = .raised (errorEntry .outputOverrun 9#4 s) := if_pos h

/-- A match that ends at or below the bound is recorded, and the engine advances (43_symbol_decode.md R205). -/
theorem matchRecord_fits {s : State} {len : Nat} (h : s.outPos + len ≤ s.outBound.toNat) :
    matchRecord len s = advance (recordMatch s.cur len s) := if_neg (Nat.not_lt.mpr h)

/-- Settles O29: the bound is checked first, and recording a match leaves what ADVANCE needs. -/
theorem matchRecordElements : Obligations.MatchRecordElements := by
  intro s i len hlen
  rw [exec_matchLength hlen]
  refine ⟨fun hpast => congrArg Res.outcome (matchRecord_overrun hpast), fun hfits hcan => ?_⟩
  obtain ⟨t, ht, hadv⟩ := advance_advanced ((recordMatch_canAdvance s.cur len s).mpr hcan)
  exact ⟨t, congrArg Res.outcome ((matchRecord_fits hfits).trans ht), hadv⟩

end Sys2Proof.Machine
end

section
/-! PROOFS. The offset elements (44_match_copy.md R220 to R224): the active lane's copy at the distance of the spec's table. -/

namespace Sys2Proof.Machine

/-! ## A lane's copy -/

/-- An offset symbol performs the active lane's copy at the distance the spec's table gives it (30_encoding.md R97). -/
theorem exec_distanceOf {i : Instr} {dist : Nat} (h : distanceOf i = some dist) (s : State) :
    exec i s = (matchCopy dist s).outcome := by
  cases i <;> cases h
  all_goals rfl

/-- The table's distances begin at 1 (30_encoding.md R97). -/
theorem distanceOf_pos {i : Instr} {dist : Nat} (h : distanceOf i = some dist) : 1 ≤ dist := by
  cases i <;> cases h
  all_goals omega

/-- `s` after the active lane's copy at a distance, its pending bit cleared (44_match_copy.md R223, R224). -/
def copied (dist : Nat) (s : State) : State :=
  clearPending s.cur
    (emit (.copy s.cur (s.lane s.cur).pdst dist (s.lane s.cur).plen)
      (copyBytes (s.lane s.cur).pdst dist (s.lane s.cur).plen 0 s))

/-- A copy writes memory, the trace, the draw counter, and the lane's pending bit. -/
theorem copied_frame (dist : Nat) (s : State) :
    copied dist s =
      { s with
        mem := (copied dist s).mem, pend := s.pend &&& ~~~(1#32 <<< s.cur.val), draws := (copied dist s).draws
        trace := (copied dist s).trace } := by
  unfold copied
  rw [copyBytes_frame]
  rfl

theorem copied_canAdvance (dist : Nat) (s : State) : CanAdvance (copied dist s) ↔ CanAdvance s := by
  rw [copied_frame]
  exact Iff.rfl

/-- A distance before the tile's first byte is CORRUPT_STREAM (44_match_copy.md R223). -/
theorem matchCopy_tooFar {dist : Nat} {s : State} (h : (s.lane s.cur).pdst < dist) :
    matchCopy dist s = .raised (errorEntry .corruptStream 7#4 s) := by
  simp [matchCopy, copy, h]

/-- Any other distance is copied from, and the engine advances (44_match_copy.md R220, R224). -/
theorem matchCopy_inTile {dist : Nat} {s : State} (h : dist ≤ (s.lane s.cur).pdst) :
    matchCopy dist s = advance (copied dist s) := by
  have hcopy : copy s.cur dist s =
      .ok () (emit (.copy s.cur (s.lane s.cur).pdst dist (s.lane s.cur).plen)
        (copyBytes (s.lane s.cur).pdst dist (s.lane s.cur).plen 0 s)) := if_neg (Nat.not_lt.mpr h)
  have hcur : (copyBytes (s.lane s.cur).pdst dist (s.lane s.cur).plen 0 s).cur = s.cur := by rw [copyBytes_frame]
  rw [matchCopy, hcopy, Res.bind_ok, emit_cur, hcur, copied]

/-- Settles O30: the distance is checked first; the bytes are `copyBytes`', which leave what ADVANCE needs. -/
theorem offsetElements : Obligations.OffsetElements := by
  intro s i dist hdist dst len
  rw [exec_distanceOf hdist]
  refine ⟨fun hfar => congrArg Res.outcome (matchCopy_tooFar hfar), fun hnear hcan hmem => ?_⟩
  obtain ⟨t, ht, hadv⟩ := advance_advanced ((copied_canAdvance dist s).mpr hcan)
  obtain ⟨writes, htrace, hlen, hwrites⟩ := copyBytes_trace dst dist len 0 s
  have htrace : (copied dist s).trace = .copy s.cur dst dist len :: (writes ++ s.trace) := congrArg _ htrace
  rw [copied_frame, htrace] at hadv
  refine ⟨t, (copied dist s).mem, writes, (copied dist s).draws, congrArg Res.outcome ((matchCopy_inTile hnear).trans ht), hadv, hlen,
    fun e he => ?_, fun a ha => ?_, fun hfit hrace => ?_⟩
  · obtain ⟨k, b, -, hk, rfl⟩ := hwrites e he
    exact ⟨k, b, by omega, rfl⟩
  · exact copyBytes_other hmem fun k hk => by rw [Nat.zero_add]; exact ha k hk
  · exact copyBytes_data (j := 0) hmem (distanceOf_pos hdist) hnear hfit hrace

end Sys2Proof.Machine
end

section
/-! PROOFS. DRAIN (44_match_copy.md R225, R227): a lane step leaves its lane with no copy pending, so 32 of them leave none; and outside
DECODE and DRAIN no operation touches a pending bit. -/

namespace Sys2Proof.Machine

/-! ## Where a part of an operation ends -/

/-- A part of an operation leaves the engine in state `e`, or raises and leaves it in ERROR (60_exceptions.md R263). -/
def Res.EndsIn {α : Type} (e : EngineState) : Res α → Prop
  | .ok _ t => t.state = e
  | .raised t => t.state = .error
  | .fault _ | .refused _ => True

namespace Res.EndsIn
variable {α β : Type} {e e' : EngineState}

theorem of_cases {r : Res α} (hok : ∀ a t, r = .ok a t → t.state = e) (hraised : ∀ t, r = .raised t → t.state = .error) :
    r.EndsIn e := by
  cases r with
  | ok a t => exact hok a t rfl
  | raised t => exact hraised t rfl
  | fault | refused => trivial

theorem ok {r : Res α} {a : α} {t : State} (hr : r.EndsIn e) (h : r = .ok a t) : t.state = e := by
  subst h
  exact hr

theorem raised {r : Res α} {t : State} (hr : r.EndsIn e) (h : r = .raised t) : t.state = .error := by
  subst h
  exact hr

theorem bind {r : Res α} {k : α → State → Res β} (hr : r.EndsIn e) (hk : ∀ a u, r = .ok a u → u.state = e → (k a u).EndsIn e') :
    (r.bind k).EndsIn e' := by
  cases r with
  | ok a u => exact hk a u rfl hr
  | raised u => exact hr
  | fault | refused => trivial

theorem outcome {r : Res α} {t : State} (hr : r.EndsIn e) (h : r.outcome = .next t) : t.state = e ∨ t.state = .error := by
  cases r <;> cases h
  · exact .inl hr
  · exact .inr hr

theorem ofOutcome {o : Host.Outcome State Fault Refusal} (h : ∀ t, o = .next t → t.state = e ∨ t.state = .error) :
    (Res.ofOutcome o).EndsIn e := by
  cases o with
  | next t =>
    unfold Res.ofOutcome
    dsimp only
    split
    · assumption
    · exact (h t rfl).resolve_right ‹_›
  | fault | refused => trivial

end Res.EndsIn

/-! ## Turns -/

section
variable {s : State} {e : EngineState} (hs : s.state = e)
include hs

theorem advance_endsIn : (advance s).EndsIn e :=
  .of_cases (fun _ _ h => by rw [(advance_ok h).2]; exact hs) fun _ h => by rw [(advance_raised h).1]; rfl

theorem lookup_endsIn (c : Code) (lane : Fin 32) : (lookup c lane s).EndsIn e :=
  .of_cases (fun _ _ h => by rw [(lookup_ok h).1]; exact hs) fun _ h => by rw [lookup_raised h]; rfl

theorem pop_endsIn (c : Fin 32) (n : Nat) : (pop c n s).EndsIn e := by
  have hconsume : (consume c n s).EndsIn e :=
    .of_cases (fun _ _ h => by rw [(consume_ok h).2]; exact hs) fun _ h => by rw [consume_raised h]; rfl
  exact hconsume.bind fun _ _ _ hu => hu

theorem decoded_endsIn (d : Except Reject Instr) : (decoded d s).EndsIn e := by
  cases d with
  | ok i => exact hs
  | error r => trivial

theorem fetchLitlen_endsIn (c : Fin 32) : (fetchLitlen c s).EndsIn e := by
  refine (lookup_endsIn hs .litlen c).bind fun entry u _ hu => ?_
  split
  · exact decoded_endsIn hu _
  · split
    · trivial
    · exact (pop_endsIn hu c _).bind fun _ v _ hv => decoded_endsIn hv _

theorem fetchOffset_endsIn (c : Fin 32) : (fetchOffset c s).EndsIn e := by
  refine (lookup_endsIn hs .offset c).bind fun entry u _ hu => ?_
  split
  · trivial
  · exact (pop_endsIn hu c _).bind fun _ v _ hv => decoded_endsIn hv _

theorem literal_endsIn (b : Byte) : (literal b s).EndsIn e := by
  unfold literal
  split
  · exact rfl
  · exact advance_endsIn (by rw [outWrite_frame]; exact hs)

theorem matchRecord_endsIn (len : Nat) : (matchRecord len s).EndsIn e := by
  unfold matchRecord
  split
  · exact rfl
  · exact advance_endsIn hs

theorem matchCopy_endsIn (dist : Nat) : (matchCopy dist s).EndsIn e := by
  rcases Nat.lt_or_ge (s.lane s.cur).pdst dist with h | h
  · rw [matchCopy_tooFar h]
    exact rfl
  · rw [matchCopy_inTile h]
    exact advance_endsIn (by rw [copied_frame]; exact hs)

/-- A pending lane's turn (44_match_copy.md R220). -/
theorem offsetTurn_endsIn : (runElement .offsym s).EndsIn e := by
  refine (fetchOffset_endsIn hs s.cur).bind fun i u hf hu => .ofOutcome fun t h => ?_
  obtain ⟨dist, he⟩ := exec_offsym (fetch_reads (f := .offsym) hf).format u
  exact (matchCopy_endsIn hu dist).outcome (he ▸ h)

theorem drainStep_endsIn : (drainStep s).EndsIn e := by
  unfold drainStep
  split
  · exact offsetTurn_endsIn hs
  · exact advance_endsIn hs

end

theorem endOfBlock_endsIn (s : State) : (endOfBlock s).EndsIn .drain := by
  unfold endOfBlock
  dsimp only
  split
  · exact advance_endsIn rfl
  · exact rfl

/-- A litlen element goes on with the block, ends it, or raises (43_symbol_decode.md R202, R204, R205). -/
theorem exec_llsym_state {i : Instr} {s t : State} (hi : i.format = .llsym) (h : exec i s = .next t) :
    t.state = s.state ∨ t.state = .drain ∨ t.state = .error := by
  cases i <;> cases hi
  case llLiteral b => exact ((literal_endsIn rfl b).outcome h).imp_right .inr
  case llEob => exact .inr ((endOfBlock_endsIn s).outcome h)
  all_goals exact ((matchRecord_endsIn rfl _).outcome h).imp_right .inr

/-- A litlen turn does so too (43_symbol_decode.md R201). -/
theorem litlenTurn_state {s t : State} (h : (runElement .llsym s).outcome = .next t) :
    t.state = s.state ∨ t.state = .drain ∨ t.state = .error := by
  have hfetch : (fetch .llsym s).EndsIn s.state := fetchLitlen_endsIn rfl s.cur
  cases hf : fetch .llsym s with
  | ok i u =>
    rw [runElement_outcome hf] at h
    rw [← hfetch.ok hf]
    exact exec_llsym_state (fetch_reads hf).format h
  | raised u =>
    rw [runElement, hf] at h
    cases h
    exact .inr (.inr (hfetch.raised hf))
  | fault | refused =>
    rw [runElement, hf] at h
    cases h

theorem drainSteps_endsIn {n : Nat} {s : State} {e : EngineState} (hs : s.state = e) : (drainSteps n s).EndsIn e := by
  induction n generalizing s with
  | zero => exact hs
  | succ n ih => exact (drainStep_endsIn hs).bind fun _ _ _ hu => ih hu

/-- BLOCK_DONE goes on to the next header or to DONE, or raises (42_block_control.md R190, R191). -/
theorem blockDone_endsIn (s : State) : (blockDone s).EndsIn (if s.isFinal then .done else .header) := by
  unfold blockDone
  split
  · unfold finish
    split <;> exact rfl
  · exact rfl

/-! ## Lane steps of DRAIN -/

theorem clearPending_same (c : Fin 32) (s : State) : (clearPending c s).pending c = false := by
  rw [State.pending, clearPending_pend, BitVec.getLsbD_and]
  simp

/-- `t` is `s` after a turn of its active lane that left the lane with no copy pending and moved the cursor on; only what a copy and a
refill write changed beside (44_match_copy.md R223, R225; 40_lane_demux.md R124). -/
structure LaneDone (s t : State) : Prop where
  frame : t = { s with
    cur := s.cur + 1, pend := t.pend
    lanes := t.lanes, inPos := t.inPos, mem := t.mem, trace := t.trace, draws := t.draws, overread := t.overread }
  pending : ∀ c, t.pending c = true → s.pending c = true ∧ c ≠ s.cur

/-- ADVANCE on a lane with no copy pending. -/
theorem LaneDone.of_advance {s t : State} (hidle : s.pending s.cur = false) (h : advance s = .ok () t) : LaneDone s t := by
  obtain ⟨hcur, hframe⟩ := advance_ok h
  have hpend : t.pend = s.pend := by rw [hframe]
  have hmem : t.mem = s.mem := by rw [hframe]
  rw [hcur] at hframe
  refine ⟨by rw [hpend, hmem]; exact hframe, fun c hc => ?_⟩
  have hc : s.pending c = true := by rwa [State.pending, hpend] at hc
  exact ⟨hc, fun e => Bool.noConfusion (hidle.symm.trans (e ▸ hc))⟩

theorem LaneDone.of_matchCopy {dist : Nat} {s t : State} (h : matchCopy dist s = .ok () t) : LaneDone s t := by
  rcases Nat.lt_or_ge (s.lane s.cur).pdst dist with hfar | hnear
  · rw [matchCopy_tooFar hfar] at h
    cases h
  · rw [matchCopy_inTile hnear] at h
    have hcur : (copied dist s).cur = s.cur := by rw [copied_frame]
    have hpending : ∀ c, (copied dist s).pending c = (clearPending s.cur s).pending c := fun c => by
      rw [copied_frame]; rfl
    have hidle : (copied dist s).pending (copied dist s).cur = false := by rw [hpending, hcur, clearPending_same]
    obtain ⟨hframe, hpend⟩ := LaneDone.of_advance hidle h
    rw [copied_frame] at hframe
    exact ⟨hframe, fun c hc => ⟨pending_of_clearPending (hpending c ▸ (hpend c hc).1), hcur ▸ (hpend c hc).2⟩⟩

theorem DrainStep.laneDone {s t : State} (h : DrainStep s t) : LaneDone s t := by
  unfold DrainStep at h
  split at h
  · obtain ⟨i, u, hf, he, hne⟩ := h
    have hframe := fetchOffset_ok hf
    obtain ⟨dist, e⟩ := exec_offsym (fetch_reads (f := .offsym) hf).format u
    rcases Res.outcome_eq_next.mp (e ▸ he) with ⟨_, hok⟩ | hraised
    · have hdone := LaneDone.of_matchCopy hok
      rw [hframe] at hdone
      exact ⟨hdone.frame, hdone.pending⟩
    · exact absurd ((matchCopy_endsIn rfl dist).raised hraised) hne
  · obtain ⟨hcan, hadv⟩ := h
    exact .of_advance (Bool.eq_false_of_not_eq_true ‹_›) (hadv.advance_ok hcan)

/-- `u` is `s` after `n` lane steps of DRAIN: the first `n` lanes from the cursor on have no copy pending. -/
structure Drained (s : State) (n : Nat) (u : State) : Prop where
  frame : u = { s with
    cur := s.cur + Fin.ofNat 32 n, pend := u.pend
    lanes := u.lanes, inPos := u.inPos, mem := u.mem, trace := u.trace, draws := u.draws, overread := u.overread }
  pending : ∀ c, u.pending c = true → n ≤ (c - s.cur).val

theorem Drained.start (s : State) : Drained s 0 s where
  frame := by rw [show Fin.ofNat 32 0 = 0 from rfl, add_zero]
  pending _ _ := Nat.zero_le _

theorem Drained.next {s u v : State} {n : Nat} (h : Drained s n u) (hv : DrainStep u v) : Drained s (n + 1) v := by
  obtain ⟨hframe, hpending⟩ := hv.laneDone
  have hcur : u.cur = s.cur + Fin.ofNat 32 n := by rw [h.frame]
  refine ⟨?_, fun c hc => ?_⟩
  · have hnext : s.cur + Fin.ofNat 32 n + 1 = s.cur + Fin.ofNat 32 (n + 1) := Fin.ext (by simp [Fin.val_add, Nat.add_assoc])
    rw [h.frame, hnext] at hframe
    exact hframe
  · obtain ⟨hbefore, hne⟩ := hpending c hc
    refine Nat.lt_of_le_of_ne (h.pending c hbefore) fun e => hne ?_
    have hdiff : c - s.cur = Fin.ofNat 32 n := Fin.ext (by rw [e]; exact (Nat.mod_eq_of_lt (c - s.cur).isLt).symm)
    rw [hcur, add_comm]
    exact sub_eq_iff_eq_add.mp hdiff

theorem DrainSteps.drained {s u v : State} {m n : Nat} (h : Drained s m u) (hv : DrainSteps n u v) : Drained s (m + n) v := by
  induction n generalizing m u with
  | zero => cases hv; exact h
  | succ n ih =>
    obtain ⟨w, hw, hv⟩ := hv
    rw [← Nat.succ_add_eq_add_succ]
    exact ih (h.next hw) hv

/-- After 32 lane steps no copy is pending and the cursor is round to where it was (44_match_copy.md R227). -/
theorem DrainSteps.all {s u : State} (h : DrainSteps 32 s u) :
    u.pend = 0#32 ∧ u = { s with
      pend := u.pend
      lanes := u.lanes, inPos := u.inPos, mem := u.mem, trace := u.trace, draws := u.draws, overread := u.overread } := by
  obtain ⟨hframe, hpending⟩ := DrainSteps.drained (.start s) h
  refine ⟨BitVec.eq_of_getLsbD_eq fun k hk => ?_, ?_⟩
  · rw [BitVec.getLsbD_zero]
    refine Bool.eq_false_of_not_eq_true fun hset => ?_
    have hlow : 32 ≤ ((⟨k, hk⟩ : Fin 32) - s.cur).val := hpending ⟨k, hk⟩ hset
    omega
  · rw [show s.cur + Fin.ofNat 32 (0 + 32) = s.cur from add_zero s.cur] at hframe
    exact hframe

/-! ## The operations of DECODE and DRAIN -/

/-- DRAIN makes its 32 lane steps and ends the block, or raises (44_match_copy.md R225; 42_block_control.md R190). -/
theorem opDrain_cases {s t : State} (h : (opDrain s).outcome = .next t) :
    t.state = .error ∨ ∃ u, DrainSteps 32 (drainStart s) u ∧ blockDone u = .ok () t := by
  rcases Res.outcome_eq_next.mp h with ⟨_, hok⟩ | hraised
  · obtain ⟨_, u, hsteps, hdone⟩ := Res.bind_eq_ok.mp hok
    exact .inr ⟨u, drainSteps_ok.mp hsteps, hdone⟩
  · rcases Res.bind_eq_raised.mp hraised with hsteps | ⟨_, u, _, hdone⟩
    · exact .inl ((drainSteps_endsIn rfl).raised hsteps)
    · exact .inl ((blockDone_endsIn u).raised hdone)

/-- DECODE goes on, ends its block, or raises (43_symbol_decode.md R200). -/
theorem operation_decode_state {s t : State} (hs : s.state = .decode) (h : (operation s).outcome = .next t) :
    t.state = .decode ∨ t.state = .drain ∨ t.state = .error := by
  rw [operation, hs] at h
  dsimp only at h
  split at h
  · exact ((offsetTurn_endsIn hs).outcome h).imp_right .inr
  · exact hs ▸ litlenTurn_state h

/-! ## No copy is pending outside DECODE and DRAIN -/

theorem pend_of_output {s t : State} (h : t.output = s.output) : t.pend = s.pend := by
  simp only [State.output, Prod.mk.injEq] at h
  obtain ⟨-, -, -, -, -, hpend, -⟩ := h
  exact hpend

/-- In these states copies may be pending. -/
theorem pendingInv_of_decode {s : State} (h : s.state = .decode ∨ s.state = .drain ∨ s.state = .error) : PendingInv s := by
  rintro (hs | hs | hs | hs | hs)
  all_goals
    rw [hs] at h
    simp at h

theorem pendingInv_of_pend {s : State} (h : s.pend = 0#32) : PendingInv s := fun _ => h

/-- In IDLE copies may be left pending by a tile that raised. -/
theorem pendingInv_of_idle {s : State} (h : s.state = .idle) : PendingInv s := by
  rintro (hs | hs | hs | hs | hs)
  all_goals cases h.symm.trans hs

/-- The engine's turn: a drain leaves nothing pending, DECODE goes on or ends in DRAIN or ERROR, and no other operation touches a pending
bit. -/
theorem engineStep_keeps_pending {s t : State} (h : engineStep s = .next t) (hs : PendingInv s) : PendingInv t := by
  by_cases hdecode : s.state = .decode
  · exact pendingInv_of_decode (operation_decode_state hdecode h)
  by_cases hdrain : s.state = .drain
  · rw [engineStep, operation, hdrain] at h
    rcases opDrain_cases h with herror | ⟨u, hsteps, hdone⟩
    · exact pendingInv_of_decode (.inr (.inr herror))
    · exact pendingInv_of_pend ((pend_of_output ((blockDone_quiet u).1 _ t hdone)).trans hsteps.all.1)
  cases hb : s.busy with
  | false =>
    rw [engineStep, operation_idle hb] at h
    cases h
    exact hs
  | true =>
    refine pendingInv_of_pend ((pend_of_output ((operation_quiet hdecode hdrain).outcome h)).trans (hs ?_))
    cases he : s.state with
    | decode => exact absurd he hdecode
    | drain => exact absurd he hdrain
    | prime | header | dynTables | staticTables => simp
    | idle | done | error =>
      rw [State.busy, he] at hb
      cases hb

theorem hostMove_keeps_pending {s t : State} (h : HostMove s t) (hs : PendingInv s) : PendingInv t := by
  cases h with
  | store addr v n => rw [storeBytes_frame]; exact hs
  | load addr n => rw [loadBytes_frame]; exact hs
  | writeConfigReg off v => rw [writeConfigReg_frame]; exact hs
  | readRegister | writeIrqEn => exact hs
  | acknowledge => exact pendingInv_of_idle rfl
  | start | startError | reset => exact pendingInv_of_pend rfl

/-- Settles O55: the drain that ends a block leaves nothing pending (`DrainSteps.all`), and only DECODE sets a pending bit. -/
theorem stepKeepsPendingClear : Obligations.StepKeepsPendingClear := by
  intro s t
  exact step_keeps (fun _ _ hs => hs) (fun _ _ => engineStep_keeps_pending) fun _ _ => hostMove_keeps_pending

/-! ## DRAIN in a step -/

/-- The engine's step in DRAIN. -/
theorem step_drain {s : State} (hin : s.inputs = []) (hs : s.state = .drain) : step s = (opDrain s).outcome := by
  rw [step_engine hin, engineStep, operation, hs]

/-- Under the rulings the lane steps begin at the cursor; BLOCK_DONE follows them (44_match_copy.md R225). -/
theorem opDrain_ok {s u : State} (hr : s.cfg.reading = .ruled) (hsteps : DrainSteps 32 s u) : opDrain s = blockDone u := by
  rw [opDrain, drainStart_ruled hr, drainSteps_ok.mpr hsteps, Res.bind_ok]

/-- A lane step that raises ends the drain (44_match_copy.md R225). -/
theorem opDrain_raised {k : Nat} {s u t : State} (hr : s.cfg.reading = .ruled) (hk : k < 32) (hsteps : DrainSteps k s u)
    (h : drainStep u = .raised t) : opDrain s = .raised t := by
  obtain ⟨m, hm⟩ := Nat.exists_eq_add_of_lt hk
  rw [opDrain, drainStart_ruled hr, hm, Nat.add_assoc, drainSteps_add, drainSteps_ok.mpr hsteps, Res.bind_ok, drainSteps, h,
    Res.bind_raised, Res.bind_raised]

/-- The lane step of a pending lane is an offset turn. -/
theorem drainStep_pending {s : State} (h : s.pending s.cur = true) : drainStep s = runElement .offsym s := if_pos h

theorem drainStep_idle {s : State} (h : s.pending s.cur = false) : drainStep s = advance s := by
  rw [drainStep, h, if_neg Bool.false_ne_true]

/-- An element that ends in ERROR raises. -/
theorem runElement_raises {f : Format} {s u t : State} {i : Instr} (hf : fetch f s = .ok i u) (he : exec i u = .next t)
    (ht : t.state = .error) : runElement f s = .raised t := by
  rw [runElement, hf, Res.bind_ok, he]
  exact if_pos ht

/-- The strict length check finds the tile of the final block shorter than its bound (42_block_control.md R191). -/
def EndsShort (s : State) : Prop := s.isFinal = true ∧ s.cfg.strictTileLength = true ∧ s.outPos ≠ s.outBound.toNat

/-- Under the rulings BLOCK_DONE fails that check, or moves on and changes nothing else (42_block_control.md R190, R191). -/
theorem blockDone_cases {s : State} (hr : s.cfg.reading = .ruled) :
    (EndsShort s ∧ blockDone s = .raised (errorEntry .corruptStream 10#4 s)) ∨
    (¬ EndsShort s ∧ blockDone s = .ok () { s with state := if s.isFinal then .done else .header }) := by
  rw [blockDone_ruled hr]
  by_cases hfinal : s.isFinal = true
  · simp only [if_pos hfinal]
    rcases finish_cases s with ⟨hstrict, hne, e⟩ | ⟨hok, e⟩
    · exact .inl ⟨⟨hfinal, hstrict, hne⟩, e⟩
    · exact .inr ⟨fun hshort => hok hshort.2, e⟩
  · refine .inr ⟨fun hshort => hfinal hshort.1, ?_⟩
    simp only [if_neg hfinal]

/-- Settles O39: a lane step that raises by `opDrain_raised`, the end of all 32 by `DrainSteps.all` and `blockDone_cases`. -/
theorem drainClearsPending : Obligations.DrainClearsPending := by
  intro s hin hstate hr
  rw [step_drain hin hstate]
  refine ⟨fun u hsteps => ?finished, fun k hk u hsteps hpending => ?pending, fun k hk u hsteps hidle hcan => ?idle,
    fun t h hne => ?ends⟩
  case finished =>
    have hcfg : u.cfg = s.cfg := by rw [hsteps.all.2]
    rw [opDrain_ok hr hsteps]
    rcases blockDone_cases (hcfg ▸ hr) with ⟨hshort, e⟩ | ⟨hlong, e⟩
    · exact ⟨fun _ => congrArg Res.outcome e, fun hlong => absurd hshort hlong⟩
    · exact ⟨fun hshort => absurd hshort hlong, fun _ => congrArg Res.outcome e⟩
  case pending =>
    have hraises : ∀ t, runElement .offsym u = .raised t → (opDrain s).outcome = .next t := fun t h =>
      congrArg Res.outcome (opDrain_raised hr hk hsteps ((drainStep_pending hpending).trans h))
    refine ⟨fun i v t hf he ht => hraises t (runElement_raises hf he ht), fun i v dist hf hdist hfar => ?_, fun t hf => ?_⟩
    · have he : exec i v = .next (errorEntry .corruptStream 7#4 v) := by rw [exec_distanceOf hdist, matchCopy_tooFar hfar]; rfl
      exact hraises _ (runElement_raises hf he rfl)
    · exact hraises t (by rw [runElement, fetch, hf, Res.bind_raised])
  case idle => exact congrArg Res.outcome (opDrain_raised hr hk hsteps ((drainStep_idle hidle).trans (advance_overread hcan)))
  case ends =>
    obtain ⟨u, hsteps, hdone⟩ := (opDrain_cases h).resolve_left hne
    rw [drainStart_ruled hr] at hsteps
    obtain ⟨hpend, hframe⟩ := hsteps.all
    have hcfg : u.cfg = s.cfg := by rw [hframe]
    rcases blockDone_cases (hcfg ▸ hr) with ⟨-, e⟩ | ⟨-, e⟩ <;> cases e.symm.trans hdone
    refine ⟨⟨u, hsteps, rfl⟩, hpend, ?_, ?_, ?_⟩ <;> rw [hframe]

end Sys2Proof.Machine
end

section
/-! PROOFS. The CTRL commands (45_host.md R240, R242), the host's store that gives one (10_state.md R39), and words written out from the
encodings (30_encoding.md R89 to R98). -/

namespace Sys2Proof

/-! ## Words of the spec -/

/-- Settles O3: the decoder evaluates on each word. -/
theorem decodeSpecWords : Obligations.DecodeSpecWords := by
  unfold Obligations.DecodeSpecWords
  decide

namespace Machine

/-! ## The commands -/

/-- What a value written to CTRL does, by its three bits (45_host.md R240). -/
theorem exec_decodeCtrl (v : Word) (s : State) :
    exec (decodeCtrl v) s =
      if v.getLsbD 0 then execCtrlStart (v.getLsbD 2) s
      else if v.getLsbD 1 then execCtrlAck (v.getLsbD 2) s
      else .next (writeIrqEn (v.getLsbD 2) s) := by
  rw [decodeCtrl]
  cases v.getLsbD 0
  · cases v.getLsbD 1 <;> rfl
  · rfl

/-- While BUSY a START is a write of IRQ_EN. -/
theorem execCtrlStart_busy {s : State} (hb : s.busy = true) (irqEn : Bool) : execCtrlStart irqEn s = .next (writeIrqEn irqEn s) :=
  if_pos hb

/-- While BUSY an ACK is a write of IRQ_EN. -/
theorem execCtrlAck_busy {s : State} (hb : s.busy = true) (irqEn : Bool) : execCtrlAck irqEn s = .next (writeIrqEn irqEn s) :=
  if_pos hb

/-- With BUSY = 0 an ACK clears the last result (45_host.md R242). -/
theorem execCtrlAck_idle {s : State} (hb : s.busy = false) (irqEn : Bool) :
    execCtrlAck irqEn s = .next (acknowledge (writeIrqEn irqEn s)) := by
  rw [execCtrlAck, hb, if_neg Bool.false_ne_true]

/-- Settles O18. -/
theorem ackClears : Obligations.AckClears := fun _ irqEn _ hb => execCtrlAck_idle hb irqEn

/-! ## What a CTRL write depends on and leaves -/

/-- A START that is not refused leaves IRQ_EN as written: TILE_INIT and the error entry keep it (45_host.md R240, R241). -/
theorem execCtrlStart_irqEn {irqEn : Bool} {s t : State} (h : execCtrlStart irqEn s = .next t) : t.irqEn = irqEn := by
  cases hb : s.busy with
  | true => cases (execCtrlStart_busy hb irqEn).symm.trans h; rfl
  | false =>
    rw [execCtrlStart, hb, if_neg Bool.false_ne_true] at h
    rcases start_cases h with ⟨-, rfl⟩ | ⟨-, rfl⟩ <;> rfl

theorem execCtrlAck_irqEn {irqEn : Bool} {s t : State} (h : execCtrlAck irqEn s = .next t) : t.irqEn = irqEn := by
  cases hb : s.busy with
  | true => cases (execCtrlAck_busy hb irqEn).symm.trans h; rfl
  | false => cases (execCtrlAck_idle hb irqEn).symm.trans h; rfl

/-- Every CTRL write that is not refused leaves IRQ_EN as written (45_host.md R240). -/
theorem exec_decodeCtrl_irqEn {v : Word} {s t : State} (h : exec (decodeCtrl v) s = .next t) : t.irqEn = v.getLsbD 2 := by
  rw [exec_decodeCtrl] at h
  split at h
  · exact execCtrlStart_irqEn h
  · split at h
    · exact execCtrlAck_irqEn h
    · cases h; rfl

/-- Words with the same low bits agree in each of them. -/
theorem getLsbD_eq_of_low {n k : Nat} {v w : Word} (h : w.extractLsb' 0 n = v.extractLsb' 0 n) (hk : k < n) :
    w.getLsbD k = v.getLsbD k := by
  simpa [hk] using congrArg (BitVec.getLsbD · k) h

/-- Without ACK's bit a value keeps START's and IRQ_EN's. -/
theorem getLsbD_without_ack (v : Word) {k : Nat} (hk : k < 3) (hne : k ≠ 1) : (v &&& ~~~2#32).getLsbD k = v.getLsbD k := by
  have hmask : (~~~2#32).getLsbD k = true := by
    obtain rfl | rfl : k = 0 ∨ k = 2 := by omega
    all_goals decide
  rw [BitVec.getLsbD_and, hmask, Bool.and_true]

/-- Settles O15: the command is told by the three bits, of which START's masks ACK's; BUSY leaves every command its write of IRQ_EN. -/
theorem ctrlCommandEncoding : Obligations.CtrlCommandEncoding := by
  intro s v
  refine ⟨fun w hw => ?_, fun t => exec_decodeCtrl_irqEn, fun hb => ?_, fun hstart => ?_, fun hstart hack => ?_⟩
  · rw [exec_decodeCtrl, exec_decodeCtrl, getLsbD_eq_of_low hw (by decide), getLsbD_eq_of_low hw (by decide),
      getLsbD_eq_of_low hw (by decide)]
  · rw [exec_decodeCtrl, execCtrlStart_busy hb, execCtrlAck_busy hb, ite_self, ite_self]
    rfl
  · rw [exec_decodeCtrl, exec_decodeCtrl, getLsbD_without_ack v (by decide) (by decide),
      getLsbD_without_ack v (by decide) (by decide), if_pos hstart, if_pos hstart]
  · rw [exec_decodeCtrl, hstart, hack, if_neg Bool.false_ne_true, if_neg Bool.false_ne_true]
    rfl

/-! ## The store that gives a command -/

/-- The address of ENGINE_BASE, from the start of its own window (10_state.md R39). -/
theorem engineBase_offset (s : State) :
    (s.addr s.cfg.engineBase 0 + (2 ^ s.cfg.addrWidth - s.addr s.cfg.engineBase 0)) % 2 ^ s.cfg.addrWidth = 0 :=
  window_offset (b := s.cfg.engineBase.toNat) (Nat.two_pow_pos _)

/-- A word stored at ENGINE_BASE is a write of CTRL. -/
theorem hostStore_engineBase (v : Word) (s : State) : hostStore s.cfg.engineBase .word v s = exec (decodeCtrl v) s := by
  have htouch : s.touchesRegisters s.cfg.engineBase .word = true := by
    refine List.any_eq_true.mpr ⟨0, by decide, decide_eq_true ?_⟩
    exact (engineBase_offset s).trans_lt (by decide)
  have hoffset : s.registerOffset s.cfg.engineBase .word = some 0 := by
    rw [State.registerOffset, engineBase_offset]
    rfl
  rw [hostStore, if_pos htouch, hoffset]
  exact if_pos rfl

/-- Settles O12. -/
theorem stepRunsCtrlStore : Obligations.StepRunsCtrlStore := fun s v rest hin =>
  (step_input hin).trans (hostStore_engineBase v { s with inputs := rest })

end Machine
end Sys2Proof
end

section
/-! PROOFS. The container's header (45_host.md R246, R247; 60_exceptions.md R275): its parser, said once in terms of the header's bytes,
and the header written from its fields. -/

namespace Sys2Proof.Machine

/-! ## Little-endian numbers -/

@[simp] theorem leNat_nil : leNat [] = 0 := rfl

@[simp] theorem leNat_cons (b : Byte) (bytes : List Byte) : leNat (b :: bytes) = b.toNat + 2 ^ 8 * leNat bytes := rfl

/-- The number in `n + 1` bytes of a buffer from byte `i` on; bytes past the buffer's end count as 0. -/
theorem leNat_drop_take_succ (buf : List Byte) (i n : Nat) :
    leNat ((buf.drop i).take (n + 1)) = (buf.getD i 0#8).toNat + 2 ^ 8 * leNat ((buf.drop (i + 1)).take n) := by
  rcases Nat.lt_or_ge i buf.length with hi | hi
  · rw [List.drop_eq_getElem_cons hi, List.take_succ_cons, leNat_cons, List.getD_eq_getElem _ _ hi]
  · rw [List.drop_eq_nil_of_le hi, List.drop_eq_nil_of_le (Nat.le_succ_of_le hi), List.getD_eq_default _ _ hi]
    simp

/-- The number in one byte of a buffer. -/
theorem leNat_drop_take_one (buf : List Byte) (i : Nat) : leNat ((buf.drop i).take 1) = (buf.getD i 0#8).toNat := by
  simp [leNat_drop_take_succ]

/-! ## The parser -/

/-- The fields of a container whose header is taken as it stands (45_host.md R246). -/
def headerContainer (buf : List Byte) : Container where
  numTiles := leNat ((buf.drop 2).take 2)
  tileSizeIdx := leNat ((buf.drop 4).take 4) % 4
  lastTileSize := leNat ((buf.drop 4).take 4) / 4 % 2 ^ 18
  offsets := (List.range (leNat ((buf.drop 2).take 2))).map fun i => tileOffset buf i
  length := buf.length

/-- The tile count, from its two bytes. -/
theorem headerContainer_numTiles (buf : List Byte) :
    (headerContainer buf).numTiles = (buf.getD 2 0#8).toNat + 2 ^ 8 * (buf.getD 3 0#8).toNat := by
  rw [headerContainer, leNat_drop_take_succ, leNat_drop_take_one]

/-- A short header, a wrong Id or Magic, or a short offset table (60_exceptions.md R275). -/
def HeaderMalformed (buf : List Byte) : Prop :=
  buf.length < 8 ∨ buf.getD 0 0#8 ≠ 0x04#8 ∨ buf.getD 1 0#8 ≠ 0xFB#8 ∨ buf.length < 8 + 4 * (headerContainer buf).numTiles

/-- Magic is the complement of the Id, so the right Id has one right Magic (45_host.md R246). -/
theorem id_magic_iff (id magic : Byte) :
    (id.toNat ≠ 4 ∨ id.toNat ≠ magic.toNat ^^^ 0xFF) ↔ (id ≠ 0x04#8 ∨ magic ≠ 0xFB#8) := by
  have hid : id.toNat = 4 ↔ id = 0x04#8 := BitVec.toNat_inj (y := 0x04#8)
  have hmagic : 4 = magic.toNat ^^^ 0xFF ↔ magic = 0xFB#8 := by
    rw [← Nat.xor_left_inj (z := 0xFF), Nat.xor_xor_cancel_right]
    exact eq_comm.trans (BitVec.toNat_inj (y := 0xFB#8))
  by_cases h : id = 0x04#8
  · simp [h, hmagic]
  · simp [h, hid]

/-- The parser's check of a header. -/
theorem headerMalformed_iff (buf : List Byte) :
    (buf.length < 8 ∨ leNat (buf.take 1) ≠ 4 ∨ leNat (buf.take 1) ≠ leNat ((buf.drop 1).take 1) ^^^ 0xFF ∨
      buf.length < 8 + 4 * leNat ((buf.drop 2).take 2)) ↔ HeaderMalformed buf := by
  have hid : leNat (buf.take 1) = (buf.getD 0 0#8).toNat := leNat_drop_take_one buf 0
  rw [hid, leNat_drop_take_one, ← or_assoc (a := _ ≠ 4), id_magic_iff, or_assoc]
  rfl

/-- A malformed header is rejected. -/
theorem parseContainer_malformed {buf : List Byte} (h : HeaderMalformed buf) : parseContainer buf = none :=
  if_pos ((headerMalformed_iff buf).mpr h)

/-- Any other header is taken as it stands, unless its size is negative (45_host.md R247). -/
theorem parseContainer_wellFormed {buf : List Byte} (h : ¬ HeaderMalformed buf) :
    parseContainer buf = if (headerContainer buf).size < 0 then none else some (headerContainer buf) :=
  if_neg fun hbad => h ((headerMalformed_iff buf).mp hbad)

/-! ## A header written from its fields -/

/-- The header of `n` tiles with the two flag fields (45_host.md R246). -/
def headerBytes (n idx last : Nat) : List Byte :=
  [0x04#8, 0xFB#8, BitVec.ofNat 8 n, BitVec.ofNat 8 (n / 2 ^ 8), BitVec.ofNat 8 (idx + 4 * last),
    BitVec.ofNat 8 ((idx + 4 * last) / 2 ^ 8), BitVec.ofNat 8 ((idx + 4 * last) / 2 ^ 16), 0x00#8]

section
variable {n idx last : Nat} (tail : List Byte)

/-- The tile count is read back. -/
theorem leNat_headerBytes_numTiles (hn : n < 2 ^ 16) : leNat (((headerBytes n idx last ++ tail).drop 2).take 2) = n := by
  change leNat [BitVec.ofNat 8 n, BitVec.ofNat 8 (n / 2 ^ 8)] = n
  simp only [leNat_cons, leNat_nil, BitVec.toNat_ofNat]
  omega

/-- The flags are read back. -/
theorem leNat_headerBytes_flags (hflags : idx + 4 * last < 2 ^ 24) :
    leNat (((headerBytes n idx last ++ tail).drop 4).take 4) = idx + 4 * last := by
  change leNat [BitVec.ofNat 8 (idx + 4 * last), BitVec.ofNat 8 ((idx + 4 * last) / 2 ^ 8),
    BitVec.ofNat 8 ((idx + 4 * last) / 2 ^ 16), 0x00#8] = idx + 4 * last
  simp only [leNat_cons, leNat_nil, BitVec.toNat_ofNat]
  omega

variable (hn : n < 2 ^ 16)
include hn

/-- The written header's fields are read back. -/
theorem headerContainer_headerBytes (hidx : idx < 4) (hlast : last < 2 ^ 18) :
    headerContainer (headerBytes n idx last ++ tail) =
      { numTiles := n, tileSizeIdx := idx, lastTileSize := last
        offsets := (List.range n).map (tileOffset (headerBytes n idx last ++ tail))
        length := (headerBytes n idx last ++ tail).length } := by
  have hflags : idx + 4 * last < 2 ^ 24 := by omega
  have hlow : (idx + 4 * last) % 4 = idx := by omega
  have hhigh : (idx + 4 * last) / 4 % 2 ^ 18 = last := by omega
  rw [headerContainer, leNat_headerBytes_numTiles tail hn, leNat_headerBytes_flags tail hflags, hlow, hhigh]

/-- With its whole offset table the written header is well formed. -/
theorem not_headerMalformed_headerBytes (htail : 4 * n ≤ tail.length) : ¬ HeaderMalformed (headerBytes n idx last ++ tail) := by
  have hlength : (headerBytes n idx last ++ tail).length = 8 + tail.length := List.length_append
  have htiles : (headerContainer (headerBytes n idx last ++ tail)).numTiles = n := leNat_headerBytes_numTiles tail hn
  rintro (hshort | hid | hmagic | htable)
  · omega
  · exact hid rfl
  · exact hmagic rfl
  · omega

end

/-- Settles O50: the written header is well formed and its fields are read back; every rejected header is malformed. -/
theorem containerHeader : Obligations.ContainerHeader := by
  refine ⟨fun n idx last tail hn hidx hlast htail => ?written, fun buf hbad => ?rejected⟩
  case written =>
    have hparse := parseContainer_wellFormed (not_headerMalformed_headerBytes (idx := idx) (last := last) tail hn htail)
    rw [headerContainer_headerBytes tail hn hidx hlast] at hparse
    refine ⟨fun hsize => ?accepted, fun hsize => hparse.trans (if_pos hsize)⟩
    case accepted =>
      have hoffsets : ((List.range n).map (tileOffset (headerBytes n idx last ++ tail))).length = n := by
        rw [List.length_map, List.length_range]
      exact ⟨_, hparse.trans (if_neg (Int.not_lt.mpr hsize)), rfl, rfl, rfl, hoffsets, rfl, rfl⟩
  case rejected =>
    rw [← headerContainer_numTiles] at hbad
    exact parseContainer_malformed hbad

end Sys2Proof.Machine
end

section
/-! PROOFS. Errors (60_exceptions.md R260 to R265): an error code is latched exactly where an operation raises, with a detail the spec gives
it; and an element whose ADVANCE reads past the input keeps its own effects. -/

namespace Sys2Proof.Machine

/-! ## The latch -/

/-- The fields the error latch's invariant speaks of. -/
def State.latch (s : State) : EngineState × ErrCode × BitVec 4 := (s.state, s.errCode, s.errDetail)

/-- The latch of an engine that is not in ERROR. -/
def ErrorFree (s : State) : Prop := ErrorInv s ∧ s.state ≠ .error

theorem errorInv_of_latch {s t : State} (h : t.latch = s.latch) (hs : ErrorInv s) : ErrorInv t := by
  simp only [State.latch, Prod.mk.injEq] at h
  obtain ⟨hstate, hcode, hdetail⟩ := h
  simpa only [ErrorInv, hstate, hcode, hdetail] using hs

/-- Error entry latches a code with a detail of that code (60_exceptions.md R262, R263). -/
theorem errorEntry_errorInv {code : ErrCode} {detail : BitVec 4} (h : code ≠ .none ∧ (code, detail) ∈ errorPairs)
    (s : State) : ErrorInv (errorEntry code detail s) := ⟨iff_of_true rfl h.1, h.2⟩

/-- With code 0 and detail 0 the engine may be in any state but ERROR. -/
theorem errorInv_of_clear {s : State} (hstate : s.state ≠ .error) (hcode : s.errCode = .none) (hdetail : s.errDetail = 0#4) :
    ErrorInv s := by
  refine ⟨iff_of_false hstate (not_not_intro hcode), ?_⟩
  rw [hcode, hdetail]
  decide

namespace ErrorFree
variable {s t : State}

theorem of_latch (hs : ErrorFree s) (h : t.latch = s.latch) : ErrorFree t := by
  have hstate : t.state = s.state := congrArg Prod.fst h
  exact ⟨errorInv_of_latch h hs.1, hstate ▸ hs.2⟩

/-- The engine moves on, with nothing latched. -/
theorem of_state (hs : ErrorFree s) (hstate : t.state ≠ .error) (hcode : t.errCode = s.errCode) (hdetail : t.errDetail = s.errDetail) :
    ErrorFree t := by
  obtain ⟨⟨hlatch, hpair⟩, hfree⟩ := hs
  refine ⟨⟨iff_of_false hstate ?_, ?_⟩, hstate⟩
  · rw [hcode]
    exact fun h => hfree (hlatch.mpr h)
  · rwa [hcode, hdetail]

end ErrorFree

/-- A part of an operation that succeeds leaves nothing latched, and one that raises leaves its error latched (60_exceptions.md R263). -/
inductive Res.LatchesError {α : Type} : Res α → Prop where
  | ok (a : α) {t : State} (h : ErrorFree t) : LatchesError (.ok a t)
  | raised {t : State} (h : ErrorInv t) : LatchesError (.raised t)
  | fault (f : Fault) : LatchesError (.fault f)
  | refused (q : Refusal) : LatchesError (.refused q)

namespace Res.LatchesError
variable {α β : Type}

theorem raise {code : ErrCode} {detail : BitVec 4} (h : code ≠ .none ∧ (code, detail) ∈ errorPairs) (s : State) :
    (Machine.raise code detail s : Res α).LatchesError := .raised (errorEntry_errorInv h s)

theorem bind {r : Res α} {k : α → State → Res β} (hr : r.LatchesError) (hk : ∀ a u, ErrorFree u → (k a u).LatchesError) :
    (r.bind k).LatchesError := by
  cases hr with
  | ok a hu => exact hk a _ hu
  | raised hu => exact .raised hu
  | fault f => exact .fault f
  | refused q => exact .refused q

theorem outcome {r : Res α} {t : State} (hr : r.LatchesError) (h : r.outcome = .next t) : ErrorInv t := by
  cases hr with
  | ok a hu => cases h; exact hu.1
  | raised hu => cases h; exact hu
  | fault | refused => cases h

/-- An instruction raises where it ends in ERROR. -/
theorem ofOutcome {o : Host.Outcome State Fault Refusal} (h : ∀ t, o = .next t → ErrorInv t) : (Res.ofOutcome o).LatchesError := by
  cases o with
  | next t =>
    unfold Res.ofOutcome
    dsimp only
    split
    · exact .raised (h t rfl)
    · exact .ok () ⟨h t rfl, ‹_›⟩
  | fault f => exact .fault f
  | refused q => exact .refused q

end Res.LatchesError

/-! ## The host's part of a step -/

theorem hostMove_keeps_errorLatch {s t : State} (h : HostMove s t) (hs : ErrorInv s) : ErrorInv t := by
  cases h with
  | store addr v n => rw [storeBytes_frame]; exact hs
  | load addr n => rw [loadBytes_frame]; exact hs
  | writeConfigReg off v => rw [writeConfigReg_frame]; exact hs
  | readRegister | writeIrqEn => exact hs
  | startError => exact errorEntry_errorInv (by decide) _
  | acknowledge | start | reset => exact errorInv_of_clear EngineState.noConfusion rfl rfl

/-! ## Parts of the engine's operations -/

section
variable {s : State} (hs : ErrorFree s)
include hs

theorem refill_latchesError (c : Fin 32) : (refill c s).LatchesError := by
  rcases refill_cases c s with ⟨_, e⟩ | ⟨_, _, _, e⟩ | ⟨_, _, e⟩ <;> rw [e]
  · exact .ok () hs
  · exact .raise (by decide) s
  · exact .ok () (hs.of_latch (by rw [fetchWord_frame]; rfl))

theorem advance_latchesError : (advance s).LatchesError := by
  unfold advance
  split
  · exact (refill_latchesError hs s.cur).bind fun _ _ hu => .ok () (hu.of_latch rfl)
  · exact refill_latchesError (s := moveCursor s) hs _

theorem consume_latchesError (c : Fin 32) (n : Nat) : (consume c n s).LatchesError := by
  rcases consume_cases c n s with ⟨_, e⟩ | ⟨_, e⟩ <;> rw [e]
  · exact .raise (by decide) s
  · exact .ok () (hs.of_latch rfl)

theorem pop_latchesError (c : Fin 32) (n : Nat) : (pop c n s).LatchesError := 
  (consume_latchesError hs c n).bind fun _ _ hu => .ok _ hu

theorem headerRefill_latchesError (due : Bool) : (headerRefill due s).LatchesError := by
  cases due with
  | false => exact .ok () hs
  | true => exact refill_latchesError hs s.headerLane

theorem hpop_latchesError (due : Bool) (n : Nat) : (hpop due n s).LatchesError :=
  (headerRefill_latchesError hs due).bind fun _ u hu => pop_latchesError hu u.headerLane n

theorem lookup_latchesError (c : Code) (lane : Fin 32) : (lookup c lane s).LatchesError := by
  cases h : lookup c lane s with
  | ok e t => exact .ok e (hs.of_latch (by rw [(lookup_ok h).1]; rfl))
  | raised t => exact .raised (lookup_raised h ▸ errorEntry_errorInv (by decide) _)
  | fault f => exact .fault f
  | refused q => exact .refused q

theorem build_latchesError (c : Code) (lens : List Nat) : (build c lens s).LatchesError := by
  rcases build_cases c lens s with ⟨_, e⟩ | ⟨_, e⟩ | ⟨_, e⟩ <;> rw [e]
  · exact .raise (by cases c <;> decide) _
  · exact .raise (by cases c <;> decide) _
  · exact .ok () (hs.of_latch (by cases c <;> rfl))

/-! ## Elements -/

theorem decoded_latchesError (d : Except Reject Instr) : (decoded d s).LatchesError := by
  cases d with
  | ok i => exact .ok i hs
  | error r => exact .fault _

theorem fetchDcounts_latchesError : (fetchDcounts s).LatchesError :=
  (hpop_latchesError (s := { s with staticLoaded := false }) hs _ 5).bind fun h u hu =>
    (hpop_latchesError (s := { u with hlit := h + 257 }) hu _ 5).bind fun d v hv =>
      (hpop_latchesError (s := { v with hdist := d + 1 }) hv _ 4).bind fun _ _ hw => decoded_latchesError hw _

theorem fetchPresym_latchesError : (fetchPresym s).LatchesError := by
  refine (headerRefill_latchesError hs _).bind fun _ u hu => (lookup_latchesError hu .precode _).bind fun e v hv => ?_
  dsimp only
  split
  · exact decoded_latchesError hv _
  · exact (hpop_latchesError hv _ _).bind fun _ _ hw => decoded_latchesError hw _

theorem fetchLitlen_latchesError (c : Fin 32) : (fetchLitlen c s).LatchesError := by
  refine (lookup_latchesError hs .litlen c).bind fun e u hu => ?_
  split
  · exact decoded_latchesError hu _
  · split
    · exact .fault _
    · exact (pop_latchesError hu c _).bind fun _ _ hv => decoded_latchesError hv _

theorem fetchOffset_latchesError (c : Fin 32) : (fetchOffset c s).LatchesError := by
  refine (lookup_latchesError hs .offset c).bind fun e u hu => ?_
  split
  · exact .fault _
  · exact (pop_latchesError hu c _).bind fun _ _ hv => decoded_latchesError hv _

theorem fetch_latchesError (f : Format) : (fetch f s).LatchesError := by
  cases f with
  | ctrl => exact .fault _
  | bhdr => exact (hpop_latchesError hs _ 3).bind fun _ _ hu => decoded_latchesError hu _
  | dcounts => exact fetchDcounts_latchesError hs
  | prelen => exact (hpop_latchesError hs _ 3).bind fun _ _ hu => decoded_latchesError hu _
  | presym => exact fetchPresym_latchesError hs
  | llsym => exact fetchLitlen_latchesError hs s.cur
  | offsym => exact fetchOffset_latchesError hs s.cur

theorem literal_latchesError (b : Byte) : (literal b s).LatchesError := by
  unfold literal
  split
  · exact .raise (by decide) s
  · exact advance_latchesError (hs.of_latch (by rw [outWrite_frame]; rfl))

theorem matchRecord_latchesError (len : Nat) : (matchRecord len s).LatchesError := by
  unfold matchRecord
  split
  · exact .raise (by decide) s
  · exact advance_latchesError (hs.of_latch rfl)

theorem endOfBlock_latchesError : (endOfBlock s).LatchesError := by
  have hdrain : ErrorFree { emit (.eob s.cur) s with state := .drain } := hs.of_state EngineState.noConfusion rfl rfl
  unfold endOfBlock
  dsimp only
  split
  · exact advance_latchesError hdrain
  · exact .ok () hdrain

theorem matchCopy_latchesError (dist : Nat) : (matchCopy dist s).LatchesError := by
  rcases Nat.lt_or_ge (s.lane s.cur).pdst dist with hfar | hnear
  · rw [matchCopy_tooFar hfar]
    exact .raise (by decide) s
  · rw [matchCopy_inTile hnear]
    exact advance_latchesError (hs.of_latch (by rw [copied_frame]; rfl))

/-- Every instruction: a CTRL command by what the host can do, an element by its effect. -/
theorem exec_errorInv {i : Instr} {t : State} (h : exec i s = .next t) : ErrorInv t := by
  have he := exec_effect i s
  rw [h] at he
  generalize ho : Host.Outcome.next t = o at he
  cases he with
  | ctrlStart irqEn => exact hostMove_keeps_errorLatch (execCtrlStart_hostMove ho.symm) hs.1
  | ctrlAck irqEn => exact hostMove_keeps_errorLatch (execCtrlAck_hostMove ho.symm) hs.1
  | ctrlIrqEn irqEn => cases ho; exact hs.1
  | bhdrStored final | bhdrReserved final => cases ho; exact errorEntry_errorInv (by decide) _
  | bhdrStatic final | bhdrDynamic final => cases ho; exact And.left (hs.of_state EngineState.noConfusion rfl rfl)
  | dcounts hlit hdist hclen => cases ho; exact hs.1
  | prelen len => cases ho; rw [putPrecodeLen_frame]; exact hs.1
  | lengths v n => cases ho; exact hs.1
  | repeatLength extra =>
    unfold execPresymRep16 at ho
    split at ho <;> cases ho
    · exact errorEntry_errorInv (by decide) s
    · exact hs.1
  | literal b => exact (literal_latchesError hs b).outcome ho.symm
  | endOfBlock => exact (endOfBlock_latchesError hs).outcome ho.symm
  | matchRecord len => exact (matchRecord_latchesError hs len).outcome ho.symm
  | matchCopy dist => exact (matchCopy_latchesError hs dist).outcome ho.symm

theorem runElement_latchesError (f : Format) : (runElement f s).LatchesError :=
  (fetch_latchesError hs f).bind fun _ _ hu => .ofOutcome fun _ => exec_errorInv hu

/-! ## The engine's operations -/

theorem enterDecode_latchesError : (enterDecode s).LatchesError :=
  (headerRefill_latchesError hs _).bind fun _ _ hu => .ok () (hu.of_state EngineState.noConfusion rfl rfl)

theorem opDynBuild_latchesError : (opDynBuild s).LatchesError :=
  (build_latchesError hs .offset _).bind fun _ _ hu => (build_latchesError hu .litlen _).bind fun _ _ hv => enterDecode_latchesError hv

theorem opStaticTables_latchesError : (opStaticTables s).LatchesError := by
  have hinstall : (installStatic s).LatchesError :=
    (build_latchesError hs .offset _).bind fun _ _ hu => (build_latchesError hu .litlen _).bind fun _ _ hv =>
      .ok () (hv.of_latch rfl)
  unfold opStaticTables
  split
  · exact enterDecode_latchesError hs
  · exact hinstall.bind fun _ _ hu => enterDecode_latchesError hu

theorem blockDone_latchesError : (blockDone s).LatchesError := by
  unfold blockDone finish
  split
  · split
    · exact .raise (by decide) s
    · exact .ok () (hs.of_state EngineState.noConfusion rfl rfl)
  · exact .ok () (hs.of_state EngineState.noConfusion rfl rfl)

theorem drainStep_latchesError : (drainStep s).LatchesError := by
  unfold drainStep
  split
  · exact runElement_latchesError hs .offsym
  · exact advance_latchesError hs

end

theorem advances_latchesError {n : Nat} {s : State} (hs : ErrorFree s) : (advances n s).LatchesError := by
  induction n generalizing s with
  | zero => exact .ok () hs
  | succ n ih => exact (advance_latchesError hs).bind fun _ _ => ih

theorem opPrelens_latchesError {n : Nat} {s : State} (hs : ErrorFree s) : (opPrelens n s).LatchesError := by
  induction n generalizing s with
  | zero => exact .ok () hs
  | succ n ih =>
    refine (runElement_latchesError hs .prelen).bind fun _ u hu => ?_
    split
    · exact ih hu
    · exact .ok () hu

theorem drainSteps_latchesError {n : Nat} {s : State} (hs : ErrorFree s) : (drainSteps n s).LatchesError := by
  induction n generalizing s with
  | zero => exact .ok () hs
  | succ n ih => exact (drainStep_latchesError hs).bind fun _ _ => ih

/-- Every operation of an engine with nothing latched (42_block_control.md R170). -/
theorem operation_latchesError {s : State} (hs : ErrorFree s) : (operation s).LatchesError := by
  unfold operation
  cases s.state with
  | idle | done | error => exact .ok () hs
  | prime => exact (advances_latchesError hs).bind fun _ _ hu => .ok () (hu.of_state EngineState.noConfusion rfl rfl)
  | header => exact runElement_latchesError hs .bhdr
  | dynTables =>
    cases s.phase with
    | counts => exact runElement_latchesError hs .dcounts
    | prelens => exact opPrelens_latchesError hs
    | prebuild => exact (build_latchesError hs .precode _).bind fun _ _ hu => .ok () (hu.of_latch rfl)
    | lens => exact runElement_latchesError hs .presym
    | build => exact opDynBuild_latchesError hs
  | staticTables => exact opStaticTables_latchesError hs
  | decode =>
    dsimp only
    split
    · exact runElement_latchesError hs .offsym
    · exact runElement_latchesError hs .llsym
  | drain => exact (drainSteps_latchesError (s := drainStart s) hs).bind fun _ _ hu => blockDone_latchesError hu

/-- The engine's turn: in ERROR it waits (60_exceptions.md R264), and else what it raises is latched. -/
theorem engineStep_keeps_errorLatch {s t : State} (h : engineStep s = .next t) (hs : ErrorInv s) : ErrorInv t := by
  by_cases herror : s.state = .error
  · rw [engineStep, operation, herror] at h
    cases h
    exact hs
  · exact (operation_latchesError ⟨hs, herror⟩).outcome h

/-- Settles O54: only error entry, with a code of the spec's table, leaves an operation in ERROR, and only START, ACK and reset leave
ERROR, each with the code cleared. -/
theorem stepKeepsErrorLatch : Obligations.StepKeepsErrorLatch := by
  intro s t
  exact step_keeps (fun _ _ hs => hs) (fun _ _ => engineStep_keeps_errorLatch) fun _ _ => hostMove_keeps_errorLatch

/-! ## Elements whose ADVANCE reads past the input -/

/-- Settles O32: each element's effect leaves what ADVANCE needs as it was, and `advance_overread` changes nothing but the latch and the
cursor. -/
theorem overreadKeepsEffects : Obligations.OverreadKeepsEffects := by
  refine ⟨fun s b hfits hover hmem => ?literal, fun s i hover =>
    ⟨fun len hlen hfits => ?record, fun dist hdist hnear hmem => ?copy⟩⟩
  case literal =>
    have hadv := advance_overread (mt (putLiteral_canAdvance b s).mp hover)
    refine ⟨_, (outWrite s.outPos b s).mem, congrArg Res.outcome ((literal_fits hfits b).trans hadv), ?_, outWrite_same hmem,
      fun _ => outWrite_other hmem⟩
    rw [outWrite_frame]
    rfl
  case record =>
    rw [exec_matchLength hlen, matchRecord_fits hfits, advance_overread (mt (recordMatch_canAdvance s.cur len s).mp hover)]
    rfl
  case copy =>
    intro dst len
    have hadv := advance_overread (mt (copied_canAdvance dist s).mp hover)
    obtain ⟨writes, htrace, hlen, -⟩ := copyBytes_trace dst dist len 0 s
    have htrace : (copied dist s).trace = .copy s.cur dst dist len :: (writes ++ s.trace) := congrArg _ htrace
    have hexec := (exec_distanceOf hdist s).trans (congrArg Res.outcome ((matchCopy_inTile hnear).trans hadv))
    refine ⟨_, (copied dist s).mem, writes, (copied dist s).draws, hexec, ?_, hlen, fun a ha => ?_, fun hfit hrace => ?_⟩
    · rw [copied_frame, htrace]
      rfl
    · exact copyBytes_other hmem fun k hk => by rw [Nat.zero_add]; exact ha k hk
    · exact copyBytes_data (j := 0) hmem (distanceOf_pos hdist) hnear hfit hrace

end Sys2Proof.Machine
end

section
/-! PROOFS. The static tables (70_reset_and_hazards.md R299; 60_exceptions.md R274; 20_memory.md R77): only the static install sets the
flag, a dynamic header clears it before anything is built, and no other operation writes the litlen or the offset table. And hardware
reset (70_reset_and_hazards.md R290, R293). -/

namespace Sys2Proof.Machine

/-! ## The invariant after an update -/

/-- With the flag clear nothing is asked of the tables. -/
theorem staticInv_of_clear {s : State} (h : s.staticLoaded = false) : StaticInv s :=
  ⟨fun hset => Bool.noConfusion (h.symm.trans hset), fun _ _ => h⟩

/-- What the invariant says of the tables: the parameters they were built under, the flag, the litlen and the offset table. -/
def State.staticCache (s : State) : Config × Bool × Table × Table := (s.cfg, s.staticLoaded, s.lt, s.ot)

/-- With the tables and the flag left alone, only an update that goes past a dynamic header's counts could break the invariant. -/
theorem StaticInv.of_cache {s t : State} (hs : StaticInv s) (hcache : t.staticCache = s.staticCache)
    (hpast : t.state = .dynTables → t.phase ≠ .counts → s.state = .dynTables ∧ s.phase ≠ .counts) : StaticInv t := by
  simp only [State.staticCache, Prod.mk.injEq] at hcache
  obtain ⟨hcfg, hflag, hlt, hot⟩ := hcache
  obtain ⟨htables, hclear⟩ := hs
  refine ⟨?_, fun hstate hphase => hflag.trans ((hpast hstate hphase).elim hclear)⟩
  rw [hcfg, hflag, hlt, hot]
  exact htables

/-- Outside DYN_TABLES the flag may be set. -/
theorem StaticInv.of_state {s t : State} (hs : StaticInv s) (hcache : t.staticCache = s.staticCache) (hstate : t.state ≠ .dynTables) :
    StaticInv t :=
  hs.of_cache hcache fun h => absurd h hstate

/-- An error leaves the tables and the flag as they were (60_exceptions.md R263, R274). -/
theorem StaticInv.errorEntry {s : State} (hs : StaticInv s) (code : ErrCode) (detail : BitVec 4) :
    StaticInv (Machine.errorEntry code detail s) :=
  hs.of_state rfl EngineState.noConfusion

/-- The static install leaves the tables its flag vouches for (42_block_control.md R186, R187). -/
theorem staticBuilt_staticInv (sorted : List (BitVec 9)) {s : State} (h : s.state = .staticTables) :
    StaticInv (staticBuilt sorted s) := by
  unfold StaticInv staticBuilt
  generalize staticOffsetLens = offset, staticLitlenLens = litlen
  exact ⟨fun _ => ⟨⟨s.lt, rfl⟩, ⟨s.ot, rfl⟩⟩, fun hdyn => EngineState.noConfusion (h.symm.trans hdyn)⟩

/-- A part that keeps `P`, which implies `Q`, and then parts that keep `Q` where `P` holds of what the first one gave. -/
theorem Res.Keeps.bindOf {α β : Type} {P Q : State → Prop} {r : Res α} {k : α → State → Res β} (hr : r.Keeps P)
    (hPQ : ∀ u, P u → Q u) (hk : ∀ a u, r = .ok a u → P u → (k a u).Keeps Q) : (r.bind k).Keeps Q :=
  Res.bind_keeps (hr.imp hPQ).1 (hr.imp hPQ).2 fun a u e _ => hk a u e (hr.1 a u e)

/-- Two things a part keeps. -/
theorem Res.Keeps.and {α : Type} {P Q : State → Prop} {r : Res α} (hP : r.Keeps P) (hQ : r.Keeps Q) : r.Keeps fun u => P u ∧ Q u :=
  ⟨fun a u e => ⟨hP.1 a u e, hQ.1 a u e⟩, fun u e => ⟨hP.2 u e, hQ.2 u e⟩⟩

/-! ## The host's part of a step -/

/-- START and ACK leave the tables and the flag as they were; reset clears the flag (70_reset_and_hazards.md R290, R299). -/
theorem hostMove_keeps_static {s t : State} (h : HostMove s t) (hs : StaticInv s) : StaticInv t := by
  cases h with
  | store addr v n => rw [storeBytes_frame]; exact hs
  | load addr n => rw [loadBytes_frame]; exact hs
  | writeConfigReg off v => rw [writeConfigReg_frame]; exact hs
  | readRegister | writeIrqEn => exact hs
  | acknowledge | start | startError => exact hs.of_state rfl EngineState.noConfusion
  | reset => exact staticInv_of_clear rfl

/-! ## Parts of the engine's operations -/

section
variable {s : State} (hs : StaticInv s)
include hs

theorem raise_keepsStatic {α : Type} (code : ErrCode) (detail : BitVec 4) : (raise code detail s : Res α).Keeps StaticInv :=
  Res.keeps_raised.mpr (hs.errorEntry code detail)

theorem refill_keepsStatic (c : Fin 32) : (refill c s).Keeps StaticInv :=
  ⟨fun _ _ h => by rw [(refill_ok h).1]; exact hs, fun _ h => by rw [refill_raised h]; exact hs.errorEntry _ _⟩

theorem advance_keepsStatic : (advance s).Keeps StaticInv :=
  ⟨fun _ _ h => by rw [(advance_ok h).2]; exact hs, fun t h => by
    rw [(advance_raised h).1]
    exact StaticInv.errorEntry (s := { s with cur := t.cur }) hs _ _⟩

theorem pop_keepsStatic (c : Fin 32) (n : Nat) : (pop c n s).Keeps StaticInv :=
  Res.Keeps.bind ⟨fun _ _ h => by rw [(consume_ok h).2]; exact hs, fun _ h => by rw [consume_raised h]; exact hs.errorEntry _ _⟩
    fun _ _ hu => Res.keeps_ok.mpr hu

theorem headerRefill_keepsStatic (due : Bool) : (headerRefill due s).Keeps StaticInv := by
  cases due with
  | false => exact Res.keeps_ok.mpr hs
  | true => exact refill_keepsStatic hs s.headerLane

theorem hpop_keepsStatic (due : Bool) (n : Nat) : (hpop due n s).Keeps StaticInv :=
  (headerRefill_keepsStatic hs due).bind fun _ u hu => pop_keepsStatic hu u.headerLane n

theorem lookup_keepsStatic (c : Code) (lane : Fin 32) : (lookup c lane s).Keeps StaticInv :=
  ⟨fun _ _ h => by rw [(lookup_ok h).1]; exact hs, fun t h => by
    rw [lookup_raised h]
    exact StaticInv.errorEntry (s := { s with lanes := t.lanes }) hs _ _⟩

/-- PREBUILD writes the precode's table alone (42_block_control.md R178). -/
theorem build_precode_keepsStatic (lens : List Nat) : (build .precode lens s).Keeps StaticInv := by
  have hsort : StaticInv (sortScratch lens Code.precode.maxLen s) := hs
  rcases build_cases .precode lens s with ⟨_, e⟩ | ⟨_, e⟩ | ⟨_, e⟩ <;> rw [e]
  · exact Res.keeps_raised.mpr (hsort.errorEntry _ _)
  · exact Res.keeps_raised.mpr (hsort.errorEntry _ _)
  · exact Res.keeps_ok.mpr hs

/-! ## Fetches -/

theorem decoded_keepsStatic (d : Except Reject Instr) : (decoded d s).Keeps StaticInv := by
  cases d with
  | ok i => exact Res.keeps_ok.mpr hs
  | error r => exact Res.keeps_fault

theorem fetchPresym_keepsStatic : (fetchPresym s).Keeps StaticInv := by
  refine (headerRefill_keepsStatic hs _).bind fun _ u hu => (lookup_keepsStatic hu .precode _).bind fun e v hv => ?_
  dsimp only
  split
  · exact decoded_keepsStatic hv _
  · exact (hpop_keepsStatic hv _ _).bind fun _ _ hw => decoded_keepsStatic hw _

theorem fetchLitlen_keepsStatic (c : Fin 32) : (fetchLitlen c s).Keeps StaticInv := by
  refine (lookup_keepsStatic hs .litlen c).bind fun e u hu => ?_
  split
  · exact decoded_keepsStatic hu _
  · split
    · exact Res.keeps_fault
    · exact (pop_keepsStatic hu c _).bind fun _ _ hv => decoded_keepsStatic hv _

theorem fetchOffset_keepsStatic (c : Fin 32) : (fetchOffset c s).Keeps StaticInv := by
  refine (lookup_keepsStatic hs .offset c).bind fun e u hu => ?_
  split
  · exact Res.keeps_fault
  · exact (pop_keepsStatic hu c _).bind fun _ _ hv => decoded_keepsStatic hv _

omit hs in
/-- DCOUNTS clears the flag before it reads a bit (42_block_control.md R176). -/
theorem fetchDcounts_keepsStatic : (fetchDcounts s).Keeps StaticInv :=
  (hpop_keepsStatic (s := { s with staticLoaded := false }) (staticInv_of_clear rfl) _ 5).bind fun h u hu =>
    (hpop_keepsStatic (s := { u with hlit := h + 257 }) hu _ 5).bind fun d v hv =>
      (hpop_keepsStatic (s := { v with hdist := d + 1 }) hv _ 4).bind fun _ _ hw => decoded_keepsStatic hw _

theorem fetch_keepsStatic (f : Format) : (fetch f s).Keeps StaticInv := by
  cases f with
  | ctrl => exact Res.keeps_fault
  | bhdr | prelen => exact (hpop_keepsStatic hs _ 3).bind fun _ _ hu => decoded_keepsStatic hu _
  | dcounts => exact fetchDcounts_keepsStatic
  | presym => exact fetchPresym_keepsStatic hs
  | llsym => exact fetchLitlen_keepsStatic hs s.cur
  | offsym => exact fetchOffset_keepsStatic hs s.cur

/-! ## Elements -/

theorem literal_keepsStatic (b : Byte) : (literal b s).Keeps StaticInv := by
  unfold literal
  split
  · exact raise_keepsStatic hs _ _
  · exact advance_keepsStatic (by rw [outWrite_frame]; exact hs)

theorem matchRecord_keepsStatic (len : Nat) : (matchRecord len s).Keeps StaticInv := by
  unfold matchRecord
  split
  · exact raise_keepsStatic hs _ _
  · exact advance_keepsStatic (s := recordMatch s.cur len s) hs

theorem endOfBlock_keepsStatic : (endOfBlock s).Keeps StaticInv := by
  have hdrain : StaticInv { emit (.eob s.cur) s with state := .drain } := hs.of_state rfl EngineState.noConfusion
  unfold endOfBlock
  dsimp only
  split
  · exact advance_keepsStatic hdrain
  · exact Res.keeps_ok.mpr hdrain

theorem matchCopy_keepsStatic (dist : Nat) : (matchCopy dist s).Keeps StaticInv := by
  rcases Nat.lt_or_ge (s.lane s.cur).pdst dist with hfar | hnear
  · rw [matchCopy_tooFar hfar]
    exact raise_keepsStatic hs _ _
  · rw [matchCopy_inTile hnear]
    exact advance_keepsStatic (by rw [copied_frame]; exact hs)

/-- A header's lengths are read past its counts, where the flag is clear already. -/
theorem exec_lengths_keepsStatic {i : Instr} {t : State} (hi : i.format = .prelen ∨ i.format = .presym) (hphase : s.phase ≠ .counts)
    (h : exec i s = .next t) : StaticInv t := by
  rcases hi with hi | hi
  · cases i <;> cases hi
    cases h
    exact hs.of_cache (by rw [putPrecodeLen_frame]; rfl) fun hstate _ => ⟨by rwa [putPrecodeLen_frame] at hstate, hphase⟩
  · rcases exec_presym hi s with ⟨v, n, _, e⟩ | e <;> cases e.symm.trans h
    · exact hs.of_cache rfl fun hstate _ => ⟨hstate, hphase⟩
    · exact hs.errorEntry _ _

theorem exec_bhdr_keepsStatic {i : Instr} {t : State} (hi : i.format = .bhdr) (h : exec i s = .next t) : StaticInv t := by
  cases i <;> cases hi <;> cases h
  case bhdrDynamic final => exact hs.of_cache rfl fun _ hp => absurd rfl hp
  all_goals exact hs.of_state rfl EngineState.noConfusion

theorem exec_llsym_keepsStatic {i : Instr} {t : State} (hi : i.format = .llsym) (h : exec i s = .next t) : StaticInv t := by
  cases i <;> cases hi
  case llLiteral b => exact (literal_keepsStatic hs b).outcome h
  case llEob => exact (endOfBlock_keepsStatic hs).outcome h
  all_goals exact (matchRecord_keepsStatic hs _).outcome h

theorem exec_keepsStatic {f : Format} {i : Instr} {t : State} (hi : i.format = f) (hf : f ≠ .ctrl) (hphase : f.InPhase s.phase)
    (h : exec i s = .next t) : StaticInv t := by
  cases f with
  | ctrl => exact absurd rfl hf
  | bhdr => exact exec_bhdr_keepsStatic hs hi h
  | dcounts =>
    cases i <;> cases hi
    cases h
    exact staticInv_of_clear rfl
  | prelen => exact exec_lengths_keepsStatic hs (.inl hi) (ne_of_eq_of_ne hphase (by decide)) h
  | presym => exact exec_lengths_keepsStatic hs (.inr hi) (ne_of_eq_of_ne hphase (by decide)) h
  | llsym => exact exec_llsym_keepsStatic hs hi h
  | offsym =>
    obtain ⟨dist, e⟩ := exec_offsym hi s
    exact (matchCopy_keepsStatic hs dist).outcome (e ▸ h)

theorem runElement_keepsStatic {f : Format} (hphase : f.InPhase s.phase) : (runElement f s).Keeps StaticInv :=
  ((fetch_keepsStatic hs f).and (fetch_stays hphase)).bindOf (fun _ => And.left) fun _ _ e ⟨hu, hstays⟩ => .ofOutcome fun _ =>
    exec_keepsStatic hu (fetch_reads e).format (by rintro rfl; cases e) (hstays.phase ▸ hphase)

/-! ## The engine's operations -/

theorem enterDecode_keepsStatic : (enterDecode s).Keeps StaticInv :=
  (headerRefill_keepsStatic hs _).bind fun _ _ hu => Res.keeps_ok.mpr (hu.of_state rfl EngineState.noConfusion)

/-- STATIC_TABLES goes on with the tables the flag vouches for, or builds them and sets it (42_block_control.md R186, R187). -/
theorem opStaticTables_keepsStatic (hstate : s.state = .staticTables) : (opStaticTables s).Keeps StaticInv := by
  unfold opStaticTables
  split
  · exact enterDecode_keepsStatic hs
  · obtain ⟨sorted, hinstall⟩ := installStatic_ok s
    rw [hinstall, Res.bind_ok]
    exact enterDecode_keepsStatic (staticBuilt_staticInv sorted hstate)

theorem blockDone_keepsStatic : (blockDone s).Keeps StaticInv := by
  unfold blockDone finish
  split
  · split
    · exact raise_keepsStatic hs _ _
    · exact Res.keeps_ok.mpr (hs.of_state rfl EngineState.noConfusion)
  · exact Res.keeps_ok.mpr (hs.of_state rfl EngineState.noConfusion)

theorem drainStep_keepsStatic : (drainStep s).Keeps StaticInv := by
  unfold drainStep
  split
  · exact runElement_keepsStatic hs trivial
  · exact advance_keepsStatic hs

end

theorem build_keepsClear {s : State} (h : s.staticLoaded = false) (c : Code) (lens : List Nat) :
    (build c lens s).Keeps fun t => t.staticLoaded = false := by
  rcases build_cases c lens s with ⟨_, e⟩ | ⟨_, e⟩ | ⟨_, e⟩ <;> rw [e]
  · exact Res.keeps_raised.mpr h
  · exact Res.keeps_raised.mpr h
  · exact Res.keeps_ok.mpr ((setTable_staticLoaded c _ _).trans h)

/-- DYN_BUILD overwrites both tables, or one of them and then raises, with the flag clear (42_block_control.md R185; 60_exceptions.md
R274). -/
theorem opDynBuild_keepsStatic {s : State} (h : s.staticLoaded = false) : (opDynBuild s).Keeps StaticInv :=
  (build_keepsClear h .offset _).bindOf (fun _ => staticInv_of_clear) fun _ _ _ hu =>
    (build_keepsClear hu .litlen _).bindOf (fun _ => staticInv_of_clear) fun _ _ _ hv => enterDecode_keepsStatic (staticInv_of_clear hv)

theorem advances_keepsStatic {n : Nat} {s : State} (hs : StaticInv s) : (advances n s).Keeps StaticInv := by
  induction n generalizing s with
  | zero => exact Res.keeps_ok.mpr hs
  | succ n ih => exact (advance_keepsStatic hs).bind fun _ _ => ih

theorem opPrelens_keepsStatic {n : Nat} {s : State} (hs : StaticInv s) (hphase : s.phase = .prelens) : (opPrelens n s).Keeps StaticInv := by
  induction n generalizing s with
  | zero => exact Res.keeps_ok.mpr hs
  | succ n ih =>
    refine (runElement_keepsStatic hs (f := .prelen) hphase).bind fun _ u hu => ?_
    split
    · exact ih hu ‹_›
    · exact Res.keeps_ok.mpr hu

theorem opPrebuild_keepsStatic {s : State} (hs : StaticInv s) (hphase : s.phase = .prebuild) : (opPrebuild s).Keeps StaticInv :=
  ((build_precode_keepsStatic hs _).and (build_stays .precode _ s)).bindOf (fun _ => And.left) fun _ _ _ ⟨hu, hstays⟩ =>
    Res.keeps_ok.mpr (hu.of_cache rfl fun hstate _ => ⟨hstate, ne_of_eq_of_ne (hstays.phase.trans hphase) (by decide)⟩)

theorem drainSteps_keepsStatic {n : Nat} {s : State} (hs : StaticInv s) : (drainSteps n s).Keeps StaticInv := by
  induction n generalizing s with
  | zero => exact Res.keeps_ok.mpr hs
  | succ n ih => exact (drainStep_keepsStatic hs).bind fun _ _ => ih

/-- Every operation of the engine (42_block_control.md R170). -/
theorem operation_keepsStatic {s : State} (hs : StaticInv s) : (operation s).Keeps StaticInv := by
  unfold operation
  cases hstate : s.state with
  | idle | done | error => exact Res.keeps_ok.mpr hs
  | prime =>
    exact (advances_keepsStatic hs).bind fun _ _ hu => Res.keeps_ok.mpr (hu.of_state rfl EngineState.noConfusion)
  | header => exact runElement_keepsStatic hs (f := .bhdr) trivial
  | dynTables =>
    cases hphase : s.phase with
    | counts => exact runElement_keepsStatic hs (f := .dcounts) hphase
    | prelens => exact opPrelens_keepsStatic hs hphase
    | prebuild => exact opPrebuild_keepsStatic hs hphase
    | lens => exact runElement_keepsStatic hs (f := .presym) hphase
    | build => exact opDynBuild_keepsStatic (hs.2 hstate (ne_of_eq_of_ne hphase (by decide)))
  | staticTables => exact opStaticTables_keepsStatic hs hstate
  | decode =>
    dsimp only
    split
    · exact runElement_keepsStatic hs (f := .offsym) trivial
    · exact runElement_keepsStatic hs (f := .llsym) trivial
  | drain => exact (drainSteps_keepsStatic (s := drainStart s) hs).bind fun _ _ => blockDone_keepsStatic

/-- Settles O59: the install sets the flag with both tables built, DCOUNTS clears it before DYN_BUILD writes them, and no other operation
writes them. -/
theorem stepKeepsStaticCache : Obligations.StepKeepsStaticCache := by
  intro s t
  exact step_keeps (fun _ _ hs => hs) (fun _ _ h hs => (operation_keepsStatic hs).outcome h) fun _ _ => hostMove_keeps_static

/-! ## Hardware reset -/

/-- After hardware reset no table entry holds a value (10_state.md R36). -/
theorem hardReset_tables (s : State) (c : Code) : ∀ e ∈ (hardReset s).table c, e = none := by
  cases c <;> exact fun _ h => List.eq_of_mem_replicate h

/-- Hardware reset leaves STATUS as it is right after reset (10_state.md R52). -/
theorem hardReset_statusReg (s : State) : (hardReset s).statusReg = 0#32 := by
  have hreset : (hardReset s).statusReg = State.reset.statusReg := rfl
  rw [hreset]
  decide

/-- Settles O46: the values `hardReset` gives, the tables' by `hardReset_tables`. -/
theorem hardResetStep : Obligations.HardResetStep := by
  intro s rest hin
  exact ⟨hardReset { s with inputs := rest }, step_input hin, rfl, rfl, rfl, rfl, rfl, hardReset_statusReg _, rfl, rfl, rfl,
    rfl, rfl, rfl, rfl, rfl, rfl, rfl, rfl, rfl, rfl, rfl, rfl, hardReset_tables _ .precode, hardReset_tables _ .litlen,
    hardReset_tables _ .offset⟩

end Sys2Proof.Machine
end
